-- ==== Sys2Proof/Word.lean ====
section
/-! DEFINITION. The widths and index types of the SBH-8 (spec/00_scope.md, Conventions, Counting). -/

namespace Sys2Proof

/-- Eight bits, as frames and host memory carry them. -/
abbrev Byte := BitVec 8

/-- A 32-bit word: a register word, an argument, a value. -/
abbrev Word := BitVec 32

/-- A tag 0 to 15, equal to the exchange slot's index (R1). -/
abbrev Tag := Fin 16

/-- A station slot. Index `i` stands for slot `i + 1` of slots 1 to 8 (R45). -/
abbrev StationId := Fin 8

/-- A submission or completion ring, 0 to 3. -/
abbrev RingId := Fin 4

/-- A staging slot, 0 to 3 (R85). -/
abbrev StageId := Fin 4

/-- An interrupt vector: 0 to 3 the completion rings, 4 the device vector (R164). -/
abbrev VectorId := Fin 5

/-- What the part reads of CL after a POLL frame (R36, R37): whether the turnaround period was low, and the eight slots; bit `i`
of `slots` is set when POLL slot `i + 1` read low. -/
structure PollLevels where
  turnaround : Bool
  slots : BitVec 8
deriving DecidableEq, Repr

end Sys2Proof
end

