-- ==== Sys2Proof/Syntax.lean ====
section
/-! DEFINITION. The commands of the block: one constructor per row of spec/opcode_table.json, with the
operands the spec gives the event. Bytes come raw, as the wire or host memory holds them:
* a frame is one number whose most significant byte is byte 0 of the frame (R177: sent most significant first);
* a host structure is one number whose least significant byte is its byte 0 (12: little-endian).
`access` is the number of the host access a report is about (log 7). -/

namespace Sys2Proof

/-- A command: one event that reaches the block (95). -/
inductive Instr where
  -- resets and host commands
  | powerOn
  | hostLinkResetInput
  | endpointFunctionReset
  | enable
  | disable
  | linkReset
  | functionReset
  /-- A write to COMMAND of a code that names no command. -/
  | undefinedCommand (code : Word)
  /-- A host write of `bytes` bytes from `offset` of the register window on. -/
  | registerWrite (offset bytes : Nat) (value : Word)
  /-- A host write to the post word: index in bits 15-0, ring in bits 17-16. -/
  | post (value : Word)
  /-- A host write to the release word: new head in bits 15-0, ring in bits 17-16. -/
  | release (value : Word)
  -- loading and draining
  | configReadComplete (access : Nat) (data : BitVec 512)
  | configReadFault (access : Nat)
  | drainComplete
  -- submission rings
  | fetchStart (ring : RingId)
  | fetchComplete (access : Nat) (data : BitVec 512)
  | fetchFault (access : Nat)
  | admission
  -- command lane
  | chooseRequest
  | resendRequest
  | frameSent
  | collision
  | replyReceived (frame : BitVec 80)
  | profileReceived (frame : BitVec 144)
  | replyWindowExpired
  | pollResult (levels : PollLevels)
  | guardGapEnd
  | attention
  | clReturnHigh
  | laneStuck
  | linkResetEnd
  | pollTimerExpiry
  -- stations
  | presenceChange (slot : StationId) (present : Bool)
  | presenceStable (slot : StationId)
  | settleTimerExpiry (slot : StationId)
  | saturationTimerExpiry (slot : StationId)
  -- notices
  | deferralTimerExpiry (tag : Tag)
  -- payload engine
  | nextGrant
  | repeatGrant
  /-- What came on each of PL0 to PL3, lanes not in use with nothing, and the check code on PL0. -/
  | readBlockReceived (lanes : List (List Byte)) (check : Word)
  | dataTimeout
  | writeBlockBegin
  | writeBlockEnd
  | tokenTaken (station tag : BitVec 4)
  | tokenCheckFail (station tag : BitVec 4)
  | tokenFault (station tag : BitVec 4)
  | tokenHold (station tag : BitVec 4)
  | tokenRelease (station tag : BitVec 4)
  | tokenBadCheck (frame : BitVec 32)
  | tokenWindowExpired
  | holdTimeout
  | quietIntervalEnd
  -- data mover
  | drainBlockStart
  | loadBlockStart
  | descriptorReadComplete (access : Nat) (data : BitVec 128)
  | descriptorReadFault (access : Nat)
  | dataWriteComplete (access : Nat)
  | dataWriteFault (access : Nat)
  | dataReadComplete (access : Nat) (bytes : List Byte)
  | dataReadFault (access : Nat)
  | profileJobStart
  | profileWriteComplete (access : Nat)
  | profileWriteFault (access : Nat)
  -- completion poster
  | latchToQueue
  | recordWriteBegin (ring : RingId)
  | recordWriteComplete (access : Nat)
  | recordWriteFault (access : Nat)
  | moderationDelayExpiry (ring : RingId)
  -- start marks
  | readBlockStartMark
  /-- `early` for a token whose window opened while CL had been low for one period on idle CL or in a guard gap, too short
  for attention: the low goes on as the start mark (R33, R35, R37). -/
  | replyStartMark (early : Bool := false)
deriving DecidableEq, Repr

end Sys2Proof
end

