-- ==== Sys2Proof/Decode.lean ====
section
/-! DEFINITION. The command a table word spells. spec/opcode_table.json gives no row any bits
("fields": [] on every row, no fixed bits), so no word spells a command. -/

namespace Sys2Proof

/-- The command that a word spells by the opcode table's bits: none, since the table gives no row bits. -/
def decodeTableWord (_nbits _w : Nat) : Option Instr := none

end Sys2Proof
end

