-- ==== Sys2Proof/Config.lean ====
section
/-! DEFINITION. The free values of the model. They have no body: nothing can be proved about them. -/

namespace Sys2Proof

/-- The free order of sources that become ready together (R156: "Two sources that become ready together
join in either order"). `joinKey draw source` ranks the source in draw number `draw`; sources of one batch
join in the order of their ranks. DESIGN CHOICE of form (log 9); safe, since every order of a batch arises
from some ranking. -/
opaque Config.joinKey : Nat → Nat → Nat

/-- The count a reply hands over when its notices-waiting byte lies above 15, the largest count R30 and R177
name. The spec states no result there; the count stays 0 to 15 (R45). DESIGN CHOICE of form (log 15); safe. -/
opaque Config.overCount : Byte → Fin 16

end Sys2Proof
end

