-- ==== Sys2Proof/Machine/State.lean ====
section
/-! DEFINITION. The state of the SBH-8: every record, queue, latch, counter and mode of the spec, as plain
data, and the state after power-on. Operations over it stand in Machine/Ops.lean and its neighbours. -/

namespace Sys2Proof.Machine

/-- No command of the table stops the machine with a fault: STOPPED (R175) is a state of the device, and the
faults of rings, stations, the link and the data mover are effects on State. Nobody raises one. -/
inductive Fault : Type
deriving DecidableEq, Repr

/-- Why a command has no meaning in the model. -/
inductive Refusal : Type where
  /-- Raised by `exec` alone, for a row whose meaning is not written; safe. No row is left so. -/
  | notModelled (mnemonic : String)
deriving DecidableEq, Repr

/-! ## Device control (chapter 11) -/

/-- R168. -/
inductive DeviceState where
  | off | loading | running | draining | stopped
deriving DecidableEq, Repr

/-- R167: the last command result. -/
inductive CommandResult where
  | none | ok | refused | configInvalid | configFetchFault
deriving DecidableEq, Repr

/-- R167: the stopped cause. -/
inductive StoppedCause where
  | none | completionWriteFault
deriving DecidableEq, Repr

/-- What device control holds (R166, R167, R170, R172) and the LCK pin (R25). -/
structure Device where
  configBase : BitVec 64
  state : DeviceState
  result : CommandResult
  cause : StoppedCause
  /-- One flag per submission ring. -/
  ringFault : Vector Bool 4
  releaseRefused : Bool
  postIgnored : Bool
  /-- In LOADING: the 64 bytes of each of the four reads that has completed (R170). -/
  load : Vector (Option (BitVec 512)) 4
  /-- The configuration copy, 256 bytes, byte 0 least significant (R171, R172). -/
  config : Option (BitVec 2048)
  /-- LCK: stopped, or running at a rate code (R25). -/
  lck : Option Byte
deriving DecidableEq, Repr

/-! ## The exchange table (chapter 1) -/

/-- R2: the kind of an exchange. -/
inductive ExKind where
  | readBlocks | writeBlocks | query | control | configureStation | identifyStation | resetStation
deriving DecidableEq, Repr

/-- R6: the nine states of an exchange; FREE is an empty slot. -/
inductive ExState where
  | queued | issuing | deferred | reconnecting | resuming | transfer | halting | withdrawing | completing
deriving DecidableEq, Repr

/-- The statuses of completion records (R180). The last four of R7 are no exchange statuses. -/
inductive Status where
  | success | cancelled | malformed | stationAbsent | stationGone | stationReset | linkReset
  | rejected | replyTimeout | replyCheck | protocol | payloadCheck | dataTimeout | holdTimeout
  | writeFault | deferralTimeout | hostAccessFault | segmentShort | listMalformed | notFound | tooLate
deriving DecidableEq, Repr

/-- A segment descriptor (R179): address, length, LAST and CHAIN. -/
structure Descriptor where
  addr : BitVec 64
  len : Nat
  last : Bool
  chain : Bool
deriving DecidableEq, Repr

/-- The segment source of a segment kind (R2, R105, R106): LIST flag and the two inline descriptors. -/
structure SegSource where
  list : Bool
  d0 : Descriptor
  d1 : Descriptor
deriving DecidableEq, Repr

/-- R2: the segment cursor: descriptor index in walk order and offset within it. -/
structure Cursor where
  index : Nat
  offset : Nat
deriving DecidableEq, Repr

/-- R2: an exchange record. The tag is the slot's index. A field present only in some states is an Option. -/
structure Exchange where
  state : ExState
  kind : ExKind
  ring : RingId
  wrIndex : BitVec 16
  requestId : BitVec 16
  station : StationId
  /-- Start block address, selector or value (R3). -/
  argument : Word
  /-- Blocks, or the selector of CONTROL (R3). -/
  count : BitVec 16
  /-- Lane width of CONFIGURE_STATION. -/
  lanes : Nat
  /-- Block exponent of CONFIGURE_STATION. -/
  blockExp : Nat
  seg : Option SegSource
  cursor : Option Cursor
  blockSize : Option Nat
  blocksDone : Option Nat
  linkFinished : Option Bool
  bytesMoved : Option Nat
  retriesUsed : Option Nat
  /-- Deferral deadline and timer: ns that remain (R118, log 10). -/
  deferral : Option Nat
  cancelMark : Bool
  final : Option (Status × Word)
deriving DecidableEq, Repr

/-! ## Stations (chapter 3) -/

/-- R46. -/
inductive StationState where
  | empty | settling | identifying | ready | resetting | faulted
deriving DecidableEq, Repr

/-- R55: the cause of STATION_FAULTED. -/
inductive StationCause where
  | identifyFailed | noticeFailed | profileInvalid
deriving DecidableEq, Repr

/-- R61: the event a presence latch holds, with its value. -/
inductive PresenceEvent where
  | ready (value : Word)
  | faulted (cause : StationCause)
  | left
deriving DecidableEq, Repr

/-- R52: an entry of the pending configuration list. -/
structure PendingConfig where
  tag : Tag
  lanes : Nat
  blockExp : Nat
deriving DecidableEq, Repr

/-- R45: a station record. -/
structure Station where
  state : StationState
  /-- Last level read, `true` present; held in RUNNING and DRAINING. -/
  level : Option Bool
  /-- Debounce timer: ns since the level last changed, up to 10 ms. -/
  debounce : Option Nat
  /-- Settle timer: ns that remain. -/
  settle : Option Nat
  identifyRetries : Option Nat
  /-- The 16 profile bytes, byte 0 most significant (R177). -/
  profile : Option (BitVec 128)
  /-- Current lane width and block exponent. -/
  settings : Option (Nat × Nat)
  pendingConfigs : List PendingConfig
  /-- Saturated flag and timer: ns since the flag was set. -/
  saturation : Option Nat
  notices : Nat
  latch : Option PresenceEvent
deriving DecidableEq, Repr

/-! ## The command lane (chapters 2 and 4) -/

/-- R178: request kinds. -/
inductive RequestKind where
  | identify | configure | read | write | query | control | resume | withdraw | halt | poll
  | fetchNotice | reset
deriving DecidableEq, Repr

/-- R62: the owner of a request. -/
inductive Owner where
  | exchange (t : Tag)
  | autoIdentify (st : StationId)
  | fetchNotice (st : StationId)
  | strayWithdraw
  | poll
deriving DecidableEq, Repr

/-- R62: the kind of the last failure. -/
inductive FailKind where
  | window | check
deriving DecidableEq, Repr

/-- R62: the phase of a request. -/
inductive ReqPhase where
  | toSend | sending | awaiting | receiving
deriving DecidableEq, Repr

/-- R62: a request record. -/
structure Request where
  kind : RequestKind
  /-- The station field of the frame: 1 to 8, 0 for POLL. -/
  station : BitVec 4
  tag : Tag
  argument : Word
  count : BitVec 16
  owner : Owner
  attemptsFailed : Nat
  lastFailure : Option FailKind
  phase : ReqPhase
  detached : Bool
  /-- The frame was abandoned on collision and not begun again (R75). -/
  abandoned : Bool
deriving DecidableEq, Repr

/-- R20, R80: why a link reset began. -/
inductive LinkCause where
  | startUp | hostCommand | haltFailed | withdrawFailed | laneStuck
deriving DecidableEq, Repr

/-- What the 144 periods after a reply to IDENTIFY are received for (R31, R71): a profile to judge, or an
interval to discard, after which the attempt fails as named. -/
inductive ProfileUse where
  | judge
  | discard (kind : FailKind)
deriving DecidableEq, Repr

/-- The condition of CL (R33 to R36, R40, R42) with the link periods it has lasted where the part counts them. -/
inductive Lane where
  /-- LCK stopped, nothing in progress (R25). -/
  | stopped
  | idle
  /-- The part sends a request frame. -/
  | sending (periods : Nat)
  /-- A reply window is open. -/
  | window (periods : Nat)
  /-- A reply frame is being received. -/
  | receiving
  /-- The profile interval after a reply to IDENTIFY. -/
  | profile (use : ProfileUse)
  /-- Turnaround and POLL slots. -/
  | pollSlots
  | guardGap (periods : Nat)
  | tokenWindow (periods : Nat)
  /-- A token frame is being received. -/
  | tokenReceiving
  /-- Low, driven by a station, and no frame. -/
  | low
  /-- High for a full guard gap during HOLD, RELEASE expected (R34). -/
  | hold
  /-- Link reset signalling (R42). -/
  | signalling (periods : Nat)
deriving DecidableEq, Repr

/-! ## The payload engine and staging (chapter 5) -/

/-- R82. -/
inductive Direction where
  | read | write
deriving DecidableEq, Repr

/-- R82: the phases of a payload. -/
inductive Phase where
  | grantPending | paced | awaitingBlock | receiving | finished | halted
  | loadWait | sendPending | sending | tokenWait | hold
deriving DecidableEq, Repr

/-- R39: the two grants. -/
inductive Grant where
  | next | repeat
deriving DecidableEq, Repr

/-- R99: what a halted payload still has under way on the lanes. -/
inductive HaltTail where
  | nothing
  /-- A grant given whose block has not started. -/
  | granted
  /-- A granted block arriving, to be discarded. -/
  | receiving
  /-- A write block cut off, whose token window opens when its full length has passed. -/
  | cutBlock
  /-- HOLD stays in force until the HALT is answered. -/
  | hold
deriving DecidableEq, Repr

/-- R82: what the payload engine holds while the lanes have an owner. The fields from `gapDue` on hold what
R88 to R99 imply between one step and the next. -/
structure Payload where
  owner : Tag
  dir : Direction
  station : StationId
  laneWidth : Nat
  blockSize : Nat
  count : Nat
  phase : Phase
  linkPos : Nat
  /-- Fill or send position. -/
  pos : StageId
  blockRetries : Nat
  tokenWaits : Nat
  dataTimer : Option Nat
  holdTimer : Option Nat
  /-- The guard gap after ACCEPTED, or after the token that allowed the next block, has not ended (R83, R93). -/
  gapDue : Bool
  /-- A REPEAT grant is due (R91). -/
  repeatDue : Bool
  /-- The block in the send slot is to be sent again (R95). -/
  resendDue : Bool
  /-- A token window is to be opened when the guard gap ends (R98). -/
  reopen : Bool
  tail : HaltTail
  /-- The grant last given for the block awaited (R39). -/
  grant : Option Grant
  /-- Link periods of the block now on the lanes that have passed (R101, R99). -/
  elapsed : Nat
  /-- Link periods that must still pass before the next grant (R39, R88, R91), or, when a payload was halted after a
  grant, before a start mark can be taken (R89). They run once the guard gap has ended. -/
  wait : Nat
  /-- The check code of the block being sent (R182). -/
  sendCheck : Option Word
  /-- The bytes of the block being sent as dealt to PL0 to PL3; a lane not in use has none (R38). -/
  sendLanes : List (List Byte)
deriving DecidableEq, Repr

/-- R86, R87: the states of a staging slot. -/
inductive SlotState where
  | free | filling | full | draining | loading | ready | sending | awaitingToken
deriving DecidableEq, Repr

/-- R85: a staging slot, its block index and its contents. -/
structure Slot where
  state : SlotState
  block : Nat
  data : List Byte
deriving DecidableEq, Repr

/-! ## The data mover (chapter 6) -/

/-- R103: the list position: the entry to take next. -/
inductive ListPos where
  | inline (next : Nat)
  | page (addr : BitVec 64) (next : Nat)
deriving DecidableEq, Repr

/-- R103: a data descriptor in use, its index in walk order and the offset reached within it. -/
structure CurDesc where
  desc : Descriptor
  index : Nat
  offset : Nat
deriving DecidableEq, Repr

/-- R103, R107: the look-ahead. -/
inductive LookAhead where
  | empty
  | reading
  | held (d : Descriptor)
  | faulted
deriving DecidableEq, Repr

/-- A walk of a segment list (R105 to R108). -/
structure Walk where
  pos : ListPos
  /-- The list has ended (R108). -/
  ended : Bool
  cur : Option CurDesc
  walked : Nat
  look : LookAhead
  /-- A descriptor is needed and its read has not ended: the mover waits (R107). -/
  needed : Bool
deriving DecidableEq, Repr

/-- R103: the block in hand. `issued` and `ended` count its data accesses. -/
structure InHand where
  slot : StageId
  placed : Nat
  issued : Nat
  ended : Nat
deriving DecidableEq, Repr

/-- R103: the payload job. -/
structure Job where
  tag : Tag
  dir : Direction
  blockSize : Nat
  count : Nat
  walk : Walk
  nextBlock : Nat
  inHand : Option InHand
deriving DecidableEq, Repr

/-- R103, R114: a profile job. -/
structure ProfileJob where
  tag : Tag
  /-- The 16 bytes, byte 0 most significant (R177). -/
  bytes : BitVec 128
  walk : Walk
  started : Bool
  placed : Nat
  issued : Nat
  ended : Nat
deriving DecidableEq, Repr

/-- What a host access was issued for. -/
inductive Purpose where
  /-- Part 0 to 3 of the configuration block (R170). -/
  | configRead (part : Fin 4)
  /-- A work request (R144). -/
  | fetch (ring : RingId)
  /-- A descriptor of the payload job (R107). -/
  | descriptor (t : Tag)
  /-- A descriptor of a profile job (R114). -/
  | profileDescriptor (t : Tag)
  /-- Bytes of a read block (R110). -/
  | dataWrite (t : Tag)
  /-- Bytes of write block `block`, from `offset` on (R111). -/
  | dataRead (t : Tag) (block offset : Nat)
  /-- Profile bytes (R114). -/
  | profileWrite (t : Tag)
  /-- A completion or event record (R157). -/
  | record (ring : RingId)
deriving DecidableEq, Repr

/-- A host access issued whose report has not been taken. `data` is what a write carries. -/
structure Access where
  id : Nat
  purpose : Purpose
  addr : BitVec 64
  len : Nat
  data : List Byte
deriving DecidableEq, Repr

/-! ## Submission rings (chapter 9) -/

/-- R142. -/
inductive RingState where
  | unused | active | fenceWait | faulted
deriving DecidableEq, Repr

/-- R145: the fault cause of a ring. -/
inductive RingCause where
  | badPost | fetchFault
deriving DecidableEq, Repr

/-- R141: the fields a ring takes from the configuration copy. -/
structure RingConfig where
  base : BitVec 64
  size : Nat
  weight : Nat
  cring : RingId
deriving DecidableEq, Repr

/-- R144: a holding position. A held work request is its 64 bytes, byte 0 least significant, and its index. -/
inductive Holding where
  | empty
  | fetching (index : Nat)
  | waiting (wr : BitVec 512) (index : Nat)
  | completing (wr : BitVec 512) (index : Nat) (status : Status) (value : Word)
deriving DecidableEq, Repr

/-- R141: a submission ring record. -/
structure SubRing where
  state : RingState
  cfg : Option RingConfig
  fetchIdx : Nat
  postIdx : Nat
  outstanding : Nat
  holding : Holding
  cause : Option RingCause
deriving DecidableEq, Repr

/-! ## The completion poster (chapter 10) -/

/-- R156: a source of a record. -/
inductive Source where
  | exchange (t : Tag)
  | holding (r : RingId)
  | event
deriving DecidableEq, Repr

/-- R155: a used completion ring. -/
structure CRing where
  base : BitVec 64
  size : Nat
  tail : Nat
  head : Nat
  unreleased : Nat
  phase : Bool
  threshold : Nat
  /-- In µs. -/
  delay : Nat
  modCount : Nat
  /-- ns since the timer started. -/
  delayTimer : Option Nat
  writing : Option Source
deriving DecidableEq, Repr

/-- R161: an event record of the internal event queue. -/
inductive Event where
  | stationReady (st : StationId) (value : Word)
  | stationFaulted (st : StationId) (cause : StationCause)
  | stationLeft (st : StationId)
  | stationAlert (st : StationId) (code : Byte)
  | ringFault (r : RingId) (cause : RingCause)
  | linkReset (cause : LinkCause)
deriving DecidableEq, Repr

/-! ## The whole -/

/-- The state of the part. `nextAccess`, `freeDraws`, `vectors` and `pending` are the model's own fields. -/
structure State where
  device : Device
  /-- R1: the 16 exchange slots; FREE is `none`. -/
  table : Vector (Option Exchange) 16
  /-- R5: the pending queues. -/
  pendingQ : Vector (List Tag) 8
  stations : Vector Station 8
  current : Option Request
  setAside : Option Request
  attention : Bool
  pollDue : Bool
  /-- ns that remain (R78). -/
  pollTimer : Option Nat
  issuePtr : StationId
  fetchPtr : StationId
  laneLow : Nat
  linkReset : Option LinkCause
  cl : Lane
  /-- The request frame last begun, byte 0 most significant (R177). -/
  clFrame : BitVec 80
  payload : Option Payload
  /-- R101: link periods that remain. -/
  quiet : Option Nat
  staging : Vector Slot 4
  job : Option Job
  profiles : List ProfileJob
  accesses : List Access
  reconnect : List Tag
  stray : List (StationId × Tag)
  reservation : Bool
  subRings : Vector SubRing 4
  arbPtr : RingId
  arbCredit : Nat
  /-- R155: UNUSED is `none`. -/
  crings : Vector (Option CRing) 4
  waiting : Vector (List Source) 4
  eventQueue : List Event
  ringLatch : Vector (Option RingCause) 4
  linkLatch : Option LinkCause
  /-- The interrupt messages sent, oldest first (log 8). -/
  vectors : List VectorId
  /-- The number the next host access gets (log 7). -/
  nextAccess : Nat
  /-- Draws of the free order made so far (log 9). -/
  freeDraws : Nat
  /-- The commands that wait, first in, first out. -/
  pending : List Instr
deriving DecidableEq, Repr

/-- R45: a station record after power-on. -/
def Station.reset : Station :=
  { state := .empty, level := none, debounce := none, settle := none, identifyRetries := none,
    profile := none, settings := none, pendingConfigs := [], saturation := none, notices := 0, latch := none }

/-- R141: a submission ring record after power-on. -/
def SubRing.reset : SubRing :=
  { state := .unused, cfg := none, fetchIdx := 0, postIdx := 0, outstanding := 0, holding := .empty, cause := none }

/-- R85: a FREE staging slot. -/
def Slot.free : Slot := { state := .free, block := 0, data := [] }

/-- R166, R167, R170: device control after power-on. -/
def Device.reset : Device :=
  { configBase := 0, state := .off, result := .none, cause := .none, ringFault := Vector.replicate 4 false,
    releaseRefused := false, postIgnored := false, load := Vector.replicate 4 none, config := none, lck := none }

/-- The part right after power-on: R1, R25, R45, R63, R82, R103, R116, R141, R152, R155, R163, R176.
`clFrame`, `vectors`, `nextAccess` and `freeDraws` have values the model names (logs 7, 8, 9, 11). -/
def State.reset : State :=
  { device := .reset, table := Vector.replicate 16 none, pendingQ := Vector.replicate 8 [],
    stations := Vector.replicate 8 .reset, current := none, setAside := none, attention := false,
    pollDue := false, pollTimer := none, issuePtr := 0, fetchPtr := 0, laneLow := 0, linkReset := none,
    cl := .stopped, clFrame := 0, payload := none, quiet := none, staging := Vector.replicate 4 .free,
    job := none, profiles := [], accesses := [], reconnect := [], stray := [], reservation := false,
    subRings := Vector.replicate 4 .reset, arbPtr := 0, arbCredit := 0, crings := Vector.replicate 4 none,
    waiting := Vector.replicate 4 [], eventQueue := [], ringLatch := Vector.replicate 4 none,
    linkLatch := none, vectors := [], nextAccess := 0, freeDraws := 0, pending := [] }

end Sys2Proof.Machine
end

