-- ==== Sys2Proof/Machine/Operands.lean ====
section
/-! DEFINITION. The formats of chapter 12: bytes and bit fields, the check codes (R182), frames (R177, R178),
work requests and descriptors (R179), records (R180) and the configuration block (R181). -/

namespace Sys2Proof.Machine

/-! ## Bytes and bits -/

/-- Byte `k` of a little-endian structure held with byte 0 least significant. -/
def leByte {w : Nat} (x : BitVec w) (k : Nat) : Byte := x.extractLsb' (8 * k) 8

/-- Byte `k` of a frame of `n` bytes held with byte 0 most significant. -/
def beByte {w : Nat} (n : Nat) (x : BitVec w) (k : Nat) : Byte := x.extractLsb' (8 * (n - 1 - k)) 8

/-- The first `n` bytes of a little-endian structure, byte 0 first. -/
def leBytes {w : Nat} (n : Nat) (x : BitVec w) : List Byte := (List.range n).map (leByte x)

/-- The first `k` bytes of a frame of `n` bytes, byte 0 first. -/
def beBytes {w : Nat} (n k : Nat) (x : BitVec w) : List Byte := (List.range k).map (beByte n x)

/-- The bits of a byte from bit 7 to bit 0 (R182). -/
def byteBits (b : Byte) : List Bool :=
  [b.getLsbD 7, b.getLsbD 6, b.getLsbD 5, b.getLsbD 4, b.getLsbD 3, b.getLsbD 2, b.getLsbD 1, b.getLsbD 0]

/-! ## Levels received on CL (R26, R37) -/

/-- R37: the largest lane-low count; a count above 4096 is a stuck lane. -/
def stuckCount : Nat := 4097

/-- R26: the low periods that end a run of levels received, the last in the least significant bit; a 0 bit is low. -/
def lowTail {w : Nat} (f : BitVec w) : Nat := ((List.range w).takeWhile (fun k => !f.getLsbD k)).length

/-- R26: the low periods that begin a run of levels received, the first in the most significant bit. -/
def lowHead {w : Nat} (f : BitVec w) : Nat := ((List.range w).takeWhile (fun k => !f.getMsbD k)).length

/-- R37: the low periods that began before the levels `f`, with `lead` low periods (a start mark) before them, go on until
the count has passed 4096. -/
def lowPasses {w : Nat} (before lead : Nat) (f : BitVec w) : Bool := decide (stuckCount ≤ before + lead + lowHead f)

/-- R37: the lane-low count after the levels `f`, with `lead` low periods (a start mark) before them, all counted when they
are reported. A count that has passed 4096 among them stays for its LANE_STUCK (log 12). -/
def lowAfter {w : Nat} (before lead : Nat) (f : BitVec w) : Nat :=
  if lowPasses before lead f then stuckCount
  else if lowTail f = w then before + lead + w
  else lowTail f

/-- R36, R37: the nine periods after a POLL frame as levels: the turnaround, then slot 1 first; a 0 bit is low. -/
def pollPeriods (levels : PollLevels) : BitVec 9 := ~~~ (BitVec.ofBool levels.turnaround ++ levels.slots.reverse)

/-! ## Blocks on the payload lanes (R38) -/

/-- R38: what each of PL0 to PL3 carries of a block at lane width `w`: byte `i` goes to lane `i` modulo `w`, a lane not
in use stays released. -/
def dealBlock (w : Nat) (bytes : List Byte) : List (List Byte) :=
  (List.range 4).map (fun l =>
    if l < w then (List.range ((bytes.length + (w - 1) - l) / w)).map (fun k => bytes.getD (w * k + l) 0xFF#8) else [])

/-- R38, R90: the block of `size` bytes that the lanes carry at lane width `w`; a byte that did not come reads as 1
bits. -/
def gatherBlock (w size : Nat) (lanes : List (List Byte)) : List Byte :=
  (List.range size).map (fun i => (lanes.getD (i % w) []).getD (i / w) 0xFF#8)

/-! ## Check codes (R182) -/

/-- One bit into a CRC register of width `w`: combine with the top bit, shift left, and combine with the
polynomial when the combined bit was 1. -/
def crcBit {w : Nat} (poly r : BitVec w) (b : Bool) : BitVec w :=
  if (r.getMsbD 0 ^^ b) then (r <<< 1) ^^^ poly else r <<< 1

/-- One byte into a CRC register, bit 7 first. -/
def crcByte {w : Nat} (poly r : BitVec w) (b : Byte) : BitVec w := (byteBits b).foldl (crcBit poly) r

/-- The frame check code: polynomial 0x1021, register from 0xFFFF, no final inversion. -/
def crc16 (bytes : List Byte) : BitVec 16 := bytes.foldl (crcByte 0x1021#16) 0xFFFF#16

/-- The block check code: polynomial 0x04C11DB7, register from 0xFFFFFFFF, inverted at the end. -/
def crc32 (bytes : List Byte) : Word := ~~~ (bytes.foldl (crcByte 0x04C11DB7#32) 0xFFFFFFFF#32)

/-! ## Request frames -/

/-- R178: the request kind codes. -/
def requestCode : RequestKind → BitVec 4
  | .identify => 1 | .configure => 2 | .read => 3 | .write => 4 | .query => 5 | .control => 6
  | .resume => 7 | .withdraw => 8 | .halt => 9 | .poll => 10 | .fetchNotice => 11 | .reset => 12

/-- The station field of a slot: its slot number 1 to 8 (R28). -/
def slotNumber (st : StationId) : BitVec 4 := BitVec.ofNat 4 (st.val + 1)

/-- The slot a station field or byte names, if it lies in 1 to 8. -/
def slotOfNumber (n : Nat) : Option StationId :=
  if h : 1 ≤ n ∧ n ≤ 8 then some ⟨n - 1, by omega⟩ else none

/-- A tag in a 4-bit field. -/
def tagBits (t : Tag) : BitVec 4 := BitVec.ofNat 4 t.val

/-- R62: the retry flag of a frame is clear while attempts failed is 0. -/
def Request.retryFlag (r : Request) : Bool := r.attemptsFailed != 0

/-- Bytes 0 to 7 of a request frame (R177). -/
def Request.frameBody (r : Request) : BitVec 64 :=
  BitVec.ofBool r.retryFlag ++ 0#3 ++ r.station ++ requestCode r.kind ++ tagBits r.tag ++ r.argument ++ r.count

/-- The ten bytes of a request frame, check code last (R177, R182). -/
def Request.frame (r : Request) : BitVec 80 := r.frameBody ++ crc16 (beBytes 8 8 r.frameBody)

/-- R177: the argument of CONFIGURE: lane width in bits 7-4, block exponent in bits 3-0. -/
def configureArgument (lanes blockExp : Nat) : Word :=
  0#24 ++ BitVec.ofNat 4 lanes ++ BitVec.ofNat 4 blockExp

/-! ## Reply, profile and token frames -/

/-- R178: the reasons of REJECTED. -/
inductive Reason where
  | badAddress | badCount | notHeld | unsupported | protected_ | stationError
deriving DecidableEq, Repr

/-- R178: the reason codes. -/
def reasonOfCode (b : Byte) : Option Reason :=
  match b.toNat with
  | 1 => some .badAddress | 2 => some .badCount | 3 => some .notHeld | 4 => some .unsupported
  | 5 => some .protected_ | 6 => some .stationError | _ => none

/-- R178, R180: the code of a reason, the value of a REJECTED record. -/
def reasonCode : Reason → Word
  | .badAddress => 1 | .badCount => 2 | .notHeld => 3 | .unsupported => 4 | .protected_ => 5 | .stationError => 6

/-- The outcome of a reply (R29, R178). A REJECTED whose reason is not defined is taken as an outcome
that is not defined. -/
inductive ReplyOutcome where
  | done | accepted | deferred | busy
  | rejected (reason : Reason)
  | undefined
deriving DecidableEq, Repr

/-- R178: the outcome codes. -/
def outcomeOfCode (code : BitVec 4) (reason : Byte) : ReplyOutcome :=
  match code.toNat with
  | 1 => .done
  | 2 => .accepted
  | 3 => .deferred
  | 4 => match reasonOfCode reason with
    | some r => .rejected r
    | none => .undefined
  | 5 => .busy
  | _ => .undefined

/-- The fields of a reply frame (R30). -/
structure Reply where
  alertPending : Bool
  station : BitVec 4
  outcome : ReplyOutcome
  tag : BitVec 4
  value : Word
  notices : Nat
deriving DecidableEq, Repr

/-- R30, R177: the notices-waiting count of byte 7; a byte above 15 gives a free count (log 15). -/
def noticesOfByte (b : Byte) : Nat := if b.toNat ≤ 15 then b.toNat else (Config.overCount b).val

/-- R177, R182: a reply frame, or none for a bad check, which gives the part no field (R30). -/
def parseReply (f : BitVec 80) : Option Reply :=
  if crc16 (beBytes 10 8 f) = f.extractLsb' 0 16 then
    some
      { alertPending := f.getLsbD 79, station := f.extractLsb' 72 4,
        outcome := outcomeOfCode (f.extractLsb' 68 4) (f.extractLsb' 24 8),
        tag := f.extractLsb' 64 4, value := f.extractLsb' 32 32, notices := noticesOfByte (f.extractLsb' 16 8) }
  else none

/-- R30: the count a reply hands to the station manager, raised to 1 when it is 0 and alert-pending is set. -/
def Reply.handedCount (r : Reply) : Nat := if r.notices = 0 ∧ r.alertPending then 1 else r.notices

/-- R177, R182: the 16 profile bytes, or none for a bad check. -/
def parseProfile (f : BitVec 144) : Option (BitVec 128) :=
  if crc16 (beBytes 18 16 f) = f.extractLsb' 0 16 then some (f.extractLsb' 16 128) else none

/-! R31, R177: the fields of a profile held with byte 0 most significant. -/

def Profile.classCode (p : BitVec 128) : Byte := p.extractLsb' 120 8
def Profile.maxLanes (p : BitVec 128) : Nat := (p.extractLsb' 116 4).toNat
def Profile.depth (p : BitVec 128) : Nat := (p.extractLsb' 112 4).toNat
def Profile.maxExp (p : BitVec 128) : Nat := (p.extractLsb' 104 8).toNat
def Profile.writeProtected (p : BitVec 128) : Byte := p.extractLsb' 96 8
def Profile.capacity (p : BitVec 128) : Word := p.extractLsb' 64 32
def Profile.identity (p : BitVec 128) : BitVec 64 := p.extractLsb' 0 64

/-- R51, R177: a profile is acceptable when each field lies in its range. -/
def Profile.acceptable (p : BitVec 128) : Bool :=
  (Profile.maxLanes p == 1 || Profile.maxLanes p == 2 || Profile.maxLanes p == 4)
    && decide (1 ≤ Profile.depth p) && decide (Profile.depth p ≤ 4)
    && decide (6 ≤ Profile.maxExp p) && decide (Profile.maxExp p ≤ 11)
    && decide ((Profile.writeProtected p).toNat ≤ 1)

/-- R180: the value of STATION_READY. -/
def Profile.readyValue (p : BitVec 128) : Word :=
  Profile.classCode p ++ BitVec.ofNat 8 (Profile.maxLanes p) ++ BitVec.ofNat 8 (Profile.maxExp p)
    ++ BitVec.ofNat 8 (Profile.depth p)

/-- R32, R178: what a token frame says; a code not listed is not defined. -/
inductive TokenCode where
  | taken | checkFail | fault | hold | release | undefined
deriving DecidableEq, Repr

/-- R178: the token codes. -/
def tokenOfCode (code : BitVec 4) : TokenCode :=
  match code.toNat with
  | 1 => .taken | 2 => .checkFail | 3 => .fault | 4 => .hold | 5 => .release | _ => .undefined

/-- A token as the engine hands it over (R76): with a bad check, or good with its fields. -/
inductive Token where
  | bad
  | good (station : BitVec 4) (code : TokenCode) (tag : BitVec 4)
deriving DecidableEq, Repr

/-- R178: the code of a token that is defined. -/
def codeOfToken : TokenCode → BitVec 4
  | .taken => 1 | .checkFail => 2 | .fault => 3 | .hold => 4 | .release => 5 | .undefined => 0

/-- R177, R182: the frame of a token as a station sends it. -/
def tokenFrame (station : BitVec 4) (code : TokenCode) (tag : BitVec 4) : BitVec 32 :=
  let body : BitVec 16 := 0#4 ++ station ++ codeOfToken code ++ tag
  body ++ crc16 (beBytes 2 2 body)

/-- R177, R182: a token frame. -/
def parseToken (f : BitVec 32) : Token :=
  if crc16 (beBytes 4 2 f) = f.extractLsb' 0 16 then
    .good (f.extractLsb' 24 4) (tokenOfCode (f.extractLsb' 20 4)) (f.extractLsb' 16 4)
  else .bad

/-- R43, R178: a notice of FETCH_NOTICE. -/
inductive Notice where
  | none
  | ready (t : Tag)
  | alert (code : Byte)
  | undefined
deriving DecidableEq, Repr

/-- R178: the notice a value carries: type in bits 31-24, bits 23-8 zero, content in bits 7-0. -/
def noticeOfValue (v : Word) : Notice :=
  let type := (v.extractLsb' 24 8).toNat
  let content := (v.extractLsb' 0 8).toNat
  if v.extractLsb' 8 16 ≠ 0#16 then .undefined
  else if type = 0 ∧ content = 0 then .none
  else if h : type = 1 ∧ content < 16 then .ready ⟨content, h.2⟩
  else if type = 2 ∧ 1 ≤ content then .alert (v.extractLsb' 0 8)
  else .undefined

/-! ## Work requests and descriptors (R147, R179) -/

/-- R179: a descriptor from its 16 bytes, byte 0 least significant. -/
def parseDescriptor (d : BitVec 128) : Descriptor :=
  { addr := d.extractLsb' 0 64, len := (d.extractLsb' 64 32).toNat, last := d.getLsbD 96, chain := d.getLsbD 97 }

/-! The fields of a work request of 64 bytes. -/

def Wr.kindByte (w : BitVec 512) : Nat := (leByte w 0).toNat
def Wr.fence (w : BitVec 512) : Bool := w.getLsbD 8
def Wr.list (w : BitVec 512) : Bool := w.getLsbD 9
def Wr.requestId (w : BitVec 512) : BitVec 16 := w.extractLsb' 16 16
def Wr.stationByte (w : BitVec 512) : Nat := (leByte w 4).toNat
def Wr.count (w : BitVec 512) : BitVec 16 := w.extractLsb' 48 16
def Wr.argument (w : BitVec 512) : Word := w.extractLsb' 64 32
def Wr.lanes (w : BitVec 512) : Nat := (leByte w 12).toNat
def Wr.blockExp (w : BitVec 512) : Nat := (leByte w 13).toNat
def Wr.targetRing (w : BitVec 512) : Nat := (leByte w 14).toNat
def Wr.targetId (w : BitVec 512) : BitVec 16 := w.extractLsb' 128 16
def Wr.d0 (w : BitVec 512) : Descriptor := parseDescriptor (w.extractLsb' 256 128)
def Wr.d1 (w : BitVec 512) : Descriptor := parseDescriptor (w.extractLsb' 384 128)

/-- R147, R179: what a work request asks for. -/
inductive WrKind where
  | link (k : ExKind)
  | cancel
  | nop
deriving DecidableEq, Repr

/-- R179: the kind codes. -/
def Wr.kind (w : BitVec 512) : Option WrKind :=
  match Wr.kindByte w with
  | 1 => some (.link .readBlocks) | 2 => some (.link .writeBlocks) | 3 => some (.link .query)
  | 4 => some (.link .control) | 5 => some (.link .configureStation) | 6 => some (.link .identifyStation)
  | 7 => some (.link .resetStation) | 8 => some .cancel | 9 => some .nop | _ => none

/-- R148: the inline total: the lengths of the descriptors that form the list, as they stand. -/
def Wr.inlineTotal (w : BitVec 512) : Nat := (Wr.d0 w).len + (if (Wr.d0 w).last then 0 else (Wr.d1 w).len)

/-! ## Records (R180) -/

/-- R180: the status codes. -/
def statusCode : Status → Byte
  | .success => 0 | .cancelled => 1 | .malformed => 2 | .stationAbsent => 3 | .stationGone => 4
  | .stationReset => 5 | .linkReset => 6 | .rejected => 7 | .replyTimeout => 8 | .replyCheck => 9
  | .protocol => 10 | .payloadCheck => 11 | .dataTimeout => 12 | .holdTimeout => 13 | .writeFault => 14
  | .deferralTimeout => 15 | .hostAccessFault => 16 | .segmentShort => 17 | .listMalformed => 18
  | .notFound => 19 | .tooLate => 20

/-- The fields of a record before the poster adds phase flag and event flag (R157). -/
structure RecordFields where
  requestId : BitVec 16
  ring : Byte
  status : Byte
  wrIndex : BitVec 16
  station : Byte
  event : Bool
  bytesMoved : Word
  value : Word
deriving DecidableEq, Repr

/-- R180: the 16 bytes of a record. -/
def RecordFields.bytes (r : RecordFields) (phase : Bool) : List Byte :=
  leBytes 2 r.requestId ++ [r.ring, r.status] ++ leBytes 2 r.wrIndex
    ++ [r.station, BitVec.ofNat 8 (phase.toNat + 2 * r.event.toNat)]
    ++ leBytes 4 r.bytesMoved ++ leBytes 4 r.value

/-- R180: the causes of STATION_FAULTED. -/
def stationCauseCode : StationCause → Word
  | .identifyFailed => 1 | .noticeFailed => 2 | .profileInvalid => 3

/-- R180: the causes of RING_FAULT. -/
def ringCauseCode : RingCause → Word
  | .badPost => 1 | .fetchFault => 2

/-- R180: the causes of LINK_RESET. The start-up link reset latches no event (R80). -/
def linkCauseCode : LinkCause → Word
  | .startUp => 0 | .hostCommand => 1 | .haltFailed => 2 | .withdrawFailed => 3 | .laneStuck => 4

/-- A station as a record names it: its slot number. -/
def stationByte (st : StationId) : Byte := BitVec.ofNat 8 (st.val + 1)

/-- R161, R180: the fields of an event record. -/
def Event.fields (e : Event) : RecordFields :=
  let mk (kind station : Byte) (value : Word) : RecordFields :=
    { requestId := 0, ring := 0xFF, status := kind, wrIndex := 0, station := station, event := true,
      bytesMoved := 0, value := value }
  match e with
  | .stationReady st v => mk 1 (stationByte st) v
  | .stationFaulted st c => mk 2 (stationByte st) (stationCauseCode c)
  | .stationLeft st => mk 3 (stationByte st) 0
  | .stationAlert st code => mk 4 (stationByte st) (code.setWidth 32)
  | .ringFault r c => mk 5 0 (BitVec.ofNat 32 (256 * r.val) ||| ringCauseCode c)
  | .linkReset c => mk 6 0 (linkCauseCode c)

/-- R23, R180: the fields of an exchange's record. -/
def Exchange.fields (e : Exchange) : RecordFields :=
  { requestId := e.requestId, ring := BitVec.ofNat 8 e.ring.val,
    status := match e.final with
      | some (st, _) => statusCode st
      | none => 0,
    wrIndex := e.wrIndex, station := stationByte e.station, event := false,
    bytesMoved := BitVec.ofNat 32 (e.bytesMoved.getD 0),
    value := match e.final with
      | some (_, v) => v
      | none => 0 }

/-- R150, R180: the fields of an immediate completion's record. -/
def immediateFields (r : RingId) (w : BitVec 512) (index : Nat) (status : Status) (value : Word) : RecordFields :=
  { requestId := Wr.requestId w, ring := BitVec.ofNat 8 r.val, status := statusCode status,
    wrIndex := BitVec.ofNat 16 index,
    station := match Wr.kind w, slotOfNumber (Wr.stationByte w) with
      | some (.link _), some st => stationByte st
      | _, _ => 0,
    event := false, bytesMoved := 0, value := value }

/-! ## The configuration block (R181) -/

/-- A field of `n` bytes from byte `k` of the configuration block. -/
def cfgField (c : BitVec 2048) (k n : Nat) : Nat := (c.extractLsb' (8 * k) (8 * n)).toNat

def Cfg.subBase (c : BitVec 2048) (r : RingId) : BitVec 64 := c.extractLsb' (8 * (16 * r.val)) 64
def Cfg.subExp (c : BitVec 2048) (r : RingId) : Nat := cfgField c (16 * r.val + 8) 1
def Cfg.subWeight (c : BitVec 2048) (r : RingId) : Nat := cfgField c (16 * r.val + 9) 1
def Cfg.subCring (c : BitVec 2048) (r : RingId) : Nat := cfgField c (16 * r.val + 10) 1
def Cfg.compBase (c : BitVec 2048) (r : RingId) : BitVec 64 := c.extractLsb' (8 * (64 + 16 * r.val)) 64
def Cfg.compExp (c : BitVec 2048) (r : RingId) : Nat := cfgField c (64 + 16 * r.val + 8) 1
def Cfg.compThreshold (c : BitVec 2048) (r : RingId) : Nat := cfgField c (64 + 16 * r.val + 9) 1
def Cfg.compDelay (c : BitVec 2048) (r : RingId) : Nat := cfgField c (64 + 16 * r.val + 10) 2
def Cfg.eventRing (c : BitVec 2048) : Nat := cfgField c 128 1
def Cfg.rateCode (c : BitVec 2048) : Nat := cfgField c 129 1
def Cfg.laneLimit (c : BitVec 2048) : Nat := cfgField c 130 1
def Cfg.replyWindow (c : BitVec 2048) : Nat := cfgField c 131 1
def Cfg.dataTimeout (c : BitVec 2048) : Nat := cfgField c 132 4
def Cfg.holdLimit (c : BitVec 2048) : Nat := cfgField c 136 4
def Cfg.deferralLimit (c : BitVec 2048) : Nat := cfgField c 140 2
def Cfg.retryLimit (c : BitVec 2048) : Nat := cfgField c 142 1
def Cfg.pollInterval (c : BitVec 2048) : Nat := cfgField c 144 2

/-- The four ring numbers. -/
def allRings : List RingId := [0, 1, 2, 3]

/-- A number names a used completion ring of the block (R171, R181). -/
def Cfg.usedCring (c : BitVec 2048) (n : Nat) : Bool :=
  match allRings.find? (fun r => r.val == n) with
  | some r => Cfg.compExp c r != 0
  | none => false

/-- R171: the checks on submission ring `r`. -/
def Cfg.subOk (c : BitVec 2048) (r : RingId) : Bool :=
  Cfg.subExp c r == 0 ||
    (decide (4 ≤ Cfg.subExp c r ∧ Cfg.subExp c r ≤ 10) && decide ((Cfg.subBase c r).toNat % 64 = 0)
      && decide (1 ≤ Cfg.subWeight c r ∧ Cfg.subWeight c r ≤ 8) && Cfg.usedCring c (Cfg.subCring c r))

/-- R171: the checks on completion ring `r`. -/
def Cfg.compOk (c : BitVec 2048) (r : RingId) : Bool :=
  Cfg.compExp c r == 0 ||
    (decide (4 ≤ Cfg.compExp c r ∧ Cfg.compExp c r ≤ 12) && decide ((Cfg.compBase c r).toNat % 16 = 0)
      && decide (1 ≤ Cfg.compThreshold c r ∧ Cfg.compThreshold c r ≤ 64) && decide (Cfg.compDelay c r ≤ 1023))

/-- R171: the checks on the single fields. -/
def Cfg.fieldsOk (c : BitVec 2048) : Bool :=
  Cfg.usedCring c (Cfg.eventRing c)
    && decide (Cfg.rateCode c ≤ 3)
    && (Cfg.laneLimit c == 1 || Cfg.laneLimit c == 2 || Cfg.laneLimit c == 4)
    && decide (16 ≤ Cfg.replyWindow c ∧ Cfg.replyWindow c ≤ 255)
    && decide (256 ≤ Cfg.dataTimeout c ∧ Cfg.dataTimeout c ≤ 16777215)
    && decide (256 ≤ Cfg.holdLimit c ∧ Cfg.holdLimit c ≤ 16777215)
    && decide (1 ≤ Cfg.deferralLimit c ∧ Cfg.deferralLimit c ≤ 65535)
    && decide (Cfg.retryLimit c ≤ 3)
    && decide (Cfg.pollInterval c ≤ 65535)

/-- R171: a configuration block is valid when every check passes. -/
def Cfg.valid (c : BitVec 2048) : Bool :=
  allRings.all (Cfg.subOk c) && allRings.all (Cfg.compOk c) && allRings.any (fun r => Cfg.subExp c r != 0)
    && Cfg.fieldsOk c

end Sys2Proof.Machine
end

