-- ==== Sys2Proof/Machine/Flags.lean ====
section
/-! DEFINITION. The flags of the status word, the register window as the host reads it (R166, R167, R181),
and the interrupt messages (R164, R168). -/

namespace Sys2Proof.Machine

/-- R181: the code of a device state. -/
def deviceStateCode : DeviceState → Nat
  | .off => 0 | .loading => 1 | .running => 2 | .draining => 3 | .stopped => 4

/-- R181: the code of a last command result. -/
def resultCode : CommandResult → Nat
  | .none => 0 | .ok => 1 | .refused => 2 | .configInvalid => 3 | .configFetchFault => 4

/-- R181: the code of a stopped cause. -/
def causeCode : StoppedCause → Nat
  | .none => 0 | .completionWriteFault => 1

/-- R167, R181: the status word. -/
def Device.statusWord (d : Device) : Word :=
  BitVec.ofNat 32
    (deviceStateCode d.state + 2 ^ 4 * resultCode d.result + 2 ^ 8 * causeCode d.cause
      + 2 ^ 12 * (d.ringFault[0]).toNat + 2 ^ 13 * (d.ringFault[1]).toNat
      + 2 ^ 14 * (d.ringFault[2]).toNat + 2 ^ 15 * (d.ringFault[3]).toNat
      + 2 ^ 16 * d.releaseRefused.toNat + 2 ^ 17 * d.postIgnored.toNat)

/-- R166, R181: the six words of the register window. -/
inductive RegWord where
  | configBaseLow | configBaseHigh | command | status | post | release
deriving DecidableEq, Repr

/-- R181: the offset of a word. -/
def RegWord.offset : RegWord → Nat
  | .configBaseLow => 0x00 | .configBaseHigh => 0x04 | .command => 0x08 | .status => 0x0C | .post => 0x10
  | .release => 0x14

/-- R181: the word that begins at an offset. -/
def wordAt (offset : Nat) : Option RegWord :=
  match offset with
  | 0x00 => some .configBaseLow | 0x04 => some .configBaseHigh | 0x08 => some .command | 0x0C => some .status
  | 0x10 => some .post | 0x14 => some .release | _ => none

/-- R166: what the host reads from a word of the register window. A read has no side effect. -/
def State.readRegister (s : State) : RegWord → Word
  | .configBaseLow => s.device.configBase.extractLsb' 0 32
  | .configBaseHigh => s.device.configBase.extractLsb' 32 32
  | .command => 0
  | .status => s.device.statusWord
  | .post => 0
  | .release => 0

/-- R181: the 24 bytes of the register window as the host reads them, little-endian. -/
def State.windowBytes (s : State) : List Byte :=
  ([.configBaseLow, .configBaseHigh, .command, .status, .post, .release] : List RegWord).flatMap
    (fun w => leBytes 4 (s.readRegister w))

/-- R166, R181: what a host read of `n` bytes from `offset` on returns: a word as `readRegister` gives it, and of fewer
than four bytes the bytes read and no others. The spec is silent on a read of four bytes that is not a word, of more than
four bytes, or past the 24 bytes of the window; here it returns the bytes of the window it covers, in address order, and
none past the end (log 41, the model's choice). -/
def State.readWindow (s : State) (offset n : Nat) : List Byte := (s.windowBytes.drop offset).take n

/-- R143: POST_IGNORED. -/
def State.setPostIgnored (s : State) (b : Bool) : State := { s with device := { s.device with postIgnored := b } }

/-- R160: RELEASE_REFUSED. -/
def State.setReleaseRefused (s : State) (b : Bool) : State :=
  { s with device := { s.device with releaseRefused := b } }

/-- R167: the last command result. -/
def State.setResult (s : State) (r : CommandResult) : State := { s with device := { s.device with result := r } }

/-- R168: the device state. -/
def State.setDeviceState (s : State) (d : DeviceState) : State := { s with device := { s.device with state := d } }

/-- R145: a ring fault flag is set. -/
def State.setRingFault (s : State) (r : RingId) : State :=
  { s with device := { s.device with ringFault := s.device.ringFault.set r true } }

/-- R164: an interrupt message is sent. -/
def State.sendVector (s : State) (v : VectorId) : State := { s with vectors := s.vectors ++ [v] }

/-- R168: the device vector, vector 4. -/
def State.sendDeviceVector (s : State) : State := s.sendVector 4

/-- R164: the vector of a completion ring. -/
def ringVector (r : RingId) : VectorId := ⟨r.val, by omega⟩

end Sys2Proof.Machine
end

