-- ==== Sys2Proof/Machine/Ops.lean ====
section
/-! DEFINITION. The named operations over the records of the part: what every block reads, and the claims on
the exchange table, the stations and the link that several commands share (chapters 1, 3, 5 and section 4.6). -/

namespace Sys2Proof.Machine

/-! ## Lists and constants -/

/-- The sixteen tags in ascending order. -/
def allTags : List Tag := [0, 1, 2, 3, 4, 5, 6, 7, 8, 9, 10, 11, 12, 13, 14, 15]

/-- The eight station slots in ascending order. -/
def allStations : List StationId := [0, 1, 2, 3, 4, 5, 6, 7]

/-- Nanoseconds of one millisecond (log 10). -/
def nsPerMs : Nat := 1000000

/-- Nanoseconds of one microsecond (log 10). -/
def nsPerUs : Nat := 1000

/-- R45, R48: the settle time, 5 ms. -/
def settleTime : Nat := 5 * nsPerMs

/-- R47: the debounce time, 10 ms. -/
def debounceTime : Nat := 10 * nsPerMs

/-- R57: the saturation limit, 1 ms. -/
def saturationTime : Nat := nsPerMs

/-- R39, R88, R89, R91: the periods between a guard gap or a block and a grant, and between a grant and a block. -/
def grantDistance : Nat := 4

/-! ## Device state and configuration -/

/-- The device is RUNNING or DRAINING: the blocks work (R168). -/
def State.live (s : State) : Bool := s.device.state == .running || s.device.state == .draining

/-- The configuration copy (R172); it is present whenever the blocks work. -/
def State.cfg (s : State) : BitVec 2048 := s.device.config.getD 0

/-- R171: the configured retry limit. -/
def State.retryLimit (s : State) : Nat := Cfg.retryLimit s.cfg

/-- R171: the event ring. -/
def State.eventRing (s : State) : Option RingId := allRings.find? (fun r => r.val == Cfg.eventRing s.cfg)

/-- R78: the poll timer at its full interval, in ns; stopped for an interval of 0. -/
def State.fullPoll (s : State) : Option Nat :=
  if Cfg.pollInterval s.cfg = 0 then none else some (Cfg.pollInterval s.cfg * nsPerMs)

/-! ## Records by index -/

/-- The exchange in a slot, or none for FREE (R1). -/
def State.exch (s : State) (t : Tag) : Option Exchange := s.table[t]

def State.setExch (s : State) (t : Tag) (e : Option Exchange) : State := { s with table := s.table.set t e }

/-- Change the exchange in a slot; nothing in a FREE slot. -/
def State.modExch (s : State) (t : Tag) (f : Exchange → Exchange) : State :=
  match s.exch t with
  | some e => s.setExch t (some (f e))
  | none => s

def State.station (s : State) (st : StationId) : Station := s.stations[st]

def State.modStation (s : State) (st : StationId) (f : Station → Station) : State :=
  { s with stations := s.stations.set st (f (s.station st)) }

def State.subRing (s : State) (r : RingId) : SubRing := s.subRings[r]

def State.modSubRing (s : State) (r : RingId) (f : SubRing → SubRing) : State :=
  { s with subRings := s.subRings.set r (f (s.subRing r)) }

def State.cring (s : State) (r : RingId) : Option CRing := s.crings[r]

def State.setCring (s : State) (r : RingId) (c : CRing) : State := { s with crings := s.crings.set r (some c) }

def State.slot (s : State) (i : StageId) : Slot := s.staging[i]

def State.setSlot (s : State) (i : StageId) (x : Slot) : State := { s with staging := s.staging.set i x }

def State.queueOf (s : State) (st : StationId) : List Tag := s.pendingQ[st]

def State.setQueue (s : State) (st : StationId) (q : List Tag) : State := { s with pendingQ := s.pendingQ.set st q }

/-- The staging slot of block `k` (R85). -/
def stageOf (k : Nat) : StageId := ⟨k % 4, Nat.mod_lt _ (by decide)⟩

/-- The ring or slot after `i`, wrapping. -/
def nextIndex {n : Nat} (i : Fin (n + 1)) : Fin (n + 1) :=
  ⟨(i.val + 1) % (n + 1), Nat.mod_lt _ (Nat.succ_pos n)⟩

/-! ## Host accesses (R104) -/

/-- The tag whose outstanding count an access belongs to (R103): descriptor reads, data reads and writes,
profile writes. -/
def Purpose.tag? : Purpose → Option Tag
  | .descriptor t => some t
  | .profileDescriptor t => some t
  | .dataWrite t => some t
  | .dataRead t _ _ => some t
  | .profileWrite t => some t
  | .configRead _ => none
  | .fetch _ => none
  | .record _ => none

/-- Issue a host access under the next number. -/
def State.issue (s : State) (p : Purpose) (addr : BitVec 64) (len : Nat) (data : List Byte) : State :=
  { s with accesses := s.accesses ++ [{ id := s.nextAccess, purpose := p, addr := addr, len := len, data := data }],
           nextAccess := s.nextAccess + 1 }

/-- The access a report is about; a report of an access no longer held belongs to an abandoned one (R170, R176). -/
def State.access (s : State) (id : Nat) : Option Access := s.accesses.find? (fun a => a.id == id)

/-- A report has been taken: the access is no longer outstanding. -/
def State.endAccess (s : State) (id : Nat) : State :=
  { s with accesses := s.accesses.filter (fun a => a.id != id) }

/-- R103: the outstanding count of a tag. -/
def State.outstanding (s : State) (t : Tag) : Nat :=
  (s.accesses.filter (fun a => a.purpose.tag? == some t)).length

/-! ## States of an exchange -/

/-- R45: the states that count in a station's held count. -/
def ExState.held : ExState → Bool
  | .deferred => true | .reconnecting => true | .resuming => true | .withdrawing => true
  | .queued => false | .issuing => false | .transfer => false | .halting => false | .completing => false

/-- R57: the states whose leaving clears the station's saturated flag. -/
def ExState.freesRoom : ExState → Bool
  | .deferred => true | .reconnecting => true | .resuming => true | .transfer => true
  | .queued => false | .issuing => false | .halting => false | .withdrawing => false | .completing => false

/-- R20, R67: the states in which an exchange is in flight with its station. -/
def ExState.onLink : ExState → Bool
  | .issuing => true | .deferred => true | .reconnecting => true | .resuming => true | .transfer => true
  | .halting => true | .withdrawing => true | .queued => false | .completing => false

/-- READ_BLOCKS and WRITE_BLOCKS are the payload kinds (R2). -/
def ExKind.payload : ExKind → Bool
  | .readBlocks => true | .writeBlocks => true | .query => false | .control => false
  | .configureStation => false | .identifyStation => false | .resetStation => false

/-- A read whose link side has finished (R17, R19, R92). -/
def Exchange.readFinished (e : Exchange) : Bool := e.kind == .readBlocks && e.linkFinished == some true

/-- R101: the end of an exchange in this condition stops its payload without HALT. -/
def Exchange.stopsLanes (e : Exchange) : Bool := (e.state == .transfer && !e.readFinished) || e.state == .halting

/-- R45: the held count of a station. -/
def State.heldCount (s : State) (st : StationId) : Nat :=
  (allTags.filter (fun t => match s.exch t with
    | some e => e.station == st && e.state.held
    | none => false)).length

/-- R7: the first cause is kept. -/
def Exchange.record (st : Status) (v : Word) (e : Exchange) : Exchange :=
  if e.final.isSome then e else { e with final := some (st, v) }

/-- R7: a terminating cause reaches an exchange. -/
def State.recordCause (s : State) (t : Tag) (st : Status) (v : Word) : State := s.modExch t (Exchange.record st v)

/-- R57: the saturated flag is cleared and its timer stops. -/
def State.clearSaturation (s : State) (st : StationId) : State :=
  s.modStation st (fun r => { r with saturation := none })

/-- A move of an exchange to another state, with the saturated flag cleared as R57 says. -/
def State.moveTo (s : State) (t : Tag) (new : ExState) : State :=
  match s.exch t with
  | some e =>
    let s' := s.setExch t (some { e with state := new })
    if e.state.freesRoom then s'.clearSaturation e.station else s'
  | none => s

/-! ## Waiting lists (R156) and the event queue (R162, R163) -/

/-- The completion ring of a submission ring (R141). -/
def State.cringOf (s : State) (r : RingId) : Option RingId := (s.subRing r).cfg.map (·.cring)

/-- A source joins the tail of a waiting list, once. -/
def State.joinList (s : State) (c : RingId) (src : Source) : State :=
  if src ∈ s.waiting[c] then s else { s with waiting := s.waiting.set c (s.waiting[c] ++ [src]) }

/-- R22: the two conditions under which an exchange joins. -/
def State.joinReady (s : State) (t : Tag) : Bool :=
  match s.exch t with
  | some e => e.state == .completing && e.final.isSome && s.outstanding t == 0
  | none => false

/-- A source whose conditions hold joins the waiting list of its completion ring (R156). -/
def State.join (s : State) : Source → State
  | .exchange t =>
    if s.joinReady t then
      match (s.exch t).bind (fun e => s.cringOf e.ring) with
      | some c => s.joinList c (.exchange t)
      | none => s
    else s
  | .holding r =>
    match s.cringOf r with
    | some c => s.joinList c (.holding r)
    | none => s
  | .event =>
    match s.eventRing with
    | some c => s.joinList c .event
    | none => s

/-- The number by which the free order ranks a source. -/
def Source.number : Source → Nat
  | .exchange t => t.val
  | .holding r => 16 + r.val
  | .event => 20

/-- Put a source in a ranked list. -/
def insertByKey (key : Nat → Nat) (x : Source) : List Source → List Source
  | [] => [x]
  | y :: ys => if key x.number ≤ key y.number then x :: y :: ys else y :: insertByKey key x ys

/-- The sources in the order of their ranks. -/
def orderByKey (key : Nat → Nat) (xs : List Source) : List Source := xs.foldr (insertByKey key) []

/-- R156: sources that become ready together join in a free order (log 9). -/
def State.joinTogether (s : State) (xs : List Source) : State :=
  (orderByKey (Config.joinKey s.freeDraws) xs).foldl State.join { s with freeDraws := s.freeDraws + 1 }

/-- R163: a record enters the tail of the internal event queue; the head is a source of the event ring. -/
def State.pushEvent (s : State) (e : Event) : State :=
  let s' := { s with eventQueue := s.eventQueue ++ [e] }
  if s.eventQueue.isEmpty then s'.join .event else s'

/-- R162: the room of the internal event queue. -/
def State.eventRoom (s : State) : Nat := 8 - s.eventQueue.length - s.reservation.toNat

/-- R37: levels received on CL after `lead` low periods: the lane-low count goes on with them. -/
def State.hear {w : Nat} (s : State) (lead : Nat) (f : BitVec w) : State :=
  { s with laneLow := lowAfter s.laneLow lead f }

/-! ## Requests, lanes and jobs that an exchange leaves behind -/

/-- R74: a request whose owner ends its interest. -/
def Request.detach (r : Request) : Option Request :=
  if r.phase == .toSend then none else some { r with detached := true }

/-- R74, R75: detach the requests that `p` picks; a set-aside request ends at once. -/
def State.detach (s : State) (p : Request → Bool) : State :=
  { s with current := s.current.bind (fun r => if p r then r.detach else some r),
           setAside := s.setAside.bind (fun r => if p r then none else some r) }

/-- R84: the payload lanes are released, with the staging discard of R85; the owner's payload job has ended with
its entry to COMPLETING (R113). HOLD no longer holds CL, which is idle, and an open token window stays: the model's reading
(log 22). -/
def State.releaseLanes (s : State) : State :=
  { s with payload := none, staging := Vector.replicate 4 .free, job := none,
           cl := if s.cl = .hold then .idle else s.cl }

/-- R22, R84: the lanes are released if the exchange owns them. -/
def State.releaseLanesOf (s : State) (t : Tag) : State :=
  match s.payload with
  | some p => if p.owner = t then s.releaseLanes else s
  | none => s

/-- R113: the payload job of an exchange ends. -/
def State.endJob (s : State) (t : Tag) : State :=
  match s.job with
  | some j => if j.tag = t then { s with job := none } else s
  | none => s

/-- R22, R52: a tag leaves its pending queue, the reconnect queue and the pending configuration list. -/
def State.leaveQueues (s : State) (t : Tag) (st : StationId) : State :=
  { s with pendingQ := s.pendingQ.set st ((s.queueOf st).filter (· != t)),
           reconnect := s.reconnect.filter (· != t),
           stations := s.stations.set st
             { s.station st with pendingConfigs := (s.station st).pendingConfigs.filter (·.tag != t) } }

/-- R22: an exchange enters COMPLETING, all but its joining of a waiting list. -/
def State.enterCompleting (s : State) (t : Tag) : State :=
  match s.exch t with
  | some e =>
    let s1 := (((s.leaveQueues t e.station).detach (fun r => r.owner == .exchange t)).releaseLanesOf t).endJob t
    let s2 := s1.setExch t (some { e with state := .completing, retriesUsed := none, deferral := none })
    if e.state.freesRoom then s2.clearSaturation e.station else s2
  | none => s

/-- R22: an exchange enters COMPLETING and joins its waiting list if it may. -/
def State.complete (s : State) (t : Tag) : State := (s.enterCompleting t).join (.exchange t)

/-- R7, R22: a terminating cause that ends an exchange at once. -/
def State.endWith (s : State) (t : Tag) (st : Status) (v : Word) : State := (s.recordCause t st v).complete t

/-! ## Stopping a payload (R99, R101) -/

/-- R38: the length of a block on the lanes. -/
def Payload.blockLength (p : Payload) : Nat := 1 + 8 * p.blockSize / p.laneWidth + 32

/-- R99: what a payload stopped in its phase still has under way. -/
def Payload.tailAtHalt (p : Payload) : HaltTail :=
  match p.phase with
  | .awaitingBlock => .granted
  | .receiving => .receiving
  | .sending => .cutBlock
  | .hold => .hold
  | .grantPending => .nothing | .paced => .nothing | .finished => .nothing | .loadWait => .nothing
  | .sendPending => .nothing | .tokenWait => .nothing
  | .halted => p.tail

/-- R89, R99: the link periods before a start mark can be taken after a halt: what is left of the 4 after a grant. -/
def Payload.waitAtHalt (p : Payload) : Nat :=
  if p.phase = .awaitingBlock then grantDistance - p.dataTimer.getD 0 else p.wait

/-- R99: the payload engine enters HALTED. -/
def Payload.halt (p : Payload) : Payload :=
  { p with phase := .halted, tail := p.tailAtHalt, wait := p.waitAtHalt, dataTimer := none, holdTimer := none,
           repeatDue := false, resendDue := false, reopen := false, sendCheck := none, sendLanes := [] }

/-- R99: the payload of an exchange stops on the part's side; staging is discarded. -/
def State.haltPayload (s : State) (t : Tag) : State :=
  match s.payload with
  | some p => if p.owner = t then { s with payload := some p.halt, staging := Vector.replicate 4 .free } else s
  | none => s

/-- R18, R99, R113: an exchange enters HALTING. -/
def State.enterHalting (s : State) (t : Tag) : State :=
  (((s.moveTo t .halting).modExch t (fun e => { e with retriesUsed := none })).endJob t).haltPayload t

/-- R7, R18: a cause that takes an exchange to HALTING. -/
def State.haltWith (s : State) (t : Tag) (st : Status) : State := (s.recordCause t st 0).enterHalting t

/-- R101: the quiet interval a release without HALT sets. -/
def Payload.quietAfter (p : Payload) (dataTimeout : Nat) : Option Nat :=
  let rest := p.blockLength - p.elapsed
  let arriving := if rest = 0 then none else some rest
  let granted := some (dataTimeout + p.blockLength)
  match p.phase with
  | .receiving => arriving
  | .awaitingBlock => granted
  | .halted => match p.tail with
    | .receiving => arriving
    | .granted => granted
    | .nothing => none | .cutBlock => none | .hold => none
  | .grantPending => none | .paced => none | .finished => none | .loadWait => none
  | .sendPending => none | .sending => none | .tokenWait => none | .hold => none

/-- R101: the payload of an exchange is stopped without HALT and the lanes are released. -/
def State.stopWithoutHalt (s : State) (t : Tag) : State :=
  match s.payload with
  | some p =>
    if p.owner = t then
      { s.releaseLanes with quiet := match p.quietAfter (Cfg.dataTimeout s.cfg) with
          | some n => some n
          | none => s.quiet }
    else s
  | none => s

/-! ## Loss and reset of a station (R17, R19, R49, R54, R55) -/

/-- R19: what the loss of its station does to an exchange that is not in the pending queue. -/
def State.loseExchange (s : State) (t : Tag) (e : Exchange) : State :=
  match e.state with
  | .completing => s
  | .transfer => if e.readFinished then s else (s.stopWithoutHalt t).endWith t .stationGone 0
  | .halting => (s.stopWithoutHalt t).endWith t .stationGone 0
  | .queued | .issuing | .deferred | .reconnecting | .resuming | .withdrawing => s.endWith t .stationGone 0

/-- One exchange of the station, if the tag holds one. -/
def State.loseOne (st : StationId) (s : State) (t : Tag) : State :=
  match s.exch t with
  | some e => if e.station = st then s.loseExchange t e else s
  | none => s

/-- R19: the exchanges of a station that becomes EMPTY or FAULTED: the QUEUED ones in pending queue order,
then the others in ascending tag order. -/
def State.loseStation (s : State) (st : StationId) : State :=
  allTags.foldl (State.loseOne st) ((s.queueOf st).foldl (State.loseOne st) s)

/-- A request addressed to a station, not yet detached (R49). POLL is addressed to none. -/
def Request.isFor (st : StationId) (r : Request) : Bool := r.station == slotNumber st && !r.detached

/-- A request owned by the notice unit's fetch. -/
def Request.isFetch (r : Request) : Bool :=
  match r.owner with
  | .fetchNotice _ => true
  | .exchange _ => false | .autoIdentify _ => false | .strayWithdraw => false | .poll => false

/-- R49, R119, R127: the requests for a removed station are detached; with them, and at once (log 20), the fetch
reservation is cleared and a stray pair is removed. -/
def State.detachStation (s : State) (st : StationId) : State :=
  let hit (p : Request → Bool) : Bool := (s.current.toList ++ s.setAside.toList).any (fun r => r.isFor st && p r)
  { s.detach (Request.isFor st) with
    reservation := if hit Request.isFetch then false else s.reservation,
    stray := if hit (fun r => r.owner == .strayWithdraw) then s.stray.tail else s.stray }

/-- R49: a station enters EMPTY. -/
def State.stationLeaves (s : State) (st : StationId) : State :=
  ((s.loseStation st).detachStation st).modStation st (fun r =>
    { r with state := .empty, profile := none, settings := none, settle := none, identifyRetries := none,
             pendingConfigs := [], saturation := none, notices := 0, latch := some .left })

/-- R55: a station enters FAULTED. -/
def State.faultStation (s : State) (st : StationId) (cause : StationCause) : State :=
  (s.loseStation st).modStation st (fun r =>
    { r with state := .faulted, profile := none, settings := none, identifyRetries := none, settle := none,
             pendingConfigs := [], saturation := none, notices := 0, latch := some (.faulted cause) })

/-- R51, R56: a station enters READY with an acceptable profile and the defaults. -/
def State.stationReady (s : State) (st : StationId) (p : BitVec 128) : State :=
  s.modStation st (fun r =>
    { r with state := .ready, profile := some p, settings := some (1, min 9 (Profile.maxExp p)),
             identifyRetries := none, saturation := none, latch := some (.ready (Profile.readyValue p)) })

/-- R54: a station enters RESETTING. -/
def State.stationResets (s : State) (st : StationId) : State :=
  s.modStation st (fun r =>
    { r with state := .resetting, profile := none, settings := none, saturation := none, notices := 0,
             settle := some settleTime })

/-- R17: whether a station reset ends an exchange in this condition. ISSUING cannot occur (R17). -/
def Exchange.endedByReset (e : Exchange) : Bool :=
  match e.state with
  | .deferred => true | .reconnecting => true | .resuming => true | .withdrawing => true
  | .transfer => !e.readFinished
  | .halting => true
  | .queued => false | .issuing => false | .completing => false

/-- R17: the tags of the station's other exchanges that a station reset ends. -/
def State.resetVictims (s : State) (st : StationId) (self : Tag) : List Tag :=
  allTags.filter (fun t => t != self && match s.exch t with
    | some e => e.station == st && e.endedByReset
    | none => false)

/-- R17, R101: a station reset ends an exchange, all but its joining. -/
def State.resetOne (s : State) (t : Tag) : State :=
  let s' := if (s.exch t).any Exchange.stopsLanes then s.stopWithoutHalt t else s
  (s'.recordCause t .stationReset 0).enterCompleting t

/-- R12, R17, R54: DONE to RESET, the RESET exchange itself having its cause. The sources join together. -/
def State.stationResetDone (s : State) (st : StationId) (self : Tag) : State :=
  let victims := s.resetVictims st self
  (victims.foldl State.resetOne ((s.enterCompleting self).stationResets st)).joinTogether
    ((self :: victims).map Source.exchange)

/-! ## Link reset (R20, R59, R80, R102, R129) -/

/-- R20: what a link reset does to one exchange. -/
def State.linkResetOne (s : State) (t : Tag) : State :=
  match s.exch t with
  | some e => if e.state.onLink then s.endWith t .linkReset 0 else s
  | none => s

/-- R59: what a link reset does to one station record. The settle timer is written here as well as at the end of the
signalling, where R48 sets it: what it holds meanwhile is the model's choice (log 33). -/
def Station.atLinkReset (r : Station) : Station :=
  if r.state = .empty then r
  else { r with state := .settling, profile := none, settings := none, identifyRetries := none, saturation := none,
                notices := 0, settle := some settleTime }

/-- R80: the command lane engine starts a link reset; absorbed while one is in progress. -/
def State.startLinkReset (s : State) (cause : LinkCause) : State :=
  if s.linkReset.isSome then s
  else
    let s1 := { s with linkReset := some cause, cl := .signalling 0, current := none, setAside := none,
                       attention := false, pollDue := false, pollTimer := none, laneLow := 0 }
    let s2 := allTags.foldl State.linkResetOne s1
    let s3 := allStations.foldl (fun a st => a.modStation st Station.atLinkReset) s2
    let s4 := { s3 with reconnect := [], stray := [], reservation := false }
    let s5 := { s4.releaseLanes with quiet := none }
    if cause = .startUp then s5 else { s5 with linkLatch := some cause }

/-! ## Resets (R173, R176) -/

/-- R173 step 3, R176: every block in its condition after a function reset, device control apart. The numbers
of accesses, the draws, the messages sent and the queue of commands are the model's own and stay. -/
def State.clearBlocks (s : State) : State :=
  { State.reset with device := s.device, vectors := s.vectors, nextAccess := s.nextAccess,
                     freeDraws := s.freeDraws, pending := s.pending }

/-- R176: FUNCTION_RESET. -/
def State.functionReset (s : State) : State :=
  { s.clearBlocks with device := { Device.reset with configBase := s.device.configBase } }

/-- R176: power-on: as FUNCTION_RESET, with CONFIG_BASE 0. -/
def State.powerOn (s : State) : State := { s.clearBlocks with device := Device.reset }

/-- The outcome of every meaning: a next state. -/
abbrev Result := Host.Outcome State Fault Refusal

end Sys2Proof.Machine
end

