-- ==== Sys2Proof/Machine/Mover.lean ====
section
/-! DEFINITION. The data mover's operations (chapter 6): walking a segment list, placing bytes into host
accesses, and the fault report; and the payload engine's phase as the staging slots decide it (R88, R93). -/

namespace Sys2Proof.Machine

/-! ## Walking a segment list (R105 to R108) -/

/-- R104, R107: a walk at the start of a list. -/
def Walk.start (seg : SegSource) : Walk :=
  { pos := if seg.list then .page seg.d0.addr 0 else .inline 0, ended := false, cur := none, walked := 0,
    look := .empty, needed := false }

/-- What becomes of a needed descriptor. -/
inductive Need where
  /-- A data descriptor has been taken into use. -/
  | ready (w : Walk)
  /-- The entry at this address is to be read; the mover waits. -/
  | read (w : Walk) (addr : BitVec 64)
  /-- The mover waits for the look-ahead read. -/
  | wait (w : Walk)
  /-- The mover reports a fault. -/
  | fault (st : Status)
deriving DecidableEq, Repr

/-- The descriptor is at fault: the job ends there. -/
def Need.faults : Need → Bool
  | .fault _ => true
  | .ready _ | .read _ _ | .wait _ => false

/-- R179: the largest length of a data descriptor. -/
def maxSegment : Nat := 16777216

/-- R103, R108: the largest number of descriptors walked. -/
def maxWalked : Nat := 4096

/-- R104, R106: a host address some bytes on. One that passes the top of 64 bits wraps: the spec gives it no meaning, and
this is the model's choice (log 36). -/
def hostPlus (addr : BitVec 64) (n : Nat) : BitVec 64 := addr + BitVec.ofNat 64 n

/-- R106, R108: entry 0 of a page is needed: the page address is judged and the entry read. -/
def Walk.openPage (w : Walk) (addr : BitVec 64) : Need :=
  if addr.toNat % 16 ≠ 0 then .fault .listMalformed
  else .read { w with pos := .page addr 0, needed := true, look := .empty } addr

/-- R107, R108: a needed descriptor of a page is judged and taken into use. The data descriptor before a CHAIN entry stays
current until the next page's first one is taken (chapter 6, worked sequence E6). -/
def Walk.takeListed (w : Walk) (page : BitVec 64) (entry : Nat) (d : Descriptor) : Need :=
  if d.last ∧ d.chain then .fault .listMalformed
  else if maxWalked < w.walked + 1 then .fault .listMalformed
  else if d.chain then { w with walked := w.walked + 1 }.openPage d.addr
  else if d.len = 0 ∨ maxSegment < d.len then .fault .listMalformed
  else .ready { w with pos := .page page (entry + 1), ended := d.last, walked := w.walked + 1, look := .empty,
                       needed := false, cur := some { desc := d, index := w.walked, offset := 0 } }

/-- R105, R108: a needed inline descriptor is judged and taken into use. -/
def Walk.takeInline (w : Walk) (k : Nat) (d : Descriptor) : Need :=
  if d.chain then .fault .listMalformed
  else if d.len = 0 ∨ maxSegment < d.len then .fault .listMalformed
  else .ready { w with pos := .inline (k + 1), ended := d.last || k != 0, walked := w.walked + 1, needed := false,
                       cur := some { desc := d, index := w.walked, offset := 0 } }

/-- R107, R108: a descriptor is needed. -/
def Walk.need (seg : SegSource) (w : Walk) : Need :=
  if w.ended then .fault .segmentShort
  else match w.pos with
    | .inline k => w.takeInline k (if k = 0 then seg.d0 else seg.d1)
    | .page addr entry =>
      if 256 ≤ entry then .fault .listMalformed
      else match w.look with
        | .held d => { w with look := .empty }.takeListed addr entry d
        | .reading => .wait { w with needed := true }
        | .faulted => .fault .hostAccessFault
        | .empty =>
          if entry = 0 then w.openPage addr
          else .read { w with needed := true } (hostPlus addr (16 * entry))

/-- R107: the address of the entry to read ahead, when a data entry without LAST has become current and
the entry after it lies in the same page. -/
def Walk.lookAddr (w : Walk) : Option (BitVec 64) :=
  match w.pos with
  | .inline _ => none
  | .page addr entry =>
    if w.ended ∨ 256 ≤ entry ∨ w.cur.isNone then none else some (hostPlus addr (16 * entry))

/-- The bytes left in the current descriptor. -/
def Walk.left (w : Walk) : Nat :=
  match w.cur with
  | some c => c.desc.len - c.offset
  | none => 0

/-- The host address at the cursor. -/
def Walk.hostAddr (w : Walk) : BitVec 64 :=
  match w.cur with
  | some c => hostPlus c.desc.addr c.offset
  | none => 0

/-- The offset in the current descriptor rises by the length of an access. -/
def Walk.advance (w : Walk) (n : Nat) : Walk :=
  { w with cur := w.cur.map (fun c => { c with offset := c.offset + n }) }

/-- R104: the length of the next access: to the nearest of 256 bytes on, the end of the descriptor, the next
4 KiB boundary of host address, and the end of the block. -/
def accessLength (addr : BitVec 64) (descLeft blockLeft : Nat) : Nat :=
  min 256 (min descLeft (min (4096 - addr.toNat % 4096) blockLeft))

/-- R2, R103, R109: the segment cursor that follows a walk: descriptor 0, offset 0 until a data descriptor is current
(log 26). -/
def Walk.cursor (w : Walk) : Cursor :=
  match w.cur with
  | some c => { index := c.index, offset := c.offset }
  | none => { index := 0, offset := 0 }

/-- The cursor of the exchange follows the walk of its list. -/
def State.syncCursor (s : State) (t : Tag) (w : Walk) : State :=
  s.modExch t (fun e => { e with cursor := some w.cursor })

/-- The segment source of an exchange. -/
def State.segOf (s : State) (t : Tag) : Option SegSource := (s.exch t).bind (·.seg)

/-! ## Faults of the payload job (R112) -/

/-- R112: the mover reports a fault for an exchange; its payload job ends. -/
def State.moverFault (s : State) (t : Tag) (st : Status) : State :=
  let s1 := s.endJob t
  match s1.exch t with
  | some e =>
    if e.state = .transfer then
      if e.readFinished then s1.endWith t st 0 else s1.haltWith t st
    else s1
  | none => s1

/-! ## The payload job (R109 to R111) -/

/-- The job and the exchange's cursor take a new walk. -/
def State.setWalk (s : State) (j : Job) (w : Walk) : State :=
  ({ s with job := some { j with walk := w } }).syncCursor j.tag w

/-- R107: the look-ahead read of the entry after a data entry begins. -/
def State.lookAhead (s : State) (j : Job) (w : Walk) : State :=
  match w.lookAddr with
  | some addr => (s.setWalk j { w with look := .reading }).issue (.descriptor j.tag) addr 16 []
  | none => s.setWalk j w

/-- What the state becomes when a needed descriptor of the job has been judged. -/
def State.jobNeed (s : State) (j : Job) : Need → State
  | .ready w => s.lookAhead j w
  | .read w addr => (s.setWalk j w).issue (.descriptor j.tag) addr 16 []
  | .wait w => s.setWalk j w
  | .fault st => s.moverFault j.tag st

/-- R107: the job needs a descriptor. -/
def State.needDescriptor (s : State) (j : Job) : State :=
  match s.segOf j.tag with
  | some seg => s.jobNeed j (j.walk.need seg)
  | none => s

/-- R104, R110, R111: one host access of the block in hand is issued. -/
def State.placeAccess (s : State) (j : Job) (h : InHand) : State :=
  let addr := j.walk.hostAddr
  let n := accessLength addr j.walk.left (j.blockSize - h.placed)
  let j' := { j with inHand := some { h with placed := h.placed + n, issued := h.issued + 1 } }
  let s' := s.setWalk j' (j.walk.advance n)
  match j.dir with
  | .read => s'.issue (.dataWrite j.tag) addr n (((s.slot h.slot).data.drop h.placed).take n)
  | .write => s'.issue (.dataRead j.tag j.nextBlock h.placed) addr n []

/-- R110, R111: the mover places the bytes of the block in hand as far as its descriptors reach. `fuel`
bounds the accesses and descriptors of one step. -/
def State.pump : Nat → State → State
  | 0, s => s
  | fuel + 1, s =>
    match s.job with
    | none => s
    | some j =>
      if j.walk.needed then s
      else match j.inHand with
        | none => s
        | some h =>
          if j.blockSize ≤ h.placed then s
          else if j.walk.left = 0 then State.pump fuel (s.needDescriptor j)
          else State.pump fuel (s.placeAccess j h)

/-- Enough for one block: an access places at least one byte, and one step takes few descriptors. -/
def pumpFuel : Nat := 4096

/-- R109: the payload job begins and takes its first descriptor into use, reading it first under LIST. -/
def State.startJob (s : State) (t : Tag) (dir : Direction) (blockSize count : Nat) : State :=
  match s.segOf t with
  | some seg =>
    let j : Job := { tag := t, dir := dir, blockSize := blockSize, count := count, walk := Walk.start seg,
                     nextBlock := 0, inHand := none }
    (s.setWalk j j.walk).needDescriptor j
  | none => s

/-- R107: a descriptor read of the payload job has completed. -/
def State.jobDescriptor (s : State) (t : Tag) (d : Descriptor) : State :=
  match s.job with
  | some j =>
    if j.tag = t then
      match j.walk.pos with
      | .page addr entry =>
        if j.walk.needed then
          State.pump pumpFuel (s.jobNeed j ({ j.walk with look := .empty, needed := false }.takeListed addr entry d))
        else if j.walk.look = .reading then s.setWalk j { j.walk with look := .held d }
        else s
      | .inline _ => s
    else s
  | none => s

/-- R107: a descriptor read of the payload job has faulted. -/
def State.jobDescriptorFault (s : State) (t : Tag) : State :=
  match s.job with
  | some j =>
    if j.tag = t then
      if j.walk.needed then s.moverFault t .hostAccessFault
      else if j.walk.look = .reading then s.setWalk j { j.walk with look := .faulted }
      else s
    else s
  | none => s

/-! ## The payload engine's phase as staging decides it (R88, R93) -/

/-- R88: GRANT_PENDING or PACED; R93: SEND_PENDING or LOAD_WAIT. A due REPEAT needs no FREE slot (R91). -/
def Payload.settlePhase (p : Payload) (at_ : SlotState) : Phase :=
  match p.phase with
  | .grantPending | .paced => if p.repeatDue ∨ at_ = .free then .grantPending else .paced
  | .loadWait | .sendPending => if at_ = .ready ∨ p.resendDue then .sendPending else .loadWait
  | .awaitingBlock => .awaitingBlock | .receiving => .receiving | .finished => .finished | .halted => .halted
  | .sending => .sending | .tokenWait => .tokenWait | .hold => .hold

/-- The phase follows the slot at the fill or send position. -/
def State.settlePhase (s : State) : State :=
  match s.payload with
  | some p => { s with payload := some { p with phase := p.settlePhase (s.slot p.pos).state } }
  | none => s

/-! ## Ends of blocks (R92, R110, R111) -/

/-- R92: a read whose last slot has drained ends SUCCESS. -/
def State.readDrained (s : State) (t : Tag) : State :=
  match s.payload with
  | some p => if p.owner = t ∧ p.phase = .finished then s.endWith t .success 0 else s
  | none => s

/-- R110: all writes of the block in hand have completed. -/
def State.slotDrained (s : State) (j : Job) (h : InHand) : State :=
  let s1 := ({ s with job := some { j with nextBlock := j.nextBlock + 1, inHand := none } }).setSlot h.slot .free
  let s2 := s1.settlePhase
  if j.nextBlock + 1 = j.count then s2.readDrained j.tag else s2

/-- R111: all reads of the block in hand have completed. -/
def State.slotLoaded (s : State) (j : Job) (h : InHand) : State :=
  (({ s with job := some { j with nextBlock := j.nextBlock + 1, inHand := none } }).setSlot h.slot
    { s.slot h.slot with state := .ready }).settlePhase

/-- A completed data access of the job: R110 or R111 when it was the last of the block. -/
def State.blockProgress (s : State) (t : Tag) : State :=
  match s.job with
  | some j =>
    if j.tag = t then
      match j.inHand with
      | some h =>
        let h' := { h with ended := h.ended + 1 }
        if j.blockSize ≤ h'.placed ∧ h'.ended = h'.issued then
          match j.dir with
          | .read => s.slotDrained j h'
          | .write => s.slotLoaded j h'
        else { s with job := some { j with inHand := some h' } }
      | none => s
    else s
  | none => s

/-- Bytes placed at an offset of a slot's contents. -/
def patch (data : List Byte) (offset : Nat) (bytes : List Byte) : List Byte :=
  data.take offset ++ bytes ++ data.drop (offset + bytes.length)

/-- R104, R111: the bytes of a completed data read go into the slot, if it is still LOADING for that block. -/
def State.fillSlot (s : State) (t : Tag) (block offset : Nat) (bytes : List Byte) : State :=
  match s.job with
  | some j =>
    let i := stageOf block
    if j.tag = t ∧ (s.slot i).state = .loading ∧ (s.slot i).block = block then
      s.setSlot i { s.slot i with data := patch (s.slot i).data offset bytes }
    else s
  | none => s

/-- R104: bytes moved of an exchange rises. -/
def State.addBytes (s : State) (t : Tag) (n : Nat) : State :=
  s.modExch t (fun e => { e with bytesMoved := some (e.bytesMoved.getD 0 + n) })

/-! ## The profile short path (R114) -/

/-- The profile job at the head of the queue takes a new record. -/
def State.setProfileJob (s : State) (j : ProfileJob) : State :=
  ({ s with profiles := j :: s.profiles.tail }).syncCursor j.tag j.walk

/-- R114: the head job ends with a status; bytes moved is 16 on SUCCESS. -/
def State.endProfileJob (s : State) (t : Tag) (st : Status) : State :=
  let s1 := { s with profiles := s.profiles.tail }
  let s2 := if st = .success then s1.modExch t (fun e => { e with bytesMoved := some 16 }) else s1
  (s2.recordCause t st 0).join (.exchange t)

/-- R107, R114: what the state becomes when a needed descriptor of the profile job has been judged. -/
def State.profileNeed (s : State) (j : ProfileJob) : Need → State
  | .ready w => s.setProfileJob { j with walk := w }
  | .read w addr => (s.setProfileJob { j with walk := w }).issue (.profileDescriptor j.tag) addr 16 []
  | .wait w => s.setProfileJob { j with walk := w }
  | .fault st => s.endProfileJob j.tag st

/-- R104, R114: one host write of profile bytes is issued. -/
def State.placeProfile (s : State) (j : ProfileJob) : State :=
  let addr := j.walk.hostAddr
  let n := accessLength addr j.walk.left (16 - j.placed)
  (s.setProfileJob { j with walk := j.walk.advance n, placed := j.placed + n, issued := j.issued + 1 }).issue
    (.profileWrite j.tag) addr n (((beBytes 16 16 j.bytes).drop j.placed).take n)

/-- R114: the head job places its bytes as far as its descriptors reach. -/
def State.profilePump : Nat → State → State
  | 0, s => s
  | fuel + 1, s =>
    match s.profiles with
    | [] => s
    | j :: _ =>
      if ¬ j.started ∨ j.walk.needed ∨ 16 ≤ j.placed then s
      else if j.walk.left = 0 then
        match s.segOf j.tag with
        | some seg =>
          let need := j.walk.need seg
          if need.faults then s.profileNeed j need else State.profilePump fuel (s.profileNeed j need)
        | none => s
      else State.profilePump fuel (s.placeProfile j)

/-- Enough for 16 bytes: an access places at least one byte. -/
def profileFuel : Nat := 64

/-- R114: a descriptor read of the head job has completed. -/
def State.profileDescriptor (s : State) (t : Tag) (d : Descriptor) : State :=
  match s.profiles with
  | [] => s
  | j :: _ =>
    if j.tag = t ∧ j.walk.needed then
      match j.walk.pos with
      | .page addr entry =>
        let need := { j.walk with look := .empty, needed := false }.takeListed addr entry d
        if need.faults then s.profileNeed j need else State.profilePump profileFuel (s.profileNeed j need)
      | .inline _ => s
    else s

/-- R114: a host read or write of the head job has faulted. -/
def State.profileFault (s : State) (t : Tag) : State :=
  match s.profiles with
  | [] => s
  | j :: _ => if j.tag = t ∧ j.started then s.endProfileJob t .hostAccessFault else s

/-- R114: a profile write has completed; when all 16 bytes are written the job ends SUCCESS. -/
def State.profileProgress (s : State) (t : Tag) : State :=
  match s.profiles with
  | [] => s
  | j :: _ =>
    if j.tag = t ∧ j.started then
      if 16 ≤ j.placed ∧ j.ended + 1 = j.issued then s.endProfileJob t .success
      else s.setProfileJob { j with ended := j.ended + 1 }
    else s

end Sys2Proof.Machine
end

