-- ==== Sys2Proof/Machine/Lanes.lean ====
section
/-! DEFINITION. The payload engine's operations (chapter 5): taking the lanes, read blocks, and the tokens of a
write payload as the command lane engine hands them over (R76). -/

namespace Sys2Proof.Machine

/-- Change the payload engine's record, while the lanes have an owner. -/
def State.modPayload (s : State) (f : Payload → Payload) : State :=
  match s.payload with
  | some p => { s with payload := some (f p) }
  | none => s

/-- R82: the direction of a payload kind. -/
def ExKind.direction : ExKind → Direction
  | .writeBlocks => .write
  | .readBlocks | .query | .control | .configureStation | .identifyStation | .resetStation => .read

/-- R83: the payload engine's record when an exchange takes the lanes. -/
def Payload.taken (t : Tag) (e : Exchange) (laneWidth : Nat) (halted : Bool) : Payload :=
  { owner := t, dir := e.kind.direction, station := e.station, laneWidth := laneWidth,
    blockSize := e.blockSize.getD 0, count := e.count.toNat,
    phase := if halted then .halted else match e.kind.direction with
      | .read => .grantPending
      | .write => .loadWait,
    linkPos := 0, pos := 0, blockRetries := 0, tokenWaits := 0, dataTimer := none, holdTimer := none,
    gapDue := true, repeatDue := false, resendDue := false, reopen := false, tail := .nothing, grant := none,
    elapsed := 0, wait := match e.kind.direction with
      | .read => grantDistance
      | .write => 0,
    sendCheck := none, sendLanes := [] }

/-- R83: the station's current lane width. -/
def State.laneWidthOf (s : State) (st : StationId) : Nat :=
  match (s.station st).settings with
  | some (lanes, _) => lanes
  | none => 1

/-- R13, R136: the fields that come into presence on ACCEPTED. -/
def Exchange.accepted (new : ExState) (e : Exchange) : Exchange :=
  { e with state := new, blocksDone := some 0, linkFinished := some false, bytesMoved := some 0,
           retriesUsed := none }

/-- R13, R83, R109, R125: an exchange enters TRANSFER on ACCEPTED: it takes the lanes and its payload job begins. -/
def State.acceptTransfer (s : State) (t : Tag) (e : Exchange) : State :=
  let p := Payload.taken t e (s.laneWidthOf e.station) false
  let s1 := (s.moveTo t .transfer).modExch t (Exchange.accepted .transfer)
  ({ s1 with payload := some p }).startJob t p.dir p.blockSize p.count

/-- R136: ACCEPTED for an exchange with a cancel mark: HALTING at once, the lanes taken in phase HALTED. -/
def State.acceptHalted (s : State) (t : Tag) (e : Exchange) : State :=
  let p := Payload.taken t e (s.laneWidthOf e.station) true
  let s1 := (s.moveTo t .halting).modExch t (Exchange.accepted .halting)
  { s1 with payload := some p }

/-! ## Read blocks (R90, R91) -/

/-- R90: a read block with a good check. -/
def State.goodReadBlock (s : State) (p : Payload) (data : List Byte) : State :=
  let done := match s.exch p.owner with
    | some e => e.blocksDone.getD 0 + 1
    | none => 0
  let finished := done == p.count
  let p' := { p with linkPos := p.linkPos + 1, blockRetries := 0, pos := nextIndex p.pos, dataTimer := none,
                     grant := none, elapsed := 0, wait := grantDistance,
                     phase := if finished then .finished else .grantPending }
  let s1 := s.setSlot p.pos { s.slot p.pos with state := .full, data := data }
  let s2 := s1.modExch p.owner (fun e =>
    { e with blocksDone := some done, linkFinished := if finished then some true else e.linkFinished })
  ({ s2 with payload := some p' }).settlePhase

/-- R91: a read block with a bad check. Until its REPEAT the phase is GRANT_PENDING with `repeatDue`, the slot FILLING, so
that a halt or a loss of the station finds no grant under way: the spec names no phase here, and this is the model's
choice (log 35). -/
def State.badReadBlock (s : State) (p : Payload) : State :=
  if p.blockRetries < s.retryLimit then
    { s.setSlot p.pos { s.slot p.pos with data := [] } with
      payload := some { p with blockRetries := p.blockRetries + 1, phase := .grantPending, repeatDue := true,
                               dataTimer := none, grant := none, elapsed := 0, wait := grantDistance } }
  else ({ s with payload := some { p with phase := .grantPending, grant := none, elapsed := 0 } }).haltWith
    p.owner .payloadCheck

/-- R38, R90, R91, R99: a block whose start mark was taken has been received to its full length. -/
def State.readBlock (s : State) (lanes : List (List Byte)) (check : Word) : State :=
  match s.payload with
  | some p =>
    match p.phase with
    | .receiving =>
      let data := gatherBlock p.laneWidth p.blockSize lanes
      if crc32 data = check then s.goodReadBlock p data else s.badReadBlock p
    | .halted =>
      match p.tail with
      | .receiving => { s with payload := some { p with tail := .nothing, elapsed := 0 } }
      | .granted | .nothing | .cutBlock | .hold => s
    | .grantPending | .paced | .awaitingBlock | .finished | .loadWait | .sendPending | .sending | .tokenWait | .hold => s
  | none => s

/-! ## Tokens (R94 to R98) -/

/-- A guard gap begins (R34). -/
def State.beginGap (s : State) : State := { s with cl := .guardGap 0 }

/-- R33, R37: a window has expired: CL was high throughout, and the guard gap follows. -/
def State.quietGap (s : State) : State := { s.beginGap with laneLow := 0 }

/-- HOLD is in force on a write payload (R34, R97, R99). -/
def Payload.holding (p : Payload) : Bool := p.phase == .hold || (p.phase == .halted && p.tail == .hold)

/-- HOLD is in force. -/
def State.holdInForce (s : State) : Bool :=
  match s.payload with
  | some p => p.holding
  | none => false

/-- R94 steps 1 to 4: the station has kept the block in flight. -/
def State.keepBlock (s : State) (p : Payload) : State :=
  let p' := { p with linkPos := p.linkPos + 1, pos := nextIndex p.pos, blockRetries := 0, elapsed := 0, sendCheck := none,
                     sendLanes := [] }
  let s1 := s.setSlot p.pos .free
  let s2 := s1.modExch p.owner (fun e =>
    { e with blocksDone := some (e.blocksDone.getD 0 + 1), bytesMoved := some (e.bytesMoved.getD 0 + p.blockSize) })
  { s2 with payload := some p' }

/-- R94, R97: blocks done equals the count. -/
def State.allKept (s : State) (p : Payload) : Bool :=
  match s.exch p.owner with
  | some e => e.blocksDone.getD 0 == p.count
  | none => false

/-- R94, R97: the link side of a write has ended normally. -/
def State.writeDone (s : State) (t : Tag) : State :=
  (s.modExch t (fun e => { e with linkFinished := some true })).endWith t .success 0

/-- R94, R97: the next block may be sent after the guard gap. -/
def State.nextBlock (s : State) : State :=
  (s.modPayload (fun p => { p with phase := .loadWait, gapDue := true, holdTimer := none })).settlePhase

/-- R94: TAKEN. -/
def State.tokenKept (s : State) (p : Payload) : State :=
  let s1 := s.keepBlock p
  if s1.allKept p then s1.writeDone p.owner else s1.nextBlock

/-- R95: CHECK_FAIL. -/
def State.tokenResend (s : State) (p : Payload) : State :=
  if p.blockRetries < s.retryLimit then
    { s with payload := some { p with blockRetries := p.blockRetries + 1, resendDue := true, gapDue := true,
                                      phase := .sendPending } }
  else s.haltWith p.owner .payloadCheck

/-- R97: HOLD. -/
def State.tokenHeld (s : State) (p : Payload) : State :=
  (s.keepBlock p).modPayload (fun q => { q with phase := .hold, holdTimer := some 0 })

/-- R97: RELEASE in HOLD. -/
def State.tokenReleased (s : State) (p : Payload) : State :=
  if s.allKept p then s.writeDone p.owner else s.nextBlock

/-- R98: the window ended without a token the engine can take. `expired` when it ran out with CL high. -/
def State.tokenAgain (s : State) (p : Payload) (kind : FailKind) (expired : Bool) : State :=
  if p.tokenWaits < s.retryLimit then
    let s1 := { s with payload := some { p with tokenWaits := p.tokenWaits + 1, reopen := !expired } }
    if expired then { s1 with cl := .tokenWindow 0 } else s1
  else
    s.haltWith p.owner (match kind with
      | .window => .replyTimeout
      | .check => .replyCheck)

/-- R94 to R98: a token in TOKEN_WAIT. -/
def State.tokenInWait (s : State) (p : Payload) : Token → State
  | .bad => s.tokenAgain p .check false
  | .good station code tag =>
    if station = slotNumber p.station ∧ tag = tagBits p.owner then
      match code with
      | .taken => s.tokenKept p
      | .checkFail => s.tokenResend p
      | .fault => s.endWith p.owner .writeFault 0
      | .hold => s.tokenHeld p
      | .release => s.haltWith p.owner .protocol
      | .undefined => s.haltWith p.owner .protocol
    else s.tokenAgain p .window false

/-- R97: a frame received in HOLD. -/
def State.tokenInHold (s : State) (p : Payload) : Token → State
  | .bad => { s with attention := true }
  | .good station code tag =>
    if station = slotNumber p.station ∧ tag = tagBits p.owner then
      match code with
      | .release => s.tokenReleased p
      | .taken | .checkFail | .fault | .hold | .undefined => s.haltWith p.owner .protocol
    else s

/-- R99, R100: a frame received in HALTED ends its window and changes no account; a bad check during HOLD
sets the attention flag (R34). -/
def State.tokenInHalted (s : State) (p : Payload) (tok : Token) : State :=
  if p.tail = .hold ∧ tok = .bad then { s with attention := true } else s

/-- R76, R100: a token taken by the payload engine in its phase. The guard gap after the frame has begun. -/
def State.takeToken (s : State) (tok : Token) : State :=
  match s.payload with
  | none => s
  | some p =>
    match p.phase with
    | .tokenWait => s.tokenInWait p tok
    | .hold => s.tokenInHold p tok
    | .halted => s.tokenInHalted p tok
    | .grantPending | .paced | .awaitingBlock | .receiving | .finished | .loadWait | .sendPending | .sending => s

/-- R33, R34: a token frame can be received: a token window is open or its frame is arriving, or HOLD is in force
and no request of the part is on the lane. -/
def State.tokenExpected (s : State) : Bool :=
  match s.cl with
  | .tokenWindow _ => true
  | .tokenReceiving => true
  | .hold => s.holdInForce
  | .guardGap _ => s.holdInForce
  | .stopped => false | .idle => false | .sending _ => false | .window _ => false | .receiving => false
  | .profile _ => false | .pollSlots => false | .low => false | .signalling _ => false

/-- R33, R98: a token window has expired with CL high. -/
def State.tokenWindowOver (s : State) : State :=
  match s.payload with
  | some p =>
    match p.phase with
    | .tokenWait => s.quietGap.tokenAgain p .window true
    | .grantPending | .paced | .awaitingBlock | .receiving | .finished | .halted | .loadWait | .sendPending
    | .sending | .hold => s.quietGap
  | none => s.quietGap

end Sys2Proof.Machine
end

