-- ==== Sys2Proof/Machine/Choose.lean ====
section
/-! DEFINITION. The command lane engine's choice of a request and the beginning of its frame (R64 to R70, R75). -/

namespace Sys2Proof.Machine

/-- R64: a candidate. -/
inductive Candidate where
  | halt (t : Tag)
  | withdraw (t : Tag)
  | stray (st : StationId) (t : Tag)
  | reset (st : StationId) (t : Tag)
  | autoIdentify (st : StationId)
  | poll
  | fetch (st : StationId)
  | resume (t : Tag)
  | queue (st : StationId) (t : Tag)
deriving DecidableEq, Repr

/-- R65: a write payload runs. -/
def State.writeRunning (s : State) : Bool :=
  match s.payload with
  | some p => p.dir == .write
  | none => false

/-- R65: the payload lanes are free. -/
def State.lanesFree (s : State) : Bool := s.payload.isNone

def State.isReady (s : State) (st : StationId) : Bool := (s.station st).state == .ready

/-- R66: READY or FAULTED. -/
def State.readyOrFaulted (s : State) (st : StationId) : Bool :=
  (s.station st).state == .ready || (s.station st).state == .faulted

/-- R100: the token window of a cut-off write block is still to open. -/
def State.cutPending (s : State) : Bool :=
  match s.payload with
  | some p => p.phase == .halted && p.tail == .cutBlock
  | none => false

/-- R64 priority 1, R66. -/
def State.haltCandidate (s : State) : Option Candidate :=
  (allTags.find? (fun t => match s.exch t with
    | some e => e.state == .halting && e.retriesUsed.isNone && s.isReady e.station && !s.cutPending
    | none => false)).map .halt

/-- R64 priority 2, exchanges, R66. -/
def State.withdrawCandidate (s : State) : Option Candidate :=
  (allTags.find? (fun t => match s.exch t with
    | some e => e.state == .withdrawing && e.retriesUsed.isNone && s.isReady e.station
    | none => false)).map .withdraw

/-- R69: pairs at the head whose station is not READY are removed. -/
def State.dropStray (s : State) : State := { s with stray := s.stray.dropWhile (fun p => !s.isReady p.1) }

/-- R64 priority 2, the stray head. -/
def State.strayCandidate (s : State) : Option Candidate := s.stray.head?.map (fun p => .stray p.1 p.2)

/-- The exchange at the head of a station's pending queue. -/
def State.queueHead (s : State) (st : StationId) : Option (Tag × Exchange) :=
  (s.queueOf st).head?.bind (fun t => (s.exch t).map (fun e => (t, e)))

/-- R64 priority 3: RESET at the head of a pending queue. -/
def State.resetCandidate (s : State) : Option Candidate :=
  allStations.findSome? (fun st => match s.queueHead st with
    | some (t, e) => if e.kind = .resetStation ∧ s.readyOrFaulted st then some (.reset st t) else none
    | none => none)

/-- R64 priority 4. -/
def State.identifyCandidate (s : State) : Option Candidate :=
  (allStations.find? (fun st => (s.station st).state == .identifying)).map .autoIdentify

/-- R64 priority 5, R77. -/
def State.pollCandidate (s : State) : Option Candidate := if s.attention || s.pollDue then some .poll else none

/-- R68: the eight slots in slot order from a pointer, wrapping. -/
def robin (p : StationId) : List StationId :=
  [0, 1, 2, 3, 4, 5, 6, 7].map (fun k => ⟨(p.val + k) % 8, Nat.mod_lt _ (by decide)⟩)

/-- R64 priority 6, R66, R119. -/
def State.fetchCandidate (s : State) : Option Candidate :=
  if s.eventQueue.length < 8 ∧ s.stray.length < 16 then
    ((robin s.fetchPtr).find? (fun st => s.isReady st && decide (0 < (s.station st).notices))).map .fetch
  else none

/-- R64 priority 7, R65, R66, R123. -/
def State.resumeCandidate (s : State) : Option Candidate :=
  match s.reconnect.head? with
  | some t =>
    match s.exch t with
    | some e => if s.lanesFree ∧ s.isReady e.station then some (.resume t) else none
    | none => none
  | none => none

/-- The queue depth of a station's profile (R31). -/
def State.depthOf (s : State) (st : StationId) : Nat :=
  match (s.station st).profile with
  | some p => Profile.depth p
  | none => 0

/-- R67: a station is quiet while none of its exchanges is in flight. -/
def State.quietStation (s : State) (st : StationId) : Bool :=
  allTags.all (fun t => match s.exch t with
    | some e => !(e.station == st && e.state.onLink)
    | none => true)

/-- R65, R66, R67: the head of a pending queue is eligible. A RESET is a candidate of priority 3. -/
def State.headEligible (s : State) (st : StationId) (e : Exchange) : Bool :=
  match e.kind with
  | .readBlocks | .writeBlocks =>
    s.lanesFree && s.isReady st && (s.station st).saturation.isNone && decide (s.heldCount st < s.depthOf st)
  | .query | .control => s.isReady st
  | .configureStation => s.isReady st && s.quietStation st
  | .identifyStation => s.readyOrFaulted st
  | .resetStation => false

/-- R64 priority 8, R68. -/
def State.queueCandidate (s : State) : Option Candidate :=
  (robin s.issuePtr).findSome? (fun st => match s.queueHead st with
    | some (t, e) => if s.headEligible st e then some (.queue st t) else none
    | none => none)

/-- R64: the candidates of priority 3 to 8, highest first. -/
def State.laterCandidate (s : State) : Option Candidate :=
  s.resetCandidate.or (s.identifyCandidate.or (s.pollCandidate.or (s.fetchCandidate.or
    (s.resumeCandidate.or s.queueCandidate))))

/-- R64, R65, R69: the choice, with the stray pairs it removes on its way. During a write payload only the HALT
of the writing exchange is eligible. The stray head is considered in its turn alone: that a choice which a HALT, a WITHDRAW
or a write payload decides before it removes no pair is the model's choice (log 39). -/
def State.choose (s : State) : State × Option Candidate :=
  match s.haltCandidate with
  | some c => (s, some c)
  | none =>
    if s.writeRunning then (s, none)
    else match s.withdrawCandidate with
      | some c => (s, some c)
      | none =>
        let s' := s.dropStray
        (s', s'.strayCandidate.or s'.laterCandidate)

/-! ## Requests (R3, R28, R29) -/

/-- R3: the request kind of an exchange kind. -/
def ExKind.request : ExKind → RequestKind
  | .readBlocks => .read | .writeBlocks => .write | .query => .query | .control => .control
  | .configureStation => .configure | .identifyStation => .identify | .resetStation => .reset

/-- R3, R177: the argument of an exchange's request. -/
def Exchange.requestArgument (e : Exchange) : Word :=
  match e.kind with
  | .readBlocks | .writeBlocks | .query | .control => e.argument
  | .configureStation => configureArgument e.lanes e.blockExp
  | .identifyStation | .resetStation => 0

/-- R3: the count of an exchange's request. -/
def Exchange.requestCount (e : Exchange) : BitVec 16 :=
  match e.kind with
  | .readBlocks | .writeBlocks | .control => e.count
  | .query | .configureStation | .identifyStation | .resetStation => 0

/-- R62, R70: a request chosen and about to be begun, with no attempt failed. -/
def Request.new (kind : RequestKind) (station : BitVec 4) (t : Tag) (argument : Word) (count : BitVec 16)
    (owner : Owner) : Request :=
  { kind := kind, station := station, tag := t, argument := argument, count := count, owner := owner,
    attemptsFailed := 0, lastFailure := none, phase := .sending, detached := false, abandoned := false }

/-- R3, R8: the request of an exchange. -/
def Request.ofExchange (t : Tag) (e : Exchange) : Request :=
  Request.new e.kind.request (slotNumber e.station) t e.requestArgument e.requestCount (.exchange t)

/-- R37, R70: the frame of a request is begun; the part drives CL, so the lane-low count is 0. -/
def State.beginFrame (s : State) (r : Request) : State :=
  let r' := { r with phase := .sending, abandoned := false }
  { s with current := some r', cl := .sending 0, clFrame := r'.frame, laneLow := 0 }

/-- R36, R77, R78: a POLL frame is begun: the flags are cleared and the poll timer restarts. -/
def State.beginPoll (s : State) (r : Request) : State :=
  ({ s with attention := false, pollDue := false, pollTimer := s.fullPoll }).beginFrame r

/-- R36: the POLL request. -/
def Request.poll : Request := Request.new .poll 0 0 0 0 .poll

/-- R3, R8: the size of a block at the station's current block exponent. -/
def State.blockSizeOf (s : State) (st : StationId) : Option Nat :=
  (s.station st).settings.map (fun x => 2 ^ x.2)

/-- R8: the head of a pending queue is issued. -/
def State.issueHead (s : State) (st : StationId) (t : Tag) (e : Exchange) : State :=
  ((s.setQueue st (s.queueOf st).tail).setExch t
    (some { e with state := .issuing, retriesUsed := some 0,
                   blockSize := if e.kind.payload then s.blockSizeOf st else e.blockSize })).beginFrame
    (Request.ofExchange t e)

/-- A request of an exchange that keeps its state: HALT or WITHDRAW is begun. -/
def State.beginFor (s : State) (t : Tag) (kind : RequestKind) : State :=
  match s.exch t with
  | some e =>
    (s.setExch t (some { e with retriesUsed := some 0 })).beginFrame
      (Request.new kind (slotNumber e.station) t 0 0 (.exchange t))
  | none => s

/-- R124: RESUME is begun for the head of the reconnect queue. -/
def State.beginResume (s : State) (t : Tag) : State :=
  match s.exch t with
  | some e =>
    ((({ s with reconnect := s.reconnect.tail }).moveTo t .resuming).modExch t
      (fun x => { x with retriesUsed := some 0 })).beginFrame
      (Request.new .resume (slotNumber e.station) t 0 0 (.exchange t))
  | none => s

/-- R64: the chosen candidate's frame is begun and its owner told. -/
def State.beginCandidate (s : State) : Candidate → State
  | .halt t => s.beginFor t .halt
  | .withdraw t => s.beginFor t .withdraw
  | .stray st t => s.beginFrame (Request.new .withdraw (slotNumber st) t 0 0 .strayWithdraw)
  | .reset st t =>
    match s.exch t with
    | some e => s.issueHead st t e
    | none => s
  | .autoIdentify st =>
    (s.modStation st (fun r => { r with identifyRetries := some 0 })).beginFrame
      (Request.new .identify (slotNumber st) 0 0 0 (.autoIdentify st))
  | .poll => s.beginPoll Request.poll
  | .fetch st =>
    ({ s with fetchPtr := nextIndex st, reservation := true }).beginFrame
      (Request.new .fetchNotice (slotNumber st) 0 0 0 (.fetchNotice st))
  | .resume t => s.beginResume t
  | .queue st t =>
    match s.exch t with
    | some e => { s.issueHead st t e with issuePtr := nextIndex st }
    | none => s

/-- R64: a choice is made. -/
def State.chooseAndBegin (s : State) : State :=
  match s.choose with
  | (s', some c) => s'.beginCandidate c
  | (s', none) => s'

/-- R75: a request abandoned on collision is begun again, or set aside while a POLL goes first. -/
def State.beginAbandoned (s : State) (r : Request) : State :=
  if r.kind = .poll then s.beginPoll r
  else if s.attention ∧ ¬ s.writeRunning then ({ s with setAside := some r }).beginPoll Request.poll
  else s.beginFrame r

/-- R34, R64: CL lets the part begin a request: it is idle, or high for a full guard gap during HOLD. -/
def State.laneOpen (s : State) : Bool := s.cl == .idle || s.cl == .hold

end Sys2Proof.Machine
end

