-- ==== Sys2Proof/Machine/Reply.lean ====
section
/-! DEFINITION. What a reply, a profile, or the failure of an attempt brings to the owner of the request
(R9 to R18, R50, R51, R53, R56, R71 to R74, R117, R120 to R127, R133 to R136). -/

namespace Sys2Proof.Machine

/-! ## Station side -/

/-- R58: a notices-waiting count is written; EMPTY keeps none. -/
def State.setNotices (s : State) (st : StationId) (n : Nat) : State :=
  if (s.station st).state = .empty then s else s.modStation st (fun r => { r with notices := n })

/-- R30, R71: the count of a good reply is handed over, when its station field is 1 to 8. -/
def State.handCount (s : State) (rep : Reply) : State :=
  match slotOfNumber rep.station.toNat with
  | some st => s.setNotices st rep.handedCount
  | none => s

/-- R57: BUSY to READ or WRITE sets the saturated flag. -/
def State.setSaturated (s : State) (st : StationId) : State :=
  s.modStation st (fun r => { r with saturation := some 0 })

/-- R11, R53: the settings of a CONFIGURE answered DONE become current. -/
def State.applySettings (s : State) (e : Exchange) : State :=
  if s.isReady e.station then s.modStation e.station (fun r => { r with settings := some (e.lanes, e.blockExp) })
  else s

/-- R56: a profile is consistent with a READY station. -/
def State.consistent (s : State) (st : StationId) (p : BitVec 128) : Bool :=
  match (s.station st).settings with
  | some (lanes, exp) =>
    decide (lanes ≤ Profile.maxLanes p) && decide (exp ≤ Profile.maxExp p)
      && decide (s.heldCount st ≤ Profile.depth p)
  | none => false

/-- R56: the profile an IDENTIFY_STATION exchange returned. -/
def State.stationProfile (s : State) (st : StationId) (p : BitVec 128) : State :=
  match (s.station st).state with
  | .faulted => if Profile.acceptable p then s.stationReady st p else s
  | .ready =>
    if Profile.acceptable p && s.consistent st p then s.modStation st (fun r => { r with profile := some p })
    else s.faultStation st .profileInvalid
  | .empty | .settling | .identifying | .resetting => s

/-- R50, R51: the profile of an automatic IDENTIFY is judged. -/
def State.judgeProfile (s : State) (st : StationId) (p : BitVec 128) : State :=
  if (s.station st).state = .identifying then
    if Profile.acceptable p then s.stationReady st p else s.faultStation st .profileInvalid
  else s

/-- R50: an automatic IDENTIFY ended without a profile. -/
def State.identifyFailed (s : State) (st : StationId) : State :=
  if (s.station st).state = .identifying then s.faultStation st .identifyFailed else s

/-- R55, R121: a FETCH_NOTICE failed. -/
def State.noticeFailed (s : State) (st : StationId) : State :=
  let s' := { s with reservation := false }
  if s'.isReady st then s'.faultStation st .noticeFailed else s'

/-! ## Exchange side: ISSUING -/

/-- R117, R125: an exchange enters DEFERRED, its timer at the full limit. -/
def Exchange.deferredFor (ns : Nat) (e : Exchange) : Exchange :=
  { e with state := .deferred, deferral := some ns, retriesUsed := none }

/-- The configured deferral limit in ns. -/
def State.deferralTime (s : State) : Nat := Cfg.deferralLimit s.cfg * nsPerMs

/-- R14: BUSY returns the tag to the head of its pending queue. -/
def State.busyRequeue (s : State) (t : Tag) (e : Exchange) : State :=
  ((s.modExch t (fun x => { x with state := .queued, retriesUsed := none })).setQueue e.station
    (t :: s.queueOf e.station)).setSaturated e.station

/-- R7, R15: REJECTED with its reason. -/
def State.endRejected (s : State) (t : Tag) (reason : Reason) : State := s.endWith t .rejected (reasonCode reason)

/-- R9 to R15, R117: a reply outcome to an exchange in ISSUING without a cancel mark. The DONE of an IDENTIFY
comes with its profile (`identifyDone`). -/
def State.answerIssue (s : State) (t : Tag) (e : Exchange) (value : Word) : ReplyOutcome → State
  | .done =>
    match e.kind with
    | .query => s.endWith t .success value
    | .control => s.endWith t .success 0
    | .configureStation => (s.applySettings e).endWith t .success 0
    | .resetStation => (s.recordCause t .success 0).stationResetDone e.station t
    | .readBlocks | .writeBlocks | .identifyStation => s.endWith t .protocol 0
  | .accepted => if e.kind.payload then s.acceptTransfer t e else s.endWith t .protocol 0
  | .deferred =>
    if e.kind.payload then s.modExch t (Exchange.deferredFor s.deferralTime) else s.endWith t .protocol 0
  | .busy => if e.kind.payload then s.busyRequeue t e else s.endWith t .protocol 0
  | .rejected reason => s.endRejected t reason
  | .undefined => s.endWith t .protocol 0

/-- R126, R133, R135: an exchange enters WITHDRAWING from a reply; the saturated flag stays (R57, R135). -/
def Exchange.withdrawn (e : Exchange) : Exchange :=
  { e with state := .withdrawing, retriesUsed := none, deferral := none }

/-- R133, R136: a reply outcome to a marked exchange in ISSUING. -/
def State.answerMarkedIssue (s : State) (t : Tag) (e : Exchange) : ReplyOutcome → State
  | .done =>
    match e.kind with
    | .configureStation => (s.applySettings e).complete t
    | .resetStation => s.stationResetDone e.station t
    | .readBlocks | .writeBlocks | .query | .control | .identifyStation => s.complete t
  | .accepted => if e.kind.payload then s.acceptHalted t e else s.complete t
  | .deferred => if e.kind.payload then s.modExch t Exchange.withdrawn else s.complete t
  | .busy => if e.kind.payload then (s.setSaturated e.station).complete t else s.complete t
  | .rejected _ => s.complete t
  | .undefined => s.complete t

/-! ## Exchange side: RESUMING -/

/-- R125: an outcome to RESUME without a cancel mark. A RESUME answered DEFERRED or BUSY leaves the saturated
flag as it is (R57). -/
def State.answerResume (s : State) (t : Tag) (e : Exchange) : ReplyOutcome → State
  | .accepted => s.acceptTransfer t e
  | .deferred => s.modExch t (Exchange.deferredFor s.deferralTime)
  | .busy =>
    { s.modExch t (fun x => { x with state := .reconnecting, retriesUsed := none }) with
      reconnect := s.reconnect ++ [t] }
  | .rejected reason => s.endRejected t reason
  | .done => s.endWith t .protocol 0
  | .undefined => s.endWith t .protocol 0

/-- R135: an outcome to RESUME of a marked exchange. -/
def State.answerMarkedResume (s : State) (t : Tag) (e : Exchange) : ReplyOutcome → State
  | .accepted => s.acceptHalted t e
  | .deferred => s.modExch t Exchange.withdrawn
  | .busy => s.modExch t Exchange.withdrawn
  | .rejected _ => s.complete t
  | .done => s.complete t
  | .undefined => s.complete t

/-- R9, R18, R125, R126, R133, R135: an outcome delivered to the exchange that owns the request. -/
def State.answerExchange (s : State) (t : Tag) (o : ReplyOutcome) (value : Word) : State :=
  match s.exch t with
  | some e =>
    match e.state with
    | .issuing => if e.cancelMark then s.answerMarkedIssue t e o else s.answerIssue t e value o
    | .resuming => if e.cancelMark then s.answerMarkedResume t e o else s.answerResume t e o
    | .halting => s.complete t
    | .withdrawing => s.complete t
    | .queued | .deferred | .reconnecting | .transfer | .completing => s
  | none => s

/-- R12, R56, R133: DONE to IDENTIFY of an exchange, with its profile. -/
def State.identifyDone (s : State) (t : Tag) (p : BitVec 128) : State :=
  match s.exch t with
  | some e =>
    if e.state = .issuing then
      if e.cancelMark then (s.complete t).stationProfile e.station p
      else match e.seg with
        | some seg =>
          let job : ProfileJob := { tag := t, bytes := p, walk := Walk.start seg, started := false, placed := 0,
                                    issued := 0, ended := 0 }
          let s1 := s.enterCompleting t
          ({ s1 with profiles := s1.profiles ++ [job] }).stationProfile e.station p
        | none => (s.enterCompleting t).stationProfile e.station p
    else s
  | none => s

/-! ## Notices (R120 to R122, R128) -/

/-- R122, R127: a stray pair joins the queue, unless the queue holds it. -/
def State.addStray (s : State) (st : StationId) (t : Tag) : State :=
  if (st, t) ∈ s.stray then s else { s with stray := s.stray ++ [(st, t)] }

/-- R122: a fetched READY. -/
def State.matchReady (s : State) (st : StationId) (t : Tag) : State :=
  match s.exch t with
  | some e =>
    if e.station = st then
      match e.state with
      | .deferred =>
        if e.cancelMark then s.addStray st t
        else
          let s' := (s.moveTo t .reconnecting).modExch t (fun x => { x with deferral := none })
          { s' with reconnect := s'.reconnect ++ [t] }
      | .reconnecting | .resuming | .withdrawing => s
      | .queued | .issuing | .transfer | .halting | .completing => s.addStray st t
    else s.addStray st t
  | none => s.addStray st t

/-- R119, R128: an ALERT takes the place the fetch reservation held. -/
def State.takeAlert (s : State) (st : StationId) (code : Byte) : State :=
  if s.reservation then { s with reservation := false }.pushEvent (.stationAlert st code) else s

/-- R120, R121: a reply outcome to FETCH_NOTICE. -/
def State.fetchAnswered (s : State) (st : StationId) (o : ReplyOutcome) (value : Word) : State :=
  match o with
  | .done =>
    match noticeOfValue value with
    | .none => { s with reservation := false }
    | .ready t => { s with reservation := false }.matchReady st t
    | .alert code => s.takeAlert st code
    | .undefined => s.noticeFailed st
  | .accepted | .deferred | .busy | .rejected _ | .undefined => s.noticeFailed st

/-! ## Delivery, failure and exhaustion (R71 to R74) -/

/-- R71, R74: the attempt has succeeded: the request record becomes absent and the outcome is delivered to the
owner, to no one for a detached request. -/
def State.deliver (s : State) (r : Request) (o : ReplyOutcome) (value : Word) : State :=
  let s' := { s with current := none }
  if r.detached then s'
  else match r.owner with
    | .exchange t => s'.answerExchange t o value
    | .autoIdentify st => s'.identifyFailed st
    | .fetchNotice st => s'.fetchAnswered st o value
    | .strayWithdraw => { s' with stray := s'.stray.tail }
    | .poll => s'

/-- R12, R50, R71: DONE to IDENTIFY with a good profile is delivered. -/
def State.deliverProfile (s : State) (r : Request) (p : BitVec 128) : State :=
  let s' := { s with current := none }
  if r.detached then s'
  else match r.owner with
    | .exchange t => s'.identifyDone t p
    | .autoIdentify st => s'.judgeProfile st p
    | .fetchNotice _ | .strayWithdraw | .poll => s'

/-- R16, R73: the status of an exhausted exchange request. -/
def exhaustedStatus : FailKind → Status
  | .window => .replyTimeout
  | .check => .replyCheck

/-- R73: the retries of a request are exhausted. -/
def State.exhausted (s : State) (r : Request) (kind : FailKind) : State :=
  let s' := { s with current := none }
  match r.owner with
  | .exchange t =>
    match r.kind with
    | .halt => s'.startLinkReset .haltFailed
    | .withdraw => s'.startLinkReset .withdrawFailed
    | .identify | .configure | .read | .write | .query | .control | .resume | .poll | .fetchNotice | .reset =>
      s'.endWith t (exhaustedStatus kind) 0
  | .autoIdentify st => s'.identifyFailed st
  | .fetchNotice st => s'.noticeFailed st
  | .strayWithdraw => { s' with stray := s'.stray.tail }
  | .poll => s'

/-- R62, R72: the owner's retries-used field follows attempts failed. -/
def State.countRetry (s : State) (r : Request) (n : Nat) : State :=
  match r.owner with
  | .exchange t => s.modExch t (fun e => { e with retriesUsed := some n })
  | .autoIdentify st => s.modStation st (fun x => { x with identifyRetries := some n })
  | .fetchNotice _ | .strayWithdraw | .poll => s

/-- R72, R134: the exchange whose own request, or RESUME, is not resent on an expired window. -/
def State.markedOwner (s : State) (r : Request) : Option Tag :=
  match r.owner with
  | .exchange t =>
    match s.exch t with
    | some e => if e.cancelMark ∧ (e.state = .issuing ∨ e.state = .resuming) then some t else none
    | none => none
  | .autoIdentify _ | .fetchNotice _ | .strayWithdraw | .poll => none

/-- R72: an attempt fails: resent while the retry limit allows, else exhausted. A detached request is not resent
and reports nothing (R74). -/
def State.retryOrExhaust (s : State) (r : Request) (kind : FailKind) : State :=
  if r.detached then { s with current := none }
  else if r.attemptsFailed < s.retryLimit then
    ({ s with current := some { r with attemptsFailed := r.attemptsFailed + 1, lastFailure := some kind,
                                       phase := .toSend, abandoned := false } }).countRetry r (r.attemptsFailed + 1)
  else s.exhausted r kind

/-- R33, R72, R134: the reply window of a request expires. -/
def State.windowOver (s : State) (r : Request) : State :=
  if r.detached then { s with current := none }
  else match s.markedOwner r with
    | some t => { s with current := none }.complete t
    | none => s.retryOrExhaust r .window

/-- R71: a reply to a request is matched. -/
def Request.matches (r : Request) (rep : Reply) : Bool := rep.station == r.station && rep.tag == tagBits r.tag

/-- R31, R71, R74: a reply frame has been received for the current request. The guard gap begins, or the profile
interval after a reply to IDENTIFY. That a bad check here does not set the attention flag, also where the request is the
HALT of an exchange in HOLD (R34, R77), is the model's choice (log 34). -/
def State.takeReply (s : State) (r : Request) (rep : Option Reply) : State :=
  match rep with
  | none =>
    if r.kind = .identify then
      { s with current := some { r with phase := .receiving }, cl := .profile (.discard .check) }
    else s.beginGap.retryOrExhaust r .check
  | some p =>
    let s1 := s.handCount p
    if r.kind = .identify ∧ p.outcome = .done then
      { s1 with current := some { r with phase := .receiving },
                cl := .profile (if r.matches p then .judge else .discard .window) }
    else if r.matches p then s1.beginGap.deliver r p.outcome p.value
    else s1.beginGap.retryOrExhaust r .window

/-- R31, R71: the profile interval has ended. -/
def State.takeProfile (s : State) (r : Request) (use : ProfileUse) (frame : BitVec 144) : State :=
  match use with
  | .discard kind => s.beginGap.retryOrExhaust r kind
  | .judge =>
    match parseProfile frame with
    | some p => s.beginGap.deliverProfile r p
    | none => s.beginGap.retryOrExhaust r .check

/-- R33: the request a reply can come for: its window is open or its frame is arriving. POLL has no reply (R36). -/
def State.awaited (s : State) : Option Request :=
  match s.current with
  | some r =>
    if r.kind ≠ .poll ∧ (r.phase = .awaiting ∨ r.phase = .receiving) then
      match s.cl with
      | .window _ | .receiving => some r
      | .stopped | .idle | .sending _ | .profile _ | .pollSlots | .guardGap _ | .tokenWindow _ | .tokenReceiving
      | .low | .hold | .signalling _ => none
    else none
  | none => none

/-- R37, R42, R76, R79: a token frame the payload engine expects. The lane-low count goes on by its levels, the guard gap
after it begins (R34), and it is handed over. A run of lows that passes 4096 within the frame is a stuck lane: its link
reset breaks the frame off, and begins at the frame's report (log 12). -/
def State.hearToken (s : State) (f : BitVec 32) (tok : Token) : State :=
  if lowPasses s.laneLow 1 f then s.startLinkReset .laneStuck else (s.hear 1 f).beginGap.takeToken tok

/-- R76: a token frame reaches the engine. While a request of the part awaits its reply the frame is received as
a reply with a bad check, whose other periods are high (R26); otherwise it goes to the payload engine. -/
def State.tokenReceived (s : State) (f : BitVec 32) (tok : Token) : State :=
  if s.live then
    match s.awaited with
    | some r => { s with laneLow := 0 }.takeReply r none
    | none => if s.tokenExpected then s.hearToken f tok else s
  else s

end Sys2Proof.Machine
end

