-- ==== Sys2Proof/Machine/Admission.lean ====
section
/-! DEFINITION. Submission rings and admission (chapter 9) and cancellation (chapter 8). -/

namespace Sys2Proof.Machine

/-! ## Ring faults (R145) -/

/-- R145: a ring enters FAULTED; a ring already FAULTED keeps its cause and its latch. -/
def State.faultRing (s : State) (r : RingId) (cause : RingCause) : State :=
  if (s.subRing r).state = .faulted then s
  else
    { (s.modSubRing r (fun x => { x with state := .faulted, cause := some cause })).setRingFault r with
      ringLatch := s.ringLatch.set r (some cause) }

/-! ## The checks of admission (R148, R149) -/

/-- R148: the first step: a link kind, against itself and the configuration. -/
def State.linkWellFormed (s : State) (k : ExKind) (w : BitVec 512) : Bool :=
  (slotOfNumber (Wr.stationByte w)).isSome &&
  match k with
  | .readBlocks | .writeBlocks => decide (1 ≤ (Wr.count w).toNat ∧ (Wr.count w).toNat ≤ 4096)
  | .control => decide ((Wr.count w).toNat ≤ 255)
  | .configureStation =>
    (Wr.lanes w == 1 || Wr.lanes w == 2 || Wr.lanes w == 4) && decide (Wr.lanes w ≤ Cfg.laneLimit s.cfg)
      && decide (6 ≤ Wr.blockExp w ∧ Wr.blockExp w ≤ 11)
  | .identifyStation => Wr.list w || decide (16 ≤ Wr.inlineTotal w)
  | .query | .resetStation => true

/-- R149: the second step: the station's state admits the kind. -/
def State.stationTakes (s : State) (k : ExKind) (st : StationId) : Bool :=
  match k with
  | .readBlocks | .writeBlocks | .query | .control | .configureStation => s.isReady st
  | .identifyStation | .resetStation => s.readyOrFaulted st

/-- R52: the pending block exponent of a station. -/
def Station.pendingExp (r : Station) : Nat :=
  match r.pendingConfigs.getLast? with
  | some c => c.blockExp
  | none => match r.settings with
    | some (_, exp) => exp
    | none => 0

/-- R149: the third step: against the station record. -/
def State.stationAgrees (s : State) (k : ExKind) (st : StationId) (w : BitVec 512) : Bool :=
  match k with
  | .configureStation =>
    match (s.station st).profile with
    | some p => decide (Wr.lanes w ≤ Profile.maxLanes p ∧ Wr.blockExp w ≤ Profile.maxExp p)
    | none => false
  | .readBlocks | .writeBlocks =>
    Wr.list w || Wr.inlineTotal w == (Wr.count w).toNat * 2 ^ (s.station st).pendingExp
  | .query | .control | .identifyStation | .resetStation => true

/-- What admission makes of a held work request. -/
inductive Judgement where
  /-- An exchange of this kind at this station. -/
  | exchange (k : ExKind) (st : StationId)
  /-- An immediate completion with this status. -/
  | immediate (st : Status)
  /-- A CANCEL naming this ring and request id. -/
  | cancel (ring : RingId) (id : BitVec 16)
deriving DecidableEq, Repr

/-- R148: the ring a target ring byte names. -/
def ringOfNumber (n : Nat) : Option RingId := if h : n < 4 then some ⟨n, h⟩ else none

/-- R148, R149: the three steps; the first that fails decides. -/
def State.judge (s : State) (w : BitVec 512) : Judgement :=
  match Wr.kind w with
  | none => .immediate .malformed
  | some .nop => .immediate .success
  | some .cancel =>
    match ringOfNumber (Wr.targetRing w) with
    | some r => .cancel r (Wr.targetId w)
    | none => .immediate .malformed
  | some (.link k) =>
    if s.linkWellFormed k w then
      match slotOfNumber (Wr.stationByte w) with
      | some st =>
        if s.stationTakes k st then
          if s.stationAgrees k st w then .exchange k st else .immediate .malformed
        else .immediate .stationAbsent
      | none => .immediate .malformed
    else .immediate .malformed

/-! ## Exchanges (R4, R52) -/

/-- R4: the lowest-numbered FREE slot. -/
def State.freeSlot (s : State) : Option Tag := allTags.find? (fun t => (s.exch t).isNone)

/-- R2: the segment kinds. -/
def ExKind.hasSegments : ExKind → Bool
  | .readBlocks => true | .writeBlocks => true | .identifyStation => true
  | .query => false | .control => false | .configureStation => false | .resetStation => false

/-- R3, R4: the record of an exchange at admission. -/
def Exchange.ofWr (k : ExKind) (st : StationId) (r : RingId) (index : Nat) (w : BitVec 512) : Exchange :=
  { state := .queued, kind := k, ring := r, wrIndex := BitVec.ofNat 16 index, requestId := Wr.requestId w,
    station := st, argument := Wr.argument w, count := Wr.count w, lanes := Wr.lanes w, blockExp := Wr.blockExp w,
    seg := if k.hasSegments then some { list := Wr.list w, d0 := Wr.d0 w, d1 := Wr.d1 w } else none,
    cursor := if k.hasSegments then some { index := 0, offset := 0 } else none,
    blockSize := none, blocksDone := none, linkFinished := none,
    bytesMoved := if k = .identifyStation then some 0 else none,
    retriesUsed := none, deferral := none, cancelMark := false, final := none }

/-- R52: an admitted CONFIGURE_STATION joins the pending configuration list. -/
def Station.addConfig (k : ExKind) (c : PendingConfig) (r : Station) : Station :=
  if k = .configureStation then { r with pendingConfigs := r.pendingConfigs ++ [c] } else r

/-- R4, R52: an exchange is placed in slot `t`; its holding position empties. -/
def State.placeExchange (s : State) (t : Tag) (k : ExKind) (st : StationId) (r : RingId) (index : Nat)
    (w : BitVec 512) : State :=
  let e := Exchange.ofWr k st r index w
  (((s.setExch t (some e)).setQueue st (s.queueOf st ++ [t])).modStation st
    (Station.addConfig k { tag := t, lanes := e.lanes, blockExp := e.blockExp })).modSubRing r
    (fun x => { x with holding := .empty })

/-! ## Cancellation (R130 to R132, R137) -/

/-- R130: an exchange matches a CANCEL. -/
def Exchange.matchesCancel (ring : RingId) (id : BitVec 16) (e : Exchange) : Bool :=
  e.ring == ring && e.requestId == id

/-- R131: a matching exchange is found: it has no cause and is not in HALTING, WITHDRAWING or COMPLETING. -/
def Exchange.cancellable (e : Exchange) : Bool :=
  e.final.isNone && match e.state with
  | .queued => true | .issuing => true | .deferred => true | .reconnecting => true | .resuming => true
  | .transfer => true | .halting => false | .withdrawing => false | .completing => false

/-- R130: the tags a CANCEL matches. -/
def State.cancelMatches (s : State) (ring : RingId) (id : BitVec 16) : List Tag :=
  allTags.filter (fun t => match s.exch t with
    | some e => e.matchesCancel ring id
    | none => false)

/-- R131: the tags a CANCEL finds. -/
def State.cancelFinds (s : State) (ring : RingId) (id : BitVec 16) : List Tag :=
  allTags.filter (fun t => match s.exch t with
    | some e => e.matchesCancel ring id && e.cancellable
    | none => false)

/-- R131: the cancel mark and CANCELLED. -/
def Exchange.cancelled (e : Exchange) : Exchange := { e.record .cancelled 0 with cancelMark := true }

/-- R126, R132: an exchange enters WITHDRAWING from DEFERRED or RECONNECTING. -/
def State.enterWithdrawing (s : State) (t : Tag) : State :=
  ({ s.moveTo t .withdrawing with reconnect := s.reconnect.filter (· != t) }).modExch t
    (fun x => { x with deferral := none })

/-- R132: the treatment of a found exchange by its state, all but its joining of a waiting list. -/
def State.cancelOne (s : State) (t : Tag) : State :=
  match s.exch t with
  | some e =>
    let s' := s.modExch t Exchange.cancelled
    match e.state with
    | .queued => s'.enterCompleting t
    | .issuing | .resuming => s'
    | .deferred | .reconnecting => s'.enterWithdrawing t
    | .transfer => if e.readFinished then s'.enterCompleting t else s'.enterHalting t
    | .halting | .withdrawing | .completing => s'
  | none => s

/-- R137: the status of a CANCEL that finds `found` of `matching` exchanges. -/
def cancelStatus (found matching : Nat) : Status :=
  if found ≠ 0 then .success else if matching ≠ 0 then .tooLate else .notFound

/-! ## Immediate completions (R150) -/

/-- R150: a held work request enters COMPLETING in its holding position. -/
def State.holdCompleting (s : State) (r : RingId) (w : BitVec 512) (index : Nat) (st : Status) (v : Word) : State :=
  s.modSubRing r (fun x => { x with holding := .completing w index st v })

/-- R131, R132, R137, R156: an admitted CANCEL. What it completes joins together with its own record. -/
def State.takeCancel (s : State) (r : RingId) (w : BitVec 512) (index : Nat) (ring : RingId) (id : BitVec 16) :
    State :=
  let found := s.cancelFinds ring id
  let status := cancelStatus found.length (s.cancelMatches ring id).length
  ((found.foldl State.cancelOne s).holdCompleting r w index status (BitVec.ofNat 32 found.length)).joinTogether
    (found.map Source.exchange ++ [.holding r])

/-- R151: a fenced ring returns from FENCE_WAIT to ACTIVE when its work request is admitted. -/
def State.fencePassed (s : State) (r : RingId) : State :=
  s.modSubRing r (fun x => { x with state := if x.state = .fenceWait then .active else x.state })

/-- R150: what the held work request of ring `r` becomes. -/
def State.takeHeld (s : State) (r : RingId) (w : BitVec 512) (index : Nat) : State :=
  match s.judge w with
  | .exchange k st =>
    match s.freeSlot with
    | some t => (s.fencePassed r).placeExchange t k st r index w
    | none => s
  | .immediate st => ((s.fencePassed r).holdCompleting r w index st 0).join (.holding r)
  | .cancel ring id => (s.fencePassed r).takeCancel r w index ring id

/-! ## The arbiter (R152) -/

/-- R151: the fence of a held work request is met. -/
def SubRing.fenceMet (x : SubRing) (w : BitVec 512) : Bool := !(Wr.fence w) || x.outstanding == 1

/-- R152: the held work request of a ring is admissible. -/
def State.admissible (s : State) (r : RingId) : Bool :=
  match (s.subRing r).holding with
  | .waiting w _ =>
    s.live && (s.subRing r).fenceMet w && match s.judge w with
      | .exchange _ _ => s.freeSlot.isSome
      | .immediate _ => true
      | .cancel _ _ => true
  | .empty => false
  | .fetching _ => false
  | .completing _ _ _ _ => false

/-- A ring is used when the configuration gave it its fields (R141). -/
def State.usedRing (s : State) (r : RingId) : Bool := (s.subRing r).cfg.isSome

/-- The rings after `r` in ring order, wrapping, `r` itself last. -/
def ringsAfter (r : RingId) : List RingId :=
  [1, 2, 3, 4].map (fun k => ⟨(r.val + k) % 4, Nat.mod_lt _ (by decide)⟩)

/-- R152: the credit a ring brings. -/
def State.weightOf (s : State) (r : RingId) : Nat :=
  match (s.subRing r).cfg with
  | some c => c.weight
  | none => 0

/-- R152: the pointer moves to a ring and the credit is loaded with its weight. -/
def State.pointAt (s : State) (r : RingId) : State := { s with arbPtr := r, arbCredit := s.weightOf r }

/-- R152 step 1: the credit falls by one; at 0 the pointer moves to the next used ring. -/
def State.spendCredit (s : State) : State :=
  if s.arbCredit - 1 = 0 then
    match (ringsAfter s.arbPtr).find? s.usedRing with
    | some r => s.pointAt r
    | none => { s with arbCredit := 0 }
  else { s with arbCredit := s.arbCredit - 1 }

/-- R152 step 1: the work request of the pointer's ring is admitted. -/
def State.admitPointed (s : State) : State :=
  match (s.subRing s.arbPtr).holding with
  | .waiting w index => (s.spendCredit).takeHeld s.arbPtr w index
  | .empty | .fetching _ | .completing _ _ _ _ => s

/-- R144: a holding position is FETCHING. -/
def Holding.isFetching : Holding → Bool
  | .fetching _ => true
  | .empty => false | .waiting _ _ => false | .completing _ _ _ _ => false

/-- R152: the arbiter makes a choice, whenever an admissible work request exists. -/
def State.arbitrate (s : State) : State :=
  if s.admissible s.arbPtr then s.admitPointed
  else if (s.subRing s.arbPtr).holding.isFetching then s
  else match (ringsAfter s.arbPtr).find? (fun r => s.usedRing r && s.admissible r) with
    | some r => (s.pointAt r).admitPointed
    | none => s

end Sys2Proof.Machine
end

