-- ==== Sys2Proof/Machine/DeviceControl.lean ====
section
/-! DEFINITION. Device control (chapter 11): resets, the commands of the COMMAND word, loading the configuration
block, entering RUNNING, and the end of a drain. -/

namespace Sys2Proof.Machine

/-! ## Resets (R176) -/

/-- POWER_ON (R176). -/
def execPowerOn (s : State) : Result := .next s.powerOn

/-- HOST_LINK_RESET_INPUT (R176): as power-on. -/
def execHostLinkResetInput (s : State) : Result := .next s.powerOn

/-- ENDPOINT_FUNCTION_RESET (R176): as FUNCTION_RESET. -/
def execEndpointFunctionReset (s : State) : Result := .next s.functionReset

/-- FUNCTION_RESET (R169, R176): taken in any state. -/
def execFunctionReset (s : State) : Result := .next s.functionReset

/-! ## Loading (R170) -/

/-- R169: a refused command. -/
def State.refuseCommand (s : State) : State := s.setResult .refused

/-- An access is a read of the configuration block. -/
def Access.isConfigRead (a : Access) : Bool :=
  match a.purpose with
  | .configRead _ => true
  | .fetch _ | .descriptor _ | .profileDescriptor _ | .dataWrite _ | .dataRead _ _ _ | .profileWrite _
  | .record _ => false

/-- R170, R173: the reads of a load that has ended are abandoned: their reports will be dropped. -/
def State.abandonLoad (s : State) : State :=
  { s with accesses := s.accesses.filter (fun a => !a.isConfigRead),
           device := { s.device with load := Vector.replicate 4 none } }

/-- R168, R170, R171, R173: loading ends in OFF with a result, and the device vector is sent. -/
def State.endLoading (s : State) (r : CommandResult) : State :=
  ((s.abandonLoad.setResult r).setDeviceState .off).sendDeviceVector

/-- R170: one of the four reads of the configuration block. -/
def State.issueConfigRead (s : State) (part : Fin 4) : State :=
  s.issue (.configRead part) (s.device.configBase + BitVec.ofNat 64 (64 * part.val)) 64 []

/-- R170: ENABLE taken in OFF. -/
def State.beginLoading (s : State) : State :=
  let s1 := { s with device := { s.device with ringFault := Vector.replicate 4 false, result := .none,
                                               state := .loading, load := Vector.replicate 4 none } }
  if s.device.configBase.toNat % 256 = 0 then
    (((s1.issueConfigRead 0).issueConfigRead 1).issueConfigRead 2).issueConfigRead 3
  else s1.endLoading .configInvalid

/-- R169, R170: ENABLE by device state. -/
def State.takeEnable (s : State) : State :=
  if s.device.state = .off then s.beginLoading else s.refuseCommand

/-- R169, R173: DISABLE by device state. -/
def State.takeDisable (s : State) : State :=
  match s.device.state with
  | .loading => s.endLoading .ok
  | .running => (s.setResult .ok).setDeviceState .draining
  | .off | .draining | .stopped => s.refuseCommand

/-- R169, R174: LINK_RESET by device state. -/
def State.takeLinkReset (s : State) : State :=
  if s.live then (s.setResult .ok).startLinkReset .hostCommand else s.refuseCommand

/-- ENABLE (R169, R170). -/
def execEnable (s : State) : Result := .next s.takeEnable

/-- DISABLE (R169, R173). -/
def execDisable (s : State) : Result := .next s.takeDisable

/-- LINK_RESET (R169, R174). -/
def execLinkReset (s : State) : Result := .next s.takeLinkReset

/-- R169, R181: a write of a code to COMMAND. -/
def State.writeCommand (s : State) (code : Word) : State :=
  match code.toNat with
  | 1 => s.takeEnable
  | 2 => s.takeDisable
  | 3 => s.takeLinkReset
  | 4 => s.functionReset
  | _ => s.refuseCommand

/-- UNDEFINED_COMMAND (R169). A code that does name a command is taken as that command (log 16). -/
def execUndefinedCommand (code : Word) (s : State) : Result := .next (s.writeCommand code)

/-! ## Judging the block and entering RUNNING (R171, R172) -/

/-- R170: the 256 bytes, once all four reads have completed. -/
def Device.loadedBlock (d : Device) : Option (BitVec 2048) :=
  match d.load[0], d.load[1], d.load[2], d.load[3] with
  | some a, some b, some c, some e => some ((e ++ c ++ b ++ a : BitVec (512 + 512 + 512 + 512)).setWidth 2048)
  | _, _, _, _ => none

/-- R141: a submission ring on entry to RUNNING. -/
def SubRing.configured (c : BitVec 2048) (r : RingId) : SubRing :=
  if Cfg.subExp c r = 0 then SubRing.reset
  else
    { SubRing.reset with
      state := .active,
      cfg := some { base := Cfg.subBase c r, size := 2 ^ Cfg.subExp c r, weight := Cfg.subWeight c r,
                    cring := ⟨Cfg.subCring c r % 4, Nat.mod_lt _ (by decide)⟩ } }

/-- R155: a completion ring on entry to RUNNING. -/
def CRing.configured (c : BitVec 2048) (r : RingId) : Option CRing :=
  if Cfg.compExp c r = 0 then none
  else
    some { base := Cfg.compBase c r, size := 2 ^ Cfg.compExp c r, tail := 0, head := 0, unreleased := 0,
           phase := true, threshold := Cfg.compThreshold c r, delay := Cfg.compDelay c r, modCount := 0,
           delayTimer := none, writing := none }

/-- R47: a station record on entry to RUNNING. -/
def Station.watched (r : Station) : Station := { r with level := some false, debounce := some 0 }

/-- R152: the arbiter on entry to RUNNING. -/
def State.setArbiter (s : State) : State :=
  match allRings.find? s.usedRing with
  | some r => s.pointAt r
  | none => s

/-- R171, R172: a valid block becomes the configuration copy and the device enters RUNNING. -/
def State.enterRunning (s : State) (c : BitVec 2048) : State :=
  let s1 := (s.abandonLoad.setResult .ok).setDeviceState .running
  let s2 :=
    { s1 with
      device := { s1.device with config := some c, lck := some (BitVec.ofNat 8 (Cfg.rateCode c)) },
      subRings := #v[SubRing.configured c 0, SubRing.configured c 1, SubRing.configured c 2, SubRing.configured c 3],
      crings := #v[CRing.configured c 0, CRing.configured c 1, CRing.configured c 2, CRing.configured c 3] }
  let s3 := allStations.foldl (fun a st => a.modStation st Station.watched) s2
  (s3.setArbiter.startLinkReset .startUp).sendDeviceVector

/-- R171: the block is judged. -/
def State.judgeConfig (s : State) (c : BitVec 2048) : State :=
  if Cfg.valid c then s.enterRunning c else s.endLoading .configInvalid

/-- R170: the part of the configuration block that an access reads, if a load waits for it. -/
def State.configPart (s : State) (id : Nat) : Option (Fin 4) :=
  if s.device.state = .loading then
    match s.access id with
    | some a =>
      match a.purpose with
      | .configRead part => some part
      | .fetch _ | .descriptor _ | .profileDescriptor _ | .dataWrite _ | .dataRead _ _ _ | .profileWrite _
      | .record _ => none
    | none => none
  else none

/-- R170: a part of the configuration block has been read. -/
def State.keepPart (s : State) (id : Nat) (part : Fin 4) (data : BitVec 512) : State :=
  let s1 := s.endAccess id
  { s1 with device := { s1.device with load := s1.device.load.set part (some data) } }

/-- R170: a completed read of the configuration block. -/
def State.configRead (s : State) (id : Nat) (data : BitVec 512) : State :=
  match s.configPart id with
  | some part =>
    let s1 := s.keepPart id part data
    match s1.device.loadedBlock with
    | some c => s1.judgeConfig c
    | none => s1
  | none => s

/-- R170: a faulted read of the configuration block. -/
def State.configFault (s : State) (id : Nat) : State :=
  match s.configPart id with
  | some _ => s.endLoading .configFetchFault
  | none => s

/-- CONFIG_READ_COMPLETE (R170, R171, R172). -/
def execConfigReadComplete (access : Nat) (data : BitVec 512) (s : State) : Result := .next (s.configRead access data)

/-- CONFIG_READ_FAULT (R170). -/
def execConfigReadFault (access : Nat) (s : State) : Result := .next (s.configFault access)

/-! ## The end of a drain (R165, R173) -/

/-- R144: a holding position is EMPTY. -/
def Holding.isEmpty : Holding → Bool
  | .empty => true
  | .fetching _ => false | .waiting _ _ => false | .completing _ _ _ _ => false

/-- R173: the drain condition. -/
def State.drained (s : State) : Bool :=
  allTags.all (fun t => (s.exch t).isNone) && allRings.all (fun r => (s.subRing r).holding.isEmpty)
    && s.eventQueue.isEmpty && allStations.all (fun st => (s.station st).latch.isNone)
    && allRings.all (fun r => (s.ringLatch[r]).isNone) && s.linkLatch.isNone && !s.reservation

/-- R165: a used ring whose moderation count is above 0 sends its vector. -/
def State.flushVector (s : State) (r : RingId) : State :=
  match s.cring r with
  | some c => if 0 < c.modCount then s.sendVector (ringVector r) else s
  | none => s

/-- R165, R173: the device enters OFF from DRAINING. The order in which several rings send their vectors, ascending here, is
the model's choice (log 38). -/
def State.endDrain (s : State) : State :=
  let s1 := allRings.foldl State.flushVector s
  ({ s1.clearBlocks with device := { s1.device with state := .off, config := none, lck := none } }).sendDeviceVector

/-- DRAIN_COMPLETE (R173). -/
def execDrainComplete (s : State) : Result :=
  .next (if s.device.state = .draining ∧ s.drained = true then s.endDrain else s)

end Sys2Proof.Machine
end

