-- ==== Sys2Proof/Machine/Rings.lean ====
section
/-! DEFINITION. Submission rings (chapter 9): POST, fetching and the arbiter's choice; and RELEASE (R160), with the
register window's writes (R166). -/

namespace Sys2Proof.Machine

/-! ## POST and RELEASE -/

/-- R181: the ring of a POST or RELEASE value, bits 17-16. -/
def ringField (v : Word) : RingId := ⟨(v.extractLsb' 16 2).toNat, (v.extractLsb' 16 2).isLt⟩

/-- R181: the index of a POST or the head of a RELEASE, bits 15-0. -/
def indexField (v : Word) : Nat := (v.extractLsb' 0 16).toNat

/-- R142: the ring takes a POST: ACTIVE or FENCE_WAIT, with its size. -/
def SubRing.postSize (x : SubRing) : Option Nat :=
  match x.state with
  | .active | .fenceWait => x.cfg.map (·.size)
  | .unused | .faulted => none

/-- R143: a host write to the post word. -/
def State.takePost (s : State) (v : Word) : State :=
  if s.live then
    match (s.subRing (ringField v)).postSize with
    | some size =>
      if indexField v < size then
        (s.modSubRing (ringField v) (fun x => { x with postIdx := indexField v })).setPostIgnored false
      else s.faultRing (ringField v) .badPost
    | none => s.setPostIgnored true
  else s.setPostIgnored true

/-- POST (R143). -/
def execPost (value : Word) (s : State) : Result := .next (s.takePost value)

/-- R160: the number of entries a RELEASE hands back. -/
def CRing.handedBack (c : CRing) (head : Nat) : Nat := if c.head ≤ head then head - c.head else head + c.size - c.head

/-- R160: a host write to the release word. -/
def State.takeRelease (s : State) (v : Word) : State :=
  if s.live then
    match s.cring (ringField v) with
    | some c =>
      let d := c.handedBack (indexField v)
      if indexField v < c.size ∧ d ≤ c.unreleased then
        (s.setCring (ringField v) { c with head := indexField v, unreleased := c.unreleased - d }).setReleaseRefused
          false
      else s.setReleaseRefused true
    | none => s.setReleaseRefused true
  else s

/-- RELEASE (R160). -/
def execRelease (value : Word) (s : State) : Result := .next (s.takeRelease value)

/-! ## The register window (R166) -/

/-- R166: a write to the low word of CONFIG_BASE. -/
def State.writeBaseLow (s : State) (v : Word) : State :=
  if s.device.state = .off then
    { s with device := { s.device with configBase := s.device.configBase.extractLsb' 32 32 ++ v } }
  else s

/-- R166: a write to the high word of CONFIG_BASE. -/
def State.writeBaseHigh (s : State) (v : Word) : State :=
  if s.device.state = .off then
    { s with device := { s.device with configBase := v ++ s.device.configBase.extractLsb' 0 32 } }
  else s

/-- R166: a write of all four bytes of a register word. -/
def State.writeWord (s : State) (v : Word) : RegWord → State
  | .configBaseLow => s.writeBaseLow v
  | .configBaseHigh => s.writeBaseHigh v
  | .command => s.writeCommand v
  | .status => s
  | .post => s.takePost v
  | .release => s.takeRelease v

/-- R166, R181: a write to the register window. Fewer than four bytes of a word are no write at all, so one that does not
begin at a word has no effect. The spec is silent on a write of more than four bytes; here a command carries at most four,
and more of them would be taken as four (log 40, the model's choice). -/
def State.writeRegister (s : State) (offset bytes : Nat) (v : Word) : State :=
  if bytes < 4 then s
  else match wordAt offset with
    | some word => s.writeWord v word
    | none => s

/-- REGISTER_WRITE (R166). A full write to COMMAND, POST or RELEASE is that command (log 16); a longer
host write comes as one command per word (log 40). -/
def execRegisterWrite (offset bytes : Nat) (value : Word) (s : State) : Result :=
  .next (s.writeRegister offset bytes value)

/-! ## Fetching (R144, R145) -/

/-- R144: the conditions of a fetch. -/
def State.mayFetch (s : State) (r : RingId) : Bool :=
  s.device.state == .running && (s.subRing r).state == .active && (s.subRing r).holding.isEmpty
    && (s.subRing r).postIdx != (s.subRing r).fetchIdx

/-- R144: the host address of an entry of a submission ring. -/
def RingConfig.entryAddr (c : RingConfig) (index : Nat) : BitVec 64 := c.base + BitVec.ofNat 64 (64 * index)

/-- R144: a fetch begins. -/
def State.beginFetch (s : State) (r : RingId) : State :=
  match (s.subRing r).cfg with
  | some c =>
    (s.modSubRing r (fun x => { x with holding := .fetching x.fetchIdx })).issue (.fetch r)
      (c.entryAddr (s.subRing r).fetchIdx) 64 []
  | none => s

/-- FETCH_START (R144). -/
def execFetchStart (ring : RingId) (s : State) : Result := .next (if s.mayFetch ring then s.beginFetch ring else s)

/-- The ring and entry index of an outstanding fetch, while the blocks work (R153). -/
def State.fetchOf (s : State) (id : Nat) : Option (RingId × Nat) :=
  if s.live then
    match s.access id with
    | some a =>
      match a.purpose with
      | .fetch r =>
        match (s.subRing r).holding with
        | .fetching index => some (r, index)
        | .empty | .waiting _ _ | .completing _ _ _ _ => none
      | .configRead _ | .descriptor _ | .profileDescriptor _ | .dataWrite _ | .dataRead _ _ _ | .profileWrite _
      | .record _ => none
    | none => none
  else none

/-- R144, R151: a fetched work request enters WAITING; an ACTIVE ring with an unmet fence enters FENCE_WAIT. -/
def SubRing.fetched (x : SubRing) (w : BitVec 512) (index : Nat) : SubRing :=
  { x with
    holding := .waiting w index,
    fetchIdx := match x.cfg with
      | some c => (index + 1) % c.size
      | none => index + 1,
    outstanding := x.outstanding + 1,
    state := if x.state = .active ∧ Wr.fence w = true ∧ 0 < x.outstanding then .fenceWait else x.state }

/-- R144: a fetch completes. -/
def State.fetchDone (s : State) (id : Nat) (w : BitVec 512) : State :=
  match s.fetchOf id with
  | some (r, index) => (s.endAccess id).modSubRing r (fun x => x.fetched w index)
  | none => s

/-- R145: a fetch faults. -/
def State.fetchFaulted (s : State) (id : Nat) : State :=
  match s.fetchOf id with
  | some (r, _) => ((s.endAccess id).modSubRing r (fun x => { x with holding := .empty })).faultRing r .fetchFault
  | none => s

/-- FETCH_COMPLETE (R144). -/
def execFetchComplete (access : Nat) (data : BitVec 512) (s : State) : Result := .next (s.fetchDone access data)

/-- FETCH_FAULT (R145). -/
def execFetchFault (access : Nat) (s : State) : Result := .next (s.fetchFaulted access)

/-- ADMISSION (R152). -/
def execAdmission (s : State) : Result := .next s.arbitrate

end Sys2Proof.Machine
end

