-- ==== Sys2Proof/Machine/CommandLane.lean ====
section
/-! DEFINITION. The command lane (chapters 2 and 4): choosing, sending and resending a request, replies and
windows, POLL, attention, guard gaps, and link reset. -/

namespace Sys2Proof.Machine

/-! ## Choosing and sending (R64, R70, R72, R75) -/

/-- R64: the lane takes a request: the link clock runs, no link reset is in progress, and CL is idle, or high
for a full guard gap during HOLD (R34). -/
def State.mayBegin (s : State) : Bool := s.live && s.linkReset.isNone && s.laneOpen

/-- R75: the current request is to be begun. -/
def State.beginCurrent (s : State) (r : Request) : State :=
  if r.phase = .toSend then
    if r.abandoned then s.beginAbandoned r else s.beginFrame r
  else s

/-- R64, R75: a choice, where no request is current or set aside; an abandoned request is begun again, or a
POLL goes before it. -/
def State.chooseStep (s : State) : State :=
  if s.mayBegin then
    match s.current with
    | some r => if r.abandoned then s.beginCurrent r else s
    | none => if s.setAside.isSome then s else s.chooseAndBegin
  else s

/-- R72, R75: the current request in TO_SEND is begun again. -/
def State.resendStep (s : State) : State :=
  if s.mayBegin then
    match s.current with
    | some r => s.beginCurrent r
    | none => s
  else s

/-- CHOOSE_REQUEST (R64). -/
def execChooseRequest (s : State) : Result := .next s.chooseStep

/-- RESEND_REQUEST (R72). -/
def execResendRequest (s : State) : Result := .next s.resendStep

/-- The request whose frame is being sent. -/
def State.sendingRequest (s : State) : Option Request :=
  match s.current with
  | some r => if s.live && s.linkReset.isNone && r.phase == .sending then some r else none
  | none => none

/-- R33, R36, R70: the frame has been sent: the reply window opens, or turnaround and POLL slots begin. -/
def State.frameDone (s : State) (r : Request) : State :=
  { s with current := some { r with phase := .awaiting },
           cl := if r.kind = .poll then .pollSlots else .window 0 }

/-- FRAME_SENT (R70). -/
def execFrameSent (s : State) : Result :=
  .next (match s.sendingRequest with
    | some r => s.frameDone r
    | none => s)

/-- R27, R37, R74, R75: the frame is abandoned: no attempt, the attention flag set, a guard gap; the period that showed the
collision is low. A detached request in TO_SEND becomes absent. -/
def State.abandonFrame (s : State) (r : Request) : State :=
  { s.beginGap with
    attention := true, laneLow := 1,
    current := if r.detached then none else some { r with phase := .toSend, abandoned := true } }

/-- COLLISION (R27). -/
def execCollision (s : State) : Result :=
  .next (match s.sendingRequest with
    | some r => s.abandonFrame r
    | none => s)

/-! ## Replies (R30, R31, R33, R71) -/

/-- R35, R37: the lane-low count at the start mark of a token, where the one period of low before its window is no attention
and so was not counted. -/
def State.lowBefore (s : State) (early : Bool) : Nat := if early then min stuckCount (s.laneLow + 1) else s.laneLow

/-- R33, R34, R37, R70: the first low in an open reply or token window, or during HOLD, is a start mark. -/
def State.startMark (s : State) (early : Bool) : State :=
  match s.cl with
  | .window _ => { s with cl := .receiving, current := s.current.map (fun r => { r with phase := .receiving }) }
  | .tokenWindow _ => { s with cl := .tokenReceiving, laneLow := s.lowBefore early }
  | .hold => if s.holdInForce then { s with cl := .tokenReceiving } else s
  | .guardGap _ => if s.holdInForce then { s with cl := .tokenReceiving } else s
  | .stopped | .idle | .sending _ | .receiving | .profile _ | .pollSlots | .tokenReceiving | .low
  | .signalling _ => s

/-- REPLY_START_MARK (R33). -/
def execReplyStartMark (s : State) (early : Bool := false) : Result := .next (if s.live then s.startMark early else s)

/-- R30, R37, R71: a reply frame arrives; the lane-low count goes on by its start mark and bits. -/
def State.replyStep (s : State) (f : BitVec 80) : State :=
  match s.awaited with
  | some r => if s.live then (s.hear 1 f).takeReply r (parseReply f) else s
  | none => s

/-- REPLY_RECEIVED (R71). -/
def execReplyReceived (frame : BitVec 80) (s : State) : Result := .next (s.replyStep frame)

/-- The request whose profile interval runs, and what the interval is for. -/
def State.profileInterval (s : State) : Option (Request × ProfileUse) :=
  match s.current, s.cl with
  | some r, .profile use => some (r, use)
  | _, _ => none

/-- R31, R37: the profile interval ends; it has no start mark of its own (R26). -/
def State.profileStep (s : State) (f : BitVec 144) : State :=
  match s.profileInterval with
  | some (r, use) => if s.live then (s.hear 0 f).takeProfile r use f else s
  | none => s

/-- PROFILE_RECEIVED (R31). -/
def execProfileReceived (frame : BitVec 144) (s : State) : Result := .next (s.profileStep frame)

/-- R33: the request whose reply window is open. -/
def State.openWindow (s : State) : Option Request :=
  match s.current, s.cl with
  | some r, .window _ => if s.live && r.phase == .awaiting then some r else none
  | _, _ => none

/-- REPLY_WINDOW_EXPIRED (R33, R72, R134): the guard gap follows. -/
def execReplyWindowExpired (s : State) : Result :=
  .next (match s.openWindow with
    | some r => s.quietGap.windowOver r
    | none => s)

/-! ## POLL (R36, R58, R75) -/

/-- R58: a POLL result writes the notices-waiting count of one station; EMPTY keeps none. -/
def pollStation (slots : BitVec 8) (s : State) (st : StationId) : State :=
  s.setNotices st (if slots.getLsbD st.val then max (s.station st).notices 1 else 0)

/-- R36, R37, R75: the eighth slot has been sampled: the result is delivered, the set-aside request becomes current
again, and the guard gap follows. The lane-low count goes on by the turnaround period and the slots. -/
def State.pollDone (s : State) (levels : PollLevels) : State :=
  { (allStations.foldl (pollStation levels.slots) (s.hear 0 (pollPeriods levels))).beginGap with
    current := s.setAside, setAside := none }

/-- R36: POLL slots run. -/
def State.polling (s : State) : Bool := s.live && s.cl == .pollSlots

/-- POLL_RESULT (R36). -/
def execPollResult (levels : PollLevels) (s : State) : Result := .next (if s.polling then s.pollDone levels else s)

/-! ## Gaps and attention (R34, R35, R37) -/

/-- R83, R93: the guard gap that a payload waits for has ended. -/
def State.gapOver (s : State) : State := s.modPayload (fun p => { p with gapDue := false })

/-- R98: a token window is to open when the gap ends. -/
def State.reopenDue (s : State) : Bool :=
  match s.payload with
  | some p => p.reopen
  | none => false

/-- R34, R37, R98: a guard gap has run out, CL high: a token window opens that was due, HOLD goes on, or CL is idle. -/
def State.endGap (s : State) : State :=
  let s1 := { s.gapOver with laneLow := 0 }
  if s1.reopenDue then { s1.modPayload (fun p => { p with reopen := false }) with cl := .tokenWindow 0 }
  else { s1 with cl := if s1.holdInForce then .hold else .idle }

/-- R34: a guard gap runs. -/
def Lane.isGap : Lane → Bool
  | .guardGap _ => true
  | .stopped | .idle | .sending _ | .window _ | .receiving | .profile _ | .pollSlots | .tokenWindow _
  | .tokenReceiving | .low | .hold | .signalling _ => false

/-- GUARD_GAP_END (R34). -/
def execGuardGapEnd (s : State) : Result := .next (if s.live && s.cl.isGap then s.endGap else s)

/-- R34, R35: a low on CL that is judged as attention: on idle CL, in a guard gap, or going on, with no HOLD. That
HOLD excludes a low in a guard gap too is the model's reading (log 21). -/
def State.attentionHeard (s : State) : Bool :=
  s.live && !s.holdInForce && (s.cl == .idle || s.cl == .low || s.cl.isGap)

/-- R34: a low ends a running guard gap at once. -/
def State.lowEndsGap (s : State) : State := if s.cl.isGap then s.gapOver else s

/-- R35, R37: the low periods of an attention, 2 of them when it is recognised. -/
def State.attentionLow (s : State) : Nat := if s.cl = .low then s.laneLow else min stuckCount (s.laneLow + 2)

/-- R35, R37, R77: attention is recognised; CL is low until it returns high. -/
def State.hearAttention (s : State) : State :=
  { s.lowEndsGap with attention := true, cl := .low, laneLow := s.attentionLow }

/-- ATTENTION (R35). -/
def execAttention (s : State) : Result := .next (if s.attentionHeard then s.hearAttention else s)

/-- R34, R37: CL is high again after a low that was no frame: a guard gap begins and the count returns to 0. -/
def State.laneHigh (s : State) : State := { s.lowEndsGap.beginGap with laneLow := 0 }

/-- CL_RETURN_HIGH (R34). -/
def execClReturnHigh (s : State) : Result := .next (if s.attentionHeard then s.laneHigh else s)

/-! ## Link reset (R37, R79, R80, R81) -/

/-- LANE_STUCK (R79). -/
def execLaneStuck (s : State) : Result :=
  .next (if s.live && s.linkReset.isNone then s.startLinkReset .laneStuck else s)

/-- R48: the settle timer of a station in SETTLING is set when the signalling ends. -/
def Station.settleAgain (r : Station) : Station := if r.state = .settling then { r with settle := some settleTime } else r

/-- R48, R81: the link reset ends: the lines are released, a guard gap follows, the poll timer starts, the lane-low
count is counted afresh and the settle timers run. -/
def State.endLinkReset (s : State) : State :=
  allStations.foldl (fun a st => a.modStation st Station.settleAgain)
    { s.beginGap with linkReset := none, pollTimer := s.fullPoll, laneLow := 0 }

/-- LINK_RESET_END (R81). -/
def execLinkResetEnd (s : State) : Result := .next (if s.live && s.linkReset.isSome then s.endLinkReset else s)

/-- POLL_TIMER_EXPIRY (R78). -/
def execPollTimerExpiry (s : State) : Result :=
  .next (if s.live && s.pollTimer.isSome then { s with pollTimer := some 0, pollDue := true } else s)

end Sys2Proof.Machine
end

