-- ==== Sys2Proof/Machine/Presence.lean ====
section
/-! DEFINITION. Presence, settling and saturation of stations (chapter 3), and the deferral timer (R118). -/

namespace Sys2Proof.Machine

/-! ## Presence (R47) -/

/-- R47: the level read differs from the last level read. -/
def Station.levelChanges (r : Station) (present : Bool) : Bool := r.level == some (!present)

/-- R47: a level change. -/
def State.presenceStep (s : State) (st : StationId) (present : Bool) : State :=
  if s.live && (s.station st).levelChanges present then
    s.modStation st (fun r => { r with level := some present, debounce := some 0 })
  else s

/-- PRESENCE_CHANGE (R47). -/
def execPresenceChange (slot : StationId) (present : Bool) (s : State) : Result := .next (s.presenceStep slot present)

/-- R47: a debounce timer runs; a stable level has been taken once its timer stands at 10 ms. -/
def Station.debouncing (r : Station) : Bool :=
  match r.debounce with
  | some t => decide (t < debounceTime)
  | none => false

/-- R48: an EMPTY station with stable present presence enters SETTLING. -/
def Station.settles (r : Station) : Station :=
  { r with state := .settling, settle := some settleTime, notices := 0, saturation := none }

/-- R47: what a stable level does. -/
def State.stableLevel (s : State) (st : StationId) : State :=
  let s1 := s.modStation st (fun r => { r with debounce := some debounceTime })
  match (s.station st).level, (s.station st).state with
  | some true, .empty => s1.modStation st Station.settles
  | some false, .empty => s1
  | some false, _ => s1.stationLeaves st
  | _, _ => s1

/-- PRESENCE_STABLE (R47, R48, R49). -/
def execPresenceStable (slot : StationId) (s : State) : Result :=
  .next (if s.live && (s.station slot).debouncing then s.stableLevel slot else s)

/-! ## Timers of a station (R48, R50, R54, R57) -/

/-- R48, R54: the settle timer of the station runs: in SETTLING outside link reset signalling, or in RESETTING. -/
def State.settleRuns (s : State) (st : StationId) : Bool :=
  s.live && (s.station st).settle.isSome &&
    (((s.station st).state == .settling && s.linkReset.isNone) || (s.station st).state == .resetting)

/-- SETTLE_TIMER_EXPIRY (R48, R50, R54). -/
def execSettleTimerExpiry (slot : StationId) (s : State) : Result :=
  .next (if s.settleRuns slot then
      s.modStation slot (fun r => { r with state := .identifying, settle := none, identifyRetries := none })
    else s)

/-- SATURATION_TIMER_EXPIRY (R57). -/
def execSaturationTimerExpiry (slot : StationId) (s : State) : Result :=
  .next (if s.live && (s.station slot).saturation.isSome then s.clearSaturation slot else s)

/-! ## Deferral (R118, R126) -/

/-- R118: the deferral timer of an exchange runs. -/
def State.deferralRuns (s : State) (t : Tag) : Bool :=
  s.live && match s.exch t with
    | some e => e.state == .deferred
    | none => false

/-- DEFERRAL_TIMER_EXPIRY (R118). -/
def execDeferralTimerExpiry (tag : Tag) (s : State) : Result :=
  .next (if s.deferralRuns tag then (s.recordCause tag .deferralTimeout 0).enterWithdrawing tag else s)

end Sys2Proof.Machine
end

