-- ==== Sys2Proof/Machine/PayloadSteps.lean ====
section
/-! DEFINITION. The payload lanes (chapter 5): grants, read blocks, write blocks, the timers of a payload, and the
quiet interval. -/

namespace Sys2Proof.Machine

/-! ## Grants (R88, R91) -/

/-- The payload that runs, while the blocks work. -/
def State.running (s : State) : Option Payload := if s.live then s.payload else none

/-- R39, R88, R101: a NEXT grant may be given. -/
def State.mayGrant (s : State) (p : Payload) : Bool :=
  p.phase == .grantPending && !p.repeatDue && (s.slot p.pos).state == .free && !p.gapDue && p.wait == 0
    && s.quiet.isNone

/-- R88: NEXT: the slot at the fill position becomes FILLING and the data timer starts. -/
def State.grantNext (s : State) (p : Payload) : State :=
  { s.setSlot p.pos { state := .filling, block := p.linkPos, data := [] } with
    payload := some { p with phase := .awaitingBlock, dataTimer := some 0, grant := some .next, elapsed := 0 } }

/-- NEXT_GRANT (R88). -/
def execNextGrant (s : State) : Result :=
  .next (match s.running with
    | some p => if s.mayGrant p then s.grantNext p else s
    | none => s)

/-- R39, R91: a REPEAT grant may be given. -/
def State.mayRepeat (s : State) (p : Payload) : Bool :=
  p.phase == .grantPending && p.repeatDue && p.wait == 0 && s.quiet.isNone

/-- R91: REPEAT. -/
def State.grantRepeat (s : State) (p : Payload) : State :=
  { s with payload := some { p with phase := .awaitingBlock, repeatDue := false, dataTimer := some 0,
                                    grant := some .repeat, elapsed := 0 } }

/-- REPEAT_GRANT (R91). -/
def execRepeatGrant (s : State) : Result :=
  .next (match s.running with
    | some p => if s.mayRepeat p then s.grantRepeat p else s
    | none => s)

/-! ## Read blocks (R89, R90) -/

/-- R89: the 4 periods after the grant have passed, so that a low on PL0 is a start mark. -/
def Payload.takesMark (p : Payload) : Bool :=
  match p.dataTimer with
  | some n => decide (grantDistance ≤ n)
  | none => false

/-- R89, R99: a low on PL0 after a grant: a start mark no earlier than 4 periods after it, else nothing. -/
def State.blockStarts (s : State) (p : Payload) : State :=
  match p.phase with
  | .awaitingBlock =>
    if p.takesMark then { s with payload := some { p with phase := .receiving, dataTimer := none, elapsed := 0 } } else s
  | .halted =>
    if p.tail = .granted ∧ p.wait = 0 then
      { s with payload := some { p with tail := .receiving, elapsed := 0 } }
    else s
  | .grantPending | .paced | .receiving | .finished | .loadWait | .sendPending | .sending | .tokenWait | .hold => s

/-- READ_BLOCK_START_MARK (R89). -/
def execReadBlockStartMark (s : State) : Result :=
  .next (match s.running with
    | some p => s.blockStarts p
    | none => s)

/-- READ_BLOCK_RECEIVED (R90, R91, R99). -/
def execReadBlockReceived (lanes : List (List Byte)) (check : Word) (s : State) : Result :=
  .next (if s.live then s.readBlock lanes check else s)

/-- DATA_TIMEOUT (R89). -/
def execDataTimeout (s : State) : Result :=
  .next (match s.running with
    | some p => if p.phase = .awaitingBlock then s.haltWith p.owner .dataTimeout else s
    | none => s)

/-! ## Write blocks (R93, R99) -/

/-- R93, R101: a write block may begin. -/
def State.maySend (s : State) (p : Payload) : Bool :=
  p.phase == .sendPending && !p.gapDue && s.current.isNone && s.quiet.isNone

/-- R38, R93, R182: a write block begins: the slot's bytes as loaded, dealt over the lanes, and their check code. -/
def State.sendBlock (s : State) (p : Payload) : State :=
  { s.setSlot p.pos { s.slot p.pos with state := .sending } with
    payload := some { p with phase := .sending, tokenWaits := 0, resendDue := false, elapsed := 0,
                             sendCheck := some (crc32 (s.slot p.pos).data),
                             sendLanes := dealBlock p.laneWidth (s.slot p.pos).data } }

/-- WRITE_BLOCK_BEGIN (R93). -/
def execWriteBlockBegin (s : State) : Result :=
  .next (match s.running with
    | some p => if s.maySend p then s.sendBlock p else s
    | none => s)

/-- R33, R93, R99: the block's full length has passed: the token window opens. -/
def State.blockSent (s : State) (p : Payload) : State :=
  match p.phase with
  | .sending =>
    { s.setSlot p.pos { s.slot p.pos with state := .awaitingToken } with
      payload := some { p with phase := .tokenWait, elapsed := 0 }, cl := .tokenWindow 0 }
  | .halted =>
    if p.tail = .cutBlock then
      { s with payload := some { p with tail := .nothing, elapsed := 0 }, cl := .tokenWindow 0 }
    else s
  | .grantPending | .paced | .awaitingBlock | .receiving | .finished | .loadWait | .sendPending | .tokenWait
  | .hold => s

/-- WRITE_BLOCK_END (R93). -/
def execWriteBlockEnd (s : State) : Result :=
  .next (match s.running with
    | some p => s.blockSent p
    | none => s)

/-- HOLD_TIMEOUT (R97). -/
def execHoldTimeout (s : State) : Result :=
  .next (match s.running with
    | some p => if p.phase = .hold then s.haltWith p.owner .holdTimeout else s
    | none => s)

/-- QUIET_INTERVAL_END (R101). -/
def execQuietIntervalEnd (s : State) : Result := .next (if s.live then { s with quiet := none } else s)

end Sys2Proof.Machine
end

