-- ==== Sys2Proof/Machine/Tokens.lean ====
section
/-! DEFINITION. Tokens of a write payload (R32, R76, R94 to R98, R100). A token of another station or tag comes
under its own code and is discarded as R98 gives (log 17). -/

namespace Sys2Proof.Machine

/-- R32, R177: a token with a good check, as its station sends it. -/
def State.goodToken (s : State) (station : BitVec 4) (code : TokenCode) (tag : BitVec 4) : State :=
  s.tokenReceived (tokenFrame station code tag) (.good station code tag)

/-- TOKEN_TAKEN (R94). -/
def execTokenTaken (station tag : BitVec 4) (s : State) : Result := .next (s.goodToken station .taken tag)

/-- TOKEN_CHECK_FAIL (R95). -/
def execTokenCheckFail (station tag : BitVec 4) (s : State) : Result :=
  .next (s.goodToken station .checkFail tag)

/-- TOKEN_FAULT (R96). -/
def execTokenFault (station tag : BitVec 4) (s : State) : Result := .next (s.goodToken station .fault tag)

/-- TOKEN_HOLD (R97). -/
def execTokenHold (station tag : BitVec 4) (s : State) : Result := .next (s.goodToken station .hold tag)

/-- TOKEN_RELEASE (R97, R98). -/
def execTokenRelease (station tag : BitVec 4) (s : State) : Result :=
  .next (s.goodToken station .release tag)

/-- TOKEN_BAD_CHECK (R97, R98): a token frame as it came, judged by its check, station, tag and code. -/
def execTokenBadCheck (frame : BitVec 32) (s : State) : Result := .next (s.tokenReceived frame (parseToken frame))

/-- R33: a token window is open. -/
def Lane.isTokenWindow : Lane → Bool
  | .tokenWindow _ => true
  | .stopped | .idle | .sending _ | .window _ | .receiving | .profile _ | .pollSlots | .guardGap _
  | .tokenReceiving | .low | .hold | .signalling _ => false

/-- TOKEN_WINDOW_EXPIRED (R33, R98). -/
def execTokenWindowExpired (s : State) : Result := .next (if s.live && s.cl.isTokenWindow then s.tokenWindowOver else s)

end Sys2Proof.Machine
end

