-- ==== Sys2Proof/Machine/DataMover.lean ====
section
/-! DEFINITION. The data mover's steps (chapter 6): taking blocks, and the reports of its host accesses. -/

namespace Sys2Proof.Machine

/-! ## Taking a block (R110, R111) -/

/-- The payload job, while the blocks work (R115). -/
def State.activeJob (s : State) : Option Job := if s.live then s.job else none

/-- R110: the next block's slot is FULL and no block is in hand. -/
def State.mayDrain (s : State) (j : Job) : Bool :=
  j.dir == .read && j.inHand.isNone && decide (j.nextBlock < j.count)
    && (s.slot (stageOf j.nextBlock)).state == .full && (s.slot (stageOf j.nextBlock)).block == j.nextBlock

/-- A slot taken in hand with nothing placed. -/
def InHand.start (i : StageId) : InHand := { slot := i, placed := 0, issued := 0, ended := 0 }

/-- R110: the mover takes a FULL slot. -/
def State.takeFull (s : State) (j : Job) : State :=
  let i := stageOf j.nextBlock
  State.pump pumpFuel
    { s.setSlot i { s.slot i with state := .draining } with job := some { j with inHand := some (InHand.start i) } }

/-- DRAIN_BLOCK_START (R110). -/
def execDrainBlockStart (s : State) : Result :=
  .next (match s.activeJob with
    | some j => if s.mayDrain j then s.takeFull j else s
    | none => s)

/-- R111: the next block's slot is FREE and no block is in hand. -/
def State.mayLoad (s : State) (j : Job) : Bool :=
  j.dir == .write && j.inHand.isNone && decide (j.nextBlock < j.count)
    && (s.slot (stageOf j.nextBlock)).state == .free

/-- R111: the mover takes a FREE slot. -/
def State.takeFree (s : State) (j : Job) : State :=
  let i := stageOf j.nextBlock
  State.pump pumpFuel
    { s.setSlot i { state := .loading, block := j.nextBlock, data := List.replicate j.blockSize 0#8 } with
      job := some { j with inHand := some (InHand.start i) } }

/-- LOAD_BLOCK_START (R111). -/
def execLoadBlockStart (s : State) : Result :=
  .next (match s.activeJob with
    | some j => if s.mayLoad j then s.takeFree j else s
    | none => s)

/-! ## Reports (R104, R107, R112, R115) -/

/-- The access a report is about, while the blocks work; in STOPPED a report is without effect. -/
def State.report (s : State) (id : Nat) : Option Access := if s.live then s.access id else none

/-- R104, R22: when the outstanding count of a tag falls to 0 its exchange may join its waiting list. -/
def State.accountEnd (s : State) (t : Tag) : State := s.join (.exchange t)

/-- R104, R107: a descriptor read has completed. -/
def State.descriptorDone (s : State) (a : Access) (data : BitVec 128) : State :=
  match a.purpose with
  | .descriptor t => ((s.endAccess a.id).jobDescriptor t (parseDescriptor data)).accountEnd t
  | .profileDescriptor t => ((s.endAccess a.id).profileDescriptor t (parseDescriptor data)).accountEnd t
  | .configRead _ | .fetch _ | .dataWrite _ | .dataRead _ _ _ | .profileWrite _ | .record _ => s

/-- DESCRIPTOR_READ_COMPLETE (R107). -/
def execDescriptorReadComplete (access : Nat) (data : BitVec 128) (s : State) : Result :=
  .next (match s.report access with
    | some a => s.descriptorDone a data
    | none => s)

/-- R104, R107: a descriptor read has faulted. -/
def State.descriptorFaulted (s : State) (a : Access) : State :=
  match a.purpose with
  | .descriptor t => ((s.endAccess a.id).jobDescriptorFault t).accountEnd t
  | .profileDescriptor t => ((s.endAccess a.id).profileFault t).accountEnd t
  | .configRead _ | .fetch _ | .dataWrite _ | .dataRead _ _ _ | .profileWrite _ | .record _ => s

/-- DESCRIPTOR_READ_FAULT (R107). -/
def execDescriptorReadFault (access : Nat) (s : State) : Result :=
  .next (match s.report access with
    | some a => s.descriptorFaulted a
    | none => s)

/-- R104, R110: a data write has completed. -/
def State.dataWritten (s : State) (a : Access) : State :=
  match a.purpose with
  | .dataWrite t => (((s.endAccess a.id).addBytes t a.len).blockProgress t).accountEnd t
  | .configRead _ | .fetch _ | .descriptor _ | .profileDescriptor _ | .dataRead _ _ _ | .profileWrite _
  | .record _ => s

/-- DATA_WRITE_COMPLETE (R104, R110). -/
def execDataWriteComplete (access : Nat) (s : State) : Result :=
  .next (match s.report access with
    | some a => s.dataWritten a
    | none => s)

/-- R104, R112: HOST_ACCESS_FAULT is reported if the job of the tag is active. -/
def State.jobAccessFault (s : State) (t : Tag) : State :=
  match s.job with
  | some j => if j.tag = t then s.moverFault t .hostAccessFault else s
  | none => s

/-- R104, R112: a data write has faulted. -/
def State.dataWriteFaulted (s : State) (a : Access) : State :=
  match a.purpose with
  | .dataWrite t => ((s.endAccess a.id).jobAccessFault t).accountEnd t
  | .configRead _ | .fetch _ | .descriptor _ | .profileDescriptor _ | .dataRead _ _ _ | .profileWrite _
  | .record _ => s

/-- DATA_WRITE_FAULT (R104, R112). -/
def execDataWriteFault (access : Nat) (s : State) : Result :=
  .next (match s.report access with
    | some a => s.dataWriteFaulted a
    | none => s)

/-- R104, R111: a data read has completed with all the bytes it asked for. -/
def State.dataReadDone (s : State) (a : Access) (bytes : List Byte) : State :=
  match a.purpose with
  | .dataRead t block offset =>
    if bytes.length = a.len then
      (((s.endAccess a.id).fillSlot t block offset bytes).blockProgress t).accountEnd t
    else s
  | .configRead _ | .fetch _ | .descriptor _ | .profileDescriptor _ | .dataWrite _ | .profileWrite _
  | .record _ => s

/-- DATA_READ_COMPLETE (R104, R111). -/
def execDataReadComplete (access : Nat) (bytes : List Byte) (s : State) : Result :=
  .next (match s.report access with
    | some a => s.dataReadDone a bytes
    | none => s)

/-- R104, R112: a data read has faulted. -/
def State.dataReadFaulted (s : State) (a : Access) : State :=
  match a.purpose with
  | .dataRead t _ _ => ((s.endAccess a.id).jobAccessFault t).accountEnd t
  | .configRead _ | .fetch _ | .descriptor _ | .profileDescriptor _ | .dataWrite _ | .profileWrite _
  | .record _ => s

/-- DATA_READ_FAULT (R104, R112). -/
def execDataReadFault (access : Nat) (s : State) : Result :=
  .next (match s.report access with
    | some a => s.dataReadFaulted a
    | none => s)

/-! ## The profile short path (R114) -/

/-- R114: the profile job at the head begins. -/
def State.beginProfileJob (s : State) : State :=
  match s.profiles with
  | j :: rest => if j.started then s else State.profilePump profileFuel { s with profiles := { j with started := true } :: rest }
  | [] => s

/-- PROFILE_JOB_START (R114). -/
def execProfileJobStart (s : State) : Result := .next (if s.live then s.beginProfileJob else s)

/-- R104, R114: a profile write has completed. -/
def State.profileWritten (s : State) (a : Access) : State :=
  match a.purpose with
  | .profileWrite t => ((s.endAccess a.id).profileProgress t).accountEnd t
  | .configRead _ | .fetch _ | .descriptor _ | .profileDescriptor _ | .dataWrite _ | .dataRead _ _ _
  | .record _ => s

/-- PROFILE_WRITE_COMPLETE (R114). -/
def execProfileWriteComplete (access : Nat) (s : State) : Result :=
  .next (match s.report access with
    | some a => s.profileWritten a
    | none => s)

/-- R104, R114: a profile write has faulted. -/
def State.profileWriteFaulted (s : State) (a : Access) : State :=
  match a.purpose with
  | .profileWrite t => ((s.endAccess a.id).profileFault t).accountEnd t
  | .configRead _ | .fetch _ | .descriptor _ | .profileDescriptor _ | .dataWrite _ | .dataRead _ _ _
  | .record _ => s

/-- PROFILE_WRITE_FAULT (R114). -/
def execProfileWriteFault (access : Nat) (s : State) : Result :=
  .next (match s.report access with
    | some a => s.profileWriteFaulted a
    | none => s)

end Sys2Proof.Machine
end

