-- ==== Sys2Proof/Machine/Poster.lean ====
section
/-! DEFINITION. The completion poster (chapter 10): latches, records, interrupt moderation, and STOPPED (R175). -/

namespace Sys2Proof.Machine

/-! ## Latches (R162) -/

/-- R162: the event of the first full latch, and the state with that latch empty. -/
def State.firstLatch (s : State) : Option (Event × State) :=
  match s.linkLatch with
  | some cause => some (.linkReset cause, { s with linkLatch := none })
  | none =>
    match allRings.findSome? (fun r => (s.ringLatch[r]).map (fun c => (r, c))) with
    | some (r, c) => some (.ringFault r c, { s with ringLatch := s.ringLatch.set r none })
    | none =>
      match allStations.findSome? (fun st => ((s.station st).latch).map (fun e => (st, e))) with
      | some (st, e) =>
        some
          (match e with
            | .ready v => .stationReady st v
            | .faulted c => .stationFaulted st c
            | .left => .stationLeft st,
           s.modStation st (fun r => { r with latch := none }))
      | none => none

/-- R162: one event moves from a latch into the tail of the queue. -/
def State.moveLatch (s : State) : State :=
  match s.firstLatch with
  | some (e, s') => s'.pushEvent e
  | none => s

/-- LATCH_TO_QUEUE (R162). -/
def execLatchToQueue (s : State) : Result := .next (if s.live && decide (1 ≤ s.eventRoom) then s.moveLatch else s)

/-! ## Writing records (R157) -/

/-- R23, R150, R161: the fields a source gives. -/
def State.sourceFields (s : State) : Source → Option RecordFields
  | .exchange t => (s.exch t).map Exchange.fields
  | .holding r =>
    match (s.subRing r).holding with
    | .completing w index st v => some (immediateFields r w index st v)
    | .empty | .fetching _ | .waiting _ _ => none
  | .event => s.eventQueue.head?.map Event.fields

/-- R157: the conditions under which a record is begun, with its source. -/
def State.nextSource (s : State) (r : RingId) (c : CRing) : Option Source :=
  if s.live ∧ c.writing.isNone ∧ c.unreleased < c.size then s.waiting[r].head? else none

/-- R157: the host address of an entry of a completion ring. -/
def CRing.entryAddr (c : CRing) : BitVec 64 := c.base + BitVec.ofNat 64 (16 * c.tail)

/-- R157: a record write is issued. -/
def State.issueRecord (s : State) (r : RingId) (c : CRing) (src : Source) (f : RecordFields) : State :=
  (s.setCring r { c with writing := some src }).issue (.record r) c.entryAddr 16 (f.bytes c.phase)

/-- R157: the poster begins writing a record into a ring. -/
def State.beginRecord (s : State) (r : RingId) : State :=
  match s.cring r with
  | some c =>
    match s.nextSource r c with
    | some src =>
      match s.sourceFields src with
      | some f => s.issueRecord r c src f
      | none => s
    | none => s
  | none => s

/-- RECORD_WRITE_BEGIN (R157). -/
def execRecordWriteBegin (ring : RingId) (s : State) : Result := .next (s.beginRecord ring)

/-! ## Records written (R158, R164) -/

/-- R146: the outstanding count of a ring falls by one. -/
def State.recordGone (s : State) (r : RingId) : State := s.modSubRing r (fun x => { x with outstanding := x.outstanding - 1 })

/-- R158, R163: the head leaves the event queue and the next record becomes head. -/
def State.dequeueEvent (s : State) : State :=
  let s' := { s with eventQueue := s.eventQueue.tail }
  if s'.eventQueue.isEmpty then s' else s'.join .event

/-- R23, R146, R163: a source is handed its written record. -/
def State.freeSource (s : State) : Source → State
  | .exchange t =>
    match s.exch t with
    | some e => (s.setExch t none).recordGone e.ring
    | none => s
  | .holding r =>
    match (s.subRing r).holding with
    | .completing _ _ _ _ => (s.modSubRing r (fun x => { x with holding := .empty })).recordGone r
    | .empty | .fetching _ | .waiting _ _ => s
  | .event => s.dequeueEvent

/-- R158: the source leaves the waiting list of its ring. -/
def State.leaveList (s : State) (r : RingId) (src : Source) : State :=
  { s with waiting := s.waiting.set r (s.waiting[r].filter (· != src)) }

/-- R158 steps 1, 2 and 4: a ring whose record has been written, moderation apart. -/
def CRing.written (c : CRing) : CRing :=
  { c with tail := (c.tail + 1) % c.size, phase := if c.tail + 1 = c.size then !c.phase else c.phase,
           unreleased := c.unreleased + 1, writing := none }

/-- R164: a ring has one more record to announce: whether its vector is sent now, and its moderation fields. -/
def CRing.counted (c : CRing) : Bool × CRing :=
  if c.threshold ≤ c.modCount + 1 ∨ c.delay = 0 then (true, { c with modCount := 0, delayTimer := none })
  else
    (false, { c with modCount := c.modCount + 1, delayTimer := if c.modCount = 0 then some 0 else c.delayTimer })

/-- R164: the ring's record is counted and its vector sent if due. -/
def State.moderate (s : State) (r : RingId) (c : CRing) : State :=
  match c.counted with
  | (true, c') => (s.setCring r c').sendVector (ringVector r)
  | (false, c') => s.setCring r c'

/-- The ring and access of an outstanding record write, with the source being written. -/
def State.recordOf (s : State) (id : Nat) : Option (RingId × CRing × Source) :=
  match s.report id with
  | some a =>
    match a.purpose with
    | .record r => (s.cring r).bind (fun c => c.writing.map (fun src => (r, c, src)))
    | .configRead _ | .fetch _ | .descriptor _ | .profileDescriptor _ | .dataWrite _ | .dataRead _ _ _
    | .profileWrite _ => none
  | none => none

/-- R158: a record has been written. -/
def State.recordDone (s : State) (id : Nat) : State :=
  match s.recordOf id with
  | some (r, c, src) => (((s.endAccess id).leaveList r src).freeSource src).moderate r c.written
  | none => s

/-- RECORD_WRITE_COMPLETE (R158). -/
def execRecordWriteComplete (access : Nat) (s : State) : Result := .next (s.recordDone access)

/-! ## STOPPED (R159, R175) -/

/-- R25, R159, R165, R175: the device enters STOPPED; every record keeps its contents. A delay timer keeps the value it had
reached and no longer runs: that it does not read as stopped is the model's choice (log 37). -/
def State.enterStopped (s : State) : State :=
  ({ s with device := { s.device with state := .stopped, cause := .completionWriteFault, lck := none },
            cl := .stopped }).sendDeviceVector

/-- RECORD_WRITE_FAULT (R159). -/
def execRecordWriteFault (access : Nat) (s : State) : Result :=
  .next (match s.recordOf access with
    | some _ => (s.endAccess access).enterStopped
    | none => s)

/-! ## Moderation by delay (R164) -/

/-- R164: the delay timer of a used ring runs. -/
def State.delayRuns (s : State) (r : RingId) : Option CRing :=
  match s.cring r with
  | some c => if s.live && c.delayTimer.isSome then some c else none
  | none => none

/-- MODERATION_DELAY_EXPIRY (R164). -/
def execModerationDelayExpiry (ring : RingId) (s : State) : Result :=
  .next (match s.delayRuns ring with
    | some c => (s.setCring ring { c with modCount := 0, delayTimer := none }).sendVector (ringVector ring)
    | none => s)

end Sys2Proof.Machine
end

