-- ==== Sys2Proof/Machine/Tick.lean ====
section
/-! DEFINITION. One period of the link clock: what step does when no command waits (log 2). Every timer and counter
that runs advances by one period; one that comes to its bound keeps its value and puts its command in the queue. -/

namespace Sys2Proof.Machine

/-- A command that time brings joins the queue. -/
def State.enqueue (s : State) (c : Instr) : State := { s with pending := s.pending ++ [c] }

/-- R25: the link period in ns. -/
def State.linkPeriod (s : State) : Nat :=
  match s.device.lck with
  | some rate => 160 / 2 ^ rate.toNat
  | none => 0

/-- R26: a request frame lasts 81 link periods. -/
def framePeriods : Nat := 81

/-- R34: a guard gap lasts 4 link periods. -/
def gapPeriods : Nat := 4

/-- R42: link reset signalling lasts 1024 link periods. -/
def signallingPeriods : Nat := 1024

/-- A condition of CL that lasts `bound` periods has lasted `n` of them: one more passes. -/
def State.tickBound (s : State) (n bound : Nat) (next : Nat → Lane) (done : Instr) : State :=
  if bound ≤ n + 1 then s.enqueue done else { s with cl := next (n + 1) }

/-- R34, R35: the periods for which CL may have been low from the beginning of a guard gap on before a command says so:
the 2 that make an attention, or the start mark of a token during HOLD. -/
def State.gapLowPeriods (s : State) : Nat := if s.holdInForce then 1 else 2

/-- R37: a period in which CL is high or the part drives it; a count that has passed 4096 stays for its LANE_STUCK. -/
def State.highLow (s : State) : Nat := if stuckCount ≤ s.laneLow then s.laneLow else 0

/-- R37: the lane-low count after one period. The levels of a frame or of POLL slots, and those of the first periods of a
guard gap and of a token window, which may open while CL is low, count when they are reported (log 12); in every other
condition but `low` CL is high or the part drives it. -/
def State.tickLow (s : State) : Nat :=
  match s.cl with
  | .low => min stuckCount (s.laneLow + 1)
  | .receiving | .profile _ | .pollSlots | .tokenReceiving => s.laneLow
  | .guardGap n => if n < s.gapLowPeriods then s.laneLow else s.highLow
  | .tokenWindow n => if n = 0 then s.laneLow else s.highLow
  | .stopped | .idle | .sending _ | .window _ | .hold | .signalling _ => s.highLow

/-- R33, R34, R42, R70: one period of a frame sent, a window, a guard gap or link reset signalling. -/
def State.tickCl (s : State) : State :=
  match s.cl with
  | .sending n => s.tickBound n framePeriods .sending .frameSent
  | .window n => s.tickBound n (Cfg.replyWindow s.cfg) .window .replyWindowExpired
  | .guardGap n => s.tickBound n gapPeriods .guardGap .guardGapEnd
  | .tokenWindow n => s.tickBound n (Cfg.replyWindow s.cfg) .tokenWindow .tokenWindowExpired
  | .signalling n => s.tickBound n signallingPeriods .signalling .linkResetEnd
  | .stopped | .idle | .receiving | .profile _ | .pollSlots | .tokenReceiving | .low | .hold => s

/-- R37, R79: one period of CL and of its lane-low count. While a link reset is signalled no lane is stuck. -/
def State.tickLane (s : State) : State :=
  let s' := { s with laneLow := s.tickLow }.tickCl
  if stuckCount ≤ s.tickLow ∧ s.linkReset.isNone then s'.enqueue .laneStuck else s'

/-- R89: one period of the data timer. -/
def State.tickData (s : State) : State :=
  match s.payload with
  | some p =>
    match p.dataTimer with
    | some t =>
      if Cfg.dataTimeout s.cfg ≤ t + 1 then s.enqueue .dataTimeout
      else { s with payload := some { p with dataTimer := some (t + 1) } }
    | none => s
  | none => s

/-- R97: one period of the hold timer. -/
def State.tickHold (s : State) : State :=
  match s.payload with
  | some p =>
    match p.holdTimer with
    | some t =>
      if Cfg.holdLimit s.cfg ≤ t + 1 then s.enqueue .holdTimeout
      else { s with payload := some { p with holdTimer := some (t + 1) } }
    | none => s
  | none => s

/-- What a payload has on the lanes: nothing, a block the part sends or has cut off, or a block arriving. -/
def Payload.onLanes (p : Payload) : Option Direction :=
  match p.phase with
  | .sending => some .write
  | .receiving => some .read
  | .halted => match p.tail with
    | .cutBlock => some .write
    | .receiving => some .read
    | .nothing | .granted | .hold => none
  | .grantPending | .paced | .awaitingBlock | .finished | .loadWait | .sendPending | .tokenWait | .hold => none

/-- R38: one period of the block on the lanes. The end of a read block comes with its bytes, from the station. -/
def State.tickBlock (s : State) : State :=
  match s.payload with
  | some p =>
    match p.onLanes with
    | some .write =>
      if p.blockLength ≤ p.elapsed + 1 then s.enqueue .writeBlockEnd
      else { s with payload := some { p with elapsed := p.elapsed + 1 } }
    | some .read => { s with payload := some { p with elapsed := min p.blockLength (p.elapsed + 1) } }
    | none => s
  | none => s

/-- R39, R88, R91: one period of the distance before a grant; the first one waits for the guard gap. -/
def State.tickWait (s : State) : State :=
  match s.payload with
  | some p => if p.gapDue then s else { s with payload := some { p with wait := p.wait - 1 } }
  | none => s

/-- R101: one period of the quiet interval. -/
def State.tickQuiet (s : State) : State :=
  match s.quiet with
  | some n => if n ≤ 1 then s.enqueue .quietIntervalEnd else { s with quiet := some (n - 1) }
  | none => s

/-- R78: the poll timer runs down; it stays at 0. -/
def State.tickPoll (s : State) (ns : Nat) : State :=
  match s.pollTimer with
  | some n =>
    if n = 0 then s else if n ≤ ns then s.enqueue .pollTimerExpiry else { s with pollTimer := some (n - ns) }
  | none => s

/-- R47: the debounce timer of a station. -/
def State.tickDebounce (ns : Nat) (s : State) (st : StationId) : State :=
  match (s.station st).debounce with
  | some t =>
    if debounceTime ≤ t then s
    else if debounceTime ≤ t + ns then s.enqueue (.presenceStable st)
    else s.modStation st (fun r => { r with debounce := some (t + ns) })
  | none => s

/-- R48, R54: the settle timer of a station. -/
def State.tickSettle (ns : Nat) (s : State) (st : StationId) : State :=
  match (s.station st).settle with
  | some n =>
    if s.settleRuns st then
      if n ≤ ns then s.enqueue (.settleTimerExpiry st)
      else s.modStation st (fun r => { r with settle := some (n - ns) })
    else s
  | none => s

/-- R57: the saturation timer of a station. -/
def State.tickSaturation (ns : Nat) (s : State) (st : StationId) : State :=
  match (s.station st).saturation with
  | some t =>
    if saturationTime ≤ t + ns then s.enqueue (.saturationTimerExpiry st)
    else s.modStation st (fun r => { r with saturation := some (t + ns) })
  | none => s

/-- R118: the deferral timer of an exchange. -/
def State.tickDeferral (ns : Nat) (s : State) (t : Tag) : State :=
  match (s.exch t).bind (·.deferral) with
  | some n =>
    if n ≤ ns then s.enqueue (.deferralTimerExpiry t) else s.modExch t (fun e => { e with deferral := some (n - ns) })
  | none => s

/-- R164: the delay timer of a completion ring. -/
def State.tickDelay (ns : Nat) (s : State) (r : RingId) : State :=
  match s.cring r with
  | some c =>
    match c.delayTimer with
    | some t =>
      if c.delay * nsPerUs ≤ t + ns then s.enqueue (.moderationDelayExpiry r)
      else s.setCring r { c with delayTimer := some (t + ns) }
    | none => s
  | none => s

/-- The timers kept in ns. Those that run out in the same period bring their commands in this order: the poll timer, then
debounce, settle, saturation, deferral and delay timers, each by ascending number. The spec gives no order: it is the
model's choice (log 32). -/
def State.tickTimers (s : State) (ns : Nat) : State :=
  let s1 := allStations.foldl (State.tickDebounce ns) (s.tickPoll ns)
  let s2 := allStations.foldl (State.tickSettle ns) s1
  let s3 := allStations.foldl (State.tickSaturation ns) s2
  let s4 := allTags.foldl (State.tickDeferral ns) s3
  allRings.foldl (State.tickDelay ns) s4

/-- One link period passes; in OFF, LOADING and STOPPED nothing runs. What runs out in it brings its command in the order
of the list here (log 32). -/
def State.tick (s : State) : State :=
  if s.live then s.tickLane.tickData.tickHold.tickBlock.tickWait.tickQuiet.tickTimers s.linkPeriod else s

end Sys2Proof.Machine
end

