-- ==== Sys2Proof/Machine/Dispatch.lean ====
section
/-! DEFINITION. The effect of each command on the state. -/

namespace Sys2Proof.Machine

def exec (i : Instr) (s : State) : Host.Outcome State Fault Refusal :=
  match i with
  | .powerOn => Sys2Proof.Machine.execPowerOn s
  | .hostLinkResetInput => Sys2Proof.Machine.execHostLinkResetInput s
  | .endpointFunctionReset => Sys2Proof.Machine.execEndpointFunctionReset s
  | .enable => Sys2Proof.Machine.execEnable s
  | .disable => Sys2Proof.Machine.execDisable s
  | .linkReset => Sys2Proof.Machine.execLinkReset s
  | .functionReset => Sys2Proof.Machine.execFunctionReset s
  | .undefinedCommand code => Sys2Proof.Machine.execUndefinedCommand code s
  | .registerWrite offset bytes value => Sys2Proof.Machine.execRegisterWrite offset bytes value s
  | .post value => Sys2Proof.Machine.execPost value s
  | .release value => Sys2Proof.Machine.execRelease value s
  | .configReadComplete access data => Sys2Proof.Machine.execConfigReadComplete access data s
  | .configReadFault access => Sys2Proof.Machine.execConfigReadFault access s
  | .drainComplete => Sys2Proof.Machine.execDrainComplete s
  | .fetchStart ring => Sys2Proof.Machine.execFetchStart ring s
  | .fetchComplete access data => Sys2Proof.Machine.execFetchComplete access data s
  | .fetchFault access => Sys2Proof.Machine.execFetchFault access s
  | .admission => Sys2Proof.Machine.execAdmission s
  | .chooseRequest => Sys2Proof.Machine.execChooseRequest s
  | .resendRequest => Sys2Proof.Machine.execResendRequest s
  | .frameSent => Sys2Proof.Machine.execFrameSent s
  | .collision => Sys2Proof.Machine.execCollision s
  | .replyReceived frame => Sys2Proof.Machine.execReplyReceived frame s
  | .profileReceived frame => Sys2Proof.Machine.execProfileReceived frame s
  | .replyWindowExpired => Sys2Proof.Machine.execReplyWindowExpired s
  | .pollResult levels => Sys2Proof.Machine.execPollResult levels s
  | .guardGapEnd => Sys2Proof.Machine.execGuardGapEnd s
  | .attention => Sys2Proof.Machine.execAttention s
  | .clReturnHigh => Sys2Proof.Machine.execClReturnHigh s
  | .laneStuck => Sys2Proof.Machine.execLaneStuck s
  | .linkResetEnd => Sys2Proof.Machine.execLinkResetEnd s
  | .pollTimerExpiry => Sys2Proof.Machine.execPollTimerExpiry s
  | .presenceChange slot present => Sys2Proof.Machine.execPresenceChange slot present s
  | .presenceStable slot => Sys2Proof.Machine.execPresenceStable slot s
  | .settleTimerExpiry slot => Sys2Proof.Machine.execSettleTimerExpiry slot s
  | .saturationTimerExpiry slot => Sys2Proof.Machine.execSaturationTimerExpiry slot s
  | .deferralTimerExpiry tag => Sys2Proof.Machine.execDeferralTimerExpiry tag s
  | .nextGrant => Sys2Proof.Machine.execNextGrant s
  | .repeatGrant => Sys2Proof.Machine.execRepeatGrant s
  | .readBlockReceived lanes check => Sys2Proof.Machine.execReadBlockReceived lanes check s
  | .dataTimeout => Sys2Proof.Machine.execDataTimeout s
  | .writeBlockBegin => Sys2Proof.Machine.execWriteBlockBegin s
  | .writeBlockEnd => Sys2Proof.Machine.execWriteBlockEnd s
  | .tokenTaken station tag => Sys2Proof.Machine.execTokenTaken station tag s
  | .tokenCheckFail station tag => Sys2Proof.Machine.execTokenCheckFail station tag s
  | .tokenFault station tag => Sys2Proof.Machine.execTokenFault station tag s
  | .tokenHold station tag => Sys2Proof.Machine.execTokenHold station tag s
  | .tokenRelease station tag => Sys2Proof.Machine.execTokenRelease station tag s
  | .tokenBadCheck frame => Sys2Proof.Machine.execTokenBadCheck frame s
  | .tokenWindowExpired => Sys2Proof.Machine.execTokenWindowExpired s
  | .holdTimeout => Sys2Proof.Machine.execHoldTimeout s
  | .quietIntervalEnd => Sys2Proof.Machine.execQuietIntervalEnd s
  | .drainBlockStart => Sys2Proof.Machine.execDrainBlockStart s
  | .loadBlockStart => Sys2Proof.Machine.execLoadBlockStart s
  | .descriptorReadComplete access data => Sys2Proof.Machine.execDescriptorReadComplete access data s
  | .descriptorReadFault access => Sys2Proof.Machine.execDescriptorReadFault access s
  | .dataWriteComplete access => Sys2Proof.Machine.execDataWriteComplete access s
  | .dataWriteFault access => Sys2Proof.Machine.execDataWriteFault access s
  | .dataReadComplete access bytes => Sys2Proof.Machine.execDataReadComplete access bytes s
  | .dataReadFault access => Sys2Proof.Machine.execDataReadFault access s
  | .profileJobStart => Sys2Proof.Machine.execProfileJobStart s
  | .profileWriteComplete access => Sys2Proof.Machine.execProfileWriteComplete access s
  | .profileWriteFault access => Sys2Proof.Machine.execProfileWriteFault access s
  | .latchToQueue => Sys2Proof.Machine.execLatchToQueue s
  | .recordWriteBegin ring => Sys2Proof.Machine.execRecordWriteBegin ring s
  | .recordWriteComplete access => Sys2Proof.Machine.execRecordWriteComplete access s
  | .recordWriteFault access => Sys2Proof.Machine.execRecordWriteFault access s
  | .moderationDelayExpiry ring => Sys2Proof.Machine.execModerationDelayExpiry ring s
  | .readBlockStartMark => Sys2Proof.Machine.execReadBlockStartMark s
  | .replyStartMark early => Sys2Proof.Machine.execReplyStartMark s early

end Sys2Proof.Machine
end

