-- ==== Sys2Proof/Machine/Step.lean ====
section
/-! DEFINITION. One step: the command at the front of the queue; with no command waiting, one link period (log 2). -/

namespace Sys2Proof.Machine

/-- Take the command at the front and run it on the state with the rest of the queue; on an empty queue a period
of the link clock passes. -/
def step (s : State) : Host.Outcome State Fault Refusal :=
  match s.pending with
  | c :: rest => exec c { s with pending := rest }
  | [] => .next s.tick

/-- The command that a table word spells, put at the front of the queue. The table gives no row bits, so no word
spells one (log 18). -/
def State.withFetchWord (s : State) (nbits w : Nat) : State :=
  match decodeTableWord nbits w with
  | some c => { s with pending := c :: s.pending }
  | none => s

end Sys2Proof.Machine
end

