-- ==== Sys2Proof/Safety.lean ====
section
/-! DEFINITION. The invariants of the machine: what every step keeps, whatever command it takes. -/

namespace Sys2Proof.Machine

/-! ## Device control -/

/-- R25, R168, R172: the link clock runs exactly in RUNNING and DRAINING, and the configuration copy is present
exactly in RUNNING, DRAINING and STOPPED. -/
def State.ClockOk (s : State) : Prop :=
  s.device.lck.isSome = s.live ∧ s.device.config.isSome = (s.live || s.device.state == .stopped)

/-! ## Completion rings (R155, R157) -/

/-- R155, R157: positions lie in the ring, the tail is the head plus the unreleased count round the ring, the ring
never holds more unreleased records than its size, and a record being written has room. -/
def CRing.Ok (c : CRing) : Prop :=
  0 < c.size ∧ c.head < c.size ∧ c.unreleased ≤ c.size ∧ c.tail = (c.head + c.unreleased) % c.size
    ∧ (c.writing.isSome = true → c.unreleased < c.size)

/-- Every used completion ring is as R155 and R157 say. -/
def State.CRingsOk (s : State) : Prop := ∀ r c, s.cring r = some c → c.Ok

/-! ## Submission rings (R141, R146) -/

/-- R141: the indices of a used ring lie in it. -/
def SubRing.Ok (x : SubRing) : Prop := ∀ c, x.cfg = some c → 0 < c.size ∧ x.fetchIdx < c.size ∧ x.postIdx < c.size

/-- R141 for every submission ring. -/
def State.IndicesOk (s : State) : Prop := ∀ r, (s.subRing r).Ok

/-- R146: a holding position is occupied in WAITING and COMPLETING. -/
def Holding.occupied : Holding → Bool
  | .waiting _ _ | .completing _ _ _ _ => true
  | .empty | .fetching _ => false

/-- R146: the exchange in a slot has this origin ring. -/
def State.originIs (s : State) (r : RingId) (t : Tag) : Bool :=
  match s.exch t with
  | some e => e.ring == r
  | none => false

/-- R146: the number of non-FREE exchange slots whose origin is this ring. -/
def State.slotsOf (s : State) (r : RingId) : Nat := (allTags.filter (s.originIs r)).length

/-- R146: the outstanding count of each ring is the number of its exchange slots, plus one for an occupied holding
position; and R1: in OFF and LOADING every slot is FREE. -/
def State.CountsOk (s : State) : Prop :=
  (∀ r, (s.subRing r).outstanding = s.slotsOf r + (s.subRing r).holding.occupied.toNat)
    ∧ (s.device.state = .off ∨ s.device.state = .loading → ∀ t, s.exch t = none)

/-! ## The event queue and staging -/

/-- R119, R162: the event queue with the place held for a fetch never exceeds 8 records. -/
def State.RoomOk (s : State) : Prop := s.eventQueue.length + s.reservation.toNat ≤ 8

/-- R85, R113: when no exchange owns the lanes, all four staging slots are FREE and no payload job is present. -/
def State.StagingOk (s : State) : Prop :=
  s.payload = none → s.job = none ∧ s.staging = Vector.replicate 4 Slot.free

/-! ## What a period of the link clock finds run out -/

/-- R25, R33, R34, R37, R42, R47, R48, R54, R57, R70, R78, R79, R89, R93, R97, R101, R118, R164: the command that a period of
the link clock brings, because the timer or counter it stands for reaches its bound in it. -/
def State.due (s : State) : Instr → Bool
  | .frameSent => match s.cl with
    | .sending n => decide (81 ≤ n + 1)
    | _ => false
  | .replyWindowExpired => match s.cl with
    | .window n => decide (Cfg.replyWindow s.cfg ≤ n + 1)
    | _ => false
  | .guardGapEnd => match s.cl with
    | .guardGap n => decide (4 ≤ n + 1)
    | _ => false
  | .tokenWindowExpired => match s.cl with
    | .tokenWindow n => decide (Cfg.replyWindow s.cfg ≤ n + 1)
    | _ => false
  | .linkResetEnd => match s.cl with
    | .signalling n => decide (1024 ≤ n + 1)
    | _ => false
  | .laneStuck => decide (4097 ≤ s.laneLow + if s.cl = .low then 1 else 0) && s.linkReset.isNone
  | .dataTimeout => (s.payload.bind (·.dataTimer)).any (fun n => decide (Cfg.dataTimeout s.cfg ≤ n + 1))
  | .holdTimeout => (s.payload.bind (·.holdTimer)).any (fun n => decide (Cfg.holdLimit s.cfg ≤ n + 1))
  | .writeBlockEnd => s.payload.any (fun p => p.onLanes == some .write && decide (p.blockLength ≤ p.elapsed + 1))
  | .quietIntervalEnd => s.quiet.any (fun n => decide (n ≤ 1))
  | .pollTimerExpiry => s.pollTimer.any (fun n => decide (0 < n ∧ n ≤ s.linkPeriod))
  | .presenceStable st =>
    (s.station st).debounce.any (fun n => decide (n < 10000000 ∧ 10000000 ≤ n + s.linkPeriod))
  | .settleTimerExpiry st => (s.station st).settle.any (fun n => decide (n ≤ s.linkPeriod)) &&
    (((s.station st).state == .settling && s.linkReset.isNone) || (s.station st).state == .resetting)
  | .saturationTimerExpiry st => (s.station st).saturation.any (fun n => decide (1000000 ≤ n + s.linkPeriod))
  | .deferralTimerExpiry x => ((s.exch x).bind (·.deferral)).any (fun n => decide (n ≤ s.linkPeriod))
  | .moderationDelayExpiry r =>
    (s.cring r).any (fun c => c.delayTimer.any (fun n => decide (c.delay * 1000 ≤ n + s.linkPeriod)))
  | _ => false

/-- The commands that time can bring, in the order in which those of one period join the queue (log 32). -/
def timedCommands : List Instr :=
  [.frameSent, .replyWindowExpired, .guardGapEnd, .tokenWindowExpired, .linkResetEnd, .laneStuck, .dataTimeout,
   .holdTimeout, .writeBlockEnd, .quietIntervalEnd, .pollTimerExpiry]
    ++ allStations.map .presenceStable ++ allStations.map .settleTimerExpiry
    ++ allStations.map .saturationTimerExpiry ++ allTags.map .deferralTimerExpiry
    ++ allRings.map .moderationDelayExpiry

/-- A timer that counts up by `by_`, and stays where its command is due. -/
def countUp (due : Bool) (by_ n : Nat) : Nat := if due then n else n + by_

/-- A timer that counts down by `by_`, and stays where its command is due. -/
def countDown (due : Bool) (by_ n : Nat) : Nat := if due then n else n - by_

/-! ## Effects that many commands share, as relations between the states before and after -/

/-- R7: the final status of an exchange after a cause has reached it: the first cause is kept. -/
def Exchange.finalAfter (e : Exchange) (st : Status) (v : Word) : Option (Status × Word) :=
  if e.final.isSome then e.final else some (st, v)

/-- R74: what is left of a request whose owner has ended its interest. -/
def Request.afterDetach (r : Request) : Option Request :=
  if r.phase = .toSend then none else some { r with detached := true }

/-- R156: the waiting lists `w` after a source has joined the list of ring `c`, once. -/
def joinInto (w : Vector (List Source) 4) (c : RingId) (src : Source) : Vector (List Source) 4 :=
  if src ∈ w[c] then w else w.set c (w[c] ++ [src])

/-- R156: the waiting lists after a source has joined the list of ring `c`, once. -/
abbrev joinedAt (s : State) (c : RingId) (src : Source) : Vector (List Source) 4 := joinInto s.waiting c src

/-- R22, R156: the waiting lists `w` after an exchange that has ended, or a held work request, has joined: an exchange once
no host access of it is outstanding. -/
def State.joinSource (s : State) (w : Vector (List Source) 4) : Source → Vector (List Source) 4
  | .exchange x => match s.exch x with
    | some e => if s.outstanding x = 0 then (match s.cringOf e.ring with
      | some c => joinInto w c (.exchange x)
      | none => w) else w
    | none => w
  | .holding r => match s.cringOf r with
    | some c => joinInto w c (.holding r)
    | none => w
  | .event => match s.eventRing with
    | some c => joinInto w c .event
    | none => w

/-- R22, R156: the waiting lists after the sources of `l` have joined, in that order. -/
def State.joined (s : State) (l : List Source) : Vector (List Source) 4 := l.foldl s.joinSource s.waiting

/-- R7, R22, R57, R84, R113: the exchange in slot `x`, which was `e`, has been reached by a cause and has entered
COMPLETING; nothing else has changed. -/
structure Ended (s t : State) (x : Tag) (e : Exchange) (st : Status) (v : Word) : Prop where
  /-- The record. -/
  record : t.exch x = some { e with state := .completing, retriesUsed := none, deferral := none,
                                    final := e.finalAfter st v }
  others : ∀ u, u ≠ x → t.exch u = s.exch u
  /-- Its tag leaves its pending queue, the reconnect queue and the pending configuration list. -/
  queue : ∀ u, t.queueOf u = if u = e.station then (s.queueOf u).filter (· != x) else s.queueOf u
  reconnect : t.reconnect = s.reconnect.filter (· != x)
  /-- R57: leaving a state that frees room clears the saturated flag. -/
  stations : ∀ u, t.station u = if u = e.station then
      { s.station u with pendingConfigs := (s.station u).pendingConfigs.filter (·.tag != x),
                         saturation := if e.state.freesRoom then none else (s.station u).saturation }
    else s.station u
  /-- Its requests on the lane are detached. -/
  current : t.current = s.current.bind (fun r => if r.owner = .exchange x then r.afterDetach else some r)
  setAside : t.setAside = s.setAside.bind (fun r => if r.owner = .exchange x then none else some r)
  /-- The lanes are released if it owned them. -/
  lanes : ∀ p, s.payload = some p → p.owner = x →
    t.payload = none ∧ t.staging = Vector.replicate 4 Slot.free ∧ t.job = none
      ∧ t.cl = (if s.cl = .hold then .idle else s.cl)
  noLanes : (∀ p, s.payload = some p → p.owner ≠ x) →
    t.payload = s.payload ∧ t.staging = s.staging ∧ t.cl = s.cl
      ∧ t.job = s.job.bind (fun j => if j.tag = x then none else some j)
  /-- It joins its waiting list once no host access of it is outstanding. -/
  waiting : t.waiting =
    if s.outstanding x = 0 then (match s.cringOf e.ring with
      | some c => joinedAt s c (.exchange x)
      | none => s.waiting)
    else s.waiting
  /-- Every other field. -/
  rest : t = { s with table := t.table, pendingQ := t.pendingQ, reconnect := t.reconnect, stations := t.stations,
                      current := t.current, setAside := t.setAside, payload := t.payload, staging := t.staging,
                      job := t.job, cl := t.cl, waiting := t.waiting }

/-- R89, R99: the payload engine's record when its owner has entered HALTING: HALTED, both timers stopped, and what is
still under way on the lanes kept by phase. -/
def Payload.afterHalt (p : Payload) : Payload :=
  { p with phase := .halted, dataTimer := none, holdTimer := none, repeatDue := false, resendDue := false,
           reopen := false, sendCheck := none, sendLanes := [],
           tail := match p.phase with
             | .awaitingBlock => .granted
             | .receiving => .receiving
             | .sending => .cutBlock
             | .hold => .hold
             | .halted => p.tail
             | _ => .nothing,
           wait := if p.phase = .awaitingBlock then 4 - p.dataTimer.getD 0 else p.wait }

/-- R7, R18, R99, R113: the exchange in slot `x`, which was `e`, has been reached by a cause and has entered HALTING;
nothing else has changed. -/
structure Halted (s t : State) (x : Tag) (e : Exchange) (st : Status) : Prop where
  record : t.exch x = some { e with state := .halting, retriesUsed := none, final := e.finalAfter st 0 }
  others : ∀ u, u ≠ x → t.exch u = s.exch u
  stations : ∀ u, t.station u = if u = e.station ∧ e.state.freesRoom = true then
      { s.station u with saturation := none } else s.station u
  job : t.job = s.job.bind (fun j => if j.tag = x then none else some j)
  /-- The payload engine stops and staging is discarded; the lanes stay owned. -/
  lanes : ∀ p, s.payload = some p → p.owner = x →
    t.staging = Vector.replicate 4 Slot.free ∧ t.payload = some p.afterHalt
  noLanes : (∀ p, s.payload = some p → p.owner ≠ x) → t.payload = s.payload ∧ t.staging = s.staging
  rest : t = { s with table := t.table, stations := t.stations, job := t.job, payload := t.payload,
                      staging := t.staging }

/-! ### Sweeps: several exchanges reached at once -/

/-- What a sweep does to an exchange. -/
inductive Fate where
  /-- Nothing. -/
  | stays
  /-- Its record is marked, and it keeps its place. -/
  | marked
  /-- It enters COMPLETING. -/
  | ends
  /-- It enters HALTING. -/
  | halts
  /-- It enters WITHDRAWING. -/
  | withdraws
deriving DecidableEq, Repr

/-- It leaves its state. -/
def Fate.moves : Fate → Bool
  | .ends | .halts | .withdraws => true
  | .stays | .marked => false

/-- What a sweep does to the exchange of a tag; nothing to a FREE slot. -/
def State.fateOf (s : State) (fate : Tag → Exchange → Fate) (x : Tag) : Fate :=
  match s.exch x with
  | some e => fate x e
  | none => .stays

/-- The exchange of a tag is one of station `u` that the sweep ends. -/
def State.endsAt (s : State) (fate : Tag → Exchange → Fate) (u : StationId) (x : Tag) : Bool :=
  (s.exch x).any (fun e => fate x e == .ends && e.station == u)

/-- The exchange that owns a request is one that the sweep ends. -/
def State.endsOwner (s : State) (fate : Tag → Exchange → Fate) (r : Request) : Bool :=
  match r.owner with
  | .exchange x => s.fateOf fate x == .ends
  | .autoIdentify _ | .fetchNotice _ | .strayWithdraw | .poll => false

/-- R5, R22, R52, R57, R74, R84, R85, R99, R113, R126: what several exchanges leave behind that have met their `fate`
together, outside their own records: the pending queues, the reconnect queue, the station records, the requests on the
command lane, the payload lanes with staging, and the payload job. The waiting lists and the quiet interval are said
beside it; every other field is unchanged. -/
structure Swept (s t : State) (fate : Tag → Exchange → Fate) : Prop where
  /-- R5, R22: those that end leave their pending queue. -/
  queues : ∀ u, t.queueOf u = (s.queueOf u).filter (fun x => !s.endsAt fate u x)
  /-- R22, R126: those that end or are withdrawn leave the reconnect queue. -/
  reconnect : t.reconnect = s.reconnect.filter (fun x => s.fateOf fate x != .ends && s.fateOf fate x != .withdraws)
  /-- R52, R57: those that end leave the pending configuration list; leaving a state that frees room clears the saturated
  flag. -/
  stations : ∀ u, t.station u =
    { s.station u with
      pendingConfigs := (s.station u).pendingConfigs.filter (fun c => !s.endsAt fate u c.tag),
      saturation := if allTags.any (fun x => (s.exch x).any
          (fun e => (fate x e).moves && e.state.freesRoom && e.station == u))
        then none else (s.station u).saturation }
  /-- R74: requests whose owner has ended are detached. -/
  current : t.current = s.current.bind (fun r => if s.endsOwner fate r then r.afterDetach else some r)
  setAside : t.setAside = s.setAside.bind (fun r => if s.endsOwner fate r then none else some r)
  /-- R84: the lanes are released if their owner has ended. -/
  released : ∀ p, s.payload = some p → s.fateOf fate p.owner = .ends →
    t.payload = none ∧ t.staging = Vector.replicate 4 Slot.free ∧ t.job = none
      ∧ t.cl = (if s.cl = .hold then .idle else s.cl)
  /-- R99: the payload engine stops if their owner is halted, and staging is discarded. -/
  halted : ∀ p, s.payload = some p → s.fateOf fate p.owner = .halts →
    t.payload = some p.afterHalt ∧ t.staging = Vector.replicate 4 Slot.free
  kept : (∀ p, s.payload = some p → s.fateOf fate p.owner ≠ .ends ∧ s.fateOf fate p.owner ≠ .halts) →
    t.payload = s.payload ∧ t.staging = s.staging
  lane : (∀ p, s.payload = some p → s.fateOf fate p.owner ≠ .ends) →
    t.cl = s.cl ∧
    t.job = s.job.bind (fun j =>
      if s.fateOf fate j.tag = .ends ∨ s.fateOf fate j.tag = .halts then none else some j)
  rest : t = { s with table := t.table, pendingQ := t.pendingQ, stations := t.stations, current := t.current,
                      setAside := t.setAside, cl := t.cl, payload := t.payload, quiet := t.quiet, staging := t.staging,
                      job := t.job, reconnect := t.reconnect, waiting := t.waiting, freeDraws := t.freeDraws }

/-- R101: the quiet interval after the sweep has released the lanes without HALT, by what their owner had under way: the
rest of an arriving block, or the data timeout and a whole block after a grant; otherwise it is left as it was. -/
def QuietSet (s t : State) (fate : Tag → Exchange → Fate) : Prop :=
  (∀ p e, s.payload = some p → s.exch p.owner = some e → fate p.owner e = .ends →
    (e.state = .transfer ∧ e.readFinished = false) ∨ e.state = .halting →
    let full := 1 + 8 * p.blockSize / p.laneWidth + 32
    (p.phase = .receiving ∨ (p.phase = .halted ∧ p.tail = .receiving) →
      t.quiet = if p.elapsed < full then some (full - p.elapsed) else s.quiet) ∧
    (p.phase = .awaitingBlock ∨ (p.phase = .halted ∧ p.tail = .granted) →
      t.quiet = some (Cfg.dataTimeout s.cfg + full)) ∧
    (p.phase ≠ .receiving → p.phase ≠ .awaitingBlock →
      ¬ (p.phase = .halted ∧ (p.tail = .receiving ∨ p.tail = .granted)) → t.quiet = s.quiet)) ∧
  ((∀ p e, s.payload = some p → s.exch p.owner = some e →
      fate p.owner e ≠ .ends ∨ ((e.state = .transfer → e.readFinished = true) ∧ e.state ≠ .halting)) → t.quiet = s.quiet)

/-- R20: a link reset ends every exchange that is in flight with its station. -/
def linkResetFate (_ : Tag) (e : Exchange) : Fate := if e.state.onLink then .ends else .stays

/-- R20: what the beginning of a link reset leaves of an exchange. -/
def Exchange.afterLinkReset (e : Exchange) : Exchange :=
  if e.state.onLink then
    { e with state := .completing, retriesUsed := none, deferral := none, final := e.finalAfter .linkReset 0 }
  else e

/-- R20, R59, R80, R84, R102, R127, R129: a link reset has begun. Nothing but the fields named has changed. What the settle
timers hold from now to the end of the signalling is the model's choice (log 33). -/
structure LinkResetBegun (s t : State) (cause : LinkCause) : Prop where
  engine : t.linkReset = some cause ∧ t.cl = .signalling 0 ∧ t.current = none ∧ t.setAside = none
    ∧ t.attention = false ∧ t.pollDue = false ∧ t.pollTimer = none ∧ t.laneLow = 0
  latch : t.linkLatch = if cause = .startUp then s.linkLatch else some cause
  exchanges : ∀ x, t.exch x = (s.exch x).map Exchange.afterLinkReset
  /-- R57, R59: those that have ended leave the pending configuration lists, and the saturated flag clears where they free
  room; an EMPTY station is unchanged otherwise, and every other one enters SETTLING, its presence input and its latch
  unchanged. -/
  stations : ∀ u,
    let r : Station :=
      { s.station u with
        pendingConfigs := (s.station u).pendingConfigs.filter (fun c => !s.endsAt linkResetFate u c.tag),
        saturation := if allTags.any (fun x => (s.exch x).any
            (fun e => e.state.onLink && e.state.freesRoom && e.station == u))
          then none else (s.station u).saturation }
    t.station u = if (s.station u).state = .empty then r else
      { r with state := .settling, profile := none, settings := none, identifyRetries := none, saturation := none,
               notices := 0, settle := some settleTime }
  /-- QUEUED exchanges keep their places. -/
  queues : ∀ u, t.queueOf u = (s.queueOf u).filter (fun x => !s.endsAt linkResetFate u x)
  lanes : t.payload = none ∧ t.quiet = none ∧ t.staging = Vector.replicate 4 Slot.free ∧ t.job = none
  notices : t.reconnect = [] ∧ t.stray = [] ∧ t.reservation = false
  /-- R20, R22: those that have ended join their waiting lists in ascending tag order. -/
  waiting : t.waiting =
    s.joined ((allTags.filter (fun x => s.fateOf linkResetFate x == .ends)).map .exchange)
  rest : t = { s with table := t.table, pendingQ := t.pendingQ, stations := t.stations, current := t.current,
                      setAside := t.setAside, attention := t.attention, pollDue := t.pollDue, pollTimer := t.pollTimer,
                      laneLow := t.laneLow, linkReset := t.linkReset, cl := t.cl, payload := t.payload,
                      quiet := t.quiet, staging := t.staging, job := t.job, reconnect := t.reconnect,
                      stray := t.stray, reservation := t.reservation, linkLatch := t.linkLatch,
                      waiting := t.waiting }

/-- R19: the exchange in this record is ended by the loss of its station. -/
def Exchange.lostWithStation (e : Exchange) : Bool :=
  e.state != .completing && !(e.state == .transfer && e.readFinished)

/-- R19: the loss of station `st` ends its exchanges, but for those in COMPLETING and a read whose link side has
finished. -/
def lossFate (st : StationId) (_ : Tag) (e : Exchange) : Fate :=
  if e.station = st ∧ e.lostWithStation = true then .ends else .stays

/-- R19: what the loss of station `st` leaves of an exchange. -/
def Exchange.afterLoss (st : StationId) (e : Exchange) : Exchange :=
  if e.station = st ∧ e.lostWithStation = true then
    { e with state := .completing, retriesUsed := none, deferral := none, final := e.finalAfter .stationGone 0 }
  else e

/-- R19, R22, R74, R84, R101: the exchanges of a station that is lost have ended, and nothing else has changed. -/
structure StationLost (s t : State) (st : StationId) : Prop where
  exchanges : ∀ x, t.exch x = (s.exch x).map (Exchange.afterLoss st)
  swept : Swept s t (lossFate st)
  quiet : QuietSet s t (lossFate st)
  /-- R19: they join their waiting lists in pending queue order, then by ascending tag. -/
  waiting : t.waiting =
    s.joined (((s.queueOf st ++ allTags).filter (fun x => s.fateOf (lossFate st) x == .ends)).map .exchange)
  draws : t.freeDraws = s.freeDraws

/-- R19, R55: station `st` has entered FAULTED: its exchanges have ended, then its record is written. -/
def StationFaulted (s t : State) (st : StationId) (cause : StationCause) : Prop :=
  ∃ m, StationLost s m st ∧
    t = { m with
          stations := m.stations.set st
            { m.station st with
              state := .faulted, profile := none, settings := none, identifyRetries := none, settle := none,
              pendingConfigs := [], saturation := none, notices := 0, latch := some (.faulted cause) } }

/-- R12, R17: DONE to the RESET of exchange `x` ends `x`, and of the other exchanges of station `st` those in DEFERRED,
RECONNECTING, RESUMING, WITHDRAWING and HALTING, and one in TRANSFER unless it is a read whose link side has finished. -/
def resetFate (st : StationId) (x u : Tag) (e : Exchange) : Fate :=
  if u = x ∨ (e.station = st ∧ (e.state = .deferred ∨ e.state = .reconnecting ∨ e.state = .resuming
      ∨ e.state = .withdrawing ∨ e.state = .halting ∨ (e.state = .transfer ∧ e.readFinished = false)))
  then .ends else .stays

/-- R12, R17, R22, R54, R101: DONE to the RESET of exchange `x`, which was `e`: it has ended SUCCESS, or with its recorded
cause, its station has entered RESETTING, and the station's other exchanges in flight have ended with STATION_RESET. They
join their waiting lists in a free order (log 9). Nothing else has changed. -/
structure StationReset (s t : State) (x : Tag) (e : Exchange) : Prop where
  record : t.exch x = some { e with state := .completing, retriesUsed := none, deferral := none,
                                    final := e.finalAfter .success 0 }
  others : ∀ u, u ≠ x → t.exch u = (s.exch u).map (fun g =>
    if resetFate e.station x u g = .ends then
      { g with state := .completing, retriesUsed := none, deferral := none, final := g.finalAfter .stationReset 0 }
    else g)
  swept : Swept
    { s with
      stations := s.stations.set e.station
        { s.station e.station with state := .resetting, profile := none, settings := none, saturation := none,
                                   notices := 0, settle := some settleTime } } t (resetFate e.station x)
  quiet : QuietSet s t (resetFate e.station x)
  waiting : ∃ l : List Tag, l.Perm (x :: allTags.filter (fun u => u != x
        && s.fateOf (resetFate e.station x) u == .ends)) ∧ t.waiting = s.joined (l.map .exchange)
  draws : t.freeDraws = s.freeDraws + 1

/-- R131, R132: what a CANCEL for request id `id` of ring `r` does to an exchange, by its state: nothing to one that does
not match or already has a cause. -/
def cancelFate (r : RingId) (id : BitVec 16) (_ : Tag) (e : Exchange) : Fate :=
  if e.ring = r ∧ e.requestId = id ∧ e.final = none then
    match e.state with
    | .queued => .ends
    | .issuing | .resuming => .marked
    | .deferred | .reconnecting => .withdraws
    | .transfer => if e.readFinished = true then .ends else .halts
    | .halting | .withdrawing | .completing => .stays
  else .stays

/-! ## What the command lane engine may choose (R64 to R69, R100, R119) -/

/-- R64: a choice is made: the blocks work, no link reset is in progress, CL lets the part begin a request, and none is
current or set aside. -/
structure State.Chooses (s : State) : Prop where
  live : s.live = true
  linkReset : s.linkReset = none
  lane : s.cl = .idle ∨ s.cl = .hold
  current : s.current = none
  setAside : s.setAside = none

/-- R100: the token window of a write block that a halt cut off is still to open. -/
def State.CutOff (s : State) : Prop := ∃ p, s.payload = some p ∧ p.phase = .halted ∧ p.tail = .cutBlock

/-- R64, R66, R100: the HALT of the exchange in slot `x` is due. -/
def State.HaltDue (s : State) (x : Tag) : Prop :=
  ∃ e, s.exch x = some e ∧ e.state = .halting ∧ e.retriesUsed = none ∧ (s.station e.station).state = .ready ∧ ¬ s.CutOff

/-- R64, R66: the WITHDRAW of the exchange in slot `x` is due. -/
def State.WithdrawDue (s : State) (x : Tag) : Prop :=
  ∃ e, s.exch x = some e ∧ e.state = .withdrawing ∧ e.retriesUsed = none ∧ (s.station e.station).state = .ready

/-- R65: a write payload runs. -/
def State.WriteRuns (s : State) : Prop := ∃ p, s.payload = some p ∧ p.dir = .write

/-- The exchange `e` in slot `x` is at the head of a station's pending queue. -/
def State.Heads (s : State) (st : StationId) (x : Tag) (e : Exchange) : Prop :=
  (s.queueOf st).head? = some x ∧ s.exch x = some e

/-- R64, R66: a RESET is due at a station. -/
def State.ResetDue (s : State) (st : StationId) : Prop :=
  ∃ x e, s.Heads st x e ∧ e.kind = .resetStation ∧ ((s.station st).state = .ready ∨ (s.station st).state = .faulted)

/-- R66: a FETCH_NOTICE is due at a station. -/
def State.FetchDue (s : State) (st : StationId) : Prop := (s.station st).state = .ready ∧ 0 < (s.station st).notices

/-- R65, R66, R123: the RESUME of the exchange in slot `x` is due: the lanes are free and its station is READY. -/
def State.ResumeDue (s : State) (x : Tag) (e : Exchange) : Prop :=
  s.reconnect.head? = some x ∧ s.exch x = some e ∧ s.payload = none ∧ (s.station e.station).state = .ready

/-- R65, R66, R67: the head of a pending queue is eligible: a READ or WRITE while the lanes are free, the station's
saturated flag is clear and its held count is below its queue depth; a CONFIGURE while the station is quiet. -/
def State.HeadDue (s : State) (st : StationId) : Prop :=
  ∃ x e, s.Heads st x e ∧ match e.kind with
    | .readBlocks | .writeBlocks => s.payload = none ∧ (s.station st).state = .ready ∧ (s.station st).saturation = none
        ∧ ∃ p, (s.station st).profile = some p ∧ s.heldCount st < Profile.depth p
    | .query | .control => (s.station st).state = .ready
    | .configureStation => (s.station st).state = .ready
        ∧ ∀ y f, s.exch y = some f → f.station = st → f.state = .queued ∨ f.state = .completing
    | .identifyStation => (s.station st).state = .ready ∨ (s.station st).state = .faulted
    | .resetStation => False

/-- The lowest index of which `P` holds. -/
def Lowest {n : Nat} (P : Fin n → Prop) (i : Fin n) : Prop := P i ∧ ∀ j, j < i → ¬ P j

/-- R68: the first station from a pointer on, wrapping, of which `P` holds. -/
def FirstFrom (ptr : StationId) (P : StationId → Prop) (st : StationId) : Prop :=
  P st ∧ ∀ u : StationId, (u.val + 8 - ptr.val) % 8 < (st.val + 8 - ptr.val) % 8 → ¬ P u

/-- R64, R65: what comes before the candidates of priority 3 is not there: no HALT or WITHDRAW is due, no stray pair waits,
and no write payload runs. -/
structure State.PastWithdraw (s : State) : Prop extends s.Chooses where
  halt : ∀ x, ¬ s.HaltDue x
  write : ¬ s.WriteRuns
  withdraw : ∀ x, ¬ s.WithdrawDue x
  stray : s.stray = []

/-- R64: what comes before the FETCH_NOTICE candidates is not there either: no RESET, automatic IDENTIFY or POLL is due. -/
structure State.PastPoll (s : State) : Prop extends s.PastWithdraw where
  reset : ∀ st, ¬ s.ResetDue st
  identify : ∀ st, (s.station st).state ≠ .identifying
  attention : s.attention = false
  poll : s.pollDue = false

/-- R64, R119: nothing of a higher priority than the pending queues is due. -/
structure State.PastResume (s : State) : Prop extends s.PastPoll where
  fetch : 8 ≤ s.eventQueue.length ∨ ∀ st, ¬ s.FetchDue st
  resume : ∀ x e, ¬ s.ResumeDue x e

/-! ## A block placed into host accesses -/

/-- R104, R110, R111: the accesses `l`, begun from number `id`, place `size` bytes that are left of a block at host address
`addr` on, in a descriptor with `room` bytes from there: in order, without a gap, each running to the nearest of 256 bytes
on, the end of the descriptor, the next 4 KiB boundary and the end of the block. Together they reach the end of the block,
or of the descriptor where that comes first. An address past the top of 64 bits wraps (log 36). -/
def PlacesBlock (l : List Access) (id : Nat) (addr : BitVec 64) (room size : Nat) : Prop :=
  (l.map Access.len).sum = min room size ∧
  ∀ k (a : Access), l[k]? = some a →
    let done := ((l.take k).map Access.len).sum
    a.id = id + k ∧ a.addr = addr + BitVec.ofNat 64 done ∧ 1 ≤ a.len
      ∧ a.len = min 256 (min (room - done) (min (4096 - a.addr.toNat % 4096) (size - done)))

/-- R104, R110, R111: the accesses `l` of a block of job `j` carry its bytes from byte `placed` on: host writes of the bytes
of its slot, or host reads that name their place in the block. -/
def CarriesBlock (j : Job) (slot : List Byte) (placed : Nat) (l : List Access) : Prop :=
  match j.dir with
  | .read =>
    (l.map Access.data).flatten = (slot.drop placed).take (l.map Access.len).sum ∧
    ∀ a ∈ l, a.purpose = .dataWrite j.tag ∧ a.data.length = a.len
  | .write => ∀ k (a : Access), l[k]? = some a →
    a.purpose = .dataRead j.tag j.nextBlock (placed + ((l.take k).map Access.len).sum) ∧ a.data = []

/-- R112, R113: in state `u` the mover reports status `st` for the exchange `e` in slot `x`, which is in TRANSFER: the job
ends, and the exchange enters HALTING, or COMPLETING where it is a read whose link side has finished. -/
def MoverReports (u t : State) (x : Tag) (e : Exchange) (st : Status) : Prop :=
  (e.readFinished = false → Halted { u with job := none } t x e st) ∧
  (e.readFinished = true → Ended { u with job := none } t x e st 0)

/-- R106, R108: an entry of a page is malformed where it is needed with `walked` descriptors taken before it. That the limit
of 4096 is judged once the entry is read is the model's reading (log 13). -/
def Descriptor.Malformed (d : Descriptor) (walked : Nat) : Prop :=
  (d.last = true ∧ d.chain = true) ∨ 4096 ≤ walked ∨ (d.chain = true ∧ d.addr.toNat % 16 ≠ 0)
    ∨ (d.chain = false ∧ (d.len = 0 ∨ 16777216 < d.len))

/-- R106: a CHAIN entry leads to the next page. -/
def Descriptor.Leads (d : Descriptor) (walked : Nat) : Prop :=
  d.last = false ∧ d.chain = true ∧ walked < 4096 ∧ d.addr.toNat % 16 = 0

/-- R106, R108: a data entry is taken into use. -/
def Descriptor.Usable (d : Descriptor) (walked : Nat) : Prop :=
  d.chain = false ∧ walked < 4096 ∧ 1 ≤ d.len ∧ d.len ≤ 16777216

/-- R107: the read ahead, numbered `id`, that begins as entry `entry` of `page`, the data descriptor `d`, becomes current: of
the entry after it, if the list goes on in this page. -/
def aheadReads (x : Tag) (id : Nat) (page : BitVec 64) (entry : Nat) (d : Descriptor) : List Access :=
  if d.last = false ∧ entry + 1 < 256 then
    [{ id := id, purpose := .descriptor x, addr := page + BitVec.ofNat 64 (16 * (entry + 1)), len := 16, data := [] }]
  else []

/-- R103, R107: the walk in which entry `entry` of `page`, the data descriptor `d`, has been taken into use and `n` of its
bytes are placed. -/
def Walk.inEntry (w : Walk) (page : BitVec 64) (entry : Nat) (d : Descriptor) (n : Nat) (look : LookAhead) : Walk :=
  { pos := .page page (entry + 1), ended := d.last, cur := some { desc := d, index := w.walked, offset := n },
    walked := w.walked + 1, look := look, needed := false }

/-- R104, R107, R108, R110 to R112: from `u` to `t` the data descriptor `d`, entry `entry` of `page`, is taken into use, the
entry after it read ahead, and the rest of the block in hand `h` placed into it. Where the descriptor ends before the block,
the mover waits for the entry after it, or reports SEGMENT_SHORT after LAST, and LIST_MALFORMED after entry 255. -/
def EntryTaken (u t : State) (j : Job) (e : Exchange) (h : InHand) (page : BitVec 64) (entry : Nat) (d : Descriptor) :
    Prop :=
  let rest := j.blockSize - h.placed
  let n := min rest d.len
  let ahead := aheadReads j.tag u.nextAccess page entry d
  ∃ l, PlacesBlock l (u.nextAccess + ahead.length) d.addr d.len rest ∧ CarriesBlock j (u.slot h.slot).data h.placed l ∧
    let e' := { e with cursor := some { index := j.walk.walked, offset := n } }
    let look : LookAhead := if d.last = false ∧ entry + 1 < 256 then .reading else .empty
    let v (needed : Bool) : State :=
      { u with
        job := some { j with walk := { j.walk.inEntry page entry d n look with needed := needed },
                             inHand := some { h with placed := h.placed + n, issued := h.issued + l.length } },
        table := u.table.set j.tag (some e'),
        accesses := u.accesses ++ ahead ++ l, nextAccess := u.nextAccess + ahead.length + l.length }
    if rest ≤ d.len then t = v false
    else if d.last = true then MoverReports (v false) t j.tag e' .segmentShort
    else if entry + 1 < 256 then t = v true
    else MoverReports (v false) t j.tag e' .listMalformed

/-- R104, R114: the host writes `l` carry the profile bytes of job `j` from byte `placed` on, in profile order. -/
def CarriesProfile (j : ProfileJob) (placed : Nat) (l : List Access) : Prop :=
  (l.map Access.data).flatten =
    (((List.range 16).map (fun k => j.bytes.extractLsb' (8 * (15 - k)) 8)).drop placed).take (l.map Access.len).sum ∧
  ∀ a ∈ l, a.purpose = .profileWrite j.tag ∧ a.data.length = a.len

/-- R114: the state `u` once the head job `j`, of exchange `e`, has reached walk `w` and issued `l` for `n` bytes more. -/
def State.profilePlaced (u : State) (j : ProfileJob) (e : Exchange) (w : Walk) (n : Nat) (l : List Access) : State :=
  { u with
    profiles := { j with started := true, walk := w, placed := j.placed + n, issued := j.issued + l.length }
      :: u.profiles.tail,
    table := u.table.set j.tag (some { e with cursor := some w.cursor }),
    accesses := u.accesses ++ l, nextAccess := u.nextAccess + l.length }

/-- R22, R114: the state `u` once the head job, of the exchange `e` in slot `x`, has ended by a fault: the exchange has its
status, and joins the waiting list of ring `c` once no host access of it is outstanding. -/
def State.profileEnded (u : State) (x : Tag) (e : Exchange) (c : RingId) (st : Status) : State :=
  { u with
    profiles := u.profiles.tail,
    table := u.table.set x (some { e with final := some (st, 0) }),
    waiting := if u.outstanding x = 0 then joinedAt u c (.exchange x) else u.waiting }

/-! ## A token frame -/

/-- R32, R177: the frame that a token command reports, and what its check, station, code and tag say. -/
def tokenOf : Instr → Option (BitVec 32 × Token)
  | .tokenTaken st x => some (tokenFrame st .taken x, .good st .taken x)
  | .tokenCheckFail st x => some (tokenFrame st .checkFail x, .good st .checkFail x)
  | .tokenFault st x => some (tokenFrame st .fault x, .good st .fault x)
  | .tokenHold st x => some (tokenFrame st .hold x, .good st .hold x)
  | .tokenRelease st x => some (tokenFrame st .release x, .good st .release x)
  | .tokenBadCheck f => some (f, parseToken f)
  | _ => none

/-- R33, R34, R76: CL takes a token frame: in a token window, as the frame arrives, or while HOLD is in force, there also in
a guard gap (log 21). -/
def State.TakesToken (s : State) : Prop :=
  (∃ k, s.cl = .tokenWindow k) ∨ s.cl = .tokenReceiving
    ∨ (s.holdInForce = true ∧ (s.cl = .hold ∨ ∃ k, s.cl = .guardGap k))

/-- R37: no run of lows passes 4096 within the token frame `f`, its start mark included. -/
def State.Hears (s : State) (f : BitVec 32) : Prop := s.laneLow + 1 + lowHead f ≤ 4096

/-- R34, R37: the state in which the payload engine takes the token frame `f`: the guard gap has begun, and the lane-low
count is what the frame's levels leave, counted at its report (log 12). -/
def State.afterToken (s : State) (f : BitVec 32) : State :=
  { s with cl := .guardGap 0, laneLow := lowAfter s.laneLow 1 f }

/-! ## A reply that is delivered -/

/-- R30, R33, R71: the reply `rep` in frame `f` matches the current request `r`, which awaits it. -/
structure State.Matched (s : State) (f : BitVec 80) (r : Request) (rep : Reply) : Prop where
  live : s.live = true
  current : s.current = some r
  kind : r.kind ≠ .poll
  phase : r.phase = .awaiting ∨ r.phase = .receiving
  lane : (∃ n, s.cl = .window n) ∨ s.cl = .receiving
  good : parseReply f = some rep
  station : rep.station = r.station
  tag : rep.tag = tagBits r.tag

/-- R71, R74: the matched reply is to a request that is not detached, so that its outcome is delivered. -/
structure State.Answered (s : State) (f : BitVec 80) (r : Request) (rep : Reply) : Prop extends s.Matched f r rep where
  attached : r.detached = false

/-- R30, R34, R37, R58, R71: the state in which the outcome of a matched reply in frame `f` is delivered: the count is handed
over, the request record is absent, the guard gap begins, and the lane-low count is what the frame's levels leave. -/
def State.afterReply (s : State) (f : BitVec 80) (rep : Reply) : State :=
  { s.handCount rep with cl := .guardGap 0, current := none, laneLow := lowAfter s.laneLow 1 f }

/-- R8, R124: the reply answers the exchange's own request in ISSUING, or the RESUME of a payload kind in RESUMING. -/
def Exchange.awaits (e : Exchange) (r : Request) : Prop :=
  (e.state = .issuing ∧ r.kind = e.kind.request) ∨ (e.state = .resuming ∧ r.kind = .resume ∧ e.kind.payload = true)

/-! ## An attempt that fails -/

/-- R31, R33, R71, R72, R76: command `c` makes an attempt of the current request `r` fail, as `k` says; `m` is the state from
which the failure is judged: the guard gap has begun, the lane-low count is what the levels received leave (R37), and a
good reply has handed over its count. That a mismatched reply to the request of an exchange with a cancel mark is such an
attempt is the model's reading (log 25). -/
inductive State.AttemptFails (s : State) (r : Request) : Instr → FailKind → State → Prop where
  /-- The reply window ran out, and no cancel mark forbids another attempt (R134). -/
  | window (n : Nat) : s.cl = .window n → r.phase = .awaiting → s.markedOwner r = none →
      State.AttemptFails s r .replyWindowExpired .window { s with cl := .guardGap 0, laneLow := 0 }
  /-- A reply with a bad check. -/
  | badReply (f : BitVec 80) : (∃ n, s.cl = .window n) ∨ s.cl = .receiving →
      r.phase = .awaiting ∨ r.phase = .receiving → r.kind ≠ .poll → r.kind ≠ .identify → parseReply f = none →
      State.AttemptFails s r (.replyReceived f) .check { s with cl := .guardGap 0, laneLow := lowAfter s.laneLow 1 f }
  /-- A good reply of another station or tag; one that is DONE, to IDENTIFY, opens a profile interval. -/
  | otherReply (f : BitVec 80) (rep : Reply) : (∃ n, s.cl = .window n) ∨ s.cl = .receiving →
      r.phase = .awaiting ∨ r.phase = .receiving → r.kind ≠ .poll → r.kind ≠ .identify ∨ rep.outcome ≠ .done →
      parseReply f = some rep →
      rep.station ≠ r.station ∨ rep.tag ≠ tagBits r.tag →
      State.AttemptFails s r (.replyReceived f) .window
        { s.handCount rep with cl := .guardGap 0, laneLow := lowAfter s.laneLow 1 f }
  /-- R76: a token frame where a reply was due: a reply with a bad check, whose other periods are high. -/
  | token (c : Instr) : (tokenOf c).isSome = true → (∃ n, s.cl = .window n) ∨ s.cl = .receiving →
      r.phase = .awaiting ∨ r.phase = .receiving → r.kind ≠ .poll → r.kind ≠ .identify →
      State.AttemptFails s r c .check { s with cl := .guardGap 0, laneLow := 0 }
  /-- A profile with a bad check. -/
  | badProfile (f : BitVec 144) : s.cl = .profile .judge → parseProfile f = none →
      State.AttemptFails s r (.profileReceived f) .check { s with cl := .guardGap 0, laneLow := lowAfter s.laneLow 0 f }
  /-- The end of a profile interval that was to be discarded. -/
  | discarded (f : BitVec 144) (k : FailKind) : s.cl = .profile (.discard k) →
      State.AttemptFails s r (.profileReceived f) k { s with cl := .guardGap 0, laneLow := lowAfter s.laneLow 0 f }

end Sys2Proof.Machine
end

