-- ==== Sys2Proof/WellFormed.lean ====
section
/-! DEFINITION. What the operands of a command must satisfy to be a report the spec describes. -/

namespace Sys2Proof

/-- The command codes of R181: 1 ENABLE, 2 DISABLE, 3 LINK_RESET, 4 FUNCTION_RESET. -/
abbrev namesCommand (code : Word) : Prop := 1 ≤ code.toNat ∧ code.toNat ≤ 4

/-- A command is well formed when its operands lie in the ranges the spec gives them. -/
abbrev Instr.WellFormed : Instr → Prop
  /- R169: a code that names no command. -/
  | .undefinedCommand code => ¬ namesCommand code
  /- R181: a write of one byte or more within the 24 bytes of the window. That one command carries at most four bytes is the
  model's choice (log 40): R181 does not speak of a longer write. -/
  | .registerWrite offset bytes _ => 1 ≤ bytes ∧ bytes ≤ 4 ∧ offset + bytes ≤ 24
  /- R38: up to four lanes, none with more than the 2048 bytes of a block; a lane left early is completed by 1 bits
  (R90). -/
  | .readBlockReceived lanes _ => lanes.length ≤ 4 ∧ lanes.all (fun l => decide (l.length ≤ 2048)) = true
  /- R104: a data read carries 1 to 256 bytes. -/
  | .dataReadComplete _ bytes => 1 ≤ bytes.length ∧ bytes.length ≤ 256
  | _ => True

end Sys2Proof
end

