-- ==== Sys2Proof/Certificates/Slice0/Obligations.lean ====
section
/-! DEFINITION. The statements about the machine, from the numbered rules of spec/. Each completion statement gives the
whole next state: a field it does not name is unchanged. -/

open Sys2Proof Sys2Proof.Machine

/-! ## The step -/

/-- The command at the front of the queue is taken, and run on the state with the queue's rest. -/
def Obligations.StepRunsFrontCommand : Prop :=
  ∀ (c : Instr) (rest : List Instr) (s : State),
    s.pending = c :: rest → step s = exec c { s with pending := rest }

/-- The model's choice (log 2): on an empty queue a step is one period of the link clock. Its length in ns follows the
rate code (R25), and a block's length its size and lane width (R38). Outside RUNNING and DRAINING nothing happens. In
them every timer and counter that runs goes on by one period, or stays where its command is due; the commands that are
due join the queue, in an order that is the model's choice too (log 32), as is when the levels of a frame, and of the
first periods of a guard gap or a token window, enter the lane-low count (log 12); and every other field is unchanged.
-/
def Obligations.EmptyQueueIsOneLinkPeriod : Prop :=
  (∀ s : State,
    (s.live = true ↔ s.device.state = .running ∨ s.device.state = .draining) ∧
    (s.device.lck = some 0 → s.linkPeriod = 160) ∧ (s.device.lck = some 1 → s.linkPeriod = 80) ∧
    (s.device.lck = some 2 → s.linkPeriod = 40) ∧ (s.device.lck = some 3 → s.linkPeriod = 20)) ∧
  (∀ p : Payload, p.blockLength = 1 + 8 * p.blockSize / p.laneWidth + 32) ∧
  (∀ s : State, s.pending = [] →
    (s.live = false → step s = .next s) ∧
    (s.live = true → ∃ t, step s = .next t ∧
      t.pending = timedCommands.filter s.due ∧
      t.cl = (match s.cl with
        | .sending n => .sending (countUp (s.due .frameSent) 1 n)
        | .window n => .window (countUp (s.due .replyWindowExpired) 1 n)
        | .guardGap n => .guardGap (countUp (s.due .guardGapEnd) 1 n)
        | .tokenWindow n => .tokenWindow (countUp (s.due .tokenWindowExpired) 1 n)
        | .signalling n => .signalling (countUp (s.due .linkResetEnd) 1 n)
        | c => c) ∧
      t.laneLow = (match s.cl with
        | .low => min 4097 (s.laneLow + 1)
        | .receiving | .profile _ | .pollSlots | .tokenReceiving => s.laneLow
        | .guardGap n => if n < (if s.holdInForce then 1 else 2) then s.laneLow
          else if 4097 ≤ s.laneLow then s.laneLow else 0
        | .tokenWindow 0 => s.laneLow
        | _ => if 4097 ≤ s.laneLow then s.laneLow else 0) ∧
      t.payload = s.payload.map (fun p =>
        { p with dataTimer := p.dataTimer.map (countUp (s.due .dataTimeout) 1),
                 holdTimer := p.holdTimer.map (countUp (s.due .holdTimeout) 1),
                 elapsed := (match p.onLanes with
                   | some .write => countUp (s.due .writeBlockEnd) 1 p.elapsed
                   | some .read => min p.blockLength (p.elapsed + 1)
                   | none => p.elapsed),
                 wait := if p.gapDue then p.wait else p.wait - 1 }) ∧
      t.quiet = s.quiet.map (countDown (s.due .quietIntervalEnd) 1) ∧
      t.pollTimer = s.pollTimer.map (countDown (s.due .pollTimerExpiry) s.linkPeriod) ∧
      (∀ u, t.station u =
        { s.station u with
          debounce := (s.station u).debounce.map (fun n =>
            if 10000000 ≤ n then n else countUp (s.due (.presenceStable u)) s.linkPeriod n),
          settle :=
            if ((s.station u).state = .settling ∧ s.linkReset = none) ∨ (s.station u).state = .resetting
            then (s.station u).settle.map (countDown (s.due (.settleTimerExpiry u)) s.linkPeriod)
            else (s.station u).settle,
          saturation := (s.station u).saturation.map (countUp (s.due (.saturationTimerExpiry u)) s.linkPeriod) }) ∧
      (∀ x, t.exch x = (s.exch x).map (fun e =>
        { e with deferral := e.deferral.map (countDown (s.due (.deferralTimerExpiry x)) s.linkPeriod) })) ∧
      (∀ r, t.cring r = (s.cring r).map (fun c =>
        { c with delayTimer := c.delayTimer.map (countUp (s.due (.moderationDelayExpiry r)) s.linkPeriod) })) ∧
      t = { s with cl := t.cl, laneLow := t.laneLow, payload := t.payload, quiet := t.quiet, pollTimer := t.pollTimer,
                   stations := t.stations, table := t.table, crings := t.crings, pending := t.pending }))

/-- Every command has a next state, in every state: nothing in the table stops the machine. That a command whose event
cannot happen in a state leaves it unchanged is the model's choice (log 4). -/
def Obligations.EveryCommandGivesANextState : Prop :=
  ∀ (c : Instr) (s : State), ∃ t, exec c s = .next t

/-- What the spec says of the part right after power-on: R1, R5, R25, R45, R61, R63, R82, R85, R103, R116, R141, R152,
R155, R162, R166, R167; and the six laws below hold there. -/
def Obligations.PowerOnCondition : Prop :=
  (∀ t, State.reset.exch t = none) ∧ (∀ st, State.reset.queueOf st = []) ∧ (∀ st, State.reset.station st = Station.reset)
    ∧ Station.reset.state = .empty ∧ Station.reset.latch = none ∧ Station.reset.notices = 0
    ∧ Station.reset.saturation = none ∧ Station.reset.pendingConfigs = [] ∧ Station.reset.profile = none
    ∧ Station.reset.settings = none ∧ Station.reset.level = none ∧ Station.reset.debounce = none
    ∧ Station.reset.settle = none ∧ Station.reset.identifyRetries = none ∧ State.reset.cl = .stopped
    ∧ State.reset.device.state = .off ∧ State.reset.device.result = .none ∧ State.reset.device.cause = .none
    ∧ State.reset.device.configBase = 0 ∧ State.reset.device.config = none ∧ State.reset.device.lck = none
    ∧ State.reset.device.statusWord = 0
    ∧ State.reset.current = none ∧ State.reset.setAside = none ∧ State.reset.attention = false
    ∧ State.reset.pollDue = false ∧ State.reset.pollTimer = none ∧ State.reset.issuePtr = 0 ∧ State.reset.fetchPtr = 0
    ∧ State.reset.laneLow = 0 ∧ State.reset.linkReset = none ∧ State.reset.payload = none ∧ State.reset.quiet = none
    ∧ (∀ i, (State.reset.slot i).state = .free) ∧ State.reset.job = none ∧ State.reset.profiles = []
    ∧ State.reset.accesses = [] ∧ State.reset.reconnect = [] ∧ State.reset.stray = [] ∧ State.reset.reservation = false
    ∧ (∀ r, State.reset.subRing r = SubRing.reset) ∧ SubRing.reset.state = .unused ∧ SubRing.reset.fetchIdx = 0
    ∧ SubRing.reset.postIdx = 0 ∧ SubRing.reset.outstanding = 0 ∧ SubRing.reset.holding = .empty
    ∧ SubRing.reset.cfg = none ∧ SubRing.reset.cause = none
    ∧ State.reset.arbPtr = 0 ∧ State.reset.arbCredit = 0 ∧ (∀ r, State.reset.cring r = none)
    ∧ (∀ r : RingId, State.reset.waiting[r] = []) ∧ State.reset.eventQueue = []
    ∧ (∀ r : RingId, State.reset.ringLatch[r] = none) ∧ State.reset.linkLatch = none
    ∧ State.reset.ClockOk ∧ State.reset.CRingsOk ∧ State.reset.IndicesOk ∧ State.reset.CountsOk ∧ State.reset.RoomOk
    ∧ State.reset.StagingOk

/-! ## Laws that every step keeps -/

/-- R25, R168, R172: LCK runs exactly in RUNNING and DRAINING; the configuration copy is kept exactly in them and in
STOPPED. -/
def Obligations.StepKeepsClockAndConfigurationLaw : Prop :=
  ∀ s t : State, s.ClockOk → step s = .next t → t.ClockOk

/-- R155, R157: the tail is the head plus the unreleased count round the ring, and a ring never holds more unreleased
records than its size. -/
def Obligations.StepKeepsCompletionRingLaw : Prop :=
  ∀ s t : State, s.CRingsOk → step s = .next t → t.CRingsOk

/-- R141: fetch index and post index of a used submission ring lie below its size. -/
def Obligations.StepKeepsRingIndicesInRange : Prop :=
  ∀ s t : State, s.IndicesOk → step s = .next t → t.IndicesOk

/-- R146: the outstanding count of each ring equals its exchange slots plus its occupied holding position. -/
def Obligations.StepKeepsOutstandingCounts : Prop :=
  ∀ s t : State, s.CountsOk → step s = .next t → t.CountsOk

/-- R119, R162: the event queue with the place held for a fetch never exceeds eight records. -/
def Obligations.StepKeepsEventQueueRoom : Prop :=
  ∀ s t : State, s.RoomOk → step s = .next t → t.RoomOk

/-- R85, R113: with the payload lanes free, every staging slot is FREE and no payload job is present. -/
def Obligations.StepKeepsStagingFreeWithoutOwner : Prop :=
  ∀ s t : State, s.StagingOk → step s = .next t → t.StagingOk

/-- R168: the device state changes only along the listed transitions, whatever command is taken. -/
def Obligations.DeviceStateMovesOnlyAsListed : Prop :=
  ∀ (c : Instr) (s t : State), exec c s = .next t →
    t.device.state = s.device.state ∨ t.device.state = .off ∨
    (s.device.state = .off ∧ t.device.state = .loading ∧ t.vectors = s.vectors) ∨
    (s.device.state = .loading ∧ t.device.state = .running ∧ t.vectors = s.vectors ++ [4]) ∨
    (s.device.state = .running ∧ t.device.state = .draining ∧ t.vectors = s.vectors) ∨
    ((s.device.state = .running ∨ s.device.state = .draining) ∧ t.device.state = .stopped
      ∧ t.vectors = s.vectors ++ [4])

/-! ## Device control (chapter 11) -/

/-- R176: power-on and the host link's reset input leave every block in its power-on condition; a function reset, by
command or through the endpoint, is taken in any state, keeps CONFIG_BASE alone and sends no vector. The messages sent, the
access number, the draws and the queue are the model's own fields (logs 7, 8, 9). -/
def Obligations.ResetsClearThePart : Prop :=
  ∀ (s : State) (c : Instr),
    (c = .powerOn ∨ c = .hostLinkResetInput →
      exec c s = .next { State.reset with vectors := s.vectors, nextAccess := s.nextAccess, freeDraws := s.freeDraws,
                                          pending := s.pending }) ∧
    (c = .functionReset ∨ c = .endpointFunctionReset →
      exec c s = .next { State.reset with device := { State.reset.device with configBase := s.device.configBase },
                                          vectors := s.vectors, nextAccess := s.nextAccess, freeDraws := s.freeDraws,
                                          pending := s.pending })

/-- R170: ENABLE in OFF clears the ring fault flags, sets the result to NONE, enters LOADING and issues four reads of 64
bytes; with CONFIG_BASE no multiple of 256 it ends at once with CONFIG_INVALID (R171), with no read issued. -/
def Obligations.EnableReadsTheConfigurationBlock : Prop :=
  ∀ s : State, s.device.state = .off →
    (s.device.configBase.toNat % 256 = 0 →
      exec .enable s = .next
        { s with
          device := { s.device with ringFault := Vector.replicate 4 false, result := .none, state := .loading,
                                    load := Vector.replicate 4 none },
          nextAccess := s.nextAccess + 4,
          accesses := s.accesses ++
            [ { id := s.nextAccess, purpose := .configRead 0, addr := s.device.configBase, len := 64, data := [] },
              { id := s.nextAccess + 1, purpose := .configRead 1, addr := s.device.configBase + 64, len := 64, data := [] },
              { id := s.nextAccess + 2, purpose := .configRead 2, addr := s.device.configBase + 128, len := 64,
                data := [] },
              { id := s.nextAccess + 3, purpose := .configRead 3, addr := s.device.configBase + 192, len := 64,
                data := [] } ] }) ∧
    (s.device.configBase.toNat % 256 ≠ 0 →
      exec .enable s = .next
        { s with
          device := { s.device with ringFault := Vector.replicate 4 false, result := .configInvalid,
                                    load := Vector.replicate 4 none },
          accesses := s.accesses.filter (fun a => !a.isConfigRead),
          vectors := s.vectors ++ [4] })

/-- R169: a refused command sets the last command result to REFUSED and has no other effect. -/
def Obligations.RefusedCommandsOnlySetTheResult : Prop :=
  ∀ (s : State) (c : Instr),
    (c = .enable ∧ s.device.state ≠ .off)
      ∨ (c = .disable ∧ (s.device.state = .off ∨ s.device.state = .draining ∨ s.device.state = .stopped))
      ∨ (c = .linkReset ∧ (s.device.state = .off ∨ s.device.state = .loading ∨ s.device.state = .stopped))
      ∨ (∃ code, c = .undefinedCommand code ∧ ¬ namesCommand code) →
    exec c s = .next { s with device := { s.device with result := .refused } }

/-- R173: DISABLE in LOADING abandons the load and returns to OFF with the device vector; in RUNNING it enters
DRAINING. -/
def Obligations.DisableEndsALoadOrStartsADrain : Prop :=
  ∀ s : State,
    (s.device.state = .loading →
      exec .disable s = .next
        { s with
          device := { s.device with result := .ok, state := .off, load := Vector.replicate 4 none },
          accesses := s.accesses.filter (fun a => !a.isConfigRead),
          vectors := s.vectors ++ [4] }) ∧
    (s.device.state = .running →
      exec .disable s = .next { s with device := { s.device with result := .ok, state := .draining } })

/-- R166, R167, R181: CONFIG_BASE takes a write in OFF and ignores it elsewhere; STATUS ignores writes; fewer than four bytes
are no write, nor is a write that does not begin at a word; a full write to COMMAND, POST or RELEASE is that command
(log 16). A read returns CONFIG_BASE, the STATUS word by its layout, and 0 of the other words, and a read of fewer than
four bytes returns the bytes read. -/
def Obligations.RegisterWritesReachTheirWords : Prop :=
  ∀ (s : State) (v : Word),
    (∀ k n, n < 4 → exec (.registerWrite k n v) s = .next s) ∧
    (∀ k n, k % 4 ≠ 0 ∨ 24 ≤ k → exec (.registerWrite k n v) s = .next s) ∧
    exec (.registerWrite 0x0C 4 v) s = .next s ∧
    (s.device.state ≠ .off → exec (.registerWrite 0x00 4 v) s = .next s ∧ exec (.registerWrite 0x04 4 v) s = .next s) ∧
    (s.device.state = .off → exec (.registerWrite 0x00 4 v) s = .next
      { s with device := { s.device with configBase := s.device.configBase.extractLsb' 32 32 ++ v } }) ∧
    (s.device.state = .off → exec (.registerWrite 0x04 4 v) s = .next
      { s with device := { s.device with configBase := v ++ s.device.configBase.extractLsb' 0 32 } }) ∧
    exec (.registerWrite 0x10 4 v) s = exec (.post v) s ∧ exec (.registerWrite 0x14 4 v) s = exec (.release v) s ∧
    exec (.registerWrite 0x08 4 1) s = exec .enable s ∧ exec (.registerWrite 0x08 4 2) s = exec .disable s ∧
    exec (.registerWrite 0x08 4 3) s = exec .linkReset s ∧ exec (.registerWrite 0x08 4 4) s = exec .functionReset s ∧
    (¬ namesCommand v → exec (.registerWrite 0x08 4 v) s = exec (.undefinedCommand v) s) ∧
    s.readRegister .configBaseLow = s.device.configBase.extractLsb' 0 32 ∧
    s.readRegister .configBaseHigh = s.device.configBase.extractLsb' 32 32 ∧
    s.readRegister .command = 0 ∧ s.readRegister .post = 0 ∧ s.readRegister .release = 0 ∧
    (let status := s.readRegister .status
     status.extractLsb' 0 4 = (match s.device.state with
       | .off => 0#4 | .loading => 1#4 | .running => 2#4 | .draining => 3#4 | .stopped => 4#4) ∧
     status.extractLsb' 4 4 = (match s.device.result with
       | .none => 0#4 | .ok => 1#4 | .refused => 2#4 | .configInvalid => 3#4 | .configFetchFault => 4#4) ∧
     status.extractLsb' 8 4 = (match s.device.cause with
       | .none => 0#4 | .completionWriteFault => 1#4) ∧
     (∀ r : RingId, status.getLsbD (12 + r.val) = s.device.ringFault[r]) ∧
     status.getLsbD 16 = s.device.releaseRefused ∧ status.getLsbD 17 = s.device.postIgnored ∧
     status.extractLsb' 18 14 = 0) ∧
    (∀ (w : RegWord) (i n : Nat), i + n ≤ 4 →
      s.readWindow (w.offset + i) n = (List.range n).map (fun k => (s.readRegister w).extractLsb' (8 * (i + k)) 8))

/-- R170, R171, R181: a completed read of the configuration block is kept until all four have come; an invalid block takes
the device to OFF with CONFIG_INVALID, no copy and the device vector; a faulted read ends the load with
CONFIG_FETCH_FAULT. The four parts are the block's bytes in order; where its fields lie, and within which bounds it is
valid. -/
def Obligations.ConfigurationReadsAreCollectedAndJudged : Prop :=
  (∀ (s : State) (a : Access) (part : Fin 4) (data : BitVec 512),
    s.device.state = .loading → s.access a.id = some a → a.purpose = .configRead part →
    let d : Device := { s.device with load := s.device.load.set part (some data) }
    (d.loadedBlock = none →
      exec (.configReadComplete a.id data) s = .next
        { s with device := d, accesses := s.accesses.filter (fun b => b.id != a.id) }) ∧
    (∀ c, d.loadedBlock = some c → Cfg.valid c = false →
      exec (.configReadComplete a.id data) s = .next
        { s with
          device := { s.device with load := Vector.replicate 4 none, result := .configInvalid, state := .off },
          accesses := (s.accesses.filter (fun b => b.id != a.id)).filter (fun b => !b.isConfigRead),
          vectors := s.vectors ++ [4] }) ∧
    exec (.configReadFault a.id) s = .next
      { s with
        device := { s.device with load := Vector.replicate 4 none, result := .configFetchFault, state := .off },
        accesses := s.accesses.filter (fun b => !b.isConfigRead),
        vectors := s.vectors ++ [4] }) ∧
  (∀ (d : Device) (c : BitVec 2048), d.loadedBlock = some c ↔
    ∀ part : Fin 4, d.load[part] = some (c.extractLsb' (512 * part.val) 512)) ∧
  (∀ c : BitVec 2048,
    let field (k n : Nat) : Nat := (c.extractLsb' (8 * k) (8 * n)).toNat
    let used (n : Nat) : Prop := n < 4 ∧ field (64 + 16 * n + 8) 1 ≠ 0
    (∀ r : RingId, (Cfg.subBase c r).toNat = field (16 * r.val) 8 ∧ Cfg.subExp c r = field (16 * r.val + 8) 1 ∧
      Cfg.subWeight c r = field (16 * r.val + 9) 1 ∧ Cfg.subCring c r = field (16 * r.val + 10) 1 ∧
      (Cfg.compBase c r).toNat = field (64 + 16 * r.val) 8 ∧ Cfg.compExp c r = field (64 + 16 * r.val + 8) 1 ∧
      Cfg.compThreshold c r = field (64 + 16 * r.val + 9) 1 ∧ Cfg.compDelay c r = field (64 + 16 * r.val + 10) 2) ∧
    Cfg.eventRing c = field 128 1 ∧ Cfg.rateCode c = field 129 1 ∧ Cfg.laneLimit c = field 130 1 ∧
    Cfg.replyWindow c = field 131 1 ∧ Cfg.dataTimeout c = field 132 4 ∧ Cfg.holdLimit c = field 136 4 ∧
    Cfg.deferralLimit c = field 140 2 ∧ Cfg.retryLimit c = field 142 1 ∧ Cfg.pollInterval c = field 144 2 ∧
    (Cfg.valid c = true ↔
      (∀ n, n < 4 → field (16 * n + 8) 1 = 0 ∨
        ((4 ≤ field (16 * n + 8) 1 ∧ field (16 * n + 8) 1 ≤ 10) ∧ field (16 * n) 8 % 64 = 0 ∧
          (1 ≤ field (16 * n + 9) 1 ∧ field (16 * n + 9) 1 ≤ 8) ∧ used (field (16 * n + 10) 1))) ∧
      (∀ n, n < 4 → field (64 + 16 * n + 8) 1 = 0 ∨
        ((4 ≤ field (64 + 16 * n + 8) 1 ∧ field (64 + 16 * n + 8) 1 ≤ 12) ∧ field (64 + 16 * n) 8 % 16 = 0 ∧
          (1 ≤ field (64 + 16 * n + 9) 1 ∧ field (64 + 16 * n + 9) 1 ≤ 64) ∧ field (64 + 16 * n + 10) 2 ≤ 1023)) ∧
      (∃ n, n < 4 ∧ field (16 * n + 8) 1 ≠ 0) ∧ used (field 128 1) ∧
      field 129 1 ≤ 3 ∧ (field 130 1 = 1 ∨ field 130 1 = 2 ∨ field 130 1 = 4) ∧
      (16 ≤ field 131 1 ∧ field 131 1 ≤ 255) ∧ (256 ≤ field 132 4 ∧ field 132 4 ≤ 16777215) ∧
      (256 ≤ field 136 4 ∧ field 136 4 ≤ 16777215) ∧ (1 ≤ field 140 2 ∧ field 140 2 ≤ 65535) ∧
      field 142 1 ≤ 3 ∧ field 144 2 ≤ 65535))

/-- R141, R155, R171, R172: a valid block becomes the configuration copy and the device enters RUNNING: used rings take
their settings, presence reading starts from absent, LCK runs, the start-up link reset begins and latches no event, and
the device vector is sent. The link reset finds each block as the step left it (what a settle timer holds during it: log 33),
and nothing else changes. -/
def Obligations.ValidBlockStartsRunning : Prop :=
  ∀ (s : State) (a : Access) (part : Fin 4) (data : BitVec 512) (c : BitVec 2048),
    s.device.state = .loading → s.access a.id = some a → a.purpose = .configRead part → s.linkReset = none →
    ({ s.device with load := s.device.load.set part (some data) } : Device).loadedBlock = some c → Cfg.valid c = true →
    ∃ t, exec (.configReadComplete a.id data) s = .next t ∧
      t.device = { s.device with load := Vector.replicate 4 none, result := .ok, state := .running, config := some c,
                                 lck := some (BitVec.ofNat 8 (Cfg.rateCode c)) } ∧
      t.vectors = s.vectors ++ [4] ∧
      (∀ r, Cfg.subExp c r = 0 → t.subRing r = SubRing.reset) ∧
      (∀ r, Cfg.subExp c r ≠ 0 →
        (t.subRing r).state = .active ∧ (t.subRing r).fetchIdx = 0 ∧ (t.subRing r).postIdx = 0
          ∧ (t.subRing r).outstanding = 0 ∧ (t.subRing r).holding = .empty
          ∧ ∃ g, (t.subRing r).cfg = some g ∧ g.base = Cfg.subBase c r ∧ g.size = 2 ^ Cfg.subExp c r
            ∧ g.weight = Cfg.subWeight c r ∧ g.cring.val = Cfg.subCring c r) ∧
      (∀ r, Cfg.compExp c r = 0 → t.cring r = none) ∧
      (∀ r, Cfg.compExp c r ≠ 0 → t.cring r = some
        { base := Cfg.compBase c r, size := 2 ^ Cfg.compExp c r, tail := 0, head := 0, unreleased := 0, phase := true,
          threshold := Cfg.compThreshold c r, delay := Cfg.compDelay c r, modCount := 0, delayTimer := none,
          writing := none }) ∧
      (∀ st, (t.station st).level = some false ∧ (t.station st).debounce = some 0) ∧
      (∃ r, t.arbPtr = r ∧ Cfg.subExp c r ≠ 0 ∧ (∀ u, u < r → Cfg.subExp c u = 0) ∧ t.arbCredit = Cfg.subWeight c r) ∧
      t.linkReset = some .startUp ∧ t.linkLatch = s.linkLatch ∧ t.cl = .signalling 0 ∧
      t.eventQueue = s.eventQueue ∧ t.ringLatch = s.ringLatch ∧
      LinkResetBegun
        { s with
          device := t.device, vectors := t.vectors, subRings := t.subRings, crings := t.crings, arbPtr := t.arbPtr,
          arbCredit := t.arbCredit,
          accesses := (s.accesses.filter (fun b => b.id != a.id)).filter (fun b => !b.isConfigRead),
          stations := s.stations.map (fun r => { r with level := some false, debounce := some 0 }) } t .startUp

/-- R165, R173: when the drain condition holds the device enters OFF: rings with records to announce send their vectors,
every block returns to its condition after a function reset, the flags of the status word, the result and CONFIG_BASE are
kept, and the device vector is sent. That several rings send in ascending order is the model's choice (log 38). -/
def Obligations.DrainEndsInOff : Prop :=
  ∀ s : State, s.device.state = .draining →
    (∀ t, s.exch t = none) → (∀ r, (s.subRing r).holding = .empty) → s.eventQueue = [] →
    (∀ st, (s.station st).latch = none) → (∀ r : RingId, s.ringLatch[r] = none) → s.linkLatch = none →
    s.reservation = false →
    exec .drainComplete s = .next
      { State.reset with
        device := { s.device with state := .off, config := none, lck := none },
        vectors := s.vectors
          ++ (allRings.filter (fun r => match s.cring r with
            | some c => decide (0 < c.modCount)
            | none => false)).map ringVector ++ [4],
        nextAccess := s.nextAccess, freeDraws := s.freeDraws, pending := s.pending }

/-! ## Submission rings and admission (chapters 8 and 9) -/

/-- R143, R145: a POST to a ring that takes it sets the post index and clears POST_IGNORED; an index outside the ring
faults the ring and latches RING_FAULT; any other POST is ignored and sets POST_IGNORED. -/
def Obligations.PostTakenByRingAndDeviceState : Prop :=
  ∀ (s : State) (v : Word) (r : RingId), (v.extractLsb' 16 2).toNat = r.val →
    let index := (v.extractLsb' 0 16).toNat
    (s.live = false ∨ (s.subRing r).state = .unused ∨ (s.subRing r).state = .faulted →
      exec (.post v) s = .next { s with device := { s.device with postIgnored := true } }) ∧
    (∀ g, s.live = true → (s.subRing r).state = .active ∨ (s.subRing r).state = .fenceWait →
      (s.subRing r).cfg = some g →
      (index < g.size →
        exec (.post v) s = .next
          { s with
            device := { s.device with postIgnored := false },
            subRings := s.subRings.set r { s.subRing r with postIdx := index } }) ∧
      (g.size ≤ index →
        exec (.post v) s = .next
          { s with
            device := { s.device with ringFault := s.device.ringFault.set r true },
            subRings := s.subRings.set r { s.subRing r with state := .faulted, cause := some .badPost },
            ringLatch := s.ringLatch.set r (some .badPost) }))

/-- R160: RELEASE. -/
def Obligations.ReleaseHandsBackEntries : Prop :=
  (∀ (s : State) (v : Word) (r : RingId), (v.extractLsb' 16 2).toNat = r.val →
    let head := (v.extractLsb' 0 16).toNat
    (s.live = false → exec (.release v) s = .next s) ∧
    (s.live = true → s.cring r = none →
      exec (.release v) s = .next { s with device := { s.device with releaseRefused := true } }) ∧
    (∀ g, s.live = true → s.cring r = some g →
      let d := if g.head ≤ head then head - g.head else head + g.size - g.head
      (g.size ≤ head ∨ g.unreleased < d →
        exec (.release v) s = .next { s with device := { s.device with releaseRefused := true } }) ∧
      (head < g.size → d ≤ g.unreleased →
        exec (.release v) s = .next
          { s with
            device := { s.device with releaseRefused := false },
            crings := s.crings.set r (some { g with head := head, unreleased := g.unreleased - d }) }))) ∧
  (∀ (s t : State) (c : Instr), c = .powerOn ∨ c = .functionReset → exec c s = .next t → t.device.releaseRefused = false)

/-- R144: a fetch begins in RUNNING, on an ACTIVE ring with an EMPTY holding position and an entry announced: one host
read of 64 bytes at the base plus 64 times the fetch index. That this address wraps past the top of 64 bits is the
model's choice (log 36). -/
def Obligations.FetchReadsTheNextEntry : Prop :=
  ∀ (s : State) (r : RingId) (g : RingConfig),
    s.device.state = .running → (s.subRing r).state = .active → (s.subRing r).cfg = some g →
    (s.subRing r).holding = .empty → (s.subRing r).postIdx ≠ (s.subRing r).fetchIdx →
    exec (.fetchStart r) s = .next
      { s with
        subRings := s.subRings.set r { s.subRing r with holding := .fetching (s.subRing r).fetchIdx },
        accesses := s.accesses ++
          [{ id := s.nextAccess, purpose := .fetch r,
             addr := g.base + BitVec.ofNat 64 (64 * (s.subRing r).fetchIdx), len := 64, data := [] }],
        nextAccess := s.nextAccess + 1 }

/-- R144, R145, R146, R151: a completed fetch becomes the held work request, the fetch index rises and wraps, the
outstanding count rises by one, and an ACTIVE ring whose fence is unmet enters FENCE_WAIT. A faulted fetch empties the
holding position, leaves the fetch index, and faults the ring unless it is FAULTED already, when cause and latch stay. -/
def Obligations.FetchEndsInAHeldRequestOrARingFault : Prop :=
  ∀ (s : State) (a : Access) (r : RingId) (g : RingConfig) (index : Nat) (w : BitVec 512),
    s.live = true → s.access a.id = some a → a.purpose = .fetch r → (s.subRing r).holding = .fetching index →
    (s.subRing r).cfg = some g →
    (exec (.fetchComplete a.id w) s = .next
      { s with
        accesses := s.accesses.filter (fun b => b.id != a.id),
        subRings := s.subRings.set r
          { s.subRing r with
            holding := .waiting w index,
            fetchIdx := (index + 1) % g.size,
            outstanding := (s.subRing r).outstanding + 1,
            state := if (s.subRing r).state = .active ∧ w.getLsbD 8 = true ∧ 0 < (s.subRing r).outstanding then .fenceWait
              else (s.subRing r).state } }) ∧
    ((s.subRing r).state ≠ .faulted →
      exec (.fetchFault a.id) s = .next
        { s with
          accesses := s.accesses.filter (fun b => b.id != a.id),
          device := { s.device with ringFault := s.device.ringFault.set r true },
          subRings := s.subRings.set r
            { s.subRing r with holding := .empty, state := .faulted, cause := some .fetchFault },
          ringLatch := s.ringLatch.set r (some .fetchFault) }) ∧
    ((s.subRing r).state = .faulted →
      exec (.fetchFault a.id) s = .next
        { s with
          accesses := s.accesses.filter (fun b => b.id != a.id),
          subRings := s.subRings.set r { s.subRing r with holding := .empty } })

/-- R52, R147, R148, R149, R179: admission judges a held work request in three steps; the first that fails decides.
The first clauses say where the fields of a work request and of its two inline descriptors lie in its 64 bytes, what
its kind codes name, what its inline total adds, and what the pending block exponent is: that of the last pending
configuration, or else the current one. -/
def Obligations.AdmissionChecksInThreeSteps : Prop :=
  (∀ w : BitVec 512,
    let field (k n : Nat) : Nat := (w.extractLsb' (8 * k) (8 * n)).toNat
    Wr.kindByte w = field 0 1 ∧
    Wr.kind w = (match field 0 1 with
      | 1 => some (.link .readBlocks) | 2 => some (.link .writeBlocks) | 3 => some (.link .query)
      | 4 => some (.link .control) | 5 => some (.link .configureStation) | 6 => some (.link .identifyStation)
      | 7 => some (.link .resetStation) | 8 => some .cancel | 9 => some .nop | _ => none) ∧
    Wr.fence w = w.getLsbD 8 ∧ Wr.list w = w.getLsbD 9 ∧ (Wr.requestId w).toNat = field 2 2 ∧
    Wr.stationByte w = field 4 1 ∧ (Wr.count w).toNat = field 6 2 ∧ (Wr.argument w).toNat = field 8 4 ∧
    Wr.lanes w = field 12 1 ∧ Wr.blockExp w = field 13 1 ∧ Wr.targetRing w = field 14 1 ∧
    (Wr.targetId w).toNat = field 16 2 ∧
    (Wr.d0 w).addr.toNat = field 32 8 ∧ (Wr.d0 w).len = field 40 4 ∧ (Wr.d0 w).last = w.getLsbD (8 * 44) ∧
    (Wr.d0 w).chain = w.getLsbD (8 * 44 + 1) ∧
    (Wr.d1 w).addr.toNat = field 48 8 ∧ (Wr.d1 w).len = field 56 4 ∧ (Wr.d1 w).last = w.getLsbD (8 * 60) ∧
    (Wr.d1 w).chain = w.getLsbD (8 * 60 + 1) ∧
    Wr.inlineTotal w = (if w.getLsbD (8 * 44) = true then field 40 4 else field 40 4 + field 56 4)) ∧
  (∀ b : Station,
    (∀ c l, b.pendingConfigs = l ++ [c] → b.pendingExp = c.blockExp) ∧
    (∀ l e, b.pendingConfigs = [] → b.settings = some (l, e) → b.pendingExp = e)) ∧
  ∀ (s : State) (w : BitVec 512),
    (Wr.kindByte w = 0 ∨ 9 < Wr.kindByte w → s.judge w = .immediate .malformed) ∧
    (Wr.kindByte w = 9 → s.judge w = .immediate .success) ∧
    (Wr.kindByte w = 8 → 4 ≤ Wr.targetRing w → s.judge w = .immediate .malformed) ∧
    (∀ r : RingId, Wr.kindByte w = 8 → Wr.targetRing w = r.val → s.judge w = .cancel r (Wr.targetId w)) ∧
    (∀ k : ExKind, Wr.kind w = some (.link k) →
      (Wr.stationByte w = 0 ∨ 8 < Wr.stationByte w → s.judge w = .immediate .malformed) ∧
      (∀ st : StationId, Wr.stationByte w = st.val + 1 →
        let count := (Wr.count w).toNat
        let first : Prop := match k with
          | .readBlocks | .writeBlocks => 1 ≤ count ∧ count ≤ 4096
          | .control => count ≤ 255
          | .configureStation => (Wr.lanes w = 1 ∨ Wr.lanes w = 2 ∨ Wr.lanes w = 4) ∧ Wr.lanes w ≤ Cfg.laneLimit s.cfg
              ∧ 6 ≤ Wr.blockExp w ∧ Wr.blockExp w ≤ 11
          | .identifyStation => Wr.list w = true ∨ 16 ≤ Wr.inlineTotal w
          | .query | .resetStation => True
        let second : Prop := (s.station st).state = .ready
          ∨ ((k = .identifyStation ∨ k = .resetStation) ∧ (s.station st).state = .faulted)
        let third : Prop := match k with
          | .configureStation => ∃ p, (s.station st).profile = some p ∧ Wr.lanes w ≤ Profile.maxLanes p
              ∧ Wr.blockExp w ≤ Profile.maxExp p
          | .readBlocks | .writeBlocks => Wr.list w = true ∨ Wr.inlineTotal w = count * 2 ^ (s.station st).pendingExp
          | .query | .control | .identifyStation | .resetStation => True
        (¬ first → s.judge w = .immediate .malformed) ∧
        (first → ¬ second → s.judge w = .immediate .stationAbsent) ∧
        (first → second → ¬ third → s.judge w = .immediate .malformed) ∧
        (first → second → third → s.judge w = .exchange k st)))

/-- R4, R146, R150, R152: a link work request that passes takes the lowest-numbered FREE slot as QUEUED with its fields
from the work request, its tag joins the tail of its station's pending queue, its holding position empties, a fenced
ring returns to ACTIVE, and the credit falls by one, or the pointer moves to the next used ring with that ring's
weight. -/
def Obligations.AdmissionPlacesAnExchange : Prop :=
  ∀ (s : State) (w : BitVec 512) (index : Nat) (k : ExKind) (st : StationId) (x : Tag),
    s.live = true → (s.subRing s.arbPtr).holding = .waiting w index →
    (w.getLsbD 8 = true → (s.subRing s.arbPtr).outstanding = 1) → s.judge w = .exchange k st →
    s.exch x = none → (∀ u, u < x → s.exch u ≠ none) →
    ∃ t, exec .admission s = .next t ∧
      t.exch x = some
        { state := .queued, kind := k, ring := s.arbPtr, wrIndex := BitVec.ofNat 16 index, requestId := Wr.requestId w,
          station := st, argument := Wr.argument w, count := Wr.count w, lanes := Wr.lanes w, blockExp := Wr.blockExp w,
          seg := if k = .readBlocks ∨ k = .writeBlocks ∨ k = .identifyStation
            then some { list := Wr.list w, d0 := Wr.d0 w, d1 := Wr.d1 w } else none,
          cursor := if k = .readBlocks ∨ k = .writeBlocks ∨ k = .identifyStation
            then some { index := 0, offset := 0 } else none,
          blockSize := none, blocksDone := none, linkFinished := none,
          bytesMoved := if k = .identifyStation then some 0 else none, retriesUsed := none, deferral := none,
          cancelMark := false, final := none } ∧
      (∀ u, u ≠ x → t.exch u = s.exch u) ∧
      (∀ u, t.queueOf u = if u = st then s.queueOf u ++ [x] else s.queueOf u) ∧
      (∀ u, t.station u = if u = st ∧ k = .configureStation then
          { s.station u with pendingConfigs := (s.station u).pendingConfigs
              ++ [{ tag := x, lanes := Wr.lanes w, blockExp := Wr.blockExp w }] }
        else s.station u) ∧
      (∀ u, t.subRing u = if u = s.arbPtr then
          { s.subRing u with
            holding := .empty,
            state := if (s.subRing u).state = .fenceWait then .active else (s.subRing u).state }
        else s.subRing u) ∧
      (2 ≤ s.arbCredit → t.arbPtr = s.arbPtr ∧ t.arbCredit = s.arbCredit - 1) ∧
      (∀ r g, s.arbCredit = 1 → (ringsAfter s.arbPtr).find? s.usedRing = some r → (s.subRing r).cfg = some g →
        t.arbPtr = r ∧ t.arbCredit = g.weight) ∧
      t = { s with table := t.table, pendingQ := t.pendingQ, stations := t.stations, subRings := t.subRings,
                   arbPtr := t.arbPtr, arbCredit := t.arbCredit }

/-- R150, R152: a work request that completes at admission stays in its holding position with its status and value 0,
and joins the tail of its completion ring's waiting list; the credit falls by one, or the pointer moves to the next used
ring with that ring's weight. -/
def Obligations.AdmissionCompletesAtOnce : Prop :=
  ∀ (s : State) (w : BitVec 512) (index : Nat) (st : Status) (g : RingConfig),
    s.live = true → (s.subRing s.arbPtr).holding = .waiting w index → (s.subRing s.arbPtr).cfg = some g →
    (w.getLsbD 8 = true → (s.subRing s.arbPtr).outstanding = 1) → s.judge w = .immediate st →
    ∃ t, exec .admission s = .next t ∧
      (∀ u, t.subRing u = if u = s.arbPtr then
          { s.subRing u with
            holding := .completing w index st 0,
            state := if (s.subRing u).state = .fenceWait then .active else (s.subRing u).state }
        else s.subRing u) ∧
      t.waiting = joinedAt s g.cring (.holding s.arbPtr) ∧
      (2 ≤ s.arbCredit → t.arbPtr = s.arbPtr ∧ t.arbCredit = s.arbCredit - 1) ∧
      (∀ q h, s.arbCredit = 1 → (ringsAfter s.arbPtr).find? s.usedRing = some q → (s.subRing q).cfg = some h →
        t.arbPtr = q ∧ t.arbCredit = h.weight) ∧
      t = { s with subRings := t.subRings, waiting := t.waiting, arbPtr := t.arbPtr, arbCredit := t.arbCredit }

/-- R22, R57, R74, R84, R85, R99, R113, R126, R130, R131, R132, R137, R150, R152: a CANCEL treats every exchange it finds by its
state: those that complete leave their pending queue, those withdrawn the reconnect queue, a halted payload stops with its
staging discarded and its job ended, what frees room clears the saturated flag, and the lanes of an exchange that
completes are released. It completes SUCCESS with the number found, TOO_LATE when it only matched, or NOT_FOUND. The
arbiter's credit falls by one, or its pointer moves on (R152). What becomes ready together joins in a free order (R156, log 9). -/
def Obligations.CancelTreatsWhatItFinds : Prop :=
  ∀ (s : State) (w : BitVec 512) (index : Nat) (r : RingId) (id : BitVec 16) (g : RingConfig),
    s.live = true → (s.subRing s.arbPtr).holding = .waiting w index → (s.subRing s.arbPtr).cfg = some g →
    (w.getLsbD 8 = true → (s.subRing s.arbPtr).outstanding = 1) → s.judge w = .cancel r id →
    ∃ t, exec .admission s = .next t ∧
      (∀ x, s.exch x = none → t.exch x = none) ∧
      (∀ x e, s.exch x = some e → ¬ (e.ring = r ∧ e.requestId = id) → t.exch x = some e) ∧
      (∀ x e, s.exch x = some e → e.ring = r ∧ e.requestId = id →
        e.final ≠ none ∨ e.state = .halting ∨ e.state = .withdrawing ∨ e.state = .completing → t.exch x = some e) ∧
      (∀ x e, s.exch x = some e → e.ring = r → e.requestId = id → e.final = none →
        (e.state = .queued ∨ (e.state = .transfer ∧ e.readFinished = true) → t.exch x = some
          { e with state := .completing, retriesUsed := none, deferral := none, cancelMark := true,
                   final := some (.cancelled, 0) }) ∧
        (e.state = .issuing ∨ e.state = .resuming → t.exch x = some
          { e with cancelMark := true, final := some (.cancelled, 0) }) ∧
        (e.state = .deferred ∨ e.state = .reconnecting → t.exch x = some
          { e with state := .withdrawing, deferral := none, cancelMark := true, final := some (.cancelled, 0) }) ∧
        (e.state = .transfer ∧ e.readFinished = false → t.exch x = some
          { e with state := .halting, retriesUsed := none, cancelMark := true, final := some (.cancelled, 0) })) ∧
      (let found := allTags.filter (fun x => s.fateOf (cancelFate r id) x != .stays)
       let matched := allTags.filter (fun x => (s.exch x).any (fun e => e.ring == r && e.requestId == id))
       let status : Status := if found.length ≠ 0 then .success
         else if matched.length ≠ 0 then .tooLate else .notFound
       ∀ u, t.subRing u = if u = s.arbPtr then
           { s.subRing u with
             holding := .completing w index status (BitVec.ofNat 32 found.length),
             state := if (s.subRing u).state = .fenceWait then .active else (s.subRing u).state }
         else s.subRing u) ∧
      (2 ≤ s.arbCredit → t.arbPtr = s.arbPtr ∧ t.arbCredit = s.arbCredit - 1) ∧
      (∀ q h, s.arbCredit = 1 → (ringsAfter s.arbPtr).find? s.usedRing = some q → (s.subRing q).cfg = some h →
        t.arbPtr = q ∧ t.arbCredit = h.weight) ∧
      (let b := { s with subRings := t.subRings, arbPtr := t.arbPtr, arbCredit := t.arbCredit }
       Swept b t (cancelFate r id) ∧ t.quiet = s.quiet ∧ t.freeDraws = s.freeDraws + 1 ∧
       ∃ l : List Source,
         l.Perm (.holding s.arbPtr :: (allTags.filter (fun x => s.fateOf (cancelFate r id) x == .ends)).map .exchange) ∧
         t.waiting = b.joined l)

/-- R141, R151, R152: a held work request is admissible in RUNNING or DRAINING, with its fence met, and with a FREE
slot if it would become an exchange. The arbiter waits for a fetch under its pointer; otherwise it moves in ring
order, wrapping from 3 to 0, to the next used ring with an admissible work request, takes that ring's weight as credit
and admits it; where no ring has one, it does nothing. -/
def Obligations.ArbiterMovesInRingOrder : Prop :=
  (∀ (s : State) (r : RingId),
    (s.usedRing r = true ↔ (s.subRing r).cfg ≠ none) ∧
    ((s.subRing r).holding.isFetching = true ↔ ∃ index, (s.subRing r).holding = .fetching index) ∧
    (s.admissible r = true ↔ ∃ w index, (s.subRing r).holding = .waiting w index ∧
      (s.device.state = .running ∨ s.device.state = .draining) ∧
      (w.getLsbD 8 = true → (s.subRing r).outstanding = 1) ∧
      (∀ k st, s.judge w = .exchange k st → ∃ x, s.exch x = none))) ∧
  ringsAfter 0 = [1, 2, 3, 0] ∧ ringsAfter 1 = [2, 3, 0, 1] ∧ ringsAfter 2 = [3, 0, 1, 2] ∧ ringsAfter 3 = [0, 1, 2, 3] ∧
  ∀ s : State, s.admissible s.arbPtr = false →
    ((s.subRing s.arbPtr).holding.isFetching = true → exec .admission s = .next s) ∧
    ((∀ r, (s.usedRing r && s.admissible r) = false) → exec .admission s = .next s) ∧
    (∀ r g, (s.subRing s.arbPtr).holding.isFetching = false →
      (ringsAfter s.arbPtr).find? (fun u => s.usedRing u && s.admissible u) = some r → (s.subRing r).cfg = some g →
      exec .admission s = exec .admission { s with arbPtr := r, arbCredit := g.weight })

/-! ## The command lane (chapters 2 and 4) -/

/-- R64, R65, R66, R70, R100: where a choice is made, the HALT of the lowest-tagged HALTING exchange of a READY
station goes first, write payload or not, but not before the token window of a block cut off has opened: its retries
start at 0 and its frame is begun. With a write payload running and no HALT due, nothing is begun. That neither choice
removes a stray pair whose station is not READY is the model's choice (log 39). -/
def Obligations.HaltIsChosenFirst : Prop :=
  ∀ s : State, s.Chooses →
    (∀ (x : Tag) (e : Exchange), Lowest s.HaltDue x → s.exch x = some e →
      let r := Request.new .halt (BitVec.ofNat 4 (e.station.val + 1)) x 0 0 (.exchange x)
      exec .chooseRequest s = .next
        { s with table := s.table.set x (some { e with retriesUsed := some 0 }), current := some r, cl := .sending 0,
                 clFrame := r.frame, laneLow := 0 }) ∧
    (s.WriteRuns → (∀ x, ¬ s.HaltDue x) → exec .chooseRequest s = .next s)

/-- R36, R50, R54, R64, R65, R66, R68, R69, R77, R78, R119, R123, R124, R127: what is begun for the candidate of
highest priority when no HALT is due and no write payload runs: the WITHDRAW of the lowest tag; a WITHDRAW for the
first stray pair of a READY station, pairs of others being dropped; RESET and automatic IDENTIFY of the lowest slot;
POLL, which clears both flags and restarts the poll timer; FETCH_NOTICE, round robin from the fetch pointer, with
fewer than 8 records in the event queue (the stray-withdraw queue is empty here), which holds a place of the event
queue; RESUME of the head of the reconnect queue while the lanes are free, whose exchange enters RESUMING. That the
WITHDRAW of an exchange removes no stray pair is the model's choice (log 39). -/
def Obligations.ChoiceFollowsPriority : Prop :=
  ∀ s : State,
    let number (st : StationId) : BitVec 4 := BitVec.ofNat 4 (st.val + 1)
    let begins (t : State) (r : Request) : Prop :=
      exec .chooseRequest s = .next { t with current := some r, cl := .sending 0, clFrame := r.frame, laneLow := 0 }
    (s.Chooses → (∀ x, ¬ s.HaltDue x) → ¬ s.WriteRuns →
      (∀ x e, Lowest s.WithdrawDue x → s.exch x = some e →
        begins { s with table := s.table.set x (some { e with retriesUsed := some 0 }) }
          (Request.new .withdraw (number e.station) x 0 0 (.exchange x))) ∧
      (∀ st x l, (∀ u, ¬ s.WithdrawDue u) → s.stray = (st, x) :: l →
        ((s.station st).state = .ready → begins s (Request.new .withdraw (number st) x 0 0 .strayWithdraw)) ∧
        ((s.station st).state ≠ .ready → exec .chooseRequest s = exec .chooseRequest { s with stray := l }))) ∧
    (s.PastWithdraw →
      (∀ st x e, Lowest s.ResetDue st → s.Heads st x e →
        begins
          { s with pendingQ := s.pendingQ.set st (s.queueOf st).tail,
                   table := s.table.set x (some { e with state := .issuing, retriesUsed := some 0 }) }
          (Request.new .reset (number e.station) x 0 0 (.exchange x))) ∧
      ((∀ st, ¬ s.ResetDue st) → ∀ st, Lowest (fun u => (s.station u).state = .identifying) st →
        begins { s with stations := s.stations.set st { s.station st with identifyRetries := some 0 } }
          (Request.new .identify (number st) 0 0 0 (.autoIdentify st))) ∧
      ((∀ st, ¬ s.ResetDue st) → (∀ st, (s.station st).state ≠ .identifying) → s.attention = true ∨ s.pollDue = true →
        begins
          { s with
            attention := false, pollDue := false,
            pollTimer := if Cfg.pollInterval s.cfg = 0 then none else some (Cfg.pollInterval s.cfg * 1000000) }
          (Request.new .poll 0 0 0 0 .poll))) ∧
    (s.PastPoll →
      (∀ st, s.eventQueue.length < 8 → FirstFrom s.fetchPtr s.FetchDue st →
        begins { s with fetchPtr := ⟨(st.val + 1) % 8, Nat.mod_lt _ (by decide)⟩, reservation := true }
          (Request.new .fetchNotice (number st) 0 0 0 (.fetchNotice st))) ∧
      (∀ x e, 8 ≤ s.eventQueue.length ∨ (∀ st, ¬ s.FetchDue st) → s.ResumeDue x e → e.state = .reconnecting →
        begins
          { s with
            reconnect := s.reconnect.tail,
            table := s.table.set x (some { e with state := .resuming, retriesUsed := some 0 }),
            stations := s.stations.set e.station { s.station e.station with saturation := none } }
          (Request.new .resume (number e.station) x 0 0 (.exchange x))))

/-- R3, R8, R64, R65, R66, R67, R68, R177: with nothing of higher priority to send, the first eligible head of a
pending queue from the issue pointer on is issued: its tag leaves the queue, it enters ISSUING with retries 0, a
payload kind takes the station's current block size, its frame carries the request kind, argument and count that its
kind gives, and the pointer moves past its station. With no eligible head nothing is begun. -/
def Obligations.QueueHeadIsIssued : Prop :=
  (∀ s : State, s.PastResume →
    (∀ (st : StationId) (x : Tag) (e : Exchange), FirstFrom s.issuePtr s.HeadDue st → s.Heads st x e →
      let r := Request.new e.kind.request (BitVec.ofNat 4 (e.station.val + 1)) x e.requestArgument e.requestCount
        (.exchange x)
      exec .chooseRequest s = .next
        { s with
          pendingQ := s.pendingQ.set st (s.queueOf st).tail,
          table := s.table.set x (some
            { e with
              state := .issuing, retriesUsed := some 0,
              blockSize := if e.kind = .readBlocks ∨ e.kind = .writeBlocks
                then (s.station st).settings.map (fun y => 2 ^ y.2) else e.blockSize }),
          current := some r, cl := .sending 0, clFrame := r.frame, laneLow := 0,
          issuePtr := ⟨(st.val + 1) % 8, Nat.mod_lt _ (by decide)⟩ }) ∧
    ((∀ st, ¬ s.HeadDue st) → exec .chooseRequest s = .next s)) ∧
  (∀ k : ExKind, k.request = match k with
    | .readBlocks => .read | .writeBlocks => .write | .query => .query | .control => .control
    | .configureStation => .configure | .identifyStation => .identify | .resetStation => .reset) ∧
  (∀ e : Exchange,
    e.requestArgument = (match e.kind with
      | .readBlocks | .writeBlocks | .query | .control => e.argument
      | .configureStation => 0#24 ++ BitVec.ofNat 4 e.lanes ++ BitVec.ofNat 4 e.blockExp
      | .identifyStation | .resetStation => 0#32) ∧
    e.requestCount = (match e.kind with
      | .readBlocks | .writeBlocks | .control => e.count
      | .query | .configureStation | .identifyStation | .resetStation => 0#16))

/-- R30, R58, R76, R177, R178, R182: the ten bytes of a request frame: retry flag in bit 7 of byte 0, station in its
bits 3 to 0, kind and tag in byte 1, argument in bytes 2 to 5, count in bytes 6 and 7, check code over these eight;
the request kind codes. What the part reads of a reply, a profile and a token, with a good check and with a bad one,
and the codes of outcomes, reasons and tokens; the notices-waiting count a good reply hands over. A count above 15 is
read as a free value (log 15). And the check values of the two codes over the nine bytes of "123456789". -/
def Obligations.RequestFrameLayoutAndCheckCodes : Prop :=
  (∀ r : Request,
    r.frame.getLsbD 79 = (r.attemptsFailed != 0) ∧ r.frame.extractLsb' 76 3 = 0 ∧ r.frame.extractLsb' 72 4 = r.station
      ∧ r.frame.extractLsb' 68 4 = requestCode r.kind ∧ r.frame.extractLsb' 64 4 = BitVec.ofNat 4 r.tag.val
      ∧ r.frame.extractLsb' 32 32 = r.argument ∧ r.frame.extractLsb' 16 16 = r.count
      ∧ r.frame.extractLsb' 0 16 = crc16 ((List.range 8).map (fun k => r.frame.extractLsb' (8 * (9 - k)) 8))) ∧
  [RequestKind.identify, .configure, .read, .write, .query, .control, .resume, .withdraw, .halt, .poll, .fetchNotice,
      .reset].map requestCode = (List.range' 1 12).map (BitVec.ofNat 4) ∧
  (∀ f : BitVec 80,
    let byte (k : Nat) : Byte := f.extractLsb' (8 * (9 - k)) 8
    let good : Prop := crc16 ((List.range 8).map byte) = f.extractLsb' 0 16
    (¬ good → parseReply f = none) ∧
    (good → ∃ rep, parseReply f = some rep ∧
      rep.alertPending = (byte 0).getLsbD 7 ∧ rep.station = (byte 0).extractLsb' 0 4 ∧
      rep.outcome = (match ((byte 1).extractLsb' 4 4).toNat with
        | 1 => .done | 2 => .accepted | 3 => .deferred
        | 4 => (match (byte 6).toNat with
          | 1 => .rejected .badAddress | 2 => .rejected .badCount | 3 => .rejected .notHeld
          | 4 => .rejected .unsupported | 5 => .rejected .protected_ | 6 => .rejected .stationError | _ => .undefined)
        | 5 => .busy | _ => .undefined) ∧
      rep.tag = (byte 1).extractLsb' 0 4 ∧ rep.value = byte 2 ++ byte 3 ++ byte 4 ++ byte 5 ∧
      ((byte 7).toNat ≤ 15 → rep.notices = (byte 7).toNat) ∧ rep.notices ≤ 15)) ∧
  [Reason.badAddress, .badCount, .notHeld, .unsupported, .protected_, .stationError].map reasonCode = [1, 2, 3, 4, 5, 6] ∧
  (∀ (s : State) (rep : Reply),
    (rep.station.toNat = 0 ∨ 8 < rep.station.toNat → s.handCount rep = s) ∧
    (∀ st : StationId, rep.station.toNat = st.val + 1 →
      s.handCount rep = if (s.station st).state = .empty then s else
        { s with
          stations := s.stations.set st
            { s.station st with notices := if rep.notices = 0 ∧ rep.alertPending = true then 1 else rep.notices } })) ∧
  (∀ f : BitVec 144,
    parseProfile f = if crc16 ((List.range 16).map (fun k => f.extractLsb' (8 * (17 - k)) 8)) = f.extractLsb' 0 16
      then some (f.extractLsb' 16 128) else none) ∧
  (∀ f : BitVec 32,
    parseToken f = if crc16 [f.extractLsb' 24 8, f.extractLsb' 16 8] = f.extractLsb' 0 16 then
        .good (f.extractLsb' 24 4) (match (f.extractLsb' 20 4).toNat with
          | 1 => .taken | 2 => .checkFail | 3 => .fault | 4 => .hold | 5 => .release | _ => .undefined)
          (f.extractLsb' 16 4)
      else .bad) ∧
  (∀ (station tag : BitVec 4) (code : TokenCode),
    let body : BitVec 16 := 0#4 ++ station ++ (match code with
      | .taken => 1#4 | .checkFail => 2#4 | .fault => 3#4 | .hold => 4#4 | .release => 5#4 | .undefined => 0#4) ++ tag
    tokenFrame station code tag = body ++ crc16 [body.extractLsb' 8 8, body.extractLsb' 0 8]) ∧
  crc16 [0x31, 0x32, 0x33, 0x34, 0x35, 0x36, 0x37, 0x38, 0x39] = 0x29B1#16 ∧
  crc32 [0x31, 0x32, 0x33, 0x34, 0x35, 0x36, 0x37, 0x38, 0x39] = 0xFC891918#32

/-- R62, R70, R72, R75: a request waiting to be sent again is begun in the same form, with the retry flag once an attempt
has failed. That this command also begins a request abandoned on collision, or lets a POLL go first while the attention
flag is set and no write runs, is the model's choice (log 23); and so is that an abandoned POLL clears both flags as it is
begun again (log 24). -/
def Obligations.RequestIsBegunAgain : Prop :=
  ∀ (s : State) (r : Request),
    s.live = true → s.linkReset = none → s.cl = .idle ∨ s.cl = .hold → s.current = some r → r.phase = .toSend →
    let r' := { r with phase := .sending, abandoned := false }
    let polls : State := { s with attention := false, pollDue := false,
                                  pollTimer := if Cfg.pollInterval s.cfg = 0 then none
                                    else some (Cfg.pollInterval s.cfg * 1000000) }
    (r.abandoned = false ∨ (r.kind ≠ .poll ∧ (s.attention = false ∨ s.WriteRuns)) →
      exec .resendRequest s = .next { s with current := some r', cl := .sending 0, clFrame := r'.frame, laneLow := 0 }) ∧
    (r.abandoned = true → r.kind ≠ .poll → s.attention = true → ¬ s.WriteRuns →
      let q := Request.new .poll 0 0 0 0 .poll
      exec .resendRequest s = .next
        { polls with setAside := some r, current := some q, cl := .sending 0, clFrame := q.frame, laneLow := 0 }) ∧
    (r.abandoned = true → r.kind = .poll →
      exec .resendRequest s = .next
        { polls with current := some r', cl := .sending 0, clFrame := r'.frame, laneLow := 0 })

/-- R27, R33, R34, R36, R37, R70, R74, R75: a frame sent opens the reply window, or the POLL slots; a collision
abandons it: it is no attempt, the attention flag is set, a guard gap follows, and the request waits to be begun again
unless it is detached. The first low in an open reply or token window, or while HOLD is in force, is the start mark of
a frame. One period of low before a token window, too short for attention, is counted with it. A report is taken
whatever the count of its condition says: when it comes is the sender's (log 3). That a low in a guard gap during HOLD
is a start mark (log 21), and that the lane-low count starts at 1 with a collision (log 12), are the model's readings.
-/
def Obligations.FrameIsSentAbandonedOrOpened : Prop :=
  (∀ (s : State) (r : Request),
    s.live = true → s.linkReset = none → s.current = some r → r.phase = .sending →
    exec .frameSent s = .next
      { s with current := some { r with phase := .awaiting },
               cl := if r.kind = .poll then .pollSlots else .window 0 } ∧
    exec .collision s = .next
      { s with cl := .guardGap 0, attention := true, laneLow := 1,
               current := if r.detached then none else some { r with phase := .toSend, abandoned := true } }) ∧
  (∀ (s : State) (early : Bool), s.live = true →
    (∀ n r, s.cl = .window n → s.current = some r →
      exec (.replyStartMark early) s = .next { s with cl := .receiving, current := some { r with phase := .receiving } }) ∧
    (∀ n, s.cl = .tokenWindow n → exec (.replyStartMark early) s = .next
      { s with cl := .tokenReceiving, laneLow := if early then min 4097 (s.laneLow + 1) else s.laneLow }) ∧
    (s.cl = .hold ∨ (∃ n, s.cl = .guardGap n) → s.holdInForce = true →
      exec (.replyStartMark early) s = .next { s with cl := .tokenReceiving }))

/-! ## Replies (chapters 1, 3, 4, 7 and 8). `s.afterReply f rep` is the state in which an outcome is delivered: the reply's
notices-waiting count is handed over (R30, R58), the request record is absent, the guard gap has begun (R34, R71), and the
lane-low count is what the levels of frame `f` leave (R37), counted at its report (log 12). -/

/-- R10: a DONE reply to QUERY or CONTROL. The station record is not changed, but for the count every good reply hands
over (R30). -/
def Obligations.DoneReplyEndsQueryOrControl : Prop :=
  ∀ (s : State) (f : BitVec 80) (r : Request) (rep : Reply) (x : Tag) (e : Exchange),
    s.Answered f r rep → r.owner = .exchange x → s.exch x = some e → e.state = .issuing → r.kind = e.kind.request →
    e.cancelMark = false → e.kind = .query ∨ e.kind = .control → rep.outcome = .done →
    let v : Word := if e.kind = .query then rep.value else 0
    ∃ t, exec (.replyReceived f) s = .next t ∧ Ended (s.afterReply f rep) t x e .success v ∧
      (e.final = none → t.exch x = some
        { e with state := .completing, retriesUsed := none, deferral := none, final := some (.success, v) }) ∧
      (∀ u, (∀ c ∈ (s.station u).pendingConfigs, c.tag ≠ x) → t.station u = (s.afterReply f rep).station u)

/-- R9, R15, R125: REJECTED ends an exchange with its reason, and an outcome not permitted or not defined ends it with
PROTOCOL. -/
def Obligations.RefusedOrUnpermittedReplyEndsTheExchange : Prop :=
  ∀ (s : State) (f : BitVec 80) (r : Request) (rep : Reply) (x : Tag) (e : Exchange),
    s.Answered f r rep → r.owner = .exchange x → s.exch x = some e → e.awaits r → e.cancelMark = false →
    (∀ reason, rep.outcome = .rejected reason →
      ∃ t, exec (.replyReceived f) s = .next t ∧ Ended (s.afterReply f rep) t x e .rejected (reasonCode reason)) ∧
    (rep.outcome = .undefined ∨ (e.kind.payload = true ∧ rep.outcome = .done) ∨
        (e.kind.payload = false ∧ (rep.outcome = .accepted ∨ rep.outcome = .deferred ∨ rep.outcome = .busy)) →
      ∃ t, exec (.replyReceived f) s = .next t ∧ Ended (s.afterReply f rep) t x e .protocol 0)

/-- R13, R57, R83, R105 to R109, R112, R125: ACCEPTED to READ, WRITE or RESUME takes the exchange to TRANSFER: it owns the
payload lanes from block 0, and its payload job takes its first descriptor into use, or reads it first under LIST. A first
descriptor, or a first page address, that is malformed halts it at once with LIST_MALFORMED. -/
def Obligations.AcceptedReplyTakesTheLanes : Prop :=
  ∀ (s : State) (f : BitVec 80) (r : Request) (rep : Reply) (x : Tag) (e : Exchange) (g : SegSource) (b l be : Nat),
    s.Answered f r rep → r.owner = .exchange x → s.exch x = some e → e.awaits r → e.cancelMark = false →
    e.kind.payload = true → rep.outcome = .accepted → e.seg = some g → e.blockSize = some b →
    (s.station e.station).settings = some (l, be) →
    let dir : Direction := if e.kind = .writeBlocks then .write else .read
    let p : Payload :=
      { owner := x, dir := dir, station := e.station, laneWidth := l, blockSize := b, count := e.count.toNat,
        phase := if dir = .write then .loadWait else .grantPending, linkPos := 0, pos := 0, blockRetries := 0,
        tokenWaits := 0, dataTimer := none, holdTimer := none, gapDue := true, repeatDue := false, resendDue := false,
        reopen := false, tail := .nothing, grant := none, elapsed := 0, wait := if dir = .write then 0 else 4,
        sendCheck := none, sendLanes := [] }
    let job (w : Walk) : Job :=
      { tag := x, dir := dir, blockSize := b, count := e.count.toNat, walk := w, nextBlock := 0, inHand := none }
    let e' := { e with state := .transfer, blocksDone := some 0, linkFinished := some false, bytesMoved := some 0,
                       retriesUsed := none, cursor := some { index := 0, offset := 0 } }
    let running (w : Walk) (t : State) : Prop :=
      exec (.replyReceived f) s = .next t ∧
      t.exch x = some e' ∧
      (∀ u, u ≠ x → t.exch u = s.exch u) ∧
      (∀ u, t.station u = if u = e.station ∧ e.state = .resuming then
          { (s.afterReply f rep).station u with saturation := none } else (s.afterReply f rep).station u) ∧
      t.payload = some p ∧ t.job = some (job w) ∧
      t = { s.afterReply f rep with table := t.table, stations := t.stations, payload := t.payload, job := t.job,
                                    accesses := t.accesses, nextAccess := t.nextAccess }
    (g.list = false → g.d0.chain = false → 1 ≤ g.d0.len → g.d0.len ≤ 16777216 →
      ∃ t, running { pos := .inline 1, ended := g.d0.last, cur := some { desc := g.d0, index := 0, offset := 0 },
                     walked := 1, look := .empty, needed := false } t ∧
        t.accesses = s.accesses ∧ t.nextAccess = s.nextAccess) ∧
    (g.list = true → g.d0.addr.toNat % 16 = 0 →
      ∃ t, running { pos := .page g.d0.addr 0, ended := false, cur := none, walked := 0, look := .empty,
                     needed := true } t ∧
        t.accesses = s.accesses ++
          [{ id := s.nextAccess, purpose := .descriptor x, addr := g.d0.addr, len := 16, data := [] }] ∧
        t.nextAccess = s.nextAccess + 1) ∧
    ((g.list = false ∧ (g.d0.chain = true ∨ g.d0.len = 0 ∨ 16777216 < g.d0.len))
        ∨ (g.list = true ∧ g.d0.addr.toNat % 16 ≠ 0) →
      let a := s.afterReply f rep
      ∃ t, exec (.replyReceived f) s = .next t ∧
        Halted
          { a with
            table := a.table.set x (some e'),
            stations := if e.state = .resuming then
                a.stations.set e.station { a.station e.station with saturation := none }
              else a.stations,
            payload := some p, job := none }
          t x e' .listMalformed)

/-- R14, R57, R117, R118, R125: BUSY puts a READ or WRITE back at the head of its pending queue and saturates its station,
or a RESUME back at the tail of the reconnect queue; DEFERRED takes the exchange to DEFERRED with the full deferral
limit. -/
def Obligations.BusyOrDeferredReplyReturnsTheExchange : Prop :=
  ∀ (s : State) (f : BitVec 80) (r : Request) (rep : Reply) (x : Tag) (e : Exchange),
    s.Answered f r rep → r.owner = .exchange x → s.exch x = some e → e.awaits r → e.cancelMark = false →
    e.kind.payload = true →
    let a := s.afterReply f rep
    (rep.outcome = .busy → e.state = .issuing →
      exec (.replyReceived f) s = .next
        { a with
          table := a.table.set x (some { e with state := .queued, retriesUsed := none }),
          pendingQ := a.pendingQ.set e.station (x :: a.queueOf e.station),
          stations := a.stations.set e.station { a.station e.station with saturation := some 0 } }) ∧
    (rep.outcome = .busy → e.state = .resuming →
      exec (.replyReceived f) s = .next
        { a with table := a.table.set x (some { e with state := .reconnecting, retriesUsed := none }),
                 reconnect := a.reconnect ++ [x] }) ∧
    (rep.outcome = .deferred →
      exec (.replyReceived f) s = .next
        { a with table := a.table.set x (some
            { e with state := .deferred, deferral := some (Cfg.deferralLimit s.cfg * 1000000), retriesUsed := none }) })

/-- R18, R126: any reply to HALT or WITHDRAW ends the exchange with its recorded cause. R133, R135, R136: for an
exchange with a cancel mark the outcome chooses the path. Of a payload kind, DEFERRED, and BUSY to RESUME, lead to
WITHDRAWING; ACCEPTED takes the lanes in phase HALTED; any other outcome ends it with its recorded cause. Of any other
kind every outcome ends it so but DONE to IDENTIFY, which opens the profile interval (ProfileBringsAStationIntoService
says what follows); DONE to CONFIGURE makes its settings current too, and DONE to RESET resets the station. Where a
station is reset, that a running quiet interval is kept if nothing is left on the lanes (log 28) and that a due REPEAT
leaves nothing there (log 35) are the model's readings and choices, and the joining order is free (log 9). -/
def Obligations.ReplyToAnEndingExchangeKeepsItsCause : Prop :=
  ∀ (s : State) (f : BitVec 80) (r : Request) (rep : Reply) (x : Tag) (e : Exchange) (st : Status) (v : Word),
    s.Answered f r rep → r.owner = .exchange x → s.exch x = some e → e.final = some (st, v) →
    let a := s.afterReply f rep
    (e.state = .halting ∨ e.state = .withdrawing → r.kind ≠ .identify →
      ∃ t, exec (.replyReceived f) s = .next t ∧ Ended a t x e st v) ∧
    (e.awaits r → e.cancelMark = true → e.kind.payload = true →
      (rep.outcome = .deferred ∨ (rep.outcome = .busy ∧ e.state = .resuming) →
        exec (.replyReceived f) s = .next
          { a with table := a.table.set x (some { e with state := .withdrawing, retriesUsed := none,
                                                         deferral := none }) }) ∧
      (∀ b l be, rep.outcome = .accepted → e.blockSize = some b → (s.station e.station).settings = some (l, be) →
        ∃ t, exec (.replyReceived f) s = .next t ∧
          t.exch x = some { e with state := .halting, blocksDone := some 0, linkFinished := some false,
                                   bytesMoved := some 0, retriesUsed := none } ∧
          (∀ u, u ≠ x → t.exch u = s.exch u) ∧
          (∀ u, t.station u = if u = e.station ∧ e.state = .resuming then
            { a.station u with saturation := none } else a.station u) ∧
          t.payload = some
            { owner := x, dir := if e.kind = .writeBlocks then .write else .read, station := e.station, laneWidth := l,
              blockSize := b, count := e.count.toNat, phase := .halted, linkPos := 0, pos := 0, blockRetries := 0,
              tokenWaits := 0, dataTimer := none, holdTimer := none, gapDue := true, repeatDue := false,
              resendDue := false, reopen := false, tail := .nothing, grant := none, elapsed := 0,
              wait := if e.kind = .writeBlocks then 0 else 4, sendCheck := none, sendLanes := [] } ∧
          t = { a with table := t.table, stations := t.stations, payload := t.payload }) ∧
      (rep.outcome = .busy → e.state = .issuing →
        ∃ t, exec (.replyReceived f) s = .next t ∧
          Ended { a with stations := a.stations.set e.station { a.station e.station with saturation := some 0 } }
            t x e st v) ∧
      (rep.outcome = .done ∨ rep.outcome = .undefined ∨ (∃ reason, rep.outcome = .rejected reason) →
        ∃ t, exec (.replyReceived f) s = .next t ∧ Ended a t x e st v)) ∧
    (e.awaits r → e.cancelMark = true → e.kind.payload = false →
      (e.kind = .query ∨ e.kind = .control ∨ rep.outcome ≠ .done →
        ∃ t, exec (.replyReceived f) s = .next t ∧ Ended a t x e st v) ∧
      (e.kind = .configureStation → rep.outcome = .done → (s.station e.station).state = .ready →
        ∃ t, exec (.replyReceived f) s = .next t ∧
          Ended
            { a with
              stations := a.stations.set e.station
                { a.station e.station with settings := some (e.lanes, e.blockExp) } }
            t x e st v) ∧
      (e.kind = .resetStation → rep.outcome = .done →
        ∃ t, exec (.replyReceived f) s = .next t ∧ StationReset a t x e))

/-- R11, R12, R17, R53, R54: DONE to CONFIGURE makes the exchange's settings current and ends it SUCCESS; DONE to
RESET ends it SUCCESS, takes the station to RESETTING, and ends the station's other exchanges that are in flight with
STATION_RESET, keeping its QUEUED exchanges, its COMPLETING ones and a read whose link side has finished. Those that
end leave their queues, release the lanes with the quiet interval R101 gives, and join their waiting lists in a free
order (log 9); nothing else changes. That a running quiet interval is kept if nothing is left on the lanes (log 28)
and that a due REPEAT leaves nothing there (log 35) are the model's readings and choices. -/
def Obligations.DoneReplyConfiguresOrResetsAStation : Prop :=
  ∀ (s : State) (f : BitVec 80) (r : Request) (rep : Reply) (x : Tag) (e : Exchange),
    s.Answered f r rep → r.owner = .exchange x → s.exch x = some e → e.state = .issuing → r.kind = e.kind.request →
    e.cancelMark = false → rep.outcome = .done →
    let a := s.afterReply f rep
    (e.kind = .configureStation → (s.station e.station).state = .ready →
      ∃ t, exec (.replyReceived f) s = .next t ∧
        Ended
          { a with
            stations := a.stations.set e.station
              { a.station e.station with settings := some (e.lanes, e.blockExp) } }
          t x e .success 0) ∧
    (e.kind = .resetStation →
      ∃ t, exec (.replyReceived f) s = .next t ∧ StationReset a t x e ∧
        (t.station e.station).state = .resetting ∧ (t.station e.station).profile = none ∧
        (t.station e.station).settings = none ∧ (t.station e.station).saturation = none ∧
        (t.station e.station).notices = 0 ∧ (t.station e.station).settle = some 5000000 ∧
        (t.station e.station).latch = (s.station e.station).latch)

/-! ## Failed attempts, profiles, notices (chapters 1, 3, 4 and 7) -/

/-- R16, R62, R72, R73, R134: a failed attempt is resent while fewer attempts have failed than the retry limit, its
owner's retries counting it; else an exchange ends with the status of the last failure, a HALT or WITHDRAW brings a
link reset, an automatic IDENTIFY or a FETCH_NOTICE makes its station FAULTED, and a stray pair is given up. That a
mismatched reply to the request of an exchange with a cancel mark is resent is the model's reading (log 25); that a
bad reply to HALT during HOLD leaves the attention flag alone is its choice (log 34), as are what settle timers hold
in a link reset (log 33), when levels enter the lane-low count (log 12), and that a due REPEAT leaves nothing on the
lanes of a station that is FAULTED (log 35), where a running quiet interval is then kept (log 28). Which station state
an automatic IDENTIFY or a FETCH_NOTICE finds is log 19; when a window expires is the sender's (log 3). -/
def Obligations.FailedAttemptIsResentOrExhausted : Prop :=
  ∀ (s m : State) (c : Instr) (r : Request) (k : FailKind),
    s.live = true → s.current = some r → r.detached = false → s.AttemptFails r c k m →
    let n := r.attemptsFailed
    let again := { r with attemptsFailed := n + 1, lastFailure := some k, phase := .toSend, abandoned := false }
    let done := { m with current := none }
    (n < Cfg.retryLimit s.cfg →
      (∀ x e, r.owner = .exchange x → s.exch x = some e →
        exec c s = .next
          { m with current := some again, table := m.table.set x (some { e with retriesUsed := some (n + 1) }) }) ∧
      (∀ st, r.owner = .autoIdentify st →
        exec c s = .next
          { m with current := some again,
                   stations := m.stations.set st { m.station st with identifyRetries := some (n + 1) } }) ∧
      ((∃ st, r.owner = .fetchNotice st) ∨ r.owner = .strayWithdraw →
        exec c s = .next { m with current := some again })) ∧
    (Cfg.retryLimit s.cfg ≤ n →
      (∀ x e, r.owner = .exchange x → s.exch x = some e → e.awaits r →
        ∃ t, exec c s = .next t ∧ Ended done t x e (if k = .window then .replyTimeout else .replyCheck) 0) ∧
      (∀ x, r.owner = .exchange x → r.kind = .halt → s.linkReset = none →
        ∃ t, exec c s = .next t ∧ LinkResetBegun done t .haltFailed) ∧
      (∀ x, r.owner = .exchange x → r.kind = .withdraw → s.linkReset = none →
        ∃ t, exec c s = .next t ∧ LinkResetBegun done t .withdrawFailed) ∧
      (∀ st, r.owner = .autoIdentify st → (s.station st).state = .identifying →
        ∃ t, exec c s = .next t ∧ StationFaulted done t st .identifyFailed) ∧
      (∀ st, r.owner = .fetchNotice st → (s.station st).state = .ready →
        ∃ t, exec c s = .next t ∧ StationFaulted { done with reservation := false } t st .noticeFailed) ∧
      (r.owner = .strayWithdraw → exec c s = .next { done with stray := s.stray.tail }))

/-- R74, R134: an expired window ends a marked exchange whose own request or RESUME it was with its recorded cause, with no
other attempt; and a detached request ends with its attempt and reports nothing: where the attempt fails, and where a
matched reply comes, of which the count alone is handed over. When a window expires is the sender's (log 3). -/
def Obligations.MarkedOrDetachedRequestIsNotResent : Prop :=
  ∀ (s : State) (r : Request),
    s.live = true → s.current = some r →
    (∀ n x e st v, s.cl = .window n → r.phase = .awaiting → r.detached = false → r.owner = .exchange x →
      s.exch x = some e → e.cancelMark = true → e.state = .issuing ∨ e.state = .resuming → e.final = some (st, v) →
      ∃ t, exec .replyWindowExpired s = .next t ∧
        Ended { s with cl := .guardGap 0, laneLow := 0, current := none } t x e st v) ∧
    (∀ c k m, r.detached = true → s.AttemptFails r c k m → exec c s = .next { m with current := none }) ∧
    (∀ f rep, r.detached = true → s.Matched f r rep → r.kind ≠ .identify ∨ rep.outcome ≠ .done →
      exec (.replyReceived f) s = .next (s.afterReply f rep))

/-- R12, R31, R50, R51, R55, R56, R58, R73, R76, R133: a reply to IDENTIFY opens the profile interval, to be judged
when it is a matching DONE, to be discarded when it is a DONE that does not match, or a bad check; a token frame in
its place is a bad check. Any other matched outcome of an automatic IDENTIFY makes its station FAULTED; a mismatched
one is a failed attempt (FailedAttemptIsResentOrExhausted). The profile brings an IDENTIFYING station into READY with
the defaults when it is acceptable, else into FAULTED; for an IDENTIFY_STATION exchange it is queued to be written to
its segments, and a FAULTED station enters READY when it is acceptable. An exchange with a cancel mark ends with its
recorded cause and the profile goes to the station alone; the profile of a detached request goes to no one (R74). That
the levels of the reply, and of the profile, enter the lane-low count at their reports is the model's choice (log 12).
That an automatic IDENTIFY is judged in IDENTIFYING alone is its reading (log 19). Where a station becomes FAULTED,
that a running quiet interval is kept if nothing is left on the lanes (log 28) and that a due REPEAT leaves nothing
there (log 35) are its reading and its choice. The first clauses say where the fields of a profile lie in its 16
bytes, within which ranges it is acceptable (R51, R177), what the value of STATION_READY holds (R180), and what a
station's held count counts (R45). -/
def Obligations.ProfileBringsAStationIntoService : Prop :=
  (∀ p : BitVec 128,
    let byte (k : Nat) : Byte := p.extractLsb' (8 * (15 - k)) 8
    Profile.maxLanes p = (byte 1).toNat / 16 ∧ Profile.depth p = (byte 1).toNat % 16 ∧
    Profile.maxExp p = (byte 2).toNat ∧
    (Profile.acceptable p = true ↔
      ((byte 1).toNat / 16 = 1 ∨ (byte 1).toNat / 16 = 2 ∨ (byte 1).toNat / 16 = 4) ∧
      (1 ≤ (byte 1).toNat % 16 ∧ (byte 1).toNat % 16 ≤ 4) ∧ (6 ≤ (byte 2).toNat ∧ (byte 2).toNat ≤ 11) ∧
      (byte 3).toNat ≤ 1) ∧
    (Profile.readyValue p).extractLsb' 24 8 = byte 0 ∧
    ((Profile.readyValue p).extractLsb' 16 8).toNat = (byte 1).toNat / 16 ∧
    (Profile.readyValue p).extractLsb' 8 8 = byte 2 ∧
    ((Profile.readyValue p).extractLsb' 0 8).toNat = (byte 1).toNat % 16) ∧
  (∀ (s : State) (st : StationId), s.heldCount st = ((List.finRange 16).filter (fun x => match s.exch x with
    | some e => decide (e.station = st ∧ (e.state = .deferred ∨ e.state = .reconnecting ∨ e.state = .resuming
        ∨ e.state = .withdrawing))
    | none => false)).length) ∧
  ∀ (s : State) (r : Request), s.live = true → s.current = some r → r.kind = .identify →
    (∀ f rep, s.Matched f r rep → rep.outcome = .done →
      exec (.replyReceived f) s = .next
        { s.handCount rep with current := some { r with phase := .receiving }, cl := .profile .judge,
                               laneLow := lowAfter s.laneLow 1 f }) ∧
    (∀ f, (∃ n, s.cl = .window n) ∨ s.cl = .receiving → r.phase = .awaiting ∨ r.phase = .receiving →
      (parseReply f = none →
        exec (.replyReceived f) s = .next
          { s with current := some { r with phase := .receiving }, cl := .profile (.discard .check),
                   laneLow := lowAfter s.laneLow 1 f }) ∧
      (∀ rep, parseReply f = some rep → rep.outcome = .done → rep.station ≠ r.station ∨ rep.tag ≠ tagBits r.tag →
        exec (.replyReceived f) s = .next
          { s.handCount rep with current := some { r with phase := .receiving }, cl := .profile (.discard .window),
                                 laneLow := lowAfter s.laneLow 1 f })) ∧
    (∀ c, (tokenOf c).isSome = true → (∃ n, s.cl = .window n) ∨ s.cl = .receiving →
      r.phase = .awaiting ∨ r.phase = .receiving →
      exec c s = .next
        { s with current := some { r with phase := .receiving }, cl := .profile (.discard .check), laneLow := 0 }) ∧
    (∀ f rep st, s.Answered f r rep → r.owner = .autoIdentify st → rep.outcome ≠ .done →
      ((s.station st).state = .identifying →
        ∃ t, exec (.replyReceived f) s = .next t ∧ StationFaulted (s.afterReply f rep) t st .identifyFailed) ∧
      ((s.station st).state ≠ .identifying → exec (.replyReceived f) s = .next (s.afterReply f rep))) ∧
    (∀ f p, s.cl = .profile .judge → parseProfile f = some p →
      let g := { s with cl := .guardGap 0, current := none, laneLow := lowAfter s.laneLow 0 f }
      let inService (b : Station) : Station :=
        { b with
          state := .ready, profile := some p, settings := some (1, min 9 (Profile.maxExp p)), identifyRetries := none,
          saturation := none, latch := some (.ready (Profile.readyValue p)) }
      (r.detached = true → exec (.profileReceived f) s = .next g) ∧
      (∀ st, r.detached = false → r.owner = .autoIdentify st → (s.station st).state = .identifying →
        (Profile.acceptable p = true →
          exec (.profileReceived f) s = .next { g with stations := s.stations.set st (inService (s.station st)) }) ∧
        (Profile.acceptable p = false →
          ∃ t, exec (.profileReceived f) s = .next t ∧ StationFaulted g t st .profileInvalid)) ∧
      (∀ x e st v, r.detached = false → r.owner = .exchange x → s.exch x = some e → e.state = .issuing →
        e.cancelMark = true → e.final = some (st, v) →
        ∃ m t, Ended g m x e st v ∧ exec (.profileReceived f) s = .next t ∧
          ((s.station e.station).state = .faulted → Profile.acceptable p = true →
            t = { m with stations := m.stations.set e.station (inService (m.station e.station)) }) ∧
          ((s.station e.station).state = .faulted → Profile.acceptable p = false → t = m) ∧
          (∀ l b, (s.station e.station).state = .ready → (s.station e.station).settings = some (l, b) →
            (Profile.acceptable p = true → l ≤ Profile.maxLanes p → b ≤ Profile.maxExp p →
              m.heldCount e.station ≤ Profile.depth p →
              t = { m with stations := m.stations.set e.station { m.station e.station with profile := some p } }) ∧
            (Profile.acceptable p = false ∨ Profile.maxLanes p < l ∨ Profile.maxExp p < b
                ∨ Profile.depth p < m.heldCount e.station →
              StationFaulted m t e.station .profileInvalid))) ∧
      (∀ x e sg, r.detached = false → r.owner = .exchange x → s.exch x = some e → e.state = .issuing →
        e.cancelMark = false → e.seg = some sg → s.setAside = none → (∀ q, s.payload = some q → q.owner ≠ x) →
        (∀ j, s.job = some j → j.tag ≠ x) →
        let u := e.station
        -- The station's record once the tag has left its pending configuration list.
        let b : Station :=
          { s.station u with pendingConfigs := (s.station u).pendingConfigs.filter (fun c => c.tag != x) }
        let after (stations : Vector Station 8) : State :=
          { g with
            table := s.table.set x (some { e with state := .completing, retriesUsed := none, deferral := none }),
            pendingQ := s.pendingQ.set u ((s.queueOf u).filter (· != x)),
            reconnect := s.reconnect.filter (· != x),
            stations := stations,
            profiles := s.profiles ++ [{ tag := x, bytes := p, walk := Walk.start sg, started := false, placed := 0,
                                         issued := 0, ended := 0 }] }
        ((s.station u).state = .faulted → Profile.acceptable p = true →
          exec (.profileReceived f) s = .next (after (s.stations.set u (inService b)))) ∧
        ((s.station u).state = .faulted → Profile.acceptable p = false →
          exec (.profileReceived f) s = .next (after (s.stations.set u b))) ∧
        (∀ l be, (s.station u).state = .ready → (s.station u).settings = some (l, be) → Profile.acceptable p = true →
          l ≤ Profile.maxLanes p → be ≤ Profile.maxExp p → s.heldCount u ≤ Profile.depth p →
          exec (.profileReceived f) s = .next (after (s.stations.set u { b with profile := some p }))) ∧
        (∀ l be, (s.station u).state = .ready → (s.station u).settings = some (l, be) →
          Profile.acceptable p = false ∨ Profile.maxLanes p < l ∨ Profile.maxExp p < be
            ∨ Profile.depth p < s.heldCount u →
          ∃ t, exec (.profileReceived f) s = .next t ∧
            StationFaulted (after (s.stations.set u b)) t u .profileInvalid)))

/-- R43, R55, R119, R120, R121, R122, R127, R128, R178: what the notice of a matched reply to FETCH_NOTICE does. NONE
clears the fetch reservation; READY takes a DEFERRED exchange of its station and tag to RECONNECTING, is without
effect for one in RECONNECTING, RESUMING or WITHDRAWING, and else makes a stray pair; ALERT enters the event queue in
the place held; a notice not defined or an outcome but DONE makes the station FAULTED. Any matched reply to the
WITHDRAW of a stray pair removes the pair. Where the station becomes FAULTED, READY alone (log 19), that a running
quiet interval is kept if nothing is left on the lanes (log 28) and that a due REPEAT leaves nothing there (log 35)
are the model's readings and choices. -/
def Obligations.NoticeIsTakenFromItsReply : Prop :=
  (∀ (s : State) (f : BitVec 80) (r : Request) (rep : Reply) (st : StationId),
    s.Answered f r rep → r.owner = .fetchNotice st → r.kind = .fetchNotice →
    let a := s.afterReply f rep
    let b := { a with reservation := false }
    let next (t : State) : Prop := exec (.replyReceived f) s = .next t
    (rep.outcome = .done → rep.value = 0 → next b) ∧
    (∀ x : Tag, rep.outcome = .done → rep.value = BitVec.ofNat 32 (0x01000000 + x.val) →
      let stray := next { b with stray := if (st, x) ∈ s.stray then s.stray else s.stray ++ [(st, x)] }
      (s.exch x = none → stray) ∧
      (∀ e, s.exch x = some e →
        (e.station ≠ st ∨ e.state = .queued ∨ e.state = .issuing ∨ e.state = .transfer ∨ e.state = .halting
          ∨ e.state = .completing ∨ (e.state = .deferred ∧ e.cancelMark = true) → stray) ∧
        (e.station = st → e.state = .reconnecting ∨ e.state = .resuming ∨ e.state = .withdrawing → next b) ∧
        (e.station = st → e.state = .deferred → e.cancelMark = false →
          next { b with table := s.table.set x (some { e with state := .reconnecting, deferral := none }),
                        stations := a.stations.set st { a.station st with saturation := none },
                        reconnect := s.reconnect ++ [x] }))) ∧
    (∀ code : Byte, rep.outcome = .done → rep.value = 0x02000000#32 + code.setWidth 32 → code ≠ 0 →
      s.reservation = true →
      ∃ t, next t ∧ t.eventQueue = s.eventQueue ++ [.stationAlert st code] ∧ t.reservation = false ∧
        t.waiting = (if s.eventQueue = [] then (match s.eventRing with
          | some c => joinedAt s c .event
          | none => s.waiting) else s.waiting) ∧
        t = { a with eventQueue := t.eventQueue, reservation := t.reservation, waiting := t.waiting }) ∧
    ((s.station st).state = .ready →
      rep.outcome ≠ .done ∨ (rep.value ≠ 0 ∧ (∀ x : Tag, rep.value ≠ BitVec.ofNat 32 (0x01000000 + x.val)) ∧
        (∀ code : Byte, code ≠ 0 → rep.value ≠ 0x02000000#32 + code.setWidth 32)) →
      ∃ t, next t ∧ StationFaulted b t st .noticeFailed)) ∧
  (∀ (s : State) (f : BitVec 80) (r : Request) (rep : Reply),
    s.Answered f r rep → r.owner = .strayWithdraw → r.kind = .withdraw →
    exec (.replyReceived f) s = .next { s.afterReply f rep with stray := s.stray.tail })

/-! ## POLL, gaps and link reset (chapters 2, 4) -/

/-- R36, R37, R58, R75: a POLL result raises the notices-waiting count of a slot that read low to at least 1 and
writes 0 for one that read high, EMPTY stations apart; the set-aside request becomes current again, the guard gap
begins, and the levels of the turnaround period and of the slots go on with the lane-low count, at their report, which
is the model's choice (log 12). The count after levels that are received: past 4096 it stays at 4097; levels that are
all low are added to it; else it is the lows since the last high. -/
def Obligations.PollResultWritesEveryCount : Prop :=
  (∀ (w before lead : Nat) (f : BitVec w),
    ((∀ k, k < w → f.getLsbD k = false) →
      lowHead f = w ∧ lowAfter before lead f = min 4097 (before + lead + w)) ∧
    (∀ k, k < w → f.getMsbD k = true → (∀ i, i < k → f.getMsbD i = false) → lowHead f = k) ∧
    (4096 < before + lead + lowHead f → lowAfter before lead f = 4097) ∧
    (∀ k, before + lead + lowHead f ≤ 4096 → f.getLsbD k = true → (∀ i, i < k → f.getLsbD i = false) →
      lowAfter before lead f = k)) ∧
  (∀ (s : State) (levels : PollLevels), s.live = true → s.cl = .pollSlots →
    ∃ t, exec (.pollResult levels) s = .next t ∧
      (∀ u, t.station u = if (s.station u).state = .empty then s.station u else
        { s.station u with notices := if levels.slots.getLsbD u.val then max (s.station u).notices 1 else 0 }) ∧
      t = { s with stations := t.stations, cl := .guardGap 0, current := s.setAside, setAside := none,
                   laneLow := lowAfter s.laneLow 0 (pollPeriods levels) } ∧
      (pollPeriods levels).getMsbD 0 = !levels.turnaround ∧
      ∀ k : Nat, k < 8 → (pollPeriods levels).getMsbD (k + 1) = !levels.slots.getLsbD k)

/-- R34, R35, R37, R77, R83, R93, R98: a guard gap that runs out leaves CL idle, in HOLD, or with the token window that was
due; attention sets its flag and leaves CL low; CL high again after it, or after a shorter low, begins a guard gap and
counts the low afresh. During HOLD neither is taken; that this holds in a guard gap too, where R34 judges a low as one on
idle CL, is the model's reading (log 21). That attention in a guard gap ends the gap a payload waits for, and leaves a due
token window waiting, is its reading as well (log 29); so is the count that attention starts from (log 12). When a gap
runs out is the sender's (log 3). -/
def Obligations.LaneReturnsToIdle : Prop :=
  ∀ s : State, s.live = true →
    (∀ n, s.cl = .guardGap n →
      (s.payload = none → exec .guardGapEnd s = .next { s with cl := .idle, laneLow := 0 }) ∧
      (∀ p, s.payload = some p → p.reopen = true →
        exec .guardGapEnd s = .next
          { s with payload := some { p with gapDue := false, reopen := false }, cl := .tokenWindow 0, laneLow := 0 }) ∧
      (∀ p, s.payload = some p → p.reopen = false →
        exec .guardGapEnd s = .next
          { s with
            payload := some { p with gapDue := false }, laneLow := 0,
            cl := if p.phase = .hold ∨ (p.phase = .halted ∧ p.tail = .hold) then .hold else .idle })) ∧
    (s.holdInForce = false →
      (s.cl = .idle →
        exec .attention s = .next { s with attention := true, cl := .low, laneLow := min 4097 (s.laneLow + 2) } ∧
        exec .clReturnHigh s = .next { s with cl := .guardGap 0, laneLow := 0 }) ∧
      (s.cl = .low →
        exec .attention s = .next { s with attention := true } ∧
        exec .clReturnHigh s = .next { s with cl := .guardGap 0, laneLow := 0 }) ∧
      (∀ n, s.cl = .guardGap n →
        let ended := s.payload.map (fun p => { p with gapDue := false })
        exec .attention s = .next
          { s with attention := true, cl := .low, laneLow := min 4097 (s.laneLow + 2), payload := ended } ∧
        exec .clReturnHigh s = .next { s with cl := .guardGap 0, laneLow := 0, payload := ended })) ∧
    (s.holdInForce = true → exec .attention s = .next s ∧ exec .clReturnHigh s = .next s)

/-- R37, R48, R79, R80, R81, R174: LINK_RESET and a stuck lane begin a link reset, absorbed while one is in progress;
at its end a guard gap begins, the poll timer starts and the settle timers of SETTLING stations are set. When the
signalling ends, and when the count has passed 4096, is the sender's (log 3); what a settle timer holds meanwhile is
the model's choice (log 33). The first clause names the states in which an exchange is in flight with its station
(R20), and those that free room when left (R57). -/
def Obligations.LinkResetBeginsAndEnds : Prop :=
  (∀ x : ExState,
    (x.onLink = true ↔ x = .issuing ∨ x = .deferred ∨ x = .reconnecting ∨ x = .resuming ∨ x = .transfer ∨ x = .halting
      ∨ x = .withdrawing) ∧
    (x.freesRoom = true ↔ x = .deferred ∨ x = .reconnecting ∨ x = .resuming ∨ x = .transfer)) ∧
  ∀ s : State, s.live = true →
    (s.linkReset = none →
      (∃ t, exec .linkReset s = .next t ∧
        LinkResetBegun { s with device := { s.device with result := .ok } } t .hostCommand) ∧
      (∃ t, exec .laneStuck s = .next t ∧ LinkResetBegun s t .laneStuck)) ∧
    (∀ cause, s.linkReset = some cause →
      exec .linkReset s = .next { s with device := { s.device with result := .ok } } ∧
      exec .laneStuck s = .next s ∧
      ∃ t, exec .linkResetEnd s = .next t ∧
        (∀ u, t.station u = if (s.station u).state = .settling then { s.station u with settle := some 5000000 }
          else s.station u) ∧
        t = { s with
              stations := t.stations, cl := .guardGap 0, linkReset := none, laneLow := 0,
              pollTimer := if Cfg.pollInterval s.cfg = 0 then none else some (Cfg.pollInterval s.cfg * 1000000) })

/-! ## Presence and timers (chapters 3, 4, 5, 7 and 10) -/

/-- R47, R48, R49, R61, R74, R101, R119, R127: a changed presence level restarts the debounce timer; a level stable
for 10 ms takes an EMPTY station whose slot reads present to SETTLING, and any other station whose slot reads absent
to EMPTY, with its exchanges ended, the requests addressed to it detached and STATION_LEFT in its latch. That a
detached FETCH_NOTICE clears the fetch reservation at once, and a detached stray WITHDRAW removes its pair at once, is
the model's reading (log 20). That a running quiet interval is kept if nothing is left on the lanes (log 28) and that
a due REPEAT leaves nothing there (log 35) are its reading and its choice. That the release of the lanes of a lost owner
leaves CL idle out of HOLD, and a token window open, is its reading (log 22). When a level has been stable is the sender's
(log 3). -/
def Obligations.PresenceDecidesAStation : Prop :=
  ∀ (s : State) (st : StationId), s.live = true →
    (∀ b, (s.station st).level = some (!b) →
      exec (.presenceChange st b) s = .next
        { s with stations := s.stations.set st { s.station st with level := some b, debounce := some 0 } }) ∧
    (∀ b, (s.station st).level = some b → exec (.presenceChange st b) s = .next s) ∧
    (∀ d, (s.station st).debounce = some d → d < 10000000 →
      let stable : Station := { s.station st with debounce := some 10000000 }
      ((s.station st).level = some true → (s.station st).state = .empty →
        exec (.presenceStable st) s = .next
          { s with
            stations := s.stations.set st
              { stable with state := .settling, settle := some 5000000, notices := 0, saturation := none } }) ∧
      ((s.station st).level = some true ∧ (s.station st).state ≠ .empty ∨
          (s.station st).level = some false ∧ (s.station st).state = .empty →
        exec (.presenceStable st) s = .next { s with stations := s.stations.set st stable }) ∧
      ((s.station st).level = some false → (s.station st).state ≠ .empty →
        ∃ m t, exec (.presenceStable st) s = .next t ∧
          StationLost { s with stations := s.stations.set st stable } m st ∧
          (let addressed (r : Request) : Prop := r.station = BitVec.ofNat 4 (st.val + 1) ∧ r.detached = false
           let onLane (p : Owner → Prop) : Prop :=
             ∃ r, (m.current = some r ∨ m.setAside = some r) ∧ addressed r ∧ p r.owner
           t.stations = m.stations.set st
             { m.station st with
               state := .empty, profile := none, settings := none, settle := none, identifyRetries := none,
               pendingConfigs := [], saturation := none, notices := 0, latch := some .left } ∧
           (∀ r, m.current = some r → addressed r → t.current = r.afterDetach) ∧
           ((∀ r, m.current = some r → ¬ addressed r) → t.current = m.current) ∧
           (∀ r, m.setAside = some r → addressed r → t.setAside = none) ∧
           ((∀ r, m.setAside = some r → ¬ addressed r) → t.setAside = m.setAside) ∧
           (onLane (fun o => ∃ u, o = .fetchNotice u) → t.reservation = false) ∧
           (¬ onLane (fun o => ∃ u, o = .fetchNotice u) → t.reservation = m.reservation) ∧
           (onLane (· = .strayWithdraw) → t.stray = m.stray.tail) ∧
           (¬ onLane (· = .strayWithdraw) → t.stray = m.stray) ∧
           t = { m with stations := t.stations, current := t.current, setAside := t.setAside,
                        reservation := t.reservation, stray := t.stray })))

/-- R48, R50, R54, R57, R78, R101, R118, R126, R164: what each timer brings when it runs out: a settled station enters
IDENTIFYING, a saturated flag clears, a deferral limit takes its exchange to WITHDRAWING, a poll becomes due, the quiet
interval ends, and a ring's records are announced. When a timer has run out is the sender's: the report is taken at any of
its values (log 3). -/
def Obligations.ExpiredTimersTakeEffect : Prop :=
  ∀ s : State, s.live = true →
    (∀ st n, (s.station st).settle = some n →
      ((s.station st).state = .settling ∧ s.linkReset = none) ∨ (s.station st).state = .resetting →
      exec (.settleTimerExpiry st) s = .next
        { s with
          stations := s.stations.set st
            { s.station st with state := .identifying, settle := none, identifyRetries := none } }) ∧
    (∀ st n, (s.station st).saturation = some n →
      exec (.saturationTimerExpiry st) s = .next
        { s with stations := s.stations.set st { s.station st with saturation := none } }) ∧
    (∀ x e, s.exch x = some e → e.state = .deferred →
      exec (.deferralTimerExpiry x) s = .next
        { s with
          table := s.table.set x (some { e with state := .withdrawing, deferral := none,
                                                final := e.finalAfter .deferralTimeout 0 }),
          stations := s.stations.set e.station { s.station e.station with saturation := none },
          reconnect := s.reconnect.filter (· != x) }) ∧
    (∀ n, s.pollTimer = some n → exec .pollTimerExpiry s = .next { s with pollTimer := some 0, pollDue := true }) ∧
    (∀ n, s.quiet = some n → exec .quietIntervalEnd s = .next { s with quiet := none }) ∧
    (∀ r c n, s.cring r = some c → c.delayTimer = some n →
      exec (.moderationDelayExpiry r) s = .next
        { s with crings := s.crings.set r (some { c with modCount := 0, delayTimer := none }),
                 vectors := s.vectors ++ [⟨r.val, by omega⟩] })

/-! ## The payload lanes (chapter 5) -/

/-- R39, R83, R88, R89, R91, R99, R101: NEXT is given when the slot at the fill position is FREE, the guard gap has ended, 4
periods have passed since, or since the last block's check, and no quiet interval runs; a due REPEAT when 4 periods have
passed since the bad block's check and no quiet interval runs, its slot being kept for it (in which phase it waits is the
model's choice, log 35). A low on PL0 is a start mark, and ends the data timer, no earlier than 4 periods after the grant. A
data timer that runs out, when its report comes (log 3), halts the exchange with DATA_TIMEOUT. -/
def Obligations.GrantsOpenAReadBlock : Prop :=
  ∀ (s : State) (p : Payload), s.live = true → s.payload = some p →
    (p.phase = .grantPending → p.repeatDue = false → (s.slot p.pos).state = .free → p.gapDue = false → p.wait = 0 →
      s.quiet = none →
      exec .nextGrant s = .next
        { s with
          staging := s.staging.set p.pos { state := .filling, block := p.linkPos, data := [] },
          payload := some { p with phase := .awaitingBlock, dataTimer := some 0, grant := some .next, elapsed := 0 } }) ∧
    ((s.slot p.pos).state ≠ .free ∨ p.gapDue = true ∨ p.wait ≠ 0 ∨ s.quiet ≠ none ∨ p.phase ≠ .grantPending →
      exec .nextGrant s = .next s) ∧
    (p.phase = .grantPending → p.repeatDue = true → p.wait = 0 → s.quiet = none →
      exec .repeatGrant s = .next
        { s with
          payload := some { p with phase := .awaitingBlock, repeatDue := false, dataTimer := some 0,
                                   grant := some .repeat, elapsed := 0 } }) ∧
    (p.repeatDue = false ∨ p.wait ≠ 0 ∨ s.quiet ≠ none ∨ p.phase ≠ .grantPending → exec .repeatGrant s = .next s) ∧
    (∀ n, p.phase = .awaitingBlock → p.dataTimer = some n →
      (4 ≤ n → exec .readBlockStartMark s = .next
        { s with payload := some { p with phase := .receiving, dataTimer := none, elapsed := 0 } }) ∧
      (n < 4 → exec .readBlockStartMark s = .next s)) ∧
    (p.phase = .halted → p.tail = .granted →
      (p.wait = 0 → exec .readBlockStartMark s = .next
        { s with payload := some { p with tail := .receiving, elapsed := 0 } }) ∧
      (p.wait ≠ 0 → exec .readBlockStartMark s = .next s)) ∧
    (∀ e, p.phase = .awaitingBlock → s.exch p.owner = some e →
      ∃ t, exec .dataTimeout s = .next t ∧ Halted s t p.owner e .dataTimeout)

/-- R38, R90, R91, R99, R182: the bytes of a read block are taken round robin from the lanes in use, byte k from lane k modulo
the lane width, and missing ones read as 1 bits. A block of a good check fills its slot, and the link side has finished with
the last block; a bad check is repeated while the retry limit allows, with the slot's bytes discarded, else the exchange
halts with PAYLOAD_CHECK; a halted payload discards its block. The next grant, or the REPEAT, waits 4 periods. No block is
received before its start mark. That a payload waits for its REPEAT in GRANT_PENDING is the model's choice (log 35). -/
def Obligations.ReadBlockIsKeptOrRepeated : Prop :=
  ∀ (s : State) (p : Payload) (e : Exchange) (n : Nat) (lanes : List (List Byte)) (check : Word),
    s.live = true → s.payload = some p → s.exch p.owner = some e → e.blocksDone = some n →
    let data := (List.range p.blockSize).map (fun k =>
      ((lanes[k % p.laneWidth]?).bind (fun l => l[k / p.laneWidth]?)).getD 0xFF#8)
    let pos : StageId := ⟨(p.pos.val + 1) % 4, Nat.mod_lt _ (by decide)⟩
    (p.phase = .receiving → crc32 data = check → p.repeatDue = false →
      exec (.readBlockReceived lanes check) s = .next
        { s with
          staging := s.staging.set p.pos { s.slot p.pos with state := .full, data := data },
          table := s.table.set p.owner (some
            { e with blocksDone := some (n + 1),
                     linkFinished := if n + 1 = p.count then some true else e.linkFinished }),
          payload := some
            { p with linkPos := p.linkPos + 1, blockRetries := 0, pos := pos, dataTimer := none, grant := none,
                     elapsed := 0, wait := 4,
                     phase := if n + 1 = p.count then .finished
                       else if (s.slot pos).state = .free then .grantPending else .paced } }) ∧
    (p.phase = .receiving → crc32 data ≠ check → p.blockRetries < Cfg.retryLimit s.cfg →
      exec (.readBlockReceived lanes check) s = .next
        { s with
          staging := s.staging.set p.pos { s.slot p.pos with data := [] },
          payload := some { p with blockRetries := p.blockRetries + 1, phase := .grantPending, repeatDue := true,
                                   dataTimer := none, grant := none, elapsed := 0, wait := 4 } }) ∧
    (p.phase = .receiving → crc32 data ≠ check → Cfg.retryLimit s.cfg ≤ p.blockRetries →
      ∃ t, exec (.readBlockReceived lanes check) s = .next t ∧
        Halted { s with payload := some { p with phase := .grantPending, grant := none, elapsed := 0 } } t p.owner e
          .payloadCheck) ∧
    (p.phase = .halted → p.tail = .receiving →
      exec (.readBlockReceived lanes check) s = .next { s with payload := some { p with tail := .nothing, elapsed := 0 } }) ∧
    (p.phase = .awaitingBlock ∨ (p.phase = .halted ∧ p.tail = .granted) →
      exec (.readBlockReceived lanes check) s = .next s)

/-- R33, R38, R93, R97, R99, R101, R182: a write block is begun when its slot is READY, the guard gap has ended, no request is
current and no quiet interval runs, with its check code over the slot's bytes, which are dealt round robin over the lanes
in use, byte k to lane k modulo the lane width, and none to the others; its end, when it is reported (log 3), opens the
token window, also for a block cut off; a hold timer that runs out halts the exchange with HOLD_TIMEOUT. -/
def Obligations.WriteBlockIsSent : Prop :=
  ∀ (s : State) (p : Payload), s.live = true → s.payload = some p →
    (p.phase = .sendPending → p.gapDue = false → s.current = none → s.quiet = none →
      let bytes := (s.slot p.pos).data
      ∃ l : List (List Byte), exec .writeBlockBegin s = .next
        { s with
          staging := s.staging.set p.pos { s.slot p.pos with state := .sending },
          payload := some { p with phase := .sending, tokenWaits := 0, resendDue := false, elapsed := 0,
                                   sendCheck := some (crc32 bytes), sendLanes := l } } ∧
        l.length = 4 ∧
        (∀ k lane, l[k]? = some lane → p.laneWidth ≤ k → lane = []) ∧
        (p.laneWidth = 1 ∨ p.laneWidth = 2 ∨ p.laneWidth = 4 → ∀ k, k < p.laneWidth →
          ∃ lane, l[k]? = some lane ∧ ∀ i, lane[i]? = bytes[p.laneWidth * i + k]?)) ∧
    (p.phase ≠ .sendPending ∨ p.gapDue = true ∨ s.current ≠ none ∨ s.quiet ≠ none →
      exec .writeBlockBegin s = .next s) ∧
    (p.phase = .sending →
      exec .writeBlockEnd s = .next
        { s with staging := s.staging.set p.pos { s.slot p.pos with state := .awaitingToken },
                 payload := some { p with phase := .tokenWait, elapsed := 0 }, cl := .tokenWindow 0 }) ∧
    (p.phase = .halted → p.tail = .cutBlock →
      exec .writeBlockEnd s = .next
        { s with payload := some { p with tail := .nothing, elapsed := 0 }, cl := .tokenWindow 0 }) ∧
    (∀ e, p.phase = .hold → s.exch p.owner = some e →
      ∃ t, exec .holdTimeout s = .next t ∧ Halted s t p.owner e .holdTimeout)

/-- R34, R37, R76, R94, R95, R96, R97, R98: the token of a write block. TAKEN keeps the block and allows the next one, or ends
the exchange SUCCESS with the last; CHECK_FAIL sends it again while the retry limit allows, else halts with PAYLOAD_CHECK;
FAULT ends the exchange with WRITE_FAULT; HOLD keeps the block and starts the hold timer; RELEASE out of HOLD, and a code
that is not defined, halt with PROTOCOL. In HOLD, in a guard gap too (log 21), RELEASE goes on from there, and any other
token halts with PROTOCOL. The guard gap begins, and the frame's levels go on with the lane-low count at its report
(log 12); no run of lows passes 4096 in it here (LostTokenIsAwaitedAgain says what one that does brings). -/
def Obligations.TokenSettlesTheBlock : Prop :=
  ∀ (s : State) (p : Payload) (e : Exchange) (n m : Nat),
    s.live = true → s.payload = some p → s.exch p.owner = some e → e.blocksDone = some n → e.bytesMoved = some m →
    p.resendDue = false →
    let st : BitVec 4 := BitVec.ofNat 4 (p.station.val + 1)
    let x : BitVec 4 := BitVec.ofNat 4 p.owner.val
    let a (c : TokenCode) : State := s.afterToken (tokenFrame st c x)
    let hears (c : TokenCode) : Prop := s.Hears (tokenFrame st c x)
    let pos : StageId := ⟨(p.pos.val + 1) % 4, Nat.mod_lt _ (by decide)⟩
    let e' := { e with blocksDone := some (n + 1), bytesMoved := some (m + p.blockSize) }
    let p' := { p with linkPos := p.linkPos + 1, pos := pos, blockRetries := 0, sendCheck := none, sendLanes := [],
                       elapsed := 0 }
    let kept (c : TokenCode) : State :=
      { a c with staging := s.staging.set p.pos { state := .free, block := 0, data := [] },
                 table := s.table.set p.owner (some e'), payload := some p' }
    (p.phase = .tokenWait → (∃ k, s.cl = .tokenWindow k) ∨ s.cl = .tokenReceiving →
      (hears .taken → n + 1 ≠ p.count → exec (.tokenTaken st x) s = .next
        { kept .taken with
          payload := some
            { p' with phase := if (s.slot pos).state = .ready then .sendPending else .loadWait, gapDue := true,
                      holdTimer := none } }) ∧
      (hears .taken → n + 1 = p.count → ∃ t, exec (.tokenTaken st x) s = .next t ∧
        Ended { kept .taken with table := s.table.set p.owner (some { e' with linkFinished := some true }) } t p.owner
          { e' with linkFinished := some true } .success 0) ∧
      (hears .checkFail → p.blockRetries < Cfg.retryLimit s.cfg → exec (.tokenCheckFail st x) s = .next
        { a .checkFail with payload := some { p with blockRetries := p.blockRetries + 1, resendDue := true,
                                                     gapDue := true, phase := .sendPending } }) ∧
      (hears .checkFail → Cfg.retryLimit s.cfg ≤ p.blockRetries →
        ∃ t, exec (.tokenCheckFail st x) s = .next t ∧ Halted (a .checkFail) t p.owner e .payloadCheck) ∧
      (hears .fault → ∃ t, exec (.tokenFault st x) s = .next t ∧ Ended (a .fault) t p.owner e .writeFault 0) ∧
      (hears .hold → exec (.tokenHold st x) s = .next
        { kept .hold with payload := some { p' with phase := .hold, holdTimer := some 0 } }) ∧
      (hears .release → ∃ t, exec (.tokenRelease st x) s = .next t ∧ Halted (a .release) t p.owner e .protocol) ∧
      (∀ f, s.Hears f → parseToken f = .good st .undefined x →
        ∃ t, exec (.tokenBadCheck f) s = .next t ∧ Halted (s.afterToken f) t p.owner e .protocol)) ∧
    (p.phase = .hold → s.cl = .hold ∨ s.cl = .tokenReceiving ∨ (∃ k, s.cl = .guardGap k) →
      (hears .release → n ≠ p.count → exec (.tokenRelease st x) s = .next
        { a .release with
          payload := some
            { p with phase := if (s.slot p.pos).state = .ready then .sendPending else .loadWait, gapDue := true,
                     holdTimer := none } }) ∧
      (hears .release → n = p.count → ∃ t, exec (.tokenRelease st x) s = .next t ∧
        Ended { a .release with table := s.table.set p.owner (some { e with linkFinished := some true }) } t p.owner
          { e with linkFinished := some true } .success 0) ∧
      (∀ c f code, tokenOf c = some (f, .good st code x) → code ≠ .release → s.Hears f →
        ∃ t, exec c s = .next t ∧ Halted (s.afterToken f) t p.owner e .protocol))

/-- R33, R34, R37, R42, R76, R79, R97, R98, R99, R100: a token of a bad check, of another station or tag, or none
within the window: the window opens again while the retry limit allows, else the exchange halts with REPLY_CHECK or
REPLY_TIMEOUT; a bad check during HOLD sets the attention flag, and a token of another station or tag is discarded
there. A token that comes with the payload HALTED, or with none of it left, ends its window and changes no account. A
run of lows that passes 4096 within a token frame breaks it off and begins a link reset. That a token of another
station or tag comes under the command of its own code (log 17), that a window outlives the release of the lanes (log
22), that a low in a guard gap during HOLD is a start mark (log 21), and that the frame's levels, and a run past 4096
among them, count at its report (log 12), are the model's choices and readings; what settle timers hold in the link
reset is its choice (log 33), and when the window expires is the sender's (log 3). -/
def Obligations.LostTokenIsAwaitedAgain : Prop :=
  (∀ (s : State) (p : Payload) (e : Exchange), s.live = true → s.payload = some p → s.exch p.owner = some e →
    let open_ := (∃ k, s.cl = .tokenWindow k) ∨ s.cl = .tokenReceiving
    let held := s.cl = .hold ∨ s.cl = .tokenReceiving ∨ ∃ k, s.cl = .guardGap k
    let other (tok : Token) : Prop := ∃ st code x, tok = .good st code x ∧
      (st ≠ BitVec.ofNat 4 (p.station.val + 1) ∨ x ≠ BitVec.ofNat 4 p.owner.val)
    (∀ c f tok, tokenOf c = some (f, tok) → s.Hears f →
      (p.phase = .tokenWait → open_ → tok = .bad ∨ other tok →
        (p.tokenWaits < Cfg.retryLimit s.cfg → exec c s = .next
          { s.afterToken f with payload := some { p with tokenWaits := p.tokenWaits + 1, reopen := true } }) ∧
        (Cfg.retryLimit s.cfg ≤ p.tokenWaits →
          ∃ t, exec c s = .next t ∧
            Halted (s.afterToken f) t p.owner e (if tok = .bad then .replyCheck else .replyTimeout))) ∧
      (p.phase = .hold → held → tok = .bad → exec c s = .next { s.afterToken f with attention := true }) ∧
      (p.phase = .hold → held → other tok → exec c s = .next (s.afterToken f)) ∧
      (p.phase = .halted → open_ ∨ (p.tail = .hold ∧ held) →
        (p.tail = .hold → tok = .bad → exec c s = .next { s.afterToken f with attention := true }) ∧
        (p.tail ≠ .hold ∨ tok ≠ .bad → exec c s = .next (s.afterToken f)))) ∧
    (∀ k, p.phase = .tokenWait → s.cl = .tokenWindow k →
      (p.tokenWaits < Cfg.retryLimit s.cfg → exec .tokenWindowExpired s = .next
        { s with payload := some { p with tokenWaits := p.tokenWaits + 1, reopen := false }, cl := .tokenWindow 0,
                 laneLow := 0 }) ∧
      (Cfg.retryLimit s.cfg ≤ p.tokenWaits →
        ∃ t, exec .tokenWindowExpired s = .next t ∧
          Halted { s with cl := .guardGap 0, laneLow := 0 } t p.owner e .replyTimeout))) ∧
  (∀ s : State, s.live = true →
    let unawaited := ∀ p, s.payload = some p → p.phase ≠ .tokenWait ∧ p.phase ≠ .hold ∧ p.phase ≠ .halted
    (∀ c f tok, tokenOf c = some (f, tok) → (∃ k, s.cl = .tokenWindow k) ∨ s.cl = .tokenReceiving → s.Hears f →
      unawaited → exec c s = .next (s.afterToken f)) ∧
    (∀ k, s.cl = .tokenWindow k → unawaited ∨ (∃ p, s.payload = some p ∧ p.phase = .halted) →
      exec .tokenWindowExpired s = .next { s with cl := .guardGap 0, laneLow := 0 }) ∧
    (∀ c f tok, tokenOf c = some (f, tok) → s.TakesToken → ¬ s.Hears f → s.linkReset = none →
      ∃ t, exec c s = .next t ∧ LinkResetBegun s t .laneStuck))

/-! ## The data mover (chapter 6) -/

/-- R103, R104, R105, R106, R107, R108, R110, R111, R112: the mover takes the FULL slot of its next block, or the FREE one to
load, and places the block into host writes of the slot's bytes, or host reads, from the cursor on. Where the current
descriptor ends before the block, the second inline descriptor follows it; or the entry after it under LIST: one held ahead
is taken into use at once, or leads to its page, one being read is waited for, one not read is read, and a faulted one
brings HOST_ACCESS_FAULT. A malformed one, and one beyond entry 255, brings LIST_MALFORMED; the end of the list
SEGMENT_SHORT. That a host address past the top of 64 bits wraps (log 36), that a LOADING slot holds zeros where its reads
have not come (log 14), and that the limit of 4096 is judged once an entry is read (log 13), are the model's choices. -/
def Obligations.MoverTakesABlock : Prop :=
  ∀ (s : State) (j : Job) (e : Exchange) (g : SegSource) (c : CurDesc),
    s.live = true → s.job = some j → s.exch j.tag = some e → e.seg = some g → e.state = .transfer → j.inHand = none →
    j.nextBlock < j.count → j.walk.needed = false → j.walk.cur = some c → 1 ≤ j.blockSize → j.blockSize ≤ 2048 →
    c.offset ≤ c.desc.len →
    let i : StageId := ⟨j.nextBlock % 4, Nat.mod_lt _ (by decide)⟩
    let addr := c.desc.addr + BitVec.ofNat 64 c.offset
    let room := c.desc.len - c.offset
    let rest := j.blockSize - room
    let hand (placed issued : Nat) : InHand := { slot := i, placed := placed, issued := issued, ended := 0 }
    let moved (w : Walk) : Exchange := { e with cursor := some w.cursor }
    -- The state once `l` has been issued for the block in `slot`, of which `placed` bytes are placed, by walk `w`.
    let taken (slot : Slot) (placed : Nat) (w : Walk) (l : List Access) : State :=
      { s with
        staging := s.staging.set i slot,
        job := some { j with walk := w, inHand := some (hand placed l.length) },
        table := s.table.set j.tag (some (moved w)),
        accesses := s.accesses ++ l, nextAccess := s.nextAccess + l.length }
    let reads (t : State) (at_ : BitVec 64) : State :=
      { t with
        accesses := t.accesses ++
          [{ id := t.nextAccess, purpose := .descriptor j.tag, addr := at_, len := 16, data := [] }],
        nextAccess := t.nextAccess + 1 }
    let at_ (n : Nat) : Walk := { j.walk with cur := some { c with offset := n } }
    let second (n : Nat) : Walk :=
      { pos := .inline 2, ended := true, cur := some { desc := g.d1, index := j.walk.walked, offset := n },
        walked := j.walk.walked + 1, look := j.walk.look, needed := false }
    -- What taking the block in `slot` by command `com` does.
    let takes (com : Instr) (slot : Slot) : Prop :=
      (c.offset + j.blockSize ≤ c.desc.len →
        ∃ l, exec com s = .next (taken slot j.blockSize (at_ (c.offset + j.blockSize)) l) ∧
          CarriesBlock j slot.data 0 l ∧ PlacesBlock l s.nextAccess addr room j.blockSize) ∧
      (room < j.blockSize →
        ∃ l, CarriesBlock j slot.data 0 l ∧ PlacesBlock l s.nextAccess addr room j.blockSize ∧
          let full := at_ c.desc.len
          -- Where a fault is reported before a descriptor is taken, the cursor has moved if a byte was placed.
          let e' := if room = 0 then e else moved full
          let out : State := { taken slot room full l with table := s.table.set j.tag (some e') }
          let reports (st : Status) : Prop := ∃ t, exec com s = .next t ∧ MoverReports out t j.tag e' st
          (j.walk.ended = true → reports .segmentShort) ∧
          (j.walk.ended = false → j.walk.pos = .inline 1 →
            (g.d1.chain = true ∨ g.d1.len = 0 ∨ 16777216 < g.d1.len → reports .listMalformed) ∧
            (g.d1.chain = false → 1 ≤ g.d1.len → g.d1.len ≤ 16777216 →
              ∃ l', CarriesBlock j slot.data room l' ∧
                PlacesBlock l' (s.nextAccess + l.length) g.d1.addr g.d1.len rest ∧
                (rest ≤ g.d1.len → exec com s = .next (taken slot j.blockSize (second rest) (l ++ l'))) ∧
                (g.d1.len < rest → ∃ t, exec com s = .next t ∧
                  MoverReports (taken slot (room + g.d1.len) (second g.d1.len) (l ++ l')) t j.tag
                    (moved (second g.d1.len)) .segmentShort))) ∧
          (∀ page entry, j.walk.ended = false → j.walk.pos = .page page entry →
            (256 ≤ entry → reports .listMalformed) ∧
            (entry < 256 → j.walk.look = .faulted → reports .hostAccessFault) ∧
            (entry < 256 → j.walk.look = .reading → exec com s = .next (taken slot room { full with needed := true } l)) ∧
            (1 ≤ entry → entry < 256 → j.walk.look = .empty →
              exec com s = .next
                (reads (taken slot room { full with needed := true } l) (page + BitVec.ofNat 64 (16 * entry)))) ∧
            (∀ d, entry < 256 → j.walk.look = .held d →
              (d.Malformed j.walk.walked → reports .listMalformed) ∧
              (d.Leads j.walk.walked →
                exec com s = .next
                  (reads
                    (taken slot room
                      { full with pos := .page d.addr 0, walked := j.walk.walked + 1, look := .empty, needed := true } l)
                    d.addr)) ∧
              (d.Usable j.walk.walked → ∃ t, exec com s = .next t ∧
                EntryTaken (taken slot room full l) t j e (hand room l.length) page entry d))))
    (j.dir = .read → (s.slot i).state = .full → (s.slot i).block = j.nextBlock →
      (s.slot i).data.length = j.blockSize → takes .drainBlockStart { s.slot i with state := .draining }) ∧
    (j.dir = .write → (s.slot i).state = .free →
      takes .loadBlockStart { state := .loading, block := j.nextBlock, data := List.replicate j.blockSize 0#8 })

/-- R103, R106, R107, R108, R110, R111, R112: a descriptor read ahead is held, its fault with it; one that was needed is judged:
a chain entry leads to the page it names, the descriptor before it staying current until the next is taken; a data entry
becomes current with the entry after it read ahead, and what is left of a block in hand is placed from its start, as far as
it reaches; a malformed entry or a faulted read of one brings its status. That the limit of 4096 is judged once an entry is
read (log 13), the cursor of a list of which no descriptor is current yet (log 26), and that a host address past the top of
64 bits wraps (log 36), are the model's readings and choices. -/
def Obligations.DescriptorReadIsJudgedWhenNeeded : Prop :=
  ∀ (s : State) (a : Access) (j : Job) (e : Exchange) (page : BitVec 64) (entry : Nat) (data : BitVec 128),
    s.live = true → s.access a.id = some a → a.purpose = .descriptor j.tag → s.job = some j →
    s.exch j.tag = some e → e.state = .transfer → j.walk.pos = .page page entry →
    let d : Descriptor :=
      { addr := data.extractLsb' 0 64, len := (data.extractLsb' 64 32).toNat, last := data.getLsbD 96,
        chain := data.getLsbD 97 }
    let u := { s with accesses := s.accesses.filter (fun b => b.id != a.id) }
    let walks (w : Walk) (c : Cursor) : State :=
      { u with job := some { j with walk := w }, table := s.table.set j.tag (some { e with cursor := some c }) }
    (j.walk.needed = false → j.walk.look = .reading →
      exec (.descriptorReadComplete a.id data) s = .next (walks { j.walk with look := .held d } j.walk.cursor) ∧
      exec (.descriptorReadFault a.id) s = .next (walks { j.walk with look := .faulted } j.walk.cursor)) ∧
    (j.walk.needed = true →
      (∃ t, exec (.descriptorReadFault a.id) s = .next t ∧ MoverReports u t j.tag e .hostAccessFault) ∧
      (d.Malformed j.walk.walked →
        ∃ t, exec (.descriptorReadComplete a.id data) s = .next t ∧ MoverReports u t j.tag e .listMalformed) ∧
      (d.Leads j.walk.walked →
        let v := walks { j.walk with pos := .page d.addr 0, walked := j.walk.walked + 1, look := .empty } j.walk.cursor
        exec (.descriptorReadComplete a.id data) s = .next
          { v with
            accesses := u.accesses ++
              [{ id := s.nextAccess, purpose := .descriptor j.tag, addr := d.addr, len := 16, data := [] }],
            nextAccess := s.nextAccess + 1 }) ∧
      (d.Usable j.walk.walked →
        let ahead := aheadReads j.tag s.nextAccess page entry d
        let look : LookAhead := if d.last = false ∧ entry + 1 < 256 then .reading else .empty
        let v := walks (j.walk.inEntry page entry d 0 look) { index := j.walk.walked, offset := 0 }
        (j.inHand = none →
          exec (.descriptorReadComplete a.id data) s = .next
            { v with accesses := u.accesses ++ ahead, nextAccess := s.nextAccess + ahead.length }) ∧
        (∀ h, j.inHand = some h → e.seg ≠ none → h.placed < j.blockSize → j.blockSize ≤ 2048 →
          (j.dir = .read → (s.slot h.slot).data.length = j.blockSize) →
          ∃ t, exec (.descriptorReadComplete a.id data) s = .next t ∧ EntryTaken u t j e h page entry d)))

/-- R22, R92, R103, R104, R110, R111, R112, R113, R115, R153, R165, R175: a completed data write adds its bytes to
bytes moved, a completed data read puts its bytes into the slot; the last of a block makes the slot FREE, or READY,
and the payload engine goes on; the last write of a finished read ends it SUCCESS; a faulted one halts the exchange,
or ends a read whose link side has finished. After its payload job has ended bytes moved still rises, read bytes and
descriptors are dropped, no fault is reported, and the exchange joins its waiting list with its last access. In
STOPPED a report of any host access is without effect. That a payload whose REPEAT is due is in GRANT_PENDING once its
slot is drained, before the REPEAT, is the model's choice (log 35). -/
def Obligations.DataAccessesFillAndDrainSlots : Prop :=
  (∀ (s : State) (a : Access) (j : Job) (h : InHand) (e : Exchange) (p : Payload),
    s.live = true → s.access a.id = some a → s.job = some j → j.inHand = some h → s.exch j.tag = some e →
    e.state = .transfer → s.payload = some p →
    let u := { s with accesses := s.accesses.filter (fun b => b.id != a.id) }
    let counted := { j with inHand := some { h with ended := h.ended + 1 } }
    let ended := { j with nextBlock := j.nextBlock + 1, inHand := none }
    let last := j.blockSize ≤ h.placed ∧ h.ended + 1 = h.issued
    (a.purpose = .dataWrite j.tag → j.dir = .read →
      let e' := { e with bytesMoved := some (e.bytesMoved.getD 0 + a.len) }
      let v := { u with table := s.table.set j.tag (some e') }
      let w := { v with job := some ended, staging := s.staging.set h.slot { state := .free, block := 0, data := [] } }
      (¬ last → exec (.dataWriteComplete a.id) s = .next { v with job := some counted }) ∧
      (last → j.nextBlock + 1 < j.count →
        (p.phase = .grantPending ∨ p.phase = .paced →
          exec (.dataWriteComplete a.id) s = .next
            { w with
              payload := some
                { p with phase := if p.repeatDue = true ∨ h.slot = p.pos ∨ (s.slot p.pos).state = .free
                           then .grantPending else .paced } }) ∧
        (p.phase = .awaitingBlock ∨ p.phase = .receiving ∨ p.phase = .finished →
          exec (.dataWriteComplete a.id) s = .next w)) ∧
      (last → j.nextBlock + 1 = j.count → p.owner = j.tag → p.phase = .finished →
        ∃ t, exec (.dataWriteComplete a.id) s = .next t ∧ Ended w t j.tag e' .success 0)) ∧
    (∀ offset bytes, a.purpose = .dataRead j.tag j.nextBlock offset → j.dir = .write → bytes.length = a.len →
      let i : StageId := ⟨j.nextBlock % 4, Nat.mod_lt _ (by decide)⟩
      h.slot = i → (s.slot i).state = .loading → (s.slot i).block = j.nextBlock →
      let data := (s.slot i).data.take offset ++ bytes ++ (s.slot i).data.drop (offset + bytes.length)
      (¬ last → exec (.dataReadComplete a.id bytes) s = .next
        { u with staging := s.staging.set i { s.slot i with data := data }, job := some counted }) ∧
      (last →
        let w := { u with staging := s.staging.set i { s.slot i with data := data, state := .ready }, job := some ended }
        (p.phase = .loadWait ∨ p.phase = .sendPending →
          exec (.dataReadComplete a.id bytes) s = .next
            { w with
              payload := some
                { p with phase := if i = p.pos ∨ (s.slot p.pos).state = .ready ∨ p.resendDue = true
                           then .sendPending else .loadWait } }) ∧
        (p.phase = .sending ∨ p.phase = .tokenWait ∨ p.phase = .hold →
          exec (.dataReadComplete a.id bytes) s = .next w))) ∧
    (a.purpose = .dataWrite j.tag →
      (e.readFinished = false →
        ∃ t, exec (.dataWriteFault a.id) s = .next t ∧ Halted { u with job := none } t j.tag e .hostAccessFault) ∧
      (e.readFinished = true →
        ∃ t, exec (.dataWriteFault a.id) s = .next t ∧ Ended { u with job := none } t j.tag e .hostAccessFault 0)) ∧
    (∀ block offset, a.purpose = .dataRead j.tag block offset → e.readFinished = false →
      ∃ t, exec (.dataReadFault a.id) s = .next t ∧ Halted { u with job := none } t j.tag e .hostAccessFault)) ∧
  (∀ (s : State) (a : Access) (x : Tag) (e : Exchange),
    s.live = true → s.access a.id = some a → s.exch x = some e → (∀ j, s.job = some j → j.tag ≠ x) →
    let u := { s with accesses := s.accesses.filter (fun b => b.id != a.id) }
    let left (d : Exchange) : State :=
      { u with
        table := s.table.set x (some d),
        waiting := if e.state = .completing ∧ e.final.isSome = true then u.joinSource s.waiting (.exchange x)
          else s.waiting }
    (a.purpose = .dataWrite x →
      exec (.dataWriteComplete a.id) s = .next (left { e with bytesMoved := some (e.bytesMoved.getD 0 + a.len) }) ∧
      exec (.dataWriteFault a.id) s = .next (left e)) ∧
    (∀ block offset, a.purpose = .dataRead x block offset →
      (∀ bytes : List Byte, bytes.length = a.len → exec (.dataReadComplete a.id bytes) s = .next (left e)) ∧
      exec (.dataReadFault a.id) s = .next (left e)) ∧
    (a.purpose = .descriptor x →
      (∀ data, exec (.descriptorReadComplete a.id data) s = .next (left e)) ∧
      exec (.descriptorReadFault a.id) s = .next (left e))) ∧
  (∀ (s : State) (c : Instr) (id : Nat), s.device.state = .stopped →
    (∃ w, c = .fetchComplete id w) ∨ c = .fetchFault id ∨ (∃ d, c = .descriptorReadComplete id d)
      ∨ c = .descriptorReadFault id ∨ c = .dataWriteComplete id ∨ c = .dataWriteFault id
      ∨ (∃ bytes, c = .dataReadComplete id bytes) ∨ c = .dataReadFault id ∨ c = .profileWriteComplete id
      ∨ c = .profileWriteFault id ∨ c = .recordWriteComplete id ∨ c = .recordWriteFault id
      ∨ (∃ d, c = .configReadComplete id d) ∨ c = .configReadFault id →
    exec c s = .next s)

/-- R12, R22, R103 to R108, R114: the head of the profile queue places its 16 bytes, in profile order, into host
writes to the exchange's segments, across as many descriptors as they need, reading each only when it is needed under
LIST. When they are written the exchange's status is SUCCESS with 16 bytes moved; a faulted access, the end of the
list or a malformed descriptor ends it with its status, and no bytes moved; it joins its waiting list once no host
access of it is outstanding. A report of an access of a job that has ended changes nothing else. That a host address
past the top of 64 bits wraps (log 36), that the limit of 4096 is judged once an entry is read (log 13), and the
cursor of a list of which no descriptor is current yet (log 26), are the model's. -/
def Obligations.ProfileIsWrittenToItsSegments : Prop :=
  (∀ (s : State) (j : ProfileJob) (rest : List ProfileJob) (e : Exchange) (c : RingId),
    s.live = true → s.profiles = j :: rest → s.exch j.tag = some e → e.state = .completing → e.final = none →
    s.cringOf e.ring = some c →
    let moved (w : Walk) : Exchange := { e with cursor := some w.cursor }
    let good (d : Descriptor) : Prop := d.chain = false ∧ 1 ≤ d.len ∧ d.len ≤ 16777216
    -- From `u`, job `j` has reached walk `w`, and reads the entry at `addr`.
    let reads (u : State) (w : Walk) (addr : BitVec 64) : State :=
      let v := u.profilePlaced j e w 0 []
      { v with
        accesses := v.accesses ++
          [{ id := v.nextAccess, purpose := .profileDescriptor j.tag, addr := addr, len := 16, data := [] }],
        nextAccess := v.nextAccess + 1 }
    (∀ g, e.seg = some g → j.started = false → j.walk = Walk.start g → j.placed = 0 → j.issued = 0 →
      let w0 (n : Nat) : Walk :=
        { pos := .inline 1, ended := g.d0.last, cur := some { desc := g.d0, index := 0, offset := n }, walked := 1,
          look := .empty, needed := false }
      let w1 (n : Nat) : Walk :=
        { pos := .inline 2, ended := true, cur := some { desc := g.d1, index := 1, offset := n }, walked := 2,
          look := .empty, needed := false }
      (g.list = false → ¬ good g.d0 → exec .profileJobStart s = .next (s.profileEnded j.tag e c .listMalformed)) ∧
      (g.list = false → good g.d0 →
        ∃ l, PlacesBlock l s.nextAccess g.d0.addr g.d0.len 16 ∧ CarriesProfile j 0 l ∧
          let v := s.profilePlaced j e (w0 (min g.d0.len 16)) (min g.d0.len 16) l
          (16 ≤ g.d0.len → exec .profileJobStart s = .next v) ∧
          (g.d0.len < 16 → g.d0.last = true →
            exec .profileJobStart s = .next (v.profileEnded j.tag (moved (w0 g.d0.len)) c .segmentShort)) ∧
          (g.d0.len < 16 → g.d0.last = false → ¬ good g.d1 →
            exec .profileJobStart s = .next (v.profileEnded j.tag (moved (w0 g.d0.len)) c .listMalformed)) ∧
          (g.d0.len < 16 → g.d0.last = false → good g.d1 →
            let n := min g.d1.len (16 - g.d0.len)
            ∃ l', PlacesBlock l' (s.nextAccess + l.length) g.d1.addr g.d1.len (16 - g.d0.len) ∧
              CarriesProfile j g.d0.len l' ∧
              let v' := s.profilePlaced j e (w1 n) (g.d0.len + n) (l ++ l')
              (16 ≤ g.d0.len + g.d1.len → exec .profileJobStart s = .next v') ∧
              (g.d0.len + g.d1.len < 16 →
                exec .profileJobStart s = .next (v'.profileEnded j.tag (moved (w1 n)) c .segmentShort)))) ∧
      (g.list = true → g.d0.addr.toNat % 16 = 0 →
        exec .profileJobStart s = .next
          (reads s { pos := .page g.d0.addr 0, ended := false, cur := none, walked := 0, look := .empty, needed := true }
            g.d0.addr)) ∧
      (g.list = true → g.d0.addr.toNat % 16 ≠ 0 →
        exec .profileJobStart s = .next (s.profileEnded j.tag e c .listMalformed))) ∧
    (∀ a, s.access a.id = some a → j.started = true →
      let u := { s with accesses := s.accesses.filter (fun b => b.id != a.id) }
      (a.purpose = .profileWrite j.tag → j.placed < 16 ∨ j.ended + 1 ≠ j.issued →
        exec (.profileWriteComplete a.id) s = .next
          { u with profiles := { j with ended := j.ended + 1 } :: rest,
                   table := s.table.set j.tag (some (moved j.walk)) }) ∧
      (a.purpose = .profileWrite j.tag → 16 ≤ j.placed → j.ended + 1 = j.issued →
        exec (.profileWriteComplete a.id) s = .next
          (u.profileEnded j.tag { e with bytesMoved := some 16 } c .success)) ∧
      (a.purpose = .profileWrite j.tag →
        exec (.profileWriteFault a.id) s = .next (u.profileEnded j.tag e c .hostAccessFault)) ∧
      (a.purpose = .profileDescriptor j.tag →
        exec (.descriptorReadFault a.id) s = .next (u.profileEnded j.tag e c .hostAccessFault)) ∧
      (∀ page entry data, a.purpose = .profileDescriptor j.tag → j.walk.needed = true →
        j.walk.pos = .page page entry → e.seg ≠ none → j.placed < 16 →
        let d : Descriptor :=
          { addr := data.extractLsb' 0 64, len := (data.extractLsb' 64 32).toNat, last := data.getLsbD 96,
            chain := data.getLsbD 97 }
        (d.Malformed j.walk.walked →
          exec (.descriptorReadComplete a.id data) s = .next (u.profileEnded j.tag e c .listMalformed)) ∧
        (d.Leads j.walk.walked →
          exec (.descriptorReadComplete a.id data) s = .next
            (reads u { j.walk with pos := .page d.addr 0, walked := j.walk.walked + 1, look := .empty } d.addr)) ∧
        (d.Usable j.walk.walked →
          let left := 16 - j.placed
          let n := min d.len left
          let w := j.walk.inEntry page entry d n .empty
          ∃ l, PlacesBlock l s.nextAccess d.addr d.len left ∧ CarriesProfile j j.placed l ∧
            let v := u.profilePlaced j e w n l
            (left ≤ d.len → exec (.descriptorReadComplete a.id data) s = .next v) ∧
            (d.len < left → d.last = true →
              exec (.descriptorReadComplete a.id data) s = .next (v.profileEnded j.tag (moved w) c .segmentShort)) ∧
            (d.len < left → d.last = false → 256 ≤ entry + 1 →
              exec (.descriptorReadComplete a.id data) s = .next (v.profileEnded j.tag (moved w) c .listMalformed)) ∧
            (d.len < left → d.last = false → entry + 1 < 256 →
              exec (.descriptorReadComplete a.id data) s = .next
                { u.profilePlaced j e { w with needed := true } n l with
                  accesses := v.accesses ++
                    [{ id := v.nextAccess, purpose := .profileDescriptor j.tag,
                       addr := page + BitVec.ofNat 64 (16 * (entry + 1)), len := 16, data := [] }],
                  nextAccess := v.nextAccess + 1 }))))) ∧
  (∀ (s : State) (a : Access) (x : Tag) (e : Exchange),
    s.live = true → s.access a.id = some a → s.exch x = some e → (∀ j, s.profiles.head? = some j → j.tag ≠ x) →
    let u := { s with accesses := s.accesses.filter (fun b => b.id != a.id) }
    let left : State :=
      { u with
        waiting := if e.state = .completing ∧ e.final.isSome = true then u.joinSource s.waiting (.exchange x)
          else s.waiting }
    (a.purpose = .profileWrite x →
      exec (.profileWriteComplete a.id) s = .next left ∧ exec (.profileWriteFault a.id) s = .next left) ∧
    (a.purpose = .profileDescriptor x →
      (∀ data, exec (.descriptorReadComplete a.id data) s = .next left) ∧
      exec (.descriptorReadFault a.id) s = .next left))

/-! ## The completion poster (chapter 10) -/

/-- R162, R163: while the event queue and the fetch reservation leave room, the first full latch in the order link-reset
latch, ring fault latches, presence latches empties into the tail of the event queue, whose first record is a source of
the event ring. -/
def Obligations.LatchedEventEntersTheQueue : Prop :=
  ∀ s : State, s.live = true →
    let moved (t : State) (ev : Event) : Prop :=
      exec .latchToQueue s = .next t ∧ t.eventQueue = s.eventQueue ++ [ev] ∧
      t.waiting = if s.eventQueue = [] then (match s.eventRing with
        | some c => joinedAt s c .event
        | none => s.waiting) else s.waiting
    (8 ≤ s.eventQueue.length + s.reservation.toNat → exec .latchToQueue s = .next s) ∧
    (s.eventQueue.length + s.reservation.toNat < 8 →
      (∀ cause, s.linkLatch = some cause →
        ∃ t, moved t (.linkReset cause) ∧
          t = { s with linkLatch := none, eventQueue := t.eventQueue, waiting := t.waiting }) ∧
      (∀ (r : RingId) cause, s.linkLatch = none → s.ringLatch[r] = some cause →
        (∀ q : RingId, q < r → s.ringLatch[q] = none) →
        ∃ t, moved t (.ringFault r cause) ∧
          t = { s with ringLatch := s.ringLatch.set r none, eventQueue := t.eventQueue, waiting := t.waiting }) ∧
      (∀ (st : StationId) ev, s.linkLatch = none → (∀ q : RingId, s.ringLatch[q] = none) →
        (s.station st).latch = some ev → (∀ q, q < st → (s.station q).latch = none) →
        ∃ t, moved t (match ev with
            | .ready v => .stationReady st v
            | .faulted cause => .stationFaulted st cause
            | .left => .stationLeft st) ∧
          t = { s with stations := s.stations.set st { s.station st with latch := none },
                       eventQueue := t.eventQueue, waiting := t.waiting }))

/-- R23, R146, R150, R157, R158, R159, R161, R163, R164, R175, R178, R180: a record is written for the head of a
ring's waiting list while the ring has room, 16 bytes at the tail entry, with the fields of its exchange, of its
immediate completion, or of its event, the status and event kinds by their codes; once written, tail, phase and
unreleased count go on, its source is freed and the vector is sent at the threshold; a faulted record write stops the
device. That a delay timer keeps the value it had reached in STOPPED (log 37) and that the tail entry's address wraps
past the top of 64 bits (log 36) are the model's choices, and that the faulted access leaves the list of accesses (log
27) is its reading. -/
def Obligations.RecordIsWrittenAndItsSourceFreed : Prop :=
  ∀ (s : State) (r : RingId) (c : CRing), s.live = true → s.cring r = some c →
    (∀ src rest f, c.writing = none → c.unreleased < c.size → s.waiting[r] = src :: rest →
      s.sourceFields src = some f →
      exec (.recordWriteBegin r) s = .next
        { s with
          crings := s.crings.set r (some { c with writing := some src }),
          accesses := s.accesses ++
            [{ id := s.nextAccess, purpose := .record r, addr := c.base + BitVec.ofNat 64 (16 * c.tail), len := 16,
               data := [f.requestId.extractLsb' 0 8, f.requestId.extractLsb' 8 8, f.ring, f.status,
                 f.wrIndex.extractLsb' 0 8, f.wrIndex.extractLsb' 8 8, f.station,
                 BitVec.ofNat 8 (c.phase.toNat + 2 * f.event.toNat),
                 f.bytesMoved.extractLsb' 0 8, f.bytesMoved.extractLsb' 8 8, f.bytesMoved.extractLsb' 16 8,
                 f.bytesMoved.extractLsb' 24 8, f.value.extractLsb' 0 8, f.value.extractLsb' 8 8,
                 f.value.extractLsb' 16 8, f.value.extractLsb' 24 8] }],
          nextAccess := s.nextAccess + 1 }) ∧
    (∀ x e st v, s.exch x = some e → e.final = some (st, v) →
      s.sourceFields (.exchange x) = some
        { requestId := e.requestId, ring := BitVec.ofNat 8 e.ring.val, status := statusCode st, wrIndex := e.wrIndex,
          station := BitVec.ofNat 8 (e.station.val + 1), event := false,
          bytesMoved := BitVec.ofNat 32 (e.bytesMoved.getD 0), value := v }) ∧
    (∀ q w index st v, (s.subRing q).holding = .completing w index st v →
      s.sourceFields (.holding q) = some
        { requestId := w.extractLsb' 16 16, ring := BitVec.ofNat 8 q.val, status := statusCode st,
          wrIndex := BitVec.ofNat 16 index,
          station := if (1 ≤ Wr.kindByte w ∧ Wr.kindByte w ≤ 7) ∧ 1 ≤ Wr.stationByte w ∧ Wr.stationByte w ≤ 8
            then w.extractLsb' 32 8 else 0,
          event := false, bytesMoved := 0, value := v }) ∧
    (∀ ev l, s.eventQueue = ev :: l → ev ≠ .linkReset .startUp →
      s.sourceFields .event = some
        { requestId := 0, ring := 0xFF, wrIndex := 0, event := true, bytesMoved := 0,
          status := (match ev with
            | .stationReady _ _ => 1 | .stationFaulted _ _ => 2 | .stationLeft _ => 3 | .stationAlert _ _ => 4
            | .ringFault _ _ => 5 | .linkReset _ => 6),
          station := (match ev with
            | .stationReady st _ | .stationFaulted st _ | .stationLeft st | .stationAlert st _ =>
              BitVec.ofNat 8 (st.val + 1)
            | .ringFault _ _ | .linkReset _ => 0),
          value := (match ev with
            | .stationReady _ v => v
            | .stationFaulted _ .identifyFailed => 1 | .stationFaulted _ .noticeFailed => 2
            | .stationFaulted _ .profileInvalid => 3
            | .stationLeft _ => 0
            | .stationAlert _ code => code.setWidth 32
            | .ringFault q .badPost => BitVec.ofNat 32 (256 * q.val + 1)
            | .ringFault q .fetchFault => BitVec.ofNat 32 (256 * q.val + 2)
            | .linkReset .startUp => 0 | .linkReset .hostCommand => 1 | .linkReset .haltFailed => 2
            | .linkReset .withdrawFailed => 3 | .linkReset .laneStuck => 4) }) ∧
    ([Status.success, .cancelled, .malformed, .stationAbsent, .stationGone, .stationReset, .linkReset, .rejected,
        .replyTimeout, .replyCheck, .protocol, .payloadCheck, .dataTimeout, .holdTimeout, .writeFault, .deferralTimeout,
        .hostAccessFault, .segmentShort, .listMalformed, .notFound, .tooLate].map statusCode
      = (List.range 21).map (BitVec.ofNat 8)) ∧
    (∀ a src, s.access a.id = some a → a.purpose = .record r → c.writing = some src →
      let announce := c.threshold ≤ c.modCount + 1 ∨ c.delay = 0
      let u :=
        { s with
          accesses := s.accesses.filter (fun b => b.id != a.id),
          waiting := s.waiting.set r (s.waiting[r].filter (· != src)),
          crings := s.crings.set r (some
            { c with
              tail := (c.tail + 1) % c.size, phase := if c.tail + 1 = c.size then !c.phase else c.phase,
              unreleased := c.unreleased + 1, writing := none,
              modCount := if announce then 0 else c.modCount + 1,
              delayTimer := if announce then none else if c.modCount = 0 then some 0 else c.delayTimer }),
          vectors := s.vectors ++ if announce then [(⟨r.val, by omega⟩ : VectorId)] else [] }
      (∀ x e, src = .exchange x → s.exch x = some e →
        exec (.recordWriteComplete a.id) s = .next
          { u with
            table := s.table.set x none,
            subRings := s.subRings.set e.ring
              { s.subRing e.ring with outstanding := (s.subRing e.ring).outstanding - 1 } }) ∧
      (∀ q w i st v, src = .holding q → (s.subRing q).holding = .completing w i st v →
        exec (.recordWriteComplete a.id) s = .next
          { u with
            subRings := s.subRings.set q
              { s.subRing q with holding := .empty, outstanding := (s.subRing q).outstanding - 1 } }) ∧
      (∀ ev, src = .event → s.eventQueue = [ev] →
        exec (.recordWriteComplete a.id) s = .next { u with eventQueue := [] }) ∧
      (∀ ev ev' l q, src = .event → s.eventQueue = ev :: ev' :: l → s.eventRing = some q →
        exec (.recordWriteComplete a.id) s = .next
          { u with eventQueue := ev' :: l, waiting := joinedAt u q .event }) ∧
      exec (.recordWriteFault a.id) s = .next
        { s with
          accesses := s.accesses.filter (fun b => b.id != a.id),
          device := { s.device with state := .stopped, cause := .completionWriteFault, lck := none },
          cl := .stopped, vectors := s.vectors ++ [4] })
end

