-- ==== Sys2Proof/Laws/State.lean ====
section
/-! SUPPORT. What each update of the state leaves unchanged, and what it writes: one conjunct per field. -/

namespace Sys2Proof.Machine

@[simp] theorem State.setExch_fields (s : State) (t : Tag) (e : Option Exchange) :
    (s.setExch t e).device = s.device ∧ (s.setExch t e).pendingQ = s.pendingQ ∧
    (s.setExch t e).stations = s.stations ∧ (s.setExch t e).current = s.current ∧
    (s.setExch t e).setAside = s.setAside ∧ (s.setExch t e).attention = s.attention ∧
    (s.setExch t e).pollDue = s.pollDue ∧ (s.setExch t e).pollTimer = s.pollTimer ∧
    (s.setExch t e).issuePtr = s.issuePtr ∧ (s.setExch t e).fetchPtr = s.fetchPtr ∧
    (s.setExch t e).laneLow = s.laneLow ∧ (s.setExch t e).linkReset = s.linkReset ∧ (s.setExch t e).cl = s.cl ∧
    (s.setExch t e).clFrame = s.clFrame ∧ (s.setExch t e).payload = s.payload ∧ (s.setExch t e).quiet = s.quiet ∧
    (s.setExch t e).staging = s.staging ∧ (s.setExch t e).job = s.job ∧ (s.setExch t e).profiles = s.profiles ∧
    (s.setExch t e).accesses = s.accesses ∧ (s.setExch t e).reconnect = s.reconnect ∧
    (s.setExch t e).stray = s.stray ∧ (s.setExch t e).reservation = s.reservation ∧
    (s.setExch t e).subRings = s.subRings ∧ (s.setExch t e).arbPtr = s.arbPtr ∧
    (s.setExch t e).arbCredit = s.arbCredit ∧ (s.setExch t e).crings = s.crings ∧
    (s.setExch t e).waiting = s.waiting ∧ (s.setExch t e).eventQueue = s.eventQueue ∧
    (s.setExch t e).ringLatch = s.ringLatch ∧ (s.setExch t e).linkLatch = s.linkLatch ∧
    (s.setExch t e).vectors = s.vectors ∧ (s.setExch t e).nextAccess = s.nextAccess ∧
    (s.setExch t e).freeDraws = s.freeDraws ∧ (s.setExch t e).pending = s.pending := by
  and_intros <;> rfl

@[simp] theorem State.modStation_fields (s : State) (st : StationId) (f : Station → Station) :
    (s.modStation st f).device = s.device ∧ (s.modStation st f).table = s.table ∧
    (s.modStation st f).pendingQ = s.pendingQ ∧ (s.modStation st f).current = s.current ∧
    (s.modStation st f).setAside = s.setAside ∧ (s.modStation st f).attention = s.attention ∧
    (s.modStation st f).pollDue = s.pollDue ∧ (s.modStation st f).pollTimer = s.pollTimer ∧
    (s.modStation st f).issuePtr = s.issuePtr ∧ (s.modStation st f).fetchPtr = s.fetchPtr ∧
    (s.modStation st f).laneLow = s.laneLow ∧ (s.modStation st f).linkReset = s.linkReset ∧
    (s.modStation st f).cl = s.cl ∧ (s.modStation st f).clFrame = s.clFrame ∧
    (s.modStation st f).payload = s.payload ∧ (s.modStation st f).quiet = s.quiet ∧
    (s.modStation st f).staging = s.staging ∧ (s.modStation st f).job = s.job ∧
    (s.modStation st f).profiles = s.profiles ∧ (s.modStation st f).accesses = s.accesses ∧
    (s.modStation st f).reconnect = s.reconnect ∧ (s.modStation st f).stray = s.stray ∧
    (s.modStation st f).reservation = s.reservation ∧ (s.modStation st f).subRings = s.subRings ∧
    (s.modStation st f).arbPtr = s.arbPtr ∧ (s.modStation st f).arbCredit = s.arbCredit ∧
    (s.modStation st f).crings = s.crings ∧ (s.modStation st f).waiting = s.waiting ∧
    (s.modStation st f).eventQueue = s.eventQueue ∧ (s.modStation st f).ringLatch = s.ringLatch ∧
    (s.modStation st f).linkLatch = s.linkLatch ∧ (s.modStation st f).vectors = s.vectors ∧
    (s.modStation st f).nextAccess = s.nextAccess ∧ (s.modStation st f).freeDraws = s.freeDraws ∧
    (s.modStation st f).pending = s.pending := by
  and_intros <;> rfl

@[simp] theorem State.modSubRing_fields (s : State) (r : RingId) (f : SubRing → SubRing) :
    (s.modSubRing r f).device = s.device ∧ (s.modSubRing r f).table = s.table ∧
    (s.modSubRing r f).pendingQ = s.pendingQ ∧ (s.modSubRing r f).stations = s.stations ∧
    (s.modSubRing r f).current = s.current ∧ (s.modSubRing r f).setAside = s.setAside ∧
    (s.modSubRing r f).attention = s.attention ∧ (s.modSubRing r f).pollDue = s.pollDue ∧
    (s.modSubRing r f).pollTimer = s.pollTimer ∧ (s.modSubRing r f).issuePtr = s.issuePtr ∧
    (s.modSubRing r f).fetchPtr = s.fetchPtr ∧ (s.modSubRing r f).laneLow = s.laneLow ∧
    (s.modSubRing r f).linkReset = s.linkReset ∧ (s.modSubRing r f).cl = s.cl ∧
    (s.modSubRing r f).clFrame = s.clFrame ∧ (s.modSubRing r f).payload = s.payload ∧
    (s.modSubRing r f).quiet = s.quiet ∧ (s.modSubRing r f).staging = s.staging ∧ (s.modSubRing r f).job = s.job ∧
    (s.modSubRing r f).profiles = s.profiles ∧ (s.modSubRing r f).accesses = s.accesses ∧
    (s.modSubRing r f).reconnect = s.reconnect ∧ (s.modSubRing r f).stray = s.stray ∧
    (s.modSubRing r f).reservation = s.reservation ∧ (s.modSubRing r f).arbPtr = s.arbPtr ∧
    (s.modSubRing r f).arbCredit = s.arbCredit ∧ (s.modSubRing r f).crings = s.crings ∧
    (s.modSubRing r f).waiting = s.waiting ∧ (s.modSubRing r f).eventQueue = s.eventQueue ∧
    (s.modSubRing r f).ringLatch = s.ringLatch ∧ (s.modSubRing r f).linkLatch = s.linkLatch ∧
    (s.modSubRing r f).vectors = s.vectors ∧ (s.modSubRing r f).nextAccess = s.nextAccess ∧
    (s.modSubRing r f).freeDraws = s.freeDraws ∧ (s.modSubRing r f).pending = s.pending := by
  and_intros <;> rfl

@[simp] theorem State.setCring_fields (s : State) (r : RingId) (c : CRing) :
    (s.setCring r c).device = s.device ∧ (s.setCring r c).table = s.table ∧
    (s.setCring r c).pendingQ = s.pendingQ ∧ (s.setCring r c).stations = s.stations ∧
    (s.setCring r c).current = s.current ∧ (s.setCring r c).setAside = s.setAside ∧
    (s.setCring r c).attention = s.attention ∧ (s.setCring r c).pollDue = s.pollDue ∧
    (s.setCring r c).pollTimer = s.pollTimer ∧ (s.setCring r c).issuePtr = s.issuePtr ∧
    (s.setCring r c).fetchPtr = s.fetchPtr ∧ (s.setCring r c).laneLow = s.laneLow ∧
    (s.setCring r c).linkReset = s.linkReset ∧ (s.setCring r c).cl = s.cl ∧ (s.setCring r c).clFrame = s.clFrame ∧
    (s.setCring r c).payload = s.payload ∧ (s.setCring r c).quiet = s.quiet ∧
    (s.setCring r c).staging = s.staging ∧ (s.setCring r c).job = s.job ∧ (s.setCring r c).profiles = s.profiles ∧
    (s.setCring r c).accesses = s.accesses ∧ (s.setCring r c).reconnect = s.reconnect ∧
    (s.setCring r c).stray = s.stray ∧ (s.setCring r c).reservation = s.reservation ∧
    (s.setCring r c).subRings = s.subRings ∧ (s.setCring r c).arbPtr = s.arbPtr ∧
    (s.setCring r c).arbCredit = s.arbCredit ∧ (s.setCring r c).waiting = s.waiting ∧
    (s.setCring r c).eventQueue = s.eventQueue ∧ (s.setCring r c).ringLatch = s.ringLatch ∧
    (s.setCring r c).linkLatch = s.linkLatch ∧ (s.setCring r c).vectors = s.vectors ∧
    (s.setCring r c).nextAccess = s.nextAccess ∧ (s.setCring r c).freeDraws = s.freeDraws ∧
    (s.setCring r c).pending = s.pending := by
  and_intros <;> rfl

@[simp] theorem State.setSlot_fields (s : State) (i : StageId) (x : Slot) :
    (s.setSlot i x).device = s.device ∧ (s.setSlot i x).table = s.table ∧ (s.setSlot i x).pendingQ = s.pendingQ ∧
    (s.setSlot i x).stations = s.stations ∧ (s.setSlot i x).current = s.current ∧
    (s.setSlot i x).setAside = s.setAside ∧ (s.setSlot i x).attention = s.attention ∧
    (s.setSlot i x).pollDue = s.pollDue ∧ (s.setSlot i x).pollTimer = s.pollTimer ∧
    (s.setSlot i x).issuePtr = s.issuePtr ∧ (s.setSlot i x).fetchPtr = s.fetchPtr ∧
    (s.setSlot i x).laneLow = s.laneLow ∧ (s.setSlot i x).linkReset = s.linkReset ∧ (s.setSlot i x).cl = s.cl ∧
    (s.setSlot i x).clFrame = s.clFrame ∧ (s.setSlot i x).payload = s.payload ∧ (s.setSlot i x).quiet = s.quiet ∧
    (s.setSlot i x).job = s.job ∧ (s.setSlot i x).profiles = s.profiles ∧ (s.setSlot i x).accesses = s.accesses ∧
    (s.setSlot i x).reconnect = s.reconnect ∧ (s.setSlot i x).stray = s.stray ∧
    (s.setSlot i x).reservation = s.reservation ∧ (s.setSlot i x).subRings = s.subRings ∧
    (s.setSlot i x).arbPtr = s.arbPtr ∧ (s.setSlot i x).arbCredit = s.arbCredit ∧
    (s.setSlot i x).crings = s.crings ∧ (s.setSlot i x).waiting = s.waiting ∧
    (s.setSlot i x).eventQueue = s.eventQueue ∧ (s.setSlot i x).ringLatch = s.ringLatch ∧
    (s.setSlot i x).linkLatch = s.linkLatch ∧ (s.setSlot i x).vectors = s.vectors ∧
    (s.setSlot i x).nextAccess = s.nextAccess ∧ (s.setSlot i x).freeDraws = s.freeDraws ∧
    (s.setSlot i x).pending = s.pending := by
  and_intros <;> rfl

@[simp] theorem State.setQueue_fields (s : State) (st : StationId) (q : List Tag) :
    (s.setQueue st q).device = s.device ∧ (s.setQueue st q).table = s.table ∧
    (s.setQueue st q).stations = s.stations ∧ (s.setQueue st q).current = s.current ∧
    (s.setQueue st q).setAside = s.setAside ∧ (s.setQueue st q).attention = s.attention ∧
    (s.setQueue st q).pollDue = s.pollDue ∧ (s.setQueue st q).pollTimer = s.pollTimer ∧
    (s.setQueue st q).issuePtr = s.issuePtr ∧ (s.setQueue st q).fetchPtr = s.fetchPtr ∧
    (s.setQueue st q).laneLow = s.laneLow ∧ (s.setQueue st q).linkReset = s.linkReset ∧
    (s.setQueue st q).cl = s.cl ∧ (s.setQueue st q).clFrame = s.clFrame ∧ (s.setQueue st q).payload = s.payload ∧
    (s.setQueue st q).quiet = s.quiet ∧ (s.setQueue st q).staging = s.staging ∧ (s.setQueue st q).job = s.job ∧
    (s.setQueue st q).profiles = s.profiles ∧ (s.setQueue st q).accesses = s.accesses ∧
    (s.setQueue st q).reconnect = s.reconnect ∧ (s.setQueue st q).stray = s.stray ∧
    (s.setQueue st q).reservation = s.reservation ∧ (s.setQueue st q).subRings = s.subRings ∧
    (s.setQueue st q).arbPtr = s.arbPtr ∧ (s.setQueue st q).arbCredit = s.arbCredit ∧
    (s.setQueue st q).crings = s.crings ∧ (s.setQueue st q).waiting = s.waiting ∧
    (s.setQueue st q).eventQueue = s.eventQueue ∧ (s.setQueue st q).ringLatch = s.ringLatch ∧
    (s.setQueue st q).linkLatch = s.linkLatch ∧ (s.setQueue st q).vectors = s.vectors ∧
    (s.setQueue st q).nextAccess = s.nextAccess ∧ (s.setQueue st q).freeDraws = s.freeDraws ∧
    (s.setQueue st q).pending = s.pending := by
  and_intros <;> rfl

@[simp] theorem State.issue_fields (s : State) (p : Purpose) (addr : BitVec 64) (len : Nat) (data : List Byte) :
    (s.issue p addr len data).device = s.device ∧ (s.issue p addr len data).table = s.table ∧
    (s.issue p addr len data).pendingQ = s.pendingQ ∧ (s.issue p addr len data).stations = s.stations ∧
    (s.issue p addr len data).current = s.current ∧ (s.issue p addr len data).setAside = s.setAside ∧
    (s.issue p addr len data).attention = s.attention ∧ (s.issue p addr len data).pollDue = s.pollDue ∧
    (s.issue p addr len data).pollTimer = s.pollTimer ∧ (s.issue p addr len data).issuePtr = s.issuePtr ∧
    (s.issue p addr len data).fetchPtr = s.fetchPtr ∧ (s.issue p addr len data).laneLow = s.laneLow ∧
    (s.issue p addr len data).linkReset = s.linkReset ∧ (s.issue p addr len data).cl = s.cl ∧
    (s.issue p addr len data).clFrame = s.clFrame ∧ (s.issue p addr len data).payload = s.payload ∧
    (s.issue p addr len data).quiet = s.quiet ∧ (s.issue p addr len data).staging = s.staging ∧
    (s.issue p addr len data).job = s.job ∧ (s.issue p addr len data).profiles = s.profiles ∧
    (s.issue p addr len data).reconnect = s.reconnect ∧ (s.issue p addr len data).stray = s.stray ∧
    (s.issue p addr len data).reservation = s.reservation ∧ (s.issue p addr len data).subRings = s.subRings ∧
    (s.issue p addr len data).arbPtr = s.arbPtr ∧ (s.issue p addr len data).arbCredit = s.arbCredit ∧
    (s.issue p addr len data).crings = s.crings ∧ (s.issue p addr len data).waiting = s.waiting ∧
    (s.issue p addr len data).eventQueue = s.eventQueue ∧ (s.issue p addr len data).ringLatch = s.ringLatch ∧
    (s.issue p addr len data).linkLatch = s.linkLatch ∧ (s.issue p addr len data).vectors = s.vectors ∧
    (s.issue p addr len data).freeDraws = s.freeDraws ∧ (s.issue p addr len data).pending = s.pending := by
  and_intros <;> rfl

@[simp] theorem State.endAccess_fields (s : State) (id : Nat) :
    (s.endAccess id).device = s.device ∧ (s.endAccess id).table = s.table ∧
    (s.endAccess id).pendingQ = s.pendingQ ∧ (s.endAccess id).stations = s.stations ∧
    (s.endAccess id).current = s.current ∧ (s.endAccess id).setAside = s.setAside ∧
    (s.endAccess id).attention = s.attention ∧ (s.endAccess id).pollDue = s.pollDue ∧
    (s.endAccess id).pollTimer = s.pollTimer ∧ (s.endAccess id).issuePtr = s.issuePtr ∧
    (s.endAccess id).fetchPtr = s.fetchPtr ∧ (s.endAccess id).laneLow = s.laneLow ∧
    (s.endAccess id).linkReset = s.linkReset ∧ (s.endAccess id).cl = s.cl ∧ (s.endAccess id).clFrame = s.clFrame ∧
    (s.endAccess id).payload = s.payload ∧ (s.endAccess id).quiet = s.quiet ∧
    (s.endAccess id).staging = s.staging ∧ (s.endAccess id).job = s.job ∧ (s.endAccess id).profiles = s.profiles ∧
    (s.endAccess id).reconnect = s.reconnect ∧ (s.endAccess id).stray = s.stray ∧
    (s.endAccess id).reservation = s.reservation ∧ (s.endAccess id).subRings = s.subRings ∧
    (s.endAccess id).arbPtr = s.arbPtr ∧ (s.endAccess id).arbCredit = s.arbCredit ∧
    (s.endAccess id).crings = s.crings ∧ (s.endAccess id).waiting = s.waiting ∧
    (s.endAccess id).eventQueue = s.eventQueue ∧ (s.endAccess id).ringLatch = s.ringLatch ∧
    (s.endAccess id).linkLatch = s.linkLatch ∧ (s.endAccess id).vectors = s.vectors ∧
    (s.endAccess id).nextAccess = s.nextAccess ∧ (s.endAccess id).freeDraws = s.freeDraws ∧
    (s.endAccess id).pending = s.pending := by
  and_intros <;> rfl

@[simp] theorem State.sendVector_fields (s : State) (v : VectorId) :
    (s.sendVector v).device = s.device ∧ (s.sendVector v).table = s.table ∧
    (s.sendVector v).pendingQ = s.pendingQ ∧ (s.sendVector v).stations = s.stations ∧
    (s.sendVector v).current = s.current ∧ (s.sendVector v).setAside = s.setAside ∧
    (s.sendVector v).attention = s.attention ∧ (s.sendVector v).pollDue = s.pollDue ∧
    (s.sendVector v).pollTimer = s.pollTimer ∧ (s.sendVector v).issuePtr = s.issuePtr ∧
    (s.sendVector v).fetchPtr = s.fetchPtr ∧ (s.sendVector v).laneLow = s.laneLow ∧
    (s.sendVector v).linkReset = s.linkReset ∧ (s.sendVector v).cl = s.cl ∧ (s.sendVector v).clFrame = s.clFrame ∧
    (s.sendVector v).payload = s.payload ∧ (s.sendVector v).quiet = s.quiet ∧
    (s.sendVector v).staging = s.staging ∧ (s.sendVector v).job = s.job ∧ (s.sendVector v).profiles = s.profiles ∧
    (s.sendVector v).accesses = s.accesses ∧ (s.sendVector v).reconnect = s.reconnect ∧
    (s.sendVector v).stray = s.stray ∧ (s.sendVector v).reservation = s.reservation ∧
    (s.sendVector v).subRings = s.subRings ∧ (s.sendVector v).arbPtr = s.arbPtr ∧
    (s.sendVector v).arbCredit = s.arbCredit ∧ (s.sendVector v).crings = s.crings ∧
    (s.sendVector v).waiting = s.waiting ∧ (s.sendVector v).eventQueue = s.eventQueue ∧
    (s.sendVector v).ringLatch = s.ringLatch ∧ (s.sendVector v).linkLatch = s.linkLatch ∧
    (s.sendVector v).nextAccess = s.nextAccess ∧ (s.sendVector v).freeDraws = s.freeDraws ∧
    (s.sendVector v).pending = s.pending := by
  and_intros <;> rfl

@[simp] theorem State.beginGap_fields (s : State) :
    (s.beginGap).device = s.device ∧ (s.beginGap).table = s.table ∧ (s.beginGap).pendingQ = s.pendingQ ∧
    (s.beginGap).stations = s.stations ∧ (s.beginGap).current = s.current ∧ (s.beginGap).setAside = s.setAside ∧
    (s.beginGap).attention = s.attention ∧ (s.beginGap).pollDue = s.pollDue ∧
    (s.beginGap).pollTimer = s.pollTimer ∧ (s.beginGap).issuePtr = s.issuePtr ∧
    (s.beginGap).fetchPtr = s.fetchPtr ∧ (s.beginGap).laneLow = s.laneLow ∧ (s.beginGap).linkReset = s.linkReset ∧
    (s.beginGap).clFrame = s.clFrame ∧ (s.beginGap).payload = s.payload ∧ (s.beginGap).quiet = s.quiet ∧
    (s.beginGap).staging = s.staging ∧ (s.beginGap).job = s.job ∧ (s.beginGap).profiles = s.profiles ∧
    (s.beginGap).accesses = s.accesses ∧ (s.beginGap).reconnect = s.reconnect ∧ (s.beginGap).stray = s.stray ∧
    (s.beginGap).reservation = s.reservation ∧ (s.beginGap).subRings = s.subRings ∧
    (s.beginGap).arbPtr = s.arbPtr ∧ (s.beginGap).arbCredit = s.arbCredit ∧ (s.beginGap).crings = s.crings ∧
    (s.beginGap).waiting = s.waiting ∧ (s.beginGap).eventQueue = s.eventQueue ∧
    (s.beginGap).ringLatch = s.ringLatch ∧ (s.beginGap).linkLatch = s.linkLatch ∧
    (s.beginGap).vectors = s.vectors ∧ (s.beginGap).nextAccess = s.nextAccess ∧
    (s.beginGap).freeDraws = s.freeDraws ∧ (s.beginGap).pending = s.pending := by
  and_intros <;> rfl

@[simp] theorem State.hear_fields {w : Nat} (s : State) (n : Nat) (f : BitVec w) :
    (s.hear n f).device = s.device ∧ (s.hear n f).table = s.table ∧ (s.hear n f).pendingQ = s.pendingQ ∧
    (s.hear n f).stations = s.stations ∧ (s.hear n f).current = s.current ∧ (s.hear n f).setAside = s.setAside ∧
    (s.hear n f).attention = s.attention ∧ (s.hear n f).pollDue = s.pollDue ∧ (s.hear n f).pollTimer = s.pollTimer ∧
    (s.hear n f).issuePtr = s.issuePtr ∧ (s.hear n f).fetchPtr = s.fetchPtr ∧
    (s.hear n f).laneLow = lowAfter s.laneLow n f ∧ (s.hear n f).linkReset = s.linkReset ∧ (s.hear n f).cl = s.cl ∧
    (s.hear n f).clFrame = s.clFrame ∧ (s.hear n f).payload = s.payload ∧ (s.hear n f).quiet = s.quiet ∧
    (s.hear n f).staging = s.staging ∧ (s.hear n f).job = s.job ∧ (s.hear n f).profiles = s.profiles ∧
    (s.hear n f).accesses = s.accesses ∧ (s.hear n f).reconnect = s.reconnect ∧ (s.hear n f).stray = s.stray ∧
    (s.hear n f).reservation = s.reservation ∧ (s.hear n f).subRings = s.subRings ∧ (s.hear n f).arbPtr = s.arbPtr ∧
    (s.hear n f).arbCredit = s.arbCredit ∧ (s.hear n f).crings = s.crings ∧ (s.hear n f).waiting = s.waiting ∧
    (s.hear n f).eventQueue = s.eventQueue ∧ (s.hear n f).ringLatch = s.ringLatch ∧
    (s.hear n f).linkLatch = s.linkLatch ∧ (s.hear n f).vectors = s.vectors ∧
    (s.hear n f).nextAccess = s.nextAccess ∧ (s.hear n f).freeDraws = s.freeDraws ∧
    (s.hear n f).pending = s.pending := by
  and_intros <;> rfl

@[simp] theorem State.quietGap_fields (s : State) :
    (s.quietGap).device = s.device ∧ (s.quietGap).table = s.table ∧ (s.quietGap).pendingQ = s.pendingQ ∧
    (s.quietGap).stations = s.stations ∧ (s.quietGap).current = s.current ∧ (s.quietGap).setAside = s.setAside ∧
    (s.quietGap).attention = s.attention ∧ (s.quietGap).pollDue = s.pollDue ∧ (s.quietGap).pollTimer = s.pollTimer ∧
    (s.quietGap).issuePtr = s.issuePtr ∧ (s.quietGap).fetchPtr = s.fetchPtr ∧ (s.quietGap).laneLow = 0 ∧
    (s.quietGap).linkReset = s.linkReset ∧ (s.quietGap).cl = .guardGap 0 ∧ (s.quietGap).clFrame = s.clFrame ∧
    (s.quietGap).payload = s.payload ∧ (s.quietGap).quiet = s.quiet ∧ (s.quietGap).staging = s.staging ∧
    (s.quietGap).job = s.job ∧ (s.quietGap).profiles = s.profiles ∧ (s.quietGap).accesses = s.accesses ∧
    (s.quietGap).reconnect = s.reconnect ∧ (s.quietGap).stray = s.stray ∧ (s.quietGap).reservation = s.reservation ∧
    (s.quietGap).subRings = s.subRings ∧ (s.quietGap).arbPtr = s.arbPtr ∧ (s.quietGap).arbCredit = s.arbCredit ∧
    (s.quietGap).crings = s.crings ∧ (s.quietGap).waiting = s.waiting ∧ (s.quietGap).eventQueue = s.eventQueue ∧
    (s.quietGap).ringLatch = s.ringLatch ∧ (s.quietGap).linkLatch = s.linkLatch ∧ (s.quietGap).vectors = s.vectors ∧
    (s.quietGap).nextAccess = s.nextAccess ∧ (s.quietGap).freeDraws = s.freeDraws ∧
    (s.quietGap).pending = s.pending := by
  and_intros <;> rfl

@[simp] theorem State.enqueue_fields (s : State) (c : Instr) :
    (s.enqueue c).device = s.device ∧ (s.enqueue c).table = s.table ∧ (s.enqueue c).pendingQ = s.pendingQ ∧
    (s.enqueue c).stations = s.stations ∧ (s.enqueue c).current = s.current ∧ (s.enqueue c).setAside = s.setAside ∧
    (s.enqueue c).attention = s.attention ∧ (s.enqueue c).pollDue = s.pollDue ∧
    (s.enqueue c).pollTimer = s.pollTimer ∧ (s.enqueue c).issuePtr = s.issuePtr ∧
    (s.enqueue c).fetchPtr = s.fetchPtr ∧ (s.enqueue c).laneLow = s.laneLow ∧
    (s.enqueue c).linkReset = s.linkReset ∧ (s.enqueue c).cl = s.cl ∧ (s.enqueue c).clFrame = s.clFrame ∧
    (s.enqueue c).payload = s.payload ∧ (s.enqueue c).quiet = s.quiet ∧ (s.enqueue c).staging = s.staging ∧
    (s.enqueue c).job = s.job ∧ (s.enqueue c).profiles = s.profiles ∧ (s.enqueue c).accesses = s.accesses ∧
    (s.enqueue c).reconnect = s.reconnect ∧ (s.enqueue c).stray = s.stray ∧
    (s.enqueue c).reservation = s.reservation ∧ (s.enqueue c).subRings = s.subRings ∧
    (s.enqueue c).arbPtr = s.arbPtr ∧ (s.enqueue c).arbCredit = s.arbCredit ∧ (s.enqueue c).crings = s.crings ∧
    (s.enqueue c).waiting = s.waiting ∧ (s.enqueue c).eventQueue = s.eventQueue ∧
    (s.enqueue c).ringLatch = s.ringLatch ∧ (s.enqueue c).linkLatch = s.linkLatch ∧
    (s.enqueue c).vectors = s.vectors ∧ (s.enqueue c).nextAccess = s.nextAccess ∧
    (s.enqueue c).freeDraws = s.freeDraws := by
  and_intros <;> rfl

@[simp] theorem State.setPostIgnored_fields (s : State) (b : Bool) :
    (s.setPostIgnored b).table = s.table ∧ (s.setPostIgnored b).pendingQ = s.pendingQ ∧
    (s.setPostIgnored b).stations = s.stations ∧ (s.setPostIgnored b).current = s.current ∧
    (s.setPostIgnored b).setAside = s.setAside ∧ (s.setPostIgnored b).attention = s.attention ∧
    (s.setPostIgnored b).pollDue = s.pollDue ∧ (s.setPostIgnored b).pollTimer = s.pollTimer ∧
    (s.setPostIgnored b).issuePtr = s.issuePtr ∧ (s.setPostIgnored b).fetchPtr = s.fetchPtr ∧
    (s.setPostIgnored b).laneLow = s.laneLow ∧ (s.setPostIgnored b).linkReset = s.linkReset ∧
    (s.setPostIgnored b).cl = s.cl ∧ (s.setPostIgnored b).clFrame = s.clFrame ∧
    (s.setPostIgnored b).payload = s.payload ∧ (s.setPostIgnored b).quiet = s.quiet ∧
    (s.setPostIgnored b).staging = s.staging ∧ (s.setPostIgnored b).job = s.job ∧
    (s.setPostIgnored b).profiles = s.profiles ∧ (s.setPostIgnored b).accesses = s.accesses ∧
    (s.setPostIgnored b).reconnect = s.reconnect ∧ (s.setPostIgnored b).stray = s.stray ∧
    (s.setPostIgnored b).reservation = s.reservation ∧ (s.setPostIgnored b).subRings = s.subRings ∧
    (s.setPostIgnored b).arbPtr = s.arbPtr ∧ (s.setPostIgnored b).arbCredit = s.arbCredit ∧
    (s.setPostIgnored b).crings = s.crings ∧ (s.setPostIgnored b).waiting = s.waiting ∧
    (s.setPostIgnored b).eventQueue = s.eventQueue ∧ (s.setPostIgnored b).ringLatch = s.ringLatch ∧
    (s.setPostIgnored b).linkLatch = s.linkLatch ∧ (s.setPostIgnored b).vectors = s.vectors ∧
    (s.setPostIgnored b).nextAccess = s.nextAccess ∧ (s.setPostIgnored b).freeDraws = s.freeDraws ∧
    (s.setPostIgnored b).pending = s.pending ∧ (s.setPostIgnored b).device.configBase = s.device.configBase ∧
    (s.setPostIgnored b).device.state = s.device.state ∧ (s.setPostIgnored b).device.result = s.device.result ∧
    (s.setPostIgnored b).device.cause = s.device.cause ∧
    (s.setPostIgnored b).device.ringFault = s.device.ringFault ∧
    (s.setPostIgnored b).device.releaseRefused = s.device.releaseRefused ∧
    (s.setPostIgnored b).device.postIgnored = b ∧ (s.setPostIgnored b).device.load = s.device.load ∧
    (s.setPostIgnored b).device.config = s.device.config ∧ (s.setPostIgnored b).device.lck = s.device.lck := by
  and_intros <;> rfl

@[simp] theorem State.setReleaseRefused_fields (s : State) (b : Bool) :
    (s.setReleaseRefused b).table = s.table ∧ (s.setReleaseRefused b).pendingQ = s.pendingQ ∧
    (s.setReleaseRefused b).stations = s.stations ∧ (s.setReleaseRefused b).current = s.current ∧
    (s.setReleaseRefused b).setAside = s.setAside ∧ (s.setReleaseRefused b).attention = s.attention ∧
    (s.setReleaseRefused b).pollDue = s.pollDue ∧ (s.setReleaseRefused b).pollTimer = s.pollTimer ∧
    (s.setReleaseRefused b).issuePtr = s.issuePtr ∧ (s.setReleaseRefused b).fetchPtr = s.fetchPtr ∧
    (s.setReleaseRefused b).laneLow = s.laneLow ∧ (s.setReleaseRefused b).linkReset = s.linkReset ∧
    (s.setReleaseRefused b).cl = s.cl ∧ (s.setReleaseRefused b).clFrame = s.clFrame ∧
    (s.setReleaseRefused b).payload = s.payload ∧ (s.setReleaseRefused b).quiet = s.quiet ∧
    (s.setReleaseRefused b).staging = s.staging ∧ (s.setReleaseRefused b).job = s.job ∧
    (s.setReleaseRefused b).profiles = s.profiles ∧ (s.setReleaseRefused b).accesses = s.accesses ∧
    (s.setReleaseRefused b).reconnect = s.reconnect ∧ (s.setReleaseRefused b).stray = s.stray ∧
    (s.setReleaseRefused b).reservation = s.reservation ∧ (s.setReleaseRefused b).subRings = s.subRings ∧
    (s.setReleaseRefused b).arbPtr = s.arbPtr ∧ (s.setReleaseRefused b).arbCredit = s.arbCredit ∧
    (s.setReleaseRefused b).crings = s.crings ∧ (s.setReleaseRefused b).waiting = s.waiting ∧
    (s.setReleaseRefused b).eventQueue = s.eventQueue ∧ (s.setReleaseRefused b).ringLatch = s.ringLatch ∧
    (s.setReleaseRefused b).linkLatch = s.linkLatch ∧ (s.setReleaseRefused b).vectors = s.vectors ∧
    (s.setReleaseRefused b).nextAccess = s.nextAccess ∧ (s.setReleaseRefused b).freeDraws = s.freeDraws ∧
    (s.setReleaseRefused b).pending = s.pending ∧ (s.setReleaseRefused b).device.configBase = s.device.configBase ∧
    (s.setReleaseRefused b).device.state = s.device.state ∧
    (s.setReleaseRefused b).device.result = s.device.result ∧
    (s.setReleaseRefused b).device.cause = s.device.cause ∧
    (s.setReleaseRefused b).device.ringFault = s.device.ringFault ∧
    (s.setReleaseRefused b).device.releaseRefused = b ∧
    (s.setReleaseRefused b).device.postIgnored = s.device.postIgnored ∧
    (s.setReleaseRefused b).device.load = s.device.load ∧ (s.setReleaseRefused b).device.config = s.device.config ∧
    (s.setReleaseRefused b).device.lck = s.device.lck := by
  and_intros <;> rfl

@[simp] theorem State.setResult_fields (s : State) (r : CommandResult) :
    (s.setResult r).table = s.table ∧ (s.setResult r).pendingQ = s.pendingQ ∧
    (s.setResult r).stations = s.stations ∧ (s.setResult r).current = s.current ∧
    (s.setResult r).setAside = s.setAside ∧ (s.setResult r).attention = s.attention ∧
    (s.setResult r).pollDue = s.pollDue ∧ (s.setResult r).pollTimer = s.pollTimer ∧
    (s.setResult r).issuePtr = s.issuePtr ∧ (s.setResult r).fetchPtr = s.fetchPtr ∧
    (s.setResult r).laneLow = s.laneLow ∧ (s.setResult r).linkReset = s.linkReset ∧ (s.setResult r).cl = s.cl ∧
    (s.setResult r).clFrame = s.clFrame ∧ (s.setResult r).payload = s.payload ∧ (s.setResult r).quiet = s.quiet ∧
    (s.setResult r).staging = s.staging ∧ (s.setResult r).job = s.job ∧ (s.setResult r).profiles = s.profiles ∧
    (s.setResult r).accesses = s.accesses ∧ (s.setResult r).reconnect = s.reconnect ∧
    (s.setResult r).stray = s.stray ∧ (s.setResult r).reservation = s.reservation ∧
    (s.setResult r).subRings = s.subRings ∧ (s.setResult r).arbPtr = s.arbPtr ∧
    (s.setResult r).arbCredit = s.arbCredit ∧ (s.setResult r).crings = s.crings ∧
    (s.setResult r).waiting = s.waiting ∧ (s.setResult r).eventQueue = s.eventQueue ∧
    (s.setResult r).ringLatch = s.ringLatch ∧ (s.setResult r).linkLatch = s.linkLatch ∧
    (s.setResult r).vectors = s.vectors ∧ (s.setResult r).nextAccess = s.nextAccess ∧
    (s.setResult r).freeDraws = s.freeDraws ∧ (s.setResult r).pending = s.pending ∧
    (s.setResult r).device.configBase = s.device.configBase ∧ (s.setResult r).device.state = s.device.state ∧
    (s.setResult r).device.result = r ∧ (s.setResult r).device.cause = s.device.cause ∧
    (s.setResult r).device.ringFault = s.device.ringFault ∧
    (s.setResult r).device.releaseRefused = s.device.releaseRefused ∧
    (s.setResult r).device.postIgnored = s.device.postIgnored ∧ (s.setResult r).device.load = s.device.load ∧
    (s.setResult r).device.config = s.device.config ∧ (s.setResult r).device.lck = s.device.lck := by
  and_intros <;> rfl

@[simp] theorem State.setDeviceState_fields (s : State) (d : DeviceState) :
    (s.setDeviceState d).table = s.table ∧ (s.setDeviceState d).pendingQ = s.pendingQ ∧
    (s.setDeviceState d).stations = s.stations ∧ (s.setDeviceState d).current = s.current ∧
    (s.setDeviceState d).setAside = s.setAside ∧ (s.setDeviceState d).attention = s.attention ∧
    (s.setDeviceState d).pollDue = s.pollDue ∧ (s.setDeviceState d).pollTimer = s.pollTimer ∧
    (s.setDeviceState d).issuePtr = s.issuePtr ∧ (s.setDeviceState d).fetchPtr = s.fetchPtr ∧
    (s.setDeviceState d).laneLow = s.laneLow ∧ (s.setDeviceState d).linkReset = s.linkReset ∧
    (s.setDeviceState d).cl = s.cl ∧ (s.setDeviceState d).clFrame = s.clFrame ∧
    (s.setDeviceState d).payload = s.payload ∧ (s.setDeviceState d).quiet = s.quiet ∧
    (s.setDeviceState d).staging = s.staging ∧ (s.setDeviceState d).job = s.job ∧
    (s.setDeviceState d).profiles = s.profiles ∧ (s.setDeviceState d).accesses = s.accesses ∧
    (s.setDeviceState d).reconnect = s.reconnect ∧ (s.setDeviceState d).stray = s.stray ∧
    (s.setDeviceState d).reservation = s.reservation ∧ (s.setDeviceState d).subRings = s.subRings ∧
    (s.setDeviceState d).arbPtr = s.arbPtr ∧ (s.setDeviceState d).arbCredit = s.arbCredit ∧
    (s.setDeviceState d).crings = s.crings ∧ (s.setDeviceState d).waiting = s.waiting ∧
    (s.setDeviceState d).eventQueue = s.eventQueue ∧ (s.setDeviceState d).ringLatch = s.ringLatch ∧
    (s.setDeviceState d).linkLatch = s.linkLatch ∧ (s.setDeviceState d).vectors = s.vectors ∧
    (s.setDeviceState d).nextAccess = s.nextAccess ∧ (s.setDeviceState d).freeDraws = s.freeDraws ∧
    (s.setDeviceState d).pending = s.pending ∧ (s.setDeviceState d).device.configBase = s.device.configBase ∧
    (s.setDeviceState d).device.state = d ∧ (s.setDeviceState d).device.result = s.device.result ∧
    (s.setDeviceState d).device.cause = s.device.cause ∧
    (s.setDeviceState d).device.ringFault = s.device.ringFault ∧
    (s.setDeviceState d).device.releaseRefused = s.device.releaseRefused ∧
    (s.setDeviceState d).device.postIgnored = s.device.postIgnored ∧
    (s.setDeviceState d).device.load = s.device.load ∧ (s.setDeviceState d).device.config = s.device.config ∧
    (s.setDeviceState d).device.lck = s.device.lck := by
  and_intros <;> rfl

@[simp] theorem State.setRingFault_fields (s : State) (r : RingId) :
    (s.setRingFault r).table = s.table ∧ (s.setRingFault r).pendingQ = s.pendingQ ∧
    (s.setRingFault r).stations = s.stations ∧ (s.setRingFault r).current = s.current ∧
    (s.setRingFault r).setAside = s.setAside ∧ (s.setRingFault r).attention = s.attention ∧
    (s.setRingFault r).pollDue = s.pollDue ∧ (s.setRingFault r).pollTimer = s.pollTimer ∧
    (s.setRingFault r).issuePtr = s.issuePtr ∧ (s.setRingFault r).fetchPtr = s.fetchPtr ∧
    (s.setRingFault r).laneLow = s.laneLow ∧ (s.setRingFault r).linkReset = s.linkReset ∧
    (s.setRingFault r).cl = s.cl ∧ (s.setRingFault r).clFrame = s.clFrame ∧
    (s.setRingFault r).payload = s.payload ∧ (s.setRingFault r).quiet = s.quiet ∧
    (s.setRingFault r).staging = s.staging ∧ (s.setRingFault r).job = s.job ∧
    (s.setRingFault r).profiles = s.profiles ∧ (s.setRingFault r).accesses = s.accesses ∧
    (s.setRingFault r).reconnect = s.reconnect ∧ (s.setRingFault r).stray = s.stray ∧
    (s.setRingFault r).reservation = s.reservation ∧ (s.setRingFault r).subRings = s.subRings ∧
    (s.setRingFault r).arbPtr = s.arbPtr ∧ (s.setRingFault r).arbCredit = s.arbCredit ∧
    (s.setRingFault r).crings = s.crings ∧ (s.setRingFault r).waiting = s.waiting ∧
    (s.setRingFault r).eventQueue = s.eventQueue ∧ (s.setRingFault r).ringLatch = s.ringLatch ∧
    (s.setRingFault r).linkLatch = s.linkLatch ∧ (s.setRingFault r).vectors = s.vectors ∧
    (s.setRingFault r).nextAccess = s.nextAccess ∧ (s.setRingFault r).freeDraws = s.freeDraws ∧
    (s.setRingFault r).pending = s.pending ∧ (s.setRingFault r).device.configBase = s.device.configBase ∧
    (s.setRingFault r).device.state = s.device.state ∧ (s.setRingFault r).device.result = s.device.result ∧
    (s.setRingFault r).device.cause = s.device.cause ∧
    (s.setRingFault r).device.ringFault = s.device.ringFault.set r true ∧
    (s.setRingFault r).device.releaseRefused = s.device.releaseRefused ∧
    (s.setRingFault r).device.postIgnored = s.device.postIgnored ∧ (s.setRingFault r).device.load = s.device.load ∧
    (s.setRingFault r).device.config = s.device.config ∧ (s.setRingFault r).device.lck = s.device.lck := by
  and_intros <;> rfl

end Sys2Proof.Machine
end

