-- ==== Sys2Proof/Laws/Index.lean ====
section
/-! SUPPORT. Reading a record by its index after one was written. -/

namespace Sys2Proof.Machine

/-! ## Exchange slots -/

@[simp] theorem State.exch_setExch_self (s : State) (t : Tag) (e : Option Exchange) : (s.setExch t e).exch t = e := by
  simp [State.exch, State.setExch]

theorem State.exch_setExch (s : State) (t u : Tag) (e : Option Exchange) :
    (s.setExch t e).exch u = if t = u then e else s.exch u := by
  unfold State.exch State.setExch
  by_cases h : t = u
  · subst h; simp
  · have : t.val ≠ u.val := fun h' => h (Fin.ext h')
    simp [h, this]

theorem State.exch_setExch_ne (s : State) {t u : Tag} (e : Option Exchange) (h : t ≠ u) :
    (s.setExch t e).exch u = s.exch u := by
  rw [State.exch_setExch, if_neg h]

theorem State.modExch_eq (s : State) (t : Tag) (f : Exchange → Exchange) :
    s.modExch t f = (match s.exch t with
      | some e => s.setExch t (some (f e))
      | none => s) := rfl

theorem State.modExch_of_some {s : State} {t : Tag} {e : Exchange} (f : Exchange → Exchange) (h : s.exch t = some e) :
    s.modExch t f = s.setExch t (some (f e)) := by
  simp [State.modExch, h]

theorem State.exch_modExch (s : State) (t u : Tag) (f : Exchange → Exchange) :
    (s.modExch t f).exch u = if t = u then (s.exch u).map f else s.exch u := by
  unfold State.modExch
  split
  · rename_i e h
    rw [State.exch_setExch]
    split
    · rename_i hu; subst hu; simp [h]
    · rfl
  · rename_i h
    split
    · rename_i hu; subst hu; simp [h]
    · rfl

/-! ## Stations -/

theorem State.station_modStation (s : State) (st u : StationId) (f : Station → Station) :
    (s.modStation st f).station u = if st = u then f (s.station u) else s.station u := by
  unfold State.station State.modStation
  by_cases h : st = u
  · subst h; simp [State.station]
  · have : st.val ≠ u.val := fun h' => h (Fin.ext h')
    simp [h, this]

@[simp] theorem State.station_modStation_self (s : State) (st : StationId) (f : Station → Station) :
    (s.modStation st f).station st = f (s.station st) := by
  rw [State.station_modStation, if_pos rfl]

/-! ## Rings -/

theorem State.subRing_modSubRing (s : State) (r u : RingId) (f : SubRing → SubRing) :
    (s.modSubRing r f).subRing u = if r = u then f (s.subRing u) else s.subRing u := by
  unfold State.subRing State.modSubRing
  by_cases h : r = u
  · subst h; simp [State.subRing]
  · have : r.val ≠ u.val := fun h' => h (Fin.ext h')
    simp [h, this]

@[simp] theorem State.subRing_modSubRing_self (s : State) (r : RingId) (f : SubRing → SubRing) :
    (s.modSubRing r f).subRing r = f (s.subRing r) := by
  rw [State.subRing_modSubRing, if_pos rfl]

theorem State.cring_setCring (s : State) (r u : RingId) (c : CRing) :
    (s.setCring r c).cring u = if r = u then some c else s.cring u := by
  unfold State.cring State.setCring
  by_cases h : r = u
  · subst h; simp
  · have : r.val ≠ u.val := fun h' => h (Fin.ext h')
    simp [h, this]

@[simp] theorem State.cring_setCring_self (s : State) (r : RingId) (c : CRing) : (s.setCring r c).cring r = some c := by
  rw [State.cring_setCring, if_pos rfl]

/-! ## Staging slots and queues -/

theorem State.slot_setSlot (s : State) (i u : StageId) (x : Slot) :
    (s.setSlot i x).slot u = if i = u then x else s.slot u := by
  unfold State.slot State.setSlot
  by_cases h : i = u
  · subst h; simp
  · have : i.val ≠ u.val := fun h' => h (Fin.ext h')
    simp [h, this]

@[simp] theorem State.slot_setSlot_self (s : State) (i : StageId) (x : Slot) : (s.setSlot i x).slot i = x := by
  rw [State.slot_setSlot, if_pos rfl]

theorem State.queueOf_setQueue (s : State) (st u : StationId) (q : List Tag) :
    (s.setQueue st q).queueOf u = if st = u then q else s.queueOf u := by
  unfold State.queueOf State.setQueue
  by_cases h : st = u
  · subst h; simp
  · have : st.val ≠ u.val := fun h' => h (Fin.ext h')
    simp [h, this]

/-! ## Host accesses -/

/-- An access issued stands last, with the number it was given. -/
theorem State.issue_accesses (s : State) (p : Purpose) (addr : BitVec 64) (len : Nat) (data : List Byte) :
    (s.issue p addr len data).accesses
        = s.accesses ++ [{ id := s.nextAccess, purpose := p, addr := addr, len := len, data := data }]
      ∧ (s.issue p addr len data).nextAccess = s.nextAccess + 1 := ⟨rfl, rfl⟩

/-- Once its report is taken an access is no longer held. -/
theorem State.access_endAccess_self (s : State) (id : Nat) : (s.endAccess id).access id = none := by
  simp [State.access, State.endAccess, List.find?_eq_none]

end Sys2Proof.Machine
end

