-- ==== Sys2Proof/Laws/Blocks.lean ====
section
/-! SUPPORT. What dealing a block over the lanes and gathering it from them do (R38), how the data mover places a block into
host accesses (R104, R110, R111), and where a token frame goes (R76). -/

namespace Sys2Proof.Machine

/-! ## The lanes (R38) -/

theorem dealBlock_length (w : Nat) (bytes : List Byte) : (dealBlock w bytes).length = 4 := by
  unfold dealBlock; rw [List.length_map, List.length_range]

/-- Lane `k` carries place `i` just when byte `w * i + k` lies in a block of `n` bytes. -/
theorem dealBlock_place (w n k i : Nat) (hk : k < w) : i < (n + (w - 1) - k) / w ↔ w * i + k < n := by
  have hw : 0 < w := by omega
  rw [Nat.lt_iff_add_one_le, Nat.le_div_iff_mul_le hw, Nat.add_mul, Nat.one_mul, Nat.mul_comm i w]
  omega

/-- R38: a lane in use carries every `w`-th byte of the block, from its own number on. -/
theorem dealBlock_lane (w : Nat) (bytes : List Byte) (k : Nat) (h4 : k < 4) (hk : k < w) :
    ∃ lane, (dealBlock w bytes)[k]? = some lane ∧ ∀ i, lane[i]? = bytes[w * i + k]? := by
  unfold dealBlock
  refine ⟨_, by rw [List.getElem?_map, List.getElem?_range h4, Option.map_some, if_pos hk], fun i => ?_⟩
  rw [List.getElem?_map]
  by_cases hi : i < (bytes.length + (w - 1) - k) / w
  · have hb := (dealBlock_place w bytes.length k i hk).1 hi
    rw [List.getElem?_range hi, Option.map_some, List.getD_eq_getElem?_getD, List.getElem?_eq_getElem hb]; rfl
  · have hb := fun h => hi ((dealBlock_place w bytes.length k i hk).2 h)
    rw [List.getElem?_eq_none (by rw [List.length_range]; omega), List.getElem?_eq_none (Nat.not_lt.1 hb)]; rfl

/-- R38: a lane not in use carries nothing. -/
theorem dealBlock_unused (w : Nat) (bytes : List Byte) (k : Nat) (lane : List Byte)
    (hl : (dealBlock w bytes)[k]? = some lane) (hk : w ≤ k) : lane = [] := by
  by_cases h4 : k < 4
  · unfold dealBlock at hl
    rw [List.getElem?_map, List.getElem?_range h4, Option.map_some, if_neg (Nat.not_lt.2 hk)] at hl
    exact (Option.some.inj hl).symm
  · rw [List.getElem?_eq_none (by rw [dealBlock_length]; omega)] at hl; cases hl

/-- R38, R90: byte `k` of a gathered block comes from lane `k` modulo the width. -/
theorem gatherBlock_eq (w size : Nat) (lanes : List (List Byte)) :
    gatherBlock w size lanes = (List.range size).map (fun k =>
      ((lanes[k % w]?).bind (fun l => l[k / w]?)).getD 0xFF#8) := by
  unfold gatherBlock
  refine List.map_congr_left fun k _ => ?_
  rw [List.getD_eq_getElem?_getD, List.getD_eq_getElem?_getD]
  cases lanes[k % w]? <;> simp

/-- R38: a block that is dealt over the lanes and gathered again is the block. -/
theorem gatherBlock_dealBlock (w : Nat) (bytes : List Byte) (h0 : 0 < w) (h4 : w ≤ 4) :
    gatherBlock w bytes.length (dealBlock w bytes) = bytes := by
  rw [gatherBlock_eq]
  apply List.ext_getElem?
  intro k
  rw [List.getElem?_map]
  by_cases hk : k < bytes.length
  · have hm := Nat.mod_lt k h0
    obtain ⟨lane, hl, hi⟩ := dealBlock_lane w bytes (k % w) (by omega) hm
    rw [List.getElem?_range hk, Option.map_some, hl, Option.bind_some, hi, Nat.div_add_mod,
      List.getElem?_eq_getElem hk]
    rfl
  · rw [List.getElem?_eq_none (by rw [List.length_range]; omega), List.getElem?_eq_none (Nat.not_lt.1 hk)]; rfl

/-! ## Placing a block (R104, R110, R111) -/

/-- One round of the mover with a block in hand. -/
theorem State.pump_step {s : State} {j : Job} {h : InHand} (hj : s.job = some j) (hh : j.inHand = some h)
    (hn : j.walk.needed = false) (fuel : Nat) :
    State.pump (fuel + 1) s = if j.blockSize ≤ h.placed then s
      else if j.walk.left = 0 then State.pump fuel (s.needDescriptor j) else State.pump fuel (s.placeAccess j h) := by
  rw [State.pump.eq_2, hj]; dsimp only; rw [if_neg (by rw [hn]; simp), hh]

/-- The mover stops when the block in hand is placed. -/
theorem State.pump_placed {s : State} {j : Job} {h : InHand} (hj : s.job = some j) (hh : j.inHand = some h)
    (hb : j.blockSize ≤ h.placed) (fuel : Nat) : State.pump fuel s = s := by
  cases fuel with
  | zero => rfl
  | succ n =>
    rw [State.pump.eq_2, hj]; dsimp only; split
    · rfl
    · rw [hh]; dsimp only; rw [if_pos hb]

/-- The mover stops while it waits for a descriptor, and with no block in hand. -/
theorem State.pump_idle {s : State} {j : Job} (hj : s.job = some j) (h : j.walk.needed = true ∨ j.inHand = none)
    (fuel : Nat) : State.pump fuel s = s := by
  cases fuel with
  | zero => rfl
  | succ n =>
    rw [State.pump.eq_2, hj]; dsimp only
    rcases h with h | h
    · rw [if_pos h]
    · split
      · rfl
      · rw [h]

/-- The mover does nothing without a job. -/
theorem State.pump_none {s : State} (hj : s.job = none) (fuel : Nat) : State.pump fuel s = s := by
  cases fuel with
  | zero => rfl
  | succ n => rw [State.pump.eq_2, hj]

/-- The next access of a block in hand, in the current descriptor. -/
def State.nextPlaced (s : State) (j : Job) (h : InHand) (c : CurDesc) : Access :=
  let addr := hostPlus c.desc.addr c.offset
  let n := accessLength addr (c.desc.len - c.offset) (j.blockSize - h.placed)
  { id := s.nextAccess,
    purpose := match j.dir with
      | .read => .dataWrite j.tag
      | .write => .dataRead j.tag j.nextBlock h.placed,
    addr := addr, len := n,
    data := match j.dir with
      | .read => ((s.slot h.slot).data.drop h.placed).take n
      | .write => [] }

/-- R104: one host access of the block in hand is issued, and the cursor follows it. -/
theorem State.placeAccess_eq {s : State} {j : Job} {h : InHand} {c : CurDesc} {e : Exchange}
    (hc : j.walk.cur = some c) (hx : s.exch j.tag = some e) :
    let a := s.nextPlaced j h c
    let c' : CurDesc := { c with offset := c.offset + a.len }
    s.placeAccess j h = { s with
      job := some { j with walk := { j.walk with cur := some c' },
                           inHand := some { h with placed := h.placed + a.len, issued := h.issued + 1 } },
      table := s.table.set j.tag (some { e with cursor := some { index := c.index, offset := c'.offset } }),
      accesses := s.accesses ++ [a], nextAccess := s.nextAccess + 1 } := by
  intro a c'
  unfold State.placeAccess State.setWalk State.syncCursor
  dsimp only
  have hq : ∀ q, ({ s with job := q } : State).exch j.tag = some e := fun _ => hx
  rw [State.modExch_of_some _ (hq _)]
  simp only [a, c']
  unfold Walk.advance Walk.cursor Walk.hostAddr Walk.left State.nextPlaced
  rw [hc]; dsimp only [Option.map]
  cases j.dir <;> rfl

/-! ## Levels received on CL, and a token frame (R33, R34, R37, R76) -/

theorem lowPasses_iff {w : Nat} (before lead : Nat) (f : BitVec w) :
    lowPasses before lead f = true ↔ 4096 < before + lead + lowHead f := by
  unfold lowPasses stuckCount; rw [decide_eq_true_iff]; omega

/-- R33, R34: where CL takes a token frame, no request awaits its reply and the payload engine expects the frame. -/
theorem State.TakesToken.expected {s : State} (h : s.TakesToken) : s.awaited = none ∧ s.tokenExpected = true := by
  unfold State.awaited State.tokenExpected
  rcases h with ⟨k, h⟩ | h | ⟨hh, h | ⟨k, h⟩⟩ <;> rw [h] <;> dsimp only <;> refine ⟨?_, ?_⟩ <;>
    first
      | rfl
      | exact hh
      | (split
         · split <;> rfl
         · rfl)

/-- Where a token is due, its levels are counted, the guard gap begins and the payload engine takes it. -/
theorem State.tokenReceived_taken {s : State} (hl : s.live = true) (h : s.TakesToken) {f : BitVec 32} (hf : s.Hears f)
    (tok : Token) : s.tokenReceived f tok = (s.afterToken f).takeToken tok := by
  have hp : ¬ lowPasses s.laneLow 1 f = true := by
    rw [lowPasses_iff]; unfold State.Hears at hf; omega
  unfold State.tokenReceived State.hearToken
  rw [if_pos hl, h.expected.1]; dsimp only; rw [if_pos h.expected.2, if_neg hp]; rfl

/-- A run of lows that passes 4096 within the frame begins a link reset in its place. -/
theorem State.tokenReceived_stuck {s : State} (hl : s.live = true) (h : s.TakesToken) {f : BitVec 32} (hf : ¬ s.Hears f)
    (tok : Token) : s.tokenReceived f tok = s.startLinkReset .laneStuck := by
  have hp : lowPasses s.laneLow 1 f = true := by
    rw [lowPasses_iff]; unfold State.Hears at hf; omega
  unfold State.tokenReceived State.hearToken
  rw [if_pos hl, h.expected.1]; dsimp only; rw [if_pos h.expected.2, if_pos hp]

/-- Every token command hands over the frame and the token that `tokenOf` says. -/
theorem exec_token {c : Instr} {f : BitVec 32} {tok : Token} (h : tokenOf c = some (f, tok)) (s : State) :
    exec c s = .next (s.tokenReceived f tok) := by
  cases c <;> cases h <;> rfl

end Sys2Proof.Machine
end

