-- ==== Sys2Proof/Laws/Ended.lean ====
section
/-! SUPPORT. What ending and halting an exchange do, once (R7, R18, R22, R99): every command that ends or halts one
is read through these two lemmas. -/

namespace Sys2Proof.Machine

theorem Exchange.record_eq (st : Status) (v : Word) (e : Exchange) :
    Exchange.record st v e = { e with final := e.finalAfter st v } := by
  unfold Exchange.record Exchange.finalAfter; split <;> rfl

theorem Exchange.finalAfter_isSome (e : Exchange) (st : Status) (v : Word) : (e.finalAfter st v).isSome = true := by
  unfold Exchange.finalAfter; split
  · assumption
  · rfl

theorem State.recordCause_eq {s : State} {x : Tag} {e : Exchange} (h : s.exch x = some e) (st : Status) (v : Word) :
    s.recordCause x st v = s.setExch x (some { e with final := e.finalAfter st v }) := by
  unfold State.recordCause
  rw [State.modExch_of_some _ h, Exchange.record_eq]

theorem Request.detach_eq (r : Request) : r.detach = r.afterDetach := by
  unfold Request.detach Request.afterDetach
  cases r.phase <;> rfl

/-- A source that may join is at the tail of its ring's list. -/
theorem State.joinList_waiting (s : State) (c : RingId) (src : Source) :
    s.joinList c src = { s with waiting := joinedAt s c src } := by
  unfold State.joinList joinedAt joinInto; split <;> rfl

/-- R89, R99: what a halt leaves of the payload engine's record. -/
theorem Payload.halt_eq (p : Payload) : p.halt = p.afterHalt := by
  unfold Payload.halt Payload.afterHalt Payload.tailAtHalt Payload.waitAtHalt grantDistance
  cases p.phase <;> rfl

/-- R22: entering COMPLETING, as one update of the fields it reaches. -/
theorem State.enterCompleting_eq {s : State} {x : Tag} {e : Exchange} (h : s.exch x = some e) :
    s.enterCompleting x =
      { s with
        table := s.table.set x (some { e with state := .completing, retriesUsed := none, deferral := none }),
        pendingQ := s.pendingQ.set e.station ((s.queueOf e.station).filter (· != x)),
        reconnect := s.reconnect.filter (· != x),
        stations := s.stations.set e.station
          { s.station e.station with
            pendingConfigs := (s.station e.station).pendingConfigs.filter (·.tag != x),
            saturation := if e.state.freesRoom then none else (s.station e.station).saturation },
        current := s.current.bind (fun r => if r.owner = .exchange x then r.afterDetach else some r),
        setAside := s.setAside.bind (fun r => if r.owner = .exchange x then none else some r),
        payload := if s.payload.any (fun p => p.owner == x) then none else s.payload,
        staging := if s.payload.any (fun p => p.owner == x) then Vector.replicate 4 Slot.free else s.staging,
        cl := if s.payload.any (fun p => p.owner == x) ∧ s.cl = .hold then .idle else s.cl,
        job := if s.payload.any (fun p => p.owner == x) then none
          else s.job.bind (fun j => if j.tag = x then none else some j) } := by
  have hr : ∀ r : Request, (if (r.owner == Owner.exchange x) = true then r.detach else some r)
      = (if r.owner = .exchange x then r.afterDetach else some r) := by
    intro r; rw [Request.detach_eq]; simp
  have hr' : ∀ r : Request, (if (r.owner == Owner.exchange x) = true then (none : Option Request) else some r)
      = (if r.owner = .exchange x then none else some r) := by
    intro r; simp
  unfold State.enterCompleting; rw [h]; dsimp only
  unfold State.detach
  simp only [hr, hr']
  unfold State.releaseLanesOf
  cases hp : s.payload with
  | none =>
    simp only [State.leaveQueues, hp, State.endJob]
    cases hj : s.job with
    | none =>
      by_cases hf : e.state.freesRoom = true <;>
        simp [hf, State.clearSaturation, State.modStation, State.setExch, State.station]
    | some j =>
      by_cases ht : j.tag = x <;> by_cases hf : e.state.freesRoom = true <;>
        simp [hf, ht, State.clearSaturation, State.modStation, State.setExch, State.station]
  | some p =>
    by_cases ho : p.owner = x
    · by_cases hf : e.state.freesRoom = true <;>
        simp [hf, ho, State.leaveQueues, State.releaseLanes, State.endJob, State.clearSaturation, State.modStation,
          State.setExch, State.station, hp]
    · simp only [State.leaveQueues, hp, State.endJob, if_neg ho]
      cases hj : s.job with
      | none =>
        by_cases hf : e.state.freesRoom = true <;>
          simp [hf, ho, State.clearSaturation, State.modStation, State.setExch, State.station]
      | some j =>
        by_cases ht : j.tag = x <;> by_cases hf : e.state.freesRoom = true <;>
          simp [hf, ht, ho, State.clearSaturation, State.modStation, State.setExch, State.station]

theorem State.enterCompleting_exch {s : State} {x : Tag} {e : Exchange} (h : s.exch x = some e) (u : Tag) :
    (s.enterCompleting x).exch u =
      if x = u then some { e with state := .completing, retriesUsed := none, deferral := none } else s.exch u := by
  rw [State.enterCompleting_eq h]
  exact State.exch_setExch s x u _

/-- R7, R22: a terminating cause that ends an exchange at once. -/
theorem State.endWith_ended {s : State} {x : Tag} {e : Exchange} (h : s.exch x = some e) (st : Status) (v : Word) :
    Ended s (s.endWith x st v) x e st v := by
  have h1 : (s.recordCause x st v).exch x = some { e with final := e.finalAfter st v } := by
    rw [State.recordCause_eq h]; simp
  unfold State.endWith State.complete
  have hc := State.enterCompleting_exch h1
  have hj : ((s.recordCause x st v).enterCompleting x).joinReady x = (s.outstanding x == 0) := by
    unfold State.joinReady
    rw [hc x, if_pos rfl]
    have ho : ((s.recordCause x st v).enterCompleting x).outstanding x = s.outstanding x := by
      unfold State.outstanding; rw [State.enterCompleting_eq h1, State.recordCause_eq h]; rfl
    rw [ho]
    simp [Exchange.finalAfter_isSome]
  have hw : ((s.recordCause x st v).enterCompleting x).join (.exchange x)
      = { (s.recordCause x st v).enterCompleting x with
          waiting := if s.outstanding x = 0 then (match s.cringOf e.ring with
            | some c => joinedAt s c (.exchange x)
            | none => s.waiting)
          else s.waiting } := by
    have hcr : ∀ r, ((s.recordCause x st v).enterCompleting x).cringOf r = s.cringOf r := by
      intro r; unfold State.cringOf State.subRing; rw [State.enterCompleting_eq h1, State.recordCause_eq h]; rfl
    have hwt : ((s.recordCause x st v).enterCompleting x).waiting = s.waiting := by
      rw [State.enterCompleting_eq h1, State.recordCause_eq h]; rfl
    unfold State.join; dsimp only
    rw [hj, hc x, if_pos rfl]
    simp only [Option.bind_some, hcr]
    by_cases h0 : s.outstanding x = 0
    · simp only [h0, beq_self_eq_true, if_true]
      cases hr : s.cringOf e.ring with
      | none => dsimp only; rw [← hwt]
      | some c =>
        dsimp only
        rw [State.joinList_waiting]
        congr 1
        unfold joinedAt; rw [hwt]
    · have hb : (s.outstanding x == 0) = false := by simpa using h0
      rw [hb, if_neg (by simp), if_neg h0, ← hwt]
  rw [hw, State.enterCompleting_eq h1, State.recordCause_eq h]
  refine ⟨?_, ?_, ?_, rfl, ?_, rfl, rfl, ?_, ?_, rfl, rfl⟩
  · exact State.exch_setExch_self _ _ _
  · intro u hu
    refine Eq.trans (State.exch_setExch (s.setExch x (some { e with final := e.finalAfter st v })) x u
      (some { e with state := .completing, retriesUsed := none, deferral := none, final := e.finalAfter st v })) ?_
    rw [if_neg (Ne.symm hu), State.exch_setExch, if_neg (Ne.symm hu)]
  · intro u
    have h2 := State.queueOf_setQueue s e.station u ((s.queueOf e.station).filter (· != x))
    refine Eq.trans h2 ?_
    by_cases hu : e.station = u
    · subst hu; simp
    · rw [if_neg hu, if_neg (Ne.symm hu)]
  · intro u
    have h2 := State.station_modStation s e.station u (fun r =>
      { r with pendingConfigs := r.pendingConfigs.filter (·.tag != x),
               saturation := if e.state.freesRoom then none else r.saturation })
    refine Eq.trans h2 ?_
    by_cases hu : e.station = u
    · subst hu; simp
    · rw [if_neg hu, if_neg (Ne.symm hu)]
  · intro p hp ho
    simp [State.setExch, hp, ho]
  · intro hn
    have : s.payload.any (fun p => p.owner == x) = false := by
      cases hp : s.payload with
      | none => rfl
      | some p => simpa using hn p hp
    simp [State.setExch, this]

/-- R18, R99, R113: entering HALTING, as one update of the fields it reaches. -/
theorem State.enterHalting_eq {s : State} {x : Tag} {e : Exchange} (h : s.exch x = some e) :
    s.enterHalting x =
      { s with
        table := s.table.set x (some { e with state := .halting, retriesUsed := none }),
        stations := if e.state.freesRoom then s.stations.set e.station { s.station e.station with saturation := none }
          else s.stations,
        job := s.job.bind (fun j => if j.tag = x then none else some j),
        payload := s.payload.map (fun p => if p.owner = x then p.halt else p),
        staging := if s.payload.any (fun p => p.owner == x) then Vector.replicate 4 Slot.free else s.staging } := by
  have hm : (s.moveTo x .halting).exch x = some { e with state := .halting } := by
    unfold State.moveTo; rw [h]; dsimp only; split
    · exact State.exch_setExch_self _ _ _
    · exact State.exch_setExch_self _ _ _
  unfold State.enterHalting
  rw [State.modExch_of_some _ hm]
  unfold State.moveTo; rw [h]; dsimp only
  cases hp : s.payload with
  | none =>
    cases hj : s.job with
    | none =>
      by_cases hf : e.state.freesRoom = true <;>
        simp [hf, State.clearSaturation, State.modStation, State.setExch, State.station, hj, hp, State.endJob,
          State.haltPayload]
    | some j =>
      by_cases ht : j.tag = x <;> by_cases hf : e.state.freesRoom = true <;>
        simp [hf, ht, State.clearSaturation, State.modStation, State.setExch, State.station, hj, hp, State.endJob,
          State.haltPayload]
  | some p =>
    cases hj : s.job with
    | none =>
      by_cases ho : p.owner = x <;> by_cases hf : e.state.freesRoom = true <;>
        simp [hf, ho, State.clearSaturation, State.modStation, State.setExch, State.station, hj, hp, State.endJob,
          State.haltPayload]
    | some j =>
      by_cases ho : p.owner = x <;> by_cases ht : j.tag = x <;> by_cases hf : e.state.freesRoom = true <;>
        simp [hf, ho, ht, State.clearSaturation, State.modStation, State.setExch, State.station, hj, hp, State.endJob,
          State.haltPayload]

/-- R18, R99: a cause that takes an exchange to HALTING. -/
theorem State.haltWith_halted {s : State} {x : Tag} {e : Exchange} (h : s.exch x = some e) (st : Status) :
    Halted s (s.haltWith x st) x e st := by
  have h1 : (s.recordCause x st 0).exch x = some { e with final := e.finalAfter st 0 } := by
    rw [State.recordCause_eq h]; simp
  have he : s.haltWith x st =
      { s with
        table := s.table.set x (some { e with state := .halting, retriesUsed := none, final := e.finalAfter st 0 }),
        stations := if e.state.freesRoom then s.stations.set e.station { s.station e.station with saturation := none }
          else s.stations,
        job := s.job.bind (fun j => if j.tag = x then none else some j),
        payload := s.payload.map (fun p => if p.owner = x then p.halt else p),
        staging := if s.payload.any (fun p => p.owner == x) then Vector.replicate 4 Slot.free else s.staging } := by
    unfold State.haltWith
    rw [State.enterHalting_eq h1, State.recordCause_eq h]
    simp only [State.setExch, State.station, Vector.set_set]
    rfl
  rw [he]
  refine ⟨State.exch_setExch_self _ _ _, fun u hu => ?_, fun u => ?_, rfl, fun p hp ho => ?_, fun hn => ?_, rfl⟩
  · have h2 := State.exch_setExch s x u
      (some { e with state := .halting, retriesUsed := none, final := e.finalAfter st 0 })
    rw [if_neg (Ne.symm hu)] at h2; exact h2
  · by_cases hf : e.state.freesRoom = true
    · simp only [hf, if_true, and_true]
      refine Eq.trans (State.station_modStation s e.station u (fun r => { r with saturation := none })) ?_
      by_cases hu : e.station = u
      · subst hu; simp
      · rw [if_neg hu, if_neg (Ne.symm hu)]
    · simp [hf, State.station]
  · simp only [hp]
    exact ⟨by simp [ho], by simp [ho, Payload.halt_eq]⟩
  · have : s.payload.any (fun p => p.owner == x) = false := by
      cases hp : s.payload with
      | none => rfl
      | some p => simpa using hn p hp
    refine ⟨?_, by simp [this]⟩
    cases hp : s.payload with
    | none => rfl
    | some p => simp [hn p hp]

end Sys2Proof.Machine
end

