-- ==== Sys2Proof/Laws/Frame.lean ====
section
/-! SUPPORT. The frame of every operation on the link side (chapters 1 to 8): one lemma per shared operation says that
it leaves device control, both kinds of rings, the messages sent and the queue of commands alone, keeps every
exchange's origin, and keeps the laws of the event queue and of staging. -/

namespace Sys2Proof.Machine

/-- What every operation on the link side does to the rest of the part. -/
structure Inner (s t : State) : Prop where
  device : t.device = s.device
  crings : t.crings = s.crings
  subRings : t.subRings = s.subRings
  vectors : t.vectors = s.vectors
  pending : t.pending = s.pending
  origins : ∀ x, (t.exch x).map (·.ring) = (s.exch x).map (·.ring)
  room : s.RoomOk → t.RoomOk
  staging : s.StagingOk → t.StagingOk

namespace Inner

theorem refl (s : State) : Inner s s := ⟨rfl, rfl, rfl, rfl, rfl, fun _ => rfl, id, id⟩

theorem trans {s t u : State} (a : Inner s t) (b : Inner t u) : Inner s u :=
  ⟨b.device.trans a.device, b.crings.trans a.crings, b.subRings.trans a.subRings, b.vectors.trans a.vectors,
   b.pending.trans a.pending, fun x => (b.origins x).trans (a.origins x), fun h => b.room (a.room h),
   fun h => b.staging (a.staging h)⟩

/-- An update of fields that none of these laws reads. -/
theorem of_rest {s t : State} (h1 : t.device = s.device) (h2 : t.crings = s.crings) (h3 : t.subRings = s.subRings)
    (h4 : t.vectors = s.vectors) (h5 : t.pending = s.pending) (h6 : t.table = s.table)
    (h7 : t.eventQueue = s.eventQueue) (h8 : t.reservation = s.reservation) (h9 : t.payload = s.payload)
    (h10 : t.job = s.job) (h11 : t.staging = s.staging) : Inner s t :=
  ⟨h1, h2, h3, h4, h5, fun x => by simp only [State.exch, h6], fun h => by unfold State.RoomOk at *; rw [h7, h8]; exact h,
   fun h => by unfold State.StagingOk at *; rw [h9, h10, h11]; exact h⟩

/-- An update of the payload side that leaves an owner. -/
theorem of_owned {s t : State} (h1 : t.device = s.device) (h2 : t.crings = s.crings) (h3 : t.subRings = s.subRings)
    (h4 : t.vectors = s.vectors) (h5 : t.pending = s.pending) (h6 : t.table = s.table)
    (h7 : t.eventQueue = s.eventQueue) (h8 : t.reservation = s.reservation) (h9 : s.StagingOk → t.payload ≠ none) :
    Inner s t :=
  ⟨h1, h2, h3, h4, h5, fun x => by simp only [State.exch, h6], fun h => by unfold State.RoomOk at *; rw [h7, h8]; exact h,
   fun hs h => absurd h (h9 hs)⟩

/-- A fold of operations. -/
theorem foldl {α : Type} (f : State → α → State) (hf : ∀ s a, Inner s (f s a)) (l : List α) (s : State) :
    Inner s (l.foldl f s) := by
  induction l generalizing s with
  | nil => exact refl s
  | cons a l ih => exact (hf s a).trans (ih (f s a))

theorem live {s t : State} (h : Inner s t) : t.live = s.live := by unfold State.live; rw [h.device]

theorem exch_none {s t : State} (h : Inner s t) (x : Tag) : t.exch x = none ↔ s.exch x = none := by
  have := h.origins x
  cases h1 : t.exch x <;> cases h2 : s.exch x <;> simp_all

end Inner

/-! ## Updates of one record -/

theorem Inner.setExch {s : State} {t : Tag} {e e' : Exchange} (h : s.exch t = some e) (hr : e'.ring = e.ring) :
    Inner s (s.setExch t (some e')) :=
  ⟨rfl, rfl, rfl, rfl, rfl, fun x => by
    rw [State.exch_setExch]; split
    · rename_i hx; subst hx; simp [h, hr]
    · rfl, id, id⟩

theorem Inner.modExch (s : State) (t : Tag) (f : Exchange → Exchange) (hf : ∀ e, (f e).ring = e.ring) :
    Inner s (s.modExch t f) := by
  unfold State.modExch; split
  · rename_i e h; exact Inner.setExch h (hf e)
  · exact .refl s

theorem Inner.modStation (s : State) (st : StationId) (f : Station → Station) : Inner s (s.modStation st f) :=
  .of_rest rfl rfl rfl rfl rfl rfl rfl rfl rfl rfl rfl

theorem Inner.setQueue (s : State) (st : StationId) (q : List Tag) : Inner s (s.setQueue st q) :=
  .of_rest rfl rfl rfl rfl rfl rfl rfl rfl rfl rfl rfl

theorem Inner.setCurrent (s : State) (r : Option Request) : Inner s { s with current := r } :=
  .of_rest rfl rfl rfl rfl rfl rfl rfl rfl rfl rfl rfl

theorem Inner.setReconnect (s : State) (l : List Tag) : Inner s { s with reconnect := l } :=
  .of_rest rfl rfl rfl rfl rfl rfl rfl rfl rfl rfl rfl

theorem Inner.issue (s : State) (p : Purpose) (a : BitVec 64) (n : Nat) (d : List Byte) : Inner s (s.issue p a n d) :=
  .of_rest rfl rfl rfl rfl rfl rfl rfl rfl rfl rfl rfl

theorem Inner.endAccess (s : State) (id : Nat) : Inner s (s.endAccess id) :=
  .of_rest rfl rfl rfl rfl rfl rfl rfl rfl rfl rfl rfl

theorem Inner.hear {w : Nat} (s : State) (n : Nat) (f : BitVec w) : Inner s (s.hear n f) :=
  .of_rest rfl rfl rfl rfl rfl rfl rfl rfl rfl rfl rfl

theorem Inner.setLaneLow (s : State) (n : Nat) : Inner s { s with laneLow := n } :=
  .of_rest rfl rfl rfl rfl rfl rfl rfl rfl rfl rfl rfl

theorem Inner.quietGap (s : State) : Inner s s.quietGap :=
  .of_rest rfl rfl rfl rfl rfl rfl rfl rfl rfl rfl rfl

theorem Inner.beginGap (s : State) : Inner s s.beginGap :=
  .of_rest rfl rfl rfl rfl rfl rfl rfl rfl rfl rfl rfl

theorem Inner.setPayload (s : State) (p : Payload) : Inner s { s with payload := some p } :=
  .of_owned rfl rfl rfl rfl rfl rfl rfl rfl (fun _ => by simp)

theorem Inner.setSlot {s : State} (h : s.StagingOk → s.payload ≠ none) (i : StageId) (x : Slot) : Inner s (s.setSlot i x) :=
  .of_owned rfl rfl rfl rfl rfl rfl rfl rfl h

theorem Inner.clearReservation (s : State) : Inner s { s with reservation := false } :=
  ⟨rfl, rfl, rfl, rfl, rfl, fun _ => rfl, fun h => by unfold State.RoomOk at *; simp; omega, id⟩

/-! ## Causes and moves (chapter 1) -/

theorem Inner.recordCause (s : State) (t : Tag) (st : Status) (v : Word) : Inner s (s.recordCause t st v) :=
  .modExch s t _ (fun e => by unfold Exchange.record; split <;> rfl)

theorem Inner.clearSaturation (s : State) (st : StationId) : Inner s (s.clearSaturation st) := .modStation s st _

theorem Inner.moveTo (s : State) (t : Tag) (new : ExState) : Inner s (s.moveTo t new) := by
  unfold State.moveTo; split
  · rename_i e h
    have h1 : Inner s (s.setExch t (some { e with state := new })) := Inner.setExch h rfl
    dsimp only
    split
    · exact h1.trans (.clearSaturation _ _)
    · exact h1
  · exact .refl s

/-! ## Waiting lists and events (chapter 10) -/

theorem Inner.joinList (s : State) (c : RingId) (src : Source) : Inner s (s.joinList c src) := by
  unfold State.joinList; split
  · exact .refl s
  · exact .of_rest rfl rfl rfl rfl rfl rfl rfl rfl rfl rfl rfl

theorem Inner.join (s : State) (src : Source) : Inner s (s.join src) := by
  cases src <;> (unfold State.join; dsimp only; repeat' split) <;>
    first | exact .joinList _ _ _ | exact .refl _

theorem Inner.joinTogether (s : State) (xs : List Source) : Inner s (s.joinTogether xs) :=
  Inner.trans (t := { s with freeDraws := s.freeDraws + 1 })
    (.of_rest rfl rfl rfl rfl rfl rfl rfl rfl rfl rfl rfl) (.foldl _ (fun s a => .join s a) _ _)

/-- A record enters the event queue: nothing but the queue's length law is asked of the room. -/
theorem pushEvent_frame (s : State) (e : Event) :
    (s.pushEvent e).eventQueue = s.eventQueue ++ [e] ∧ (s.pushEvent e).reservation = s.reservation
      ∧ (s.pushEvent e).device = s.device ∧ (s.pushEvent e).crings = s.crings
      ∧ (s.pushEvent e).subRings = s.subRings ∧ (s.pushEvent e).vectors = s.vectors
      ∧ (s.pushEvent e).pending = s.pending ∧ (s.pushEvent e).table = s.table
      ∧ (s.pushEvent e).payload = s.payload ∧ (s.pushEvent e).job = s.job
      ∧ (s.pushEvent e).staging = s.staging := by
  unfold State.pushEvent; dsimp only; split
  · unfold State.join; dsimp only; split
    · unfold State.joinList; split <;> and_intros <;> rfl
    · and_intros <;> rfl
  · and_intros <;> rfl

/-! ## What an exchange leaves behind -/

theorem Inner.detach (s : State) (p : Request → Bool) : Inner s (s.detach p) :=
  .of_rest rfl rfl rfl rfl rfl rfl rfl rfl rfl rfl rfl

theorem Inner.releaseLanes (s : State) : Inner s s.releaseLanes :=
  ⟨rfl, rfl, rfl, rfl, rfl, fun _ => rfl, id, fun _ _ => ⟨rfl, rfl⟩⟩

theorem Inner.releaseLanesOf (s : State) (t : Tag) : Inner s (s.releaseLanesOf t) := by
  unfold State.releaseLanesOf; split
  · split
    · exact .releaseLanes s
    · exact .refl s
  · exact .refl s

theorem Inner.dropJob (s : State) : Inner s { s with job := none } :=
  ⟨rfl, rfl, rfl, rfl, rfl, fun _ => rfl, id, fun h hp => ⟨rfl, (h hp).2⟩⟩

theorem Inner.endJob (s : State) (t : Tag) : Inner s (s.endJob t) := by
  unfold State.endJob; split
  · split
    · exact .dropJob s
    · exact .refl s
  · exact .refl s

theorem Inner.leaveQueues (s : State) (t : Tag) (st : StationId) : Inner s (s.leaveQueues t st) :=
  .of_rest rfl rfl rfl rfl rfl rfl rfl rfl rfl rfl rfl

theorem Inner.enterCompleting (s : State) (t : Tag) : Inner s (s.enterCompleting t) := by
  unfold State.enterCompleting; split
  · rename_i e h
    have h1 := (((Inner.leaveQueues s t e.station).trans (.detach _ (fun r => r.owner == .exchange t))).trans
      (.releaseLanesOf _ t)).trans (.endJob _ t)
    dsimp only
    generalize ((((s.leaveQueues t e.station).detach (fun r => r.owner == .exchange t)).releaseLanesOf t).endJob t) = s1 at h1
    have h2 : ∃ e1, s1.exch t = some e1 ∧ e1.ring = e.ring := by
      have := h1.origins t; rw [h] at this
      cases h3 : s1.exch t with
      | none => simp [h3] at this
      | some e1 => exact ⟨e1, rfl, by simpa [h3] using this⟩
    obtain ⟨e1, h3, h4⟩ := h2
    have h5 : Inner s1 (s1.setExch t (some { e with state := .completing, retriesUsed := none, deferral := none })) :=
      .setExch h3 h4.symm
    split
    · exact (h1.trans h5).trans (.clearSaturation _ _)
    · exact h1.trans h5
  · exact .refl s

theorem Inner.complete (s : State) (t : Tag) : Inner s (s.complete t) := (Inner.enterCompleting s t).trans (.join _ _)

theorem Inner.endWith (s : State) (t : Tag) (st : Status) (v : Word) : Inner s (s.endWith t st v) :=
  (Inner.recordCause s t st v).trans (.complete _ _)

/-! ## Halting and stopping a payload -/

theorem Inner.haltPayload (s : State) (t : Tag) : Inner s (s.haltPayload t) := by
  unfold State.haltPayload; split
  · split
    · exact .of_owned rfl rfl rfl rfl rfl rfl rfl rfl (fun _ => by simp)
    · exact .refl s
  · exact .refl s

theorem Inner.enterHalting (s : State) (t : Tag) : Inner s (s.enterHalting t) :=
  (((Inner.moveTo s t .halting).trans (.modExch _ t (fun e => { e with retriesUsed := none }) (fun _ => rfl))).trans
    (.endJob _ t)).trans (.haltPayload _ t)

theorem Inner.haltWith (s : State) (t : Tag) (st : Status) : Inner s (s.haltWith t st) :=
  (Inner.recordCause s t st 0).trans (.enterHalting _ t)

theorem Inner.setQuiet (s : State) (q : Option Nat) : Inner s { s with quiet := q } :=
  .of_rest rfl rfl rfl rfl rfl rfl rfl rfl rfl rfl rfl

theorem Inner.stopWithoutHalt (s : State) (t : Tag) : Inner s (s.stopWithoutHalt t) := by
  unfold State.stopWithoutHalt; split
  · split
    · exact (Inner.releaseLanes s).trans (.setQuiet s.releaseLanes _)
    · exact .refl s
  · exact .refl s

/-! ## Loss and reset of stations -/

theorem Inner.loseExchange (s : State) (t : Tag) (e : Exchange) : Inner s (s.loseExchange t e) := by
  unfold State.loseExchange; split
  · exact .refl s
  · split
    · exact .refl s
    · exact (Inner.stopWithoutHalt s t).trans (.endWith _ t _ _)
  · exact (Inner.stopWithoutHalt s t).trans (.endWith _ t _ _)
  all_goals exact .endWith s t _ _

theorem Inner.loseOne (st : StationId) (s : State) (t : Tag) : Inner s (State.loseOne st s t) := by
  unfold State.loseOne; split
  · split
    · exact .loseExchange s t _
    · exact .refl s
  · exact .refl s

theorem Inner.loseStation (s : State) (st : StationId) : Inner s (s.loseStation st) :=
  (Inner.foldl _ (Inner.loseOne st) (s.queueOf st) s).trans (.foldl _ (Inner.loseOne st) allTags _)

theorem Inner.detachStation (s : State) (st : StationId) : Inner s (s.detachStation st) := by
  refine ⟨rfl, rfl, rfl, rfl, rfl, fun _ => rfl, fun h => ?_, id⟩
  unfold State.RoomOk at *
  unfold State.detachStation
  dsimp only
  split
  · simp [State.detach]; omega
  · exact h

theorem Inner.stationLeaves (s : State) (st : StationId) : Inner s (s.stationLeaves st) :=
  ((Inner.loseStation s st).trans (.detachStation _ st)).trans (.modStation _ st _)

theorem Inner.faultStation (s : State) (st : StationId) (c : StationCause) : Inner s (s.faultStation st c) :=
  (Inner.loseStation s st).trans (.modStation _ st _)

theorem Inner.stationReady (s : State) (st : StationId) (p : BitVec 128) : Inner s (s.stationReady st p) :=
  .modStation s st _

theorem Inner.resetOne (s : State) (t : Tag) : Inner s (s.resetOne t) := by
  unfold State.resetOne; dsimp only; split
  · exact ((Inner.stopWithoutHalt s t).trans (.recordCause _ t _ _)).trans (.enterCompleting _ t)
  · exact (Inner.recordCause s t _ _).trans (.enterCompleting _ t)

theorem Inner.stationResetDone (s : State) (st : StationId) (self : Tag) : Inner s (s.stationResetDone st self) :=
  ((((Inner.enterCompleting s self).trans (.modStation _ st _)).trans
    (.foldl State.resetOne Inner.resetOne _ _))).trans (.joinTogether _ _)

/-! ## Link reset -/

theorem Inner.linkResetOne (s : State) (t : Tag) : Inner s (s.linkResetOne t) := by
  unfold State.linkResetOne; split
  · split
    · exact .endWith s t _ _
    · exact .refl s
  · exact .refl s

/-- The end of a link reset's beginning: queues, reservation, lanes and quiet interval are cleared. -/
theorem Inner.linkResetCleared {s s3 : State} (h3 : Inner s s3) :
    Inner s { ({ s3 with reconnect := [], stray := [], reservation := false } : State).releaseLanes with
                quiet := none } := by
  have h4 : Inner s3 { s3 with reconnect := [], stray := [], reservation := false } :=
    ⟨rfl, rfl, rfl, rfl, rfl, fun _ => rfl, fun h => by unfold State.RoomOk at *; simp; omega, id⟩
  exact ((h3.trans h4).trans (.releaseLanes _)).trans (.setQuiet _ none)

theorem Inner.startLinkReset (s : State) (c : LinkCause) : Inner s (s.startLinkReset c) := by
  have h1 : Inner s { s with linkReset := some c, cl := .signalling 0, current := none, setAside := none,
                             attention := false, pollDue := false, pollTimer := none, laneLow := 0 } :=
    .of_rest rfl rfl rfl rfl rfl rfl rfl rfl rfl rfl rfl
  have h3 := (h1.trans (.foldl State.linkResetOne Inner.linkResetOne allTags _)).trans
    (.foldl (fun (a : State) st => a.modStation st Station.atLinkReset) (fun a st => .modStation a st _) allStations _)
  have h5 := Inner.linkResetCleared h3
  unfold State.startLinkReset
  by_cases hr : s.linkReset.isSome = true
  · rw [if_pos hr]; exact .refl s
  · rw [if_neg hr]
    by_cases hc : c = .startUp
    · simp only [if_pos hc]; exact h5
    · simp only [if_neg hc]; exact h5.trans (.of_rest rfl rfl rfl rfl rfl rfl rfl rfl rfl rfl rfl)

end Sys2Proof.Machine
end

