-- ==== Sys2Proof/Laws/MoverFrame.lean ====
section
/-! SUPPORT. The frame of the data mover's operations (chapter 6) and of the profile short path. -/

namespace Sys2Proof.Machine

/-! ## The payload job: it runs only while an exchange owns the lanes -/

/-- The law of staging: a job is present only while an exchange owns the lanes. -/
theorem State.owned_of_job {s : State} {j : Job} (hj : s.job = some j) (hs : s.StagingOk) : s.payload ≠ none := by
  intro h; have := (hs h).1; rw [hj] at this; cases this

theorem Inner.syncCursor (s : State) (t : Tag) (w : Walk) : Inner s (s.syncCursor t w) := .modExch s t _ (fun _ => rfl)

theorem modExch_payload (s : State) (t : Tag) (f : Exchange → Exchange) : (s.modExch t f).payload = s.payload := by
  unfold State.modExch; split <;> rfl

theorem Inner.setWalk {s : State} (h : s.StagingOk → s.payload ≠ none) (j : Job) (w : Walk) : Inner s (s.setWalk j w) :=
  Inner.trans (t := { s with job := some { j with walk := w } })
    (.of_owned rfl rfl rfl rfl rfl rfl rfl rfl h) (.syncCursor _ _ _)

theorem setWalk_payload (s : State) (j : Job) (w : Walk) : (s.setWalk j w).payload = s.payload := modExch_payload _ _ _

theorem setWalk_job (s : State) (j : Job) (w : Walk) : (s.setWalk j w).job = some { j with walk := w } := by
  unfold State.setWalk State.syncCursor State.modExch; split <;> rfl

theorem Inner.lookAhead {s : State} (h : s.StagingOk → s.payload ≠ none) (j : Job) (w : Walk) : Inner s (s.lookAhead j w) := by
  unfold State.lookAhead; split
  · exact (Inner.setWalk h j _).trans (.issue _ _ _ _ _)
  · exact .setWalk h j w

theorem Inner.moverFault (s : State) (t : Tag) (st : Status) : Inner s (s.moverFault t st) := by
  unfold State.moverFault
  have h := Inner.endJob s t
  dsimp only
  split
  · split
    · split
      · exact h.trans (.endWith _ t st 0)
      · exact h.trans (.haltWith _ t st)
    · exact h
  · exact h

theorem Inner.jobNeed {s : State} (h : s.StagingOk → s.payload ≠ none) (j : Job) (n : Need) : Inner s (s.jobNeed j n) := by
  cases n with
  | ready w => exact .lookAhead h j w
  | read w addr => exact (Inner.setWalk h j w).trans (.issue _ _ _ _ _)
  | wait w => exact .setWalk h j w
  | fault st => exact .moverFault s j.tag st

theorem Inner.needDescriptor {s : State} (h : s.StagingOk → s.payload ≠ none) (j : Job) : Inner s (s.needDescriptor j) := by
  unfold State.needDescriptor; split
  · exact .jobNeed h j _
  · exact .refl s

theorem Inner.placeAccess {s : State} (h : s.StagingOk → s.payload ≠ none) (j : Job) (b : InHand) : Inner s (s.placeAccess j b) := by
  unfold State.placeAccess; dsimp only; split
  · exact (Inner.setWalk h _ _).trans (.issue _ _ _ _ _)
  · exact (Inner.setWalk h _ _).trans (.issue _ _ _ _ _)

theorem Inner.pump (fuel : Nat) (s : State) : Inner s (State.pump fuel s) := by
  induction fuel generalizing s with
  | zero => exact .refl s
  | succ fuel ih =>
    unfold State.pump
    split
    · exact .refl s
    · rename_i j hj
      split
      · exact .refl s
      · split
        · exact .refl s
        · rename_i b _
          split
          · exact .refl s
          · split
            · exact (Inner.needDescriptor (State.owned_of_job hj) j).trans (ih _)
            · exact (Inner.placeAccess (State.owned_of_job hj) j b).trans (ih _)

theorem Inner.startJob {s : State} (h : s.StagingOk → s.payload ≠ none) (t : Tag) (d : Direction) (b n : Nat) :
    Inner s (s.startJob t d b n) := by
  unfold State.startJob; dsimp only; split
  · refine (Inner.setWalk h _ _).trans (.needDescriptor ?_ _)
    exact State.owned_of_job (setWalk_job s _ _)
  · exact .refl s

theorem Inner.jobDescriptor (s : State) (t : Tag) (d : Descriptor) : Inner s (s.jobDescriptor t d) := by
  unfold State.jobDescriptor
  split
  · rename_i j hj
    have ho := State.owned_of_job hj
    split
    · split
      · split
        · exact (Inner.jobNeed ho j _).trans (.pump _ _)
        · split
          · exact .setWalk ho j _
          · exact .refl s
      · exact .refl s
    · exact .refl s
  · exact .refl s

theorem Inner.jobDescriptorFault (s : State) (t : Tag) : Inner s (s.jobDescriptorFault t) := by
  unfold State.jobDescriptorFault
  split
  · rename_i j hj
    split
    · split
      · exact .moverFault s t _
      · split
        · exact .setWalk (State.owned_of_job hj) j _
        · exact .refl s
    · exact .refl s
  · exact .refl s

/-! ## Blocks -/

theorem Inner.settlePhase (s : State) : Inner s s.settlePhase := by
  unfold State.settlePhase; split
  · exact .setPayload s _
  · exact .refl s

theorem Inner.readDrained (s : State) (t : Tag) : Inner s (s.readDrained t) := by
  unfold State.readDrained; split
  · split
    · exact .endWith s t _ _
    · exact .refl s
  · exact .refl s

/-- The job and a slot change while an exchange owns the lanes. -/
theorem Inner.jobSlot {s : State} (h : s.StagingOk → s.payload ≠ none) (j : Option Job) (i : StageId) (x : Slot) :
    Inner s (({ s with job := j } : State).setSlot i x) :=
  .of_owned rfl rfl rfl rfl rfl rfl rfl rfl h

theorem Inner.slotDrained {s : State} (h : s.StagingOk → s.payload ≠ none) (j : Job) (b : InHand) :
    Inner s (s.slotDrained j b) := by
  unfold State.slotDrained; dsimp only
  have h1 := (Inner.jobSlot h (some { j with nextBlock := j.nextBlock + 1, inHand := none }) b.slot Slot.free).trans
    (.settlePhase _)
  split
  · exact h1.trans (.readDrained _ _)
  · exact h1

theorem Inner.slotLoaded {s : State} (h : s.StagingOk → s.payload ≠ none) (j : Job) (b : InHand) :
    Inner s (s.slotLoaded j b) := (Inner.jobSlot h _ _ _).trans (.settlePhase _)

theorem Inner.blockProgress (s : State) (t : Tag) : Inner s (s.blockProgress t) := by
  unfold State.blockProgress
  split
  · rename_i j hj
    have ho := State.owned_of_job hj
    split
    · split
      · dsimp only
        split
        · split
          · exact .slotDrained ho j _
          · exact .slotLoaded ho j _
        · exact .of_owned rfl rfl rfl rfl rfl rfl rfl rfl ho
      · exact .refl s
    · exact .refl s
  · exact .refl s

theorem Inner.fillSlot (s : State) (t : Tag) (b o : Nat) (d : List Byte) : Inner s (s.fillSlot t b o d) := by
  unfold State.fillSlot
  split
  · rename_i j hj
    dsimp only
    split
    · exact .setSlot (State.owned_of_job hj) _ _
    · exact .refl s
  · exact .refl s

theorem Inner.addBytes (s : State) (t : Tag) (n : Nat) : Inner s (s.addBytes t n) := .modExch s t _ (fun _ => rfl)

/-! ## The profile short path -/

theorem Inner.setProfiles (s : State) (l : List ProfileJob) : Inner s { s with profiles := l } :=
  .of_rest rfl rfl rfl rfl rfl rfl rfl rfl rfl rfl rfl

theorem Inner.setProfileJob (s : State) (j : ProfileJob) : Inner s (s.setProfileJob j) :=
  (Inner.setProfiles s (j :: s.profiles.tail)).trans (.syncCursor _ _ _)

theorem Inner.endProfileJob (s : State) (t : Tag) (st : Status) : Inner s (s.endProfileJob t st) := by
  unfold State.endProfileJob; dsimp only
  split
  · exact (((Inner.setProfiles s _).trans (.modExch _ t (fun e => { e with bytesMoved := some 16 }) (fun _ => rfl))).trans (.recordCause _ t st 0)).trans (.join _ _)
  · exact ((Inner.setProfiles s _).trans (.recordCause _ t st 0)).trans (.join _ _)

theorem Inner.profileNeed (s : State) (j : ProfileJob) (n : Need) : Inner s (s.profileNeed j n) := by
  cases n with
  | ready w => exact .setProfileJob s _
  | read w addr => exact (Inner.setProfileJob s _).trans (.issue _ _ _ _ _)
  | wait w => exact .setProfileJob s _
  | fault st => exact .endProfileJob s j.tag st

theorem Inner.profilePump (fuel : Nat) (s : State) : Inner s (State.profilePump fuel s) := by
  induction fuel generalizing s with
  | zero => exact .refl s
  | succ fuel ih =>
    unfold State.profilePump
    split
    · exact .refl s
    · rename_i j _ _
      split
      · exact .refl s
      · split
        · split
          · dsimp only
            split
            · exact .profileNeed s j _
            · exact (Inner.profileNeed s j _).trans (ih _)
          · exact .refl s
        · exact ((Inner.setProfileJob s _).trans (.issue _ _ _ _ _)).trans (ih _)

theorem Inner.profileDescriptor (s : State) (t : Tag) (d : Descriptor) : Inner s (s.profileDescriptor t d) := by
  unfold State.profileDescriptor
  split
  · exact .refl s
  · split
    · split
      · dsimp only
        split
        · exact .profileNeed s _ _
        · exact (Inner.profileNeed s _ _).trans (.profilePump _ _)
      · exact .refl s
    · exact .refl s

theorem Inner.profileFault (s : State) (t : Tag) : Inner s (s.profileFault t) := by
  unfold State.profileFault
  split
  · exact .refl s
  · split
    · exact .endProfileJob s t _
    · exact .refl s

theorem Inner.profileProgress (s : State) (t : Tag) : Inner s (s.profileProgress t) := by
  unfold State.profileProgress
  split
  · exact .refl s
  · split
    · split
      · exact .endProfileJob s t _
      · exact .setProfileJob s _
    · exact .refl s

end Sys2Proof.Machine
end

