-- ==== Sys2Proof/Laws/LinkFrame.lean ====
section
/-! SUPPORT. The frame of the payload engine, the command lane engine, the notice unit and the stations (chapters 2
to 5 and 7), and of every command that works on the link side alone. -/

namespace Sys2Proof.Machine

/-! ## The payload engine -/

theorem Inner.modPayload (s : State) (f : Payload → Payload) : Inner s (s.modPayload f) := by
  unfold State.modPayload; split
  · exact .setPayload s _
  · exact .refl s

theorem Inner.setCl (s : State) (c : Lane) : Inner s { s with cl := c } :=
  .of_rest rfl rfl rfl rfl rfl rfl rfl rfl rfl rfl rfl

theorem Inner.setAttention (s : State) (b : Bool) : Inner s { s with attention := b } :=
  .of_rest rfl rfl rfl rfl rfl rfl rfl rfl rfl rfl rfl

theorem Inner.acceptTransfer (s : State) (t : Tag) (e : Exchange) : Inner s (s.acceptTransfer t e) :=
  (((Inner.moveTo s t .transfer).trans (.modExch _ t (Exchange.accepted .transfer) (fun _ => rfl))).trans
    (.setPayload _ _)).trans (.startJob (fun _ => by simp) t _ _ _)

theorem Inner.acceptHalted (s : State) (t : Tag) (e : Exchange) : Inner s (s.acceptHalted t e) :=
  ((Inner.moveTo s t .halting).trans (.modExch _ t (Exchange.accepted .halting) (fun _ => rfl))).trans
    (.setPayload _ _)

/-- A slot and the payload change together while an exchange owns the lanes. -/
theorem Inner.slotPayload (s : State) (i : StageId) (x : Slot) (p : Payload) :
    Inner s { s.setSlot i x with payload := some p } :=
  .of_owned rfl rfl rfl rfl rfl rfl rfl rfl (fun _ => by simp)

/-- A slot changes while an exchange owns the lanes. -/
theorem Inner.slotOf {s : State} {p : Payload} (h : s.payload = some p) (i : StageId) (x : Slot) :
    Inner s (s.setSlot i x) := .setSlot (fun _ => by simp [h]) i x

theorem Inner.goodReadBlock {s : State} {p : Payload} (h : s.payload = some p) (d : List Byte) :
    Inner s (s.goodReadBlock p d) := by
  unfold State.goodReadBlock; dsimp only
  exact (((Inner.slotOf h p.pos _).trans (.modExch _ p.owner _ (fun e => by dsimp only))).trans (.setPayload _ _)).trans
    (.settlePhase _)

theorem Inner.badReadBlock {s : State} {p : Payload} (h : s.payload = some p) : Inner s (s.badReadBlock p) := by
  unfold State.badReadBlock; split
  · exact .slotPayload s _ _ _
  · exact (Inner.setPayload s _).trans (.haltWith _ _ _)

theorem Inner.readBlock (s : State) (lanes : List (List Byte)) (check : Word) : Inner s (s.readBlock lanes check) := by
  unfold State.readBlock; split
  · rename_i p hp
    split <;> try exact .refl s
    · dsimp only; split
      · exact .goodReadBlock hp _
      · exact .badReadBlock hp
    · split <;> first | exact .refl s | exact .setPayload s _
  · exact .refl s

theorem Inner.keepBlock {s : State} {p : Payload} (h : s.payload = some p) : Inner s (s.keepBlock p) := by
  unfold State.keepBlock; dsimp only
  exact ((Inner.slotOf h p.pos _).trans (.modExch _ p.owner _ (fun e => by dsimp only))).trans (.setPayload _ _)

theorem Inner.writeDone (s : State) (t : Tag) : Inner s (s.writeDone t) :=
  (Inner.modExch s t (fun e => { e with linkFinished := some true }) (fun _ => rfl)).trans (.endWith _ t _ _)

theorem Inner.nextBlock (s : State) : Inner s s.nextBlock := (Inner.modPayload s _).trans (.settlePhase _)

theorem Inner.tokenAgain (s : State) (p : Payload) (k : FailKind) (b : Bool) : Inner s (s.tokenAgain p k b) := by
  unfold State.tokenAgain; split
  · dsimp only; split
    · exact (Inner.setPayload s _).trans (.setCl _ _)
    · exact .setPayload s _
  · exact .haltWith s _ _

theorem Inner.tokenInWait {s : State} {p : Payload} (h : s.payload = some p) (tok : Token) :
    Inner s (s.tokenInWait p tok) := by
  unfold State.tokenInWait; split
  · exact .tokenAgain s p _ _
  · split
    · split
      · unfold State.tokenKept; dsimp only; split
        · exact (Inner.keepBlock h).trans (.writeDone _ _)
        · exact (Inner.keepBlock h).trans (.nextBlock _)
      · unfold State.tokenResend; split
        · exact .setPayload s _
        · exact .haltWith s _ _
      · exact .endWith s _ _ _
      · exact (Inner.keepBlock h).trans (.modPayload _ _)
      · exact .haltWith s _ _
      · exact .haltWith s _ _
    · exact .tokenAgain s p _ _

theorem Inner.tokenInHold (s : State) (p : Payload) (tok : Token) : Inner s (s.tokenInHold p tok) := by
  unfold State.tokenInHold; split
  · exact .setAttention s _
  · split
    · split <;> try exact .haltWith s _ _
      unfold State.tokenReleased; split
      · exact .writeDone s _
      · exact .nextBlock s
    · exact .refl s

theorem Inner.takeToken (s : State) (tok : Token) : Inner s (s.takeToken tok) := by
  unfold State.takeToken; split
  · exact .refl s
  · rename_i p hp
    split <;> try exact .refl s
    · exact .tokenInWait hp tok
    · exact .tokenInHold s p tok
    · unfold State.tokenInHalted; split
      · exact .setAttention s _
      · exact .refl s

theorem Inner.tokenWindowOver (s : State) : Inner s s.tokenWindowOver := by
  unfold State.tokenWindowOver; split
  · split
    · exact (Inner.quietGap s).trans (.tokenAgain _ _ _ _)
    all_goals exact .quietGap s
  · exact .quietGap s

/-! ## Choosing a request -/

theorem Inner.beginFrame (s : State) (r : Request) : Inner s (s.beginFrame r) :=
  .of_rest rfl rfl rfl rfl rfl rfl rfl rfl rfl rfl rfl

theorem Inner.beginPoll (s : State) (r : Request) : Inner s (s.beginPoll r) :=
  .of_rest rfl rfl rfl rfl rfl rfl rfl rfl rfl rfl rfl

theorem Inner.issueHead {s : State} {t : Tag} {e : Exchange} (st : StationId) (h : s.exch t = some e) :
    Inner s (s.issueHead st t e) := by
  unfold State.issueHead
  refine ((Inner.setQueue s st _).trans (.setExch (e := e) h ?_)).trans (.beginFrame _ _)
  rfl

theorem Inner.beginFor (s : State) (t : Tag) (k : RequestKind) : Inner s (s.beginFor t k) := by
  unfold State.beginFor; split
  · rename_i e h
    refine (Inner.setExch (e := e) h ?_).trans (.beginFrame _ _)
    rfl
  · exact .refl s

theorem Inner.beginResume (s : State) (t : Tag) : Inner s (s.beginResume t) := by
  unfold State.beginResume; split
  · exact (((Inner.setReconnect s _).trans (.moveTo _ t _)).trans
      (.modExch _ t (fun x => { x with retriesUsed := some 0 }) (fun _ => rfl))).trans (.beginFrame _ _)
  · exact .refl s

/-- R119: the fetch reservation is set where the event queue holds fewer than 8 records. -/
theorem Inner.beginCandidate (s : State) (c : Candidate)
    (h : ∀ st, c = .fetch st → s.RoomOk → s.eventQueue.length < 8) : Inner s (s.beginCandidate c) := by
  cases c with
  | halt t => exact .beginFor s t _
  | withdraw t => exact .beginFor s t _
  | stray st t => exact .beginFrame s _
  | reset st t =>
    simp only [State.beginCandidate]; split
    · rename_i e he; exact .issueHead st he
    · exact .refl s
  | autoIdentify st => exact (Inner.modStation s st _).trans (.beginFrame _ _)
  | poll => exact .beginPoll s _
  | fetch st =>
    refine ⟨rfl, rfl, rfl, rfl, rfl, fun _ => rfl, fun hr => ?_, id⟩
    have := h st rfl hr
    unfold State.RoomOk
    simp only [State.beginCandidate, State.beginFrame, Bool.toNat_true]
    omega
  | resume t => exact .beginResume s t
  | queue st t =>
    simp only [State.beginCandidate]; split
    · rename_i e he
      exact (Inner.issueHead st he).trans (.of_rest rfl rfl rfl rfl rfl rfl rfl rfl rfl rfl rfl)
    · exact .refl s

theorem Inner.dropStray (s : State) : Inner s s.dropStray := .of_rest rfl rfl rfl rfl rfl rfl rfl rfl rfl rfl rfl

theorem Inner.choose (s : State) : Inner s s.choose.1 := by
  unfold State.choose; split
  · exact .refl s
  · split
    · exact .refl s
    · split
      · exact .refl s
      · exact .dropStray s

/-- R64 priority 6: a FETCH_NOTICE is a candidate only while the event queue holds fewer than 8 records. -/
theorem fetchCandidate_room (s : State) {c : Candidate} (h : s.fetchCandidate = some c) : s.eventQueue.length < 8 := by
  unfold State.fetchCandidate at h; split at h
  · rename_i h1; exact h1.1
  · cases h

/-- A FETCH_NOTICE is chosen only while the event queue holds fewer than 8 records. -/
theorem choose_fetch_room (s : State) {st : StationId} (h : s.choose.2 = some (.fetch st)) :
    s.choose.1.eventQueue.length < 8 := by
  unfold State.choose at *
  cases h1 : s.haltCandidate with
  | some c =>
    simp only [h1] at h
    cases h
    simp [State.haltCandidate, Option.map_eq_some_iff] at h1
  | none =>
    simp only [h1] at h ⊢
    split at h
    · cases h
    · rename_i hw
      rw [if_neg hw]
      cases h2 : s.withdrawCandidate with
      | some c =>
        simp only [h2] at h
        cases h
        simp [State.withdrawCandidate, Option.map_eq_some_iff] at h2
      | none =>
        simp only [h2] at h ⊢
        simp only [State.laterCandidate, Option.or_eq_some_iff] at h
        rcases h with h | ⟨_, h | ⟨_, h | ⟨_, h | ⟨_, h | ⟨_, h | ⟨_, h⟩⟩⟩⟩⟩⟩
        · simp [State.strayCandidate, Option.map_eq_some_iff] at h
        · simp only [State.resetCandidate] at h
          obtain ⟨x, -, h⟩ := List.exists_of_findSome?_eq_some h
          split at h <;> try cases h
          split at h <;> cases h
        · simp [State.identifyCandidate, Option.map_eq_some_iff] at h
        · simp only [State.pollCandidate] at h; split at h <;> cases h
        · exact fetchCandidate_room _ h
        · simp only [State.resumeCandidate] at h
          split at h <;> try cases h
          split at h <;> try cases h
          split at h <;> cases h
        · simp only [State.queueCandidate] at h
          obtain ⟨x, -, h⟩ := List.exists_of_findSome?_eq_some h
          split at h <;> try cases h
          split at h <;> cases h

theorem Inner.chooseAndBegin (s : State) : Inner s s.chooseAndBegin := by
  unfold State.chooseAndBegin
  have h1 := Inner.choose s
  have h2 := @choose_fetch_room s
  generalize s.choose = x at h1 h2
  obtain ⟨s', c⟩ := x
  cases c with
  | none => exact h1
  | some c =>
    refine h1.trans (.beginCandidate s' c ?_)
    rintro st rfl _; exact h2 rfl

theorem Inner.beginAbandoned (s : State) (r : Request) : Inner s (s.beginAbandoned r) := by
  unfold State.beginAbandoned; split
  · exact .beginPoll s r
  · split
    · exact .of_rest rfl rfl rfl rfl rfl rfl rfl rfl rfl rfl rfl
    · exact .beginFrame s r

end Sys2Proof.Machine
end

