-- ==== Sys2Proof/Laws/ReplyFrame.lean ====
section
/-! SUPPORT. The frame of what a reply, a profile or a failed attempt brings to the owner of a request (chapters 1, 3,
4, 7 and 8). -/

namespace Sys2Proof.Machine

/-! ## Stations -/

theorem Inner.setNotices (s : State) (st : StationId) (n : Nat) : Inner s (s.setNotices st n) := by
  unfold State.setNotices; split
  · exact .refl s
  · exact .modStation s st _

theorem Inner.handCount (s : State) (rep : Reply) : Inner s (s.handCount rep) := by
  unfold State.handCount; split
  · exact .setNotices s _ _
  · exact .refl s

theorem Inner.setSaturated (s : State) (st : StationId) : Inner s (s.setSaturated st) := .modStation s st _

theorem Inner.applySettings (s : State) (e : Exchange) : Inner s (s.applySettings e) := by
  unfold State.applySettings; split
  · exact .modStation s _ _
  · exact .refl s

theorem Inner.stationProfile (s : State) (st : StationId) (p : BitVec 128) : Inner s (s.stationProfile st p) := by
  unfold State.stationProfile; split <;> try exact .refl s
  · split
    · exact .stationReady s st p
    · exact .refl s
  · split
    · exact .modStation s st _
    · exact .faultStation s st _

theorem Inner.judgeProfile (s : State) (st : StationId) (p : BitVec 128) : Inner s (s.judgeProfile st p) := by
  unfold State.judgeProfile; split
  · split
    · exact .stationReady s st p
    · exact .faultStation s st _
  · exact .refl s

theorem Inner.identifyFailed (s : State) (st : StationId) : Inner s (s.identifyFailed st) := by
  unfold State.identifyFailed; split
  · exact .faultStation s st _
  · exact .refl s

theorem Inner.noticeFailed (s : State) (st : StationId) : Inner s (s.noticeFailed st) := by
  unfold State.noticeFailed; dsimp only; split
  · exact (Inner.clearReservation s).trans (.faultStation _ st _)
  · exact .clearReservation s

/-! ## Exchanges -/

theorem Inner.busyRequeue (s : State) (t : Tag) (e : Exchange) : Inner s (s.busyRequeue t e) :=
  ((Inner.modExch s t (fun x => { x with state := .queued, retriesUsed := none }) (fun _ => rfl)).trans
    (.setQueue _ _ _)).trans (.setSaturated _ _)

theorem Inner.deferred (s : State) (t : Tag) (n : Nat) : Inner s (s.modExch t (Exchange.deferredFor n)) :=
  .modExch s t _ (fun _ => rfl)

theorem Inner.withdrawn (s : State) (t : Tag) : Inner s (s.modExch t Exchange.withdrawn) :=
  .modExch s t _ (fun _ => rfl)

theorem Inner.answerIssue (s : State) (t : Tag) (e : Exchange) (v : Word) (o : ReplyOutcome) :
    Inner s (s.answerIssue t e v o) := by
  cases o <;> simp only [State.answerIssue]
  · split
    · exact .endWith s t _ _
    · exact .endWith s t _ _
    · exact (Inner.applySettings s e).trans (.endWith _ t _ _)
    · exact (Inner.recordCause s t _ _).trans (.stationResetDone _ _ _)
    all_goals exact .endWith s t _ _
  · split
    · exact .acceptTransfer s t e
    · exact .endWith s t _ _
  · split
    · exact .deferred s t _
    · exact .endWith s t _ _
  · split
    · exact .busyRequeue s t e
    · exact .endWith s t _ _
  · exact .endWith s t _ _
  · exact .endWith s t _ _

theorem Inner.answerMarkedIssue (s : State) (t : Tag) (e : Exchange) (o : ReplyOutcome) :
    Inner s (s.answerMarkedIssue t e o) := by
  cases o <;> simp only [State.answerMarkedIssue]
  · split
    · exact (Inner.applySettings s e).trans (.complete _ t)
    · exact .stationResetDone s _ _
    all_goals exact .complete s t
  · split
    · exact .acceptHalted s t e
    · exact .complete s t
  · split
    · exact .withdrawn s t
    · exact .complete s t
  · split
    · exact (Inner.setSaturated s _).trans (.complete _ t)
    · exact .complete s t
  · exact .complete s t
  · exact .complete s t

theorem Inner.answerResume (s : State) (t : Tag) (e : Exchange) (o : ReplyOutcome) : Inner s (s.answerResume t e o) := by
  cases o <;> simp only [State.answerResume]
  · exact .endWith s t _ _
  · exact .acceptTransfer s t e
  · exact .deferred s t _
  · exact (Inner.modExch s t (fun x => { x with state := .reconnecting, retriesUsed := none }) (fun _ => rfl)).trans
      (.setReconnect _ _)
  · exact .endWith s t _ _
  · exact .endWith s t _ _

theorem Inner.answerMarkedResume (s : State) (t : Tag) (e : Exchange) (o : ReplyOutcome) :
    Inner s (s.answerMarkedResume t e o) := by
  cases o <;> simp only [State.answerMarkedResume]
  · exact .complete s t
  · exact .acceptHalted s t e
  · exact .withdrawn s t
  · exact .withdrawn s t
  · exact .complete s t
  · exact .complete s t

theorem Inner.answerExchange (s : State) (t : Tag) (o : ReplyOutcome) (v : Word) : Inner s (s.answerExchange t o v) := by
  unfold State.answerExchange; split
  · split <;> try exact .refl s
    · split
      · exact .answerMarkedIssue s t _ o
      · exact .answerIssue s t _ v o
    · split
      · exact .answerMarkedResume s t _ o
      · exact .answerResume s t _ o
    · exact .complete s t
    · exact .complete s t
  · exact .refl s

theorem Inner.identifyDone (s : State) (t : Tag) (p : BitVec 128) : Inner s (s.identifyDone t p) := by
  unfold State.identifyDone; split
  · split
    · split
      · exact (Inner.complete s t).trans (.stationProfile _ _ _)
      · split
        · exact ((Inner.enterCompleting s t).trans (.setProfiles _ _)).trans (.stationProfile _ _ _)
        · exact (Inner.enterCompleting s t).trans (.stationProfile _ _ _)
    · exact .refl s
  · exact .refl s

/-! ## Notices -/

theorem Inner.setStray (s : State) (l : List (StationId × Tag)) : Inner s { s with stray := l } :=
  .of_rest rfl rfl rfl rfl rfl rfl rfl rfl rfl rfl rfl

theorem Inner.addStray (s : State) (st : StationId) (t : Tag) : Inner s (s.addStray st t) := by
  unfold State.addStray; split
  · exact .refl s
  · exact .setStray s _

theorem Inner.matchReady (s : State) (st : StationId) (t : Tag) : Inner s (s.matchReady st t) := by
  unfold State.matchReady; split
  · split
    · split
      · split
        · exact .addStray s st t
        · exact ((Inner.moveTo s t _).trans (.modExch _ t (fun x => { x with deferral := none }) (fun _ => rfl))).trans
            (.setReconnect _ _)
      · exact .refl s
      · exact .refl s
      · exact .refl s
      all_goals exact .addStray s st t
    · exact .addStray s st t
  · exact .addStray s st t

/-- R119, R128: the alert takes the place that was held for it. -/
theorem Inner.takeAlert (s : State) (st : StationId) (code : Byte) : Inner s (s.takeAlert st code) := by
  unfold State.takeAlert; split
  · rename_i hr
    obtain ⟨h1, h2, h3, h4, h5, h6, h7, h8, h9, h10, h11⟩ :=
      pushEvent_frame { s with reservation := false } (.stationAlert st code)
    refine ⟨h3, h4, h5, h6, h7, fun x => by simp only [State.exch, h8], fun h => ?_, fun h => ?_⟩
    · unfold State.RoomOk at *
      rw [h1, h2]; simp_all
    · unfold State.StagingOk at *
      rw [h9, h10, h11]; exact h
  · exact .refl s

theorem Inner.fetchAnswered (s : State) (st : StationId) (o : ReplyOutcome) (v : Word) :
    Inner s (s.fetchAnswered st o v) := by
  cases o <;> simp only [State.fetchAnswered] <;> try exact .noticeFailed s st
  split
  · exact .clearReservation s
  · exact (Inner.clearReservation s).trans (.matchReady _ _ _)
  · exact .takeAlert s st _
  · exact .noticeFailed s st

/-! ## Delivery, failure and exhaustion -/

theorem Inner.deliver (s : State) (r : Request) (o : ReplyOutcome) (v : Word) : Inner s (s.deliver r o v) := by
  unfold State.deliver; dsimp only
  have h := Inner.setCurrent s none
  split
  · exact h
  · split
    · exact h.trans (.answerExchange _ _ _ _)
    · exact h.trans (.identifyFailed _ _)
    · exact h.trans (.fetchAnswered _ _ _ _)
    · exact h.trans (.setStray _ _)
    · exact h

theorem Inner.deliverProfile (s : State) (r : Request) (p : BitVec 128) : Inner s (s.deliverProfile r p) := by
  unfold State.deliverProfile; dsimp only
  have h := Inner.setCurrent s none
  split
  · exact h
  · split
    · exact h.trans (.identifyDone _ _ _)
    · exact h.trans (.judgeProfile _ _ _)
    all_goals exact h

theorem Inner.exhausted (s : State) (r : Request) (k : FailKind) : Inner s (s.exhausted r k) := by
  unfold State.exhausted; dsimp only
  have h := Inner.setCurrent s none
  split
  · split
    · exact h.trans (.startLinkReset _ _)
    · exact h.trans (.startLinkReset _ _)
    all_goals exact h.trans (.endWith _ _ _ _)
  · exact h.trans (.identifyFailed _ _)
  · exact h.trans (.noticeFailed _ _)
  · exact h.trans (.setStray _ _)
  · exact h

theorem Inner.countRetry (s : State) (r : Request) (n : Nat) : Inner s (s.countRetry r n) := by
  unfold State.countRetry; split
  · exact .modExch s _ _ (fun _ => rfl)
  · exact .modStation s _ _
  all_goals exact .refl s

theorem Inner.retryOrExhaust (s : State) (r : Request) (k : FailKind) : Inner s (s.retryOrExhaust r k) := by
  unfold State.retryOrExhaust; split
  · exact .setCurrent s none
  · split
    · exact (Inner.setCurrent s _).trans (.countRetry _ _ _)
    · exact .exhausted s r k

theorem Inner.windowOver (s : State) (r : Request) : Inner s (s.windowOver r) := by
  unfold State.windowOver; split
  · exact .setCurrent s none
  · split
    · exact (Inner.setCurrent s none).trans (.complete _ _)
    · exact .retryOrExhaust s r _

theorem Inner.startInterval (s : State) (r : Option Request) (c : Lane) : Inner s { s with current := r, cl := c } :=
  .of_rest rfl rfl rfl rfl rfl rfl rfl rfl rfl rfl rfl

theorem Inner.takeReply (s : State) (r : Request) (rep : Option Reply) : Inner s (s.takeReply r rep) := by
  unfold State.takeReply; split
  · split
    · exact .startInterval s _ _
    · exact (Inner.beginGap s).trans (.retryOrExhaust _ _ _)
  · rename_i p
    dsimp only
    have h := Inner.handCount s p
    split
    · exact h.trans (.startInterval _ _ _)
    · split
      · exact (h.trans (.beginGap _)).trans (.deliver _ _ _ _)
      · exact (h.trans (.beginGap _)).trans (.retryOrExhaust _ _ _)

theorem Inner.takeProfile (s : State) (r : Request) (u : ProfileUse) (f : BitVec 144) :
    Inner s (s.takeProfile r u f) := by
  unfold State.takeProfile; split
  · exact (Inner.beginGap s).trans (.retryOrExhaust _ _ _)
  · split
    · exact (Inner.beginGap s).trans (.deliverProfile _ _ _)
    · exact (Inner.beginGap s).trans (.retryOrExhaust _ _ _)

theorem Inner.hearToken (s : State) (f : BitVec 32) (tok : Token) : Inner s (s.hearToken f tok) := by
  unfold State.hearToken; split
  · exact .startLinkReset s _
  · exact ((Inner.hear s 1 f).trans (.beginGap _)).trans (.takeToken _ _)

theorem Inner.tokenReceived (s : State) (f : BitVec 32) (tok : Token) : Inner s (s.tokenReceived f tok) := by
  unfold State.tokenReceived; split
  · split
    · exact (Inner.setLaneLow s 0).trans (.takeReply _ _ _)
    · split
      · exact .hearToken s f tok
      · exact .refl s
  · exact .refl s

end Sys2Proof.Machine
end

