-- ==== Sys2Proof/Laws/LinkCommands.lean ====
section
/-! SUPPORT. Every command of the link side answers a next state and keeps the frame of `Inner`. -/

namespace Sys2Proof.Machine

/-- The commands that work on the exchange table, the stations, the lanes, staging and the data mover alone. -/
def linkSide : Instr → Bool
  | .chooseRequest | .resendRequest | .frameSent | .collision | .replyReceived _ | .profileReceived _
  | .replyWindowExpired | .pollResult _ | .guardGapEnd | .attention | .clReturnHigh | .laneStuck | .linkResetEnd
  | .pollTimerExpiry | .presenceChange _ _ | .presenceStable _ | .settleTimerExpiry _ | .saturationTimerExpiry _
  | .deferralTimerExpiry _ | .nextGrant | .repeatGrant | .readBlockReceived _ _ | .dataTimeout | .writeBlockBegin
  | .writeBlockEnd | .tokenTaken _ _ | .tokenCheckFail _ _ | .tokenFault _ _ | .tokenHold _ _ | .tokenRelease _ _
  | .tokenBadCheck _ | .tokenWindowExpired | .holdTimeout | .quietIntervalEnd | .drainBlockStart | .loadBlockStart
  | .descriptorReadComplete _ _ | .descriptorReadFault _ | .dataWriteComplete _ | .dataWriteFault _
  | .dataReadComplete _ _ | .dataReadFault _ | .profileJobStart | .profileWriteComplete _ | .profileWriteFault _
  | .readBlockStartMark | .replyStartMark _ => true
  | .powerOn | .hostLinkResetInput | .endpointFunctionReset | .enable | .disable | .linkReset | .functionReset
  | .undefinedCommand _ | .registerWrite _ _ _ | .post _ | .release _ | .configReadComplete _ _ | .configReadFault _
  | .drainComplete | .fetchStart _ | .fetchComplete _ _ | .fetchFault _ | .admission | .latchToQueue
  | .recordWriteBegin _ | .recordWriteComplete _ | .recordWriteFault _ | .moderationDelayExpiry _ => false

/-- A guarded operation. -/
theorem Inner.guard {s t : State} (b : Bool) (h : b = true → Inner s t) : Inner s (if b then t else s) := by
  cases b
  · exact .refl s
  · exact h rfl

/-! ## The command lane -/

theorem Inner.beginCurrent (s : State) (r : Request) : Inner s (s.beginCurrent r) := by
  unfold State.beginCurrent; split
  · split
    · exact .beginAbandoned s r
    · exact .beginFrame s r
  · exact .refl s

theorem Inner.chooseStep (s : State) : Inner s s.chooseStep := by
  unfold State.chooseStep; split
  · split
    · split
      · exact .beginCurrent s _
      · exact .refl s
    · split
      · exact .refl s
      · exact .chooseAndBegin s
  · exact .refl s

theorem Inner.resendStep (s : State) : Inner s s.resendStep := by
  unfold State.resendStep; split
  · split
    · exact .beginCurrent s _
    · exact .refl s
  · exact .refl s

theorem Inner.frameDone (s : State) (r : Request) : Inner s (s.frameDone r) := .startInterval s _ _

theorem Inner.abandonFrame (s : State) (r : Request) : Inner s (s.abandonFrame r) :=
  .of_rest rfl rfl rfl rfl rfl rfl rfl rfl rfl rfl rfl

theorem Inner.startMark (s : State) (early : Bool) : Inner s (s.startMark early) := by
  unfold State.startMark; split
  · exact .startInterval s _ _
  · exact (Inner.setLaneLow s (s.lowBefore early)).trans (.setCl { s with laneLow := s.lowBefore early } _)
  · split
    · exact .setCl s _
    · exact .refl s
  · split
    · exact .setCl s _
    · exact .refl s
  all_goals exact .refl s

theorem Inner.replyStep (s : State) (f : BitVec 80) : Inner s (s.replyStep f) := by
  unfold State.replyStep; split
  · split
    · exact (Inner.hear s 1 f).trans (.takeReply _ _ _)
    · exact .refl s
  · exact .refl s

theorem Inner.profileStep (s : State) (f : BitVec 144) : Inner s (s.profileStep f) := by
  unfold State.profileStep; split
  · split
    · exact (Inner.hear s 0 f).trans (.takeProfile _ _ _ _)
    · exact .refl s
  · exact .refl s

theorem Inner.leavePoll (s : State) (r : Option Request) : Inner s { s.beginGap with current := r, setAside := none } :=
  .of_rest rfl rfl rfl rfl rfl rfl rfl rfl rfl rfl rfl

theorem Inner.pollDone (s : State) (x : PollLevels) : Inner s (s.pollDone x) := by
  have h := (Inner.hear s 0 (pollPeriods x)).trans
    (Inner.foldl (pollStation x.slots) (fun a st => .setNotices a st _) allStations (s.hear 0 (pollPeriods x)))
  unfold State.pollDone
  generalize allStations.foldl (pollStation x.slots) (s.hear 0 (pollPeriods x)) = s1 at h
  exact h.trans (.leavePoll s1 s.setAside)

theorem Inner.gapOver (s : State) : Inner s s.gapOver := .modPayload s _

theorem Inner.endGap (s : State) : Inner s s.endGap := by
  unfold State.endGap; dsimp only; split
  · exact (((Inner.gapOver s).trans (.setLaneLow _ 0)).trans (.modPayload _ _)).trans (.setCl _ _)
  · exact ((Inner.gapOver s).trans (.setLaneLow _ 0)).trans (.setCl _ _)

theorem Inner.lowEndsGap (s : State) : Inner s s.lowEndsGap := by
  unfold State.lowEndsGap; split
  · exact .gapOver s
  · exact .refl s

theorem Inner.hearAttention (s : State) : Inner s s.hearAttention :=
  (Inner.lowEndsGap s).trans (.of_rest rfl rfl rfl rfl rfl rfl rfl rfl rfl rfl rfl)

theorem Inner.laneHigh (s : State) : Inner s s.laneHigh :=
  ((Inner.lowEndsGap s).trans (.beginGap _)).trans (.of_rest rfl rfl rfl rfl rfl rfl rfl rfl rfl rfl rfl)

theorem Inner.endLinkReset (s : State) : Inner s s.endLinkReset :=
  ((Inner.beginGap s).trans (.of_rest (t := { s.beginGap with linkReset := none, pollTimer := s.fullPoll, laneLow := 0 })
    rfl rfl rfl rfl rfl rfl rfl rfl rfl rfl rfl)).trans
    (.foldl (fun (a : State) st => a.modStation st Station.settleAgain) (fun a st => .modStation a st _) allStations _)

/-! ## Stations and deferral -/

theorem Inner.presenceStep (s : State) (st : StationId) (p : Bool) : Inner s (s.presenceStep st p) := by
  unfold State.presenceStep; split
  · exact .modStation s st _
  · exact .refl s

theorem Inner.stableLevel (s : State) (st : StationId) : Inner s (s.stableLevel st) := by
  have h := Inner.modStation s st (fun r => { r with debounce := some debounceTime })
  unfold State.stableLevel; dsimp only; split
  · exact h.trans (.modStation _ _ _)
  · exact h
  · exact h.trans (.stationLeaves _ _)
  · exact h

theorem Inner.enterWithdrawing (s : State) (t : Tag) : Inner s (s.enterWithdrawing t) :=
  ((Inner.moveTo s t .withdrawing).trans (.setReconnect _ _)).trans
    (.modExch _ t (fun x => { x with deferral := none }) (fun _ => rfl))

/-! ## Payload steps -/

theorem Inner.grantNext (s : State) (p : Payload) : Inner s (s.grantNext p) := .slotPayload s _ _ _

theorem Inner.blockStarts (s : State) (p : Payload) : Inner s (s.blockStarts p) := by
  unfold State.blockStarts; split
  · split
    · exact .setPayload s _
    · exact .refl s
  · split
    · exact .setPayload s _
    · exact .refl s
  all_goals exact .refl s

theorem Inner.blockSent (s : State) (p : Payload) : Inner s (s.blockSent p) := by
  unfold State.blockSent; split
  · exact .of_owned rfl rfl rfl rfl rfl rfl rfl rfl (fun _ => by simp)
  · split
    · exact .of_owned rfl rfl rfl rfl rfl rfl rfl rfl (fun _ => by simp)
    · exact .refl s
  all_goals exact .refl s

/-! ## The data mover -/

theorem Inner.takeSlot {s : State} (h : s.StagingOk → s.payload ≠ none) (i : StageId) (x : Slot) (j : Job) :
    Inner s (State.pump pumpFuel { s.setSlot i x with job := some j }) :=
  Inner.trans (t := { s.setSlot i x with job := some j }) (.of_owned rfl rfl rfl rfl rfl rfl rfl rfl h) (.pump _ _)

theorem State.activeJob_some {s : State} {j : Job} (h : s.activeJob = some j) : s.job = some j := by
  unfold State.activeJob at h; split at h
  · exact h
  · cases h

theorem Inner.accountEnd (s : State) (t : Tag) : Inner s (s.accountEnd t) := .join s _

theorem Inner.descriptorDone (s : State) (a : Access) (d : BitVec 128) : Inner s (s.descriptorDone a d) := by
  unfold State.descriptorDone; split <;> try exact .refl s
  · exact ((Inner.endAccess s _).trans (.jobDescriptor _ _ _)).trans (.accountEnd _ _)
  · exact ((Inner.endAccess s _).trans (.profileDescriptor _ _ _)).trans (.accountEnd _ _)

theorem Inner.descriptorFaulted (s : State) (a : Access) : Inner s (s.descriptorFaulted a) := by
  unfold State.descriptorFaulted; split <;> try exact .refl s
  · exact ((Inner.endAccess s _).trans (.jobDescriptorFault _ _)).trans (.accountEnd _ _)
  · exact ((Inner.endAccess s _).trans (.profileFault _ _)).trans (.accountEnd _ _)

theorem Inner.dataWritten (s : State) (a : Access) : Inner s (s.dataWritten a) := by
  unfold State.dataWritten; split <;> try exact .refl s
  exact (((Inner.endAccess s _).trans (.addBytes _ _ _)).trans (.blockProgress _ _)).trans (.accountEnd _ _)

theorem Inner.jobAccessFault (s : State) (t : Tag) : Inner s (s.jobAccessFault t) := by
  unfold State.jobAccessFault; split
  · split
    · exact .moverFault s t _
    · exact .refl s
  · exact .refl s

theorem Inner.dataWriteFaulted (s : State) (a : Access) : Inner s (s.dataWriteFaulted a) := by
  unfold State.dataWriteFaulted; split <;> try exact .refl s
  exact ((Inner.endAccess s _).trans (.jobAccessFault _ _)).trans (.accountEnd _ _)

theorem Inner.dataReadDone (s : State) (a : Access) (b : List Byte) : Inner s (s.dataReadDone a b) := by
  unfold State.dataReadDone; split <;> try exact .refl s
  split
  · exact (((Inner.endAccess s _).trans (.fillSlot _ _ _ _ _)).trans (.blockProgress _ _)).trans (.accountEnd _ _)
  · exact .refl s

theorem Inner.dataReadFaulted (s : State) (a : Access) : Inner s (s.dataReadFaulted a) := by
  unfold State.dataReadFaulted; split <;> try exact .refl s
  exact ((Inner.endAccess s _).trans (.jobAccessFault _ _)).trans (.accountEnd _ _)

theorem Inner.beginProfileJob (s : State) : Inner s s.beginProfileJob := by
  unfold State.beginProfileJob; split
  · split
    · exact .refl s
    · exact (Inner.setProfiles s _).trans (.profilePump _ _)
  · exact .refl s

theorem Inner.profileWritten (s : State) (a : Access) : Inner s (s.profileWritten a) := by
  unfold State.profileWritten; split <;> try exact .refl s
  exact ((Inner.endAccess s _).trans (.profileProgress _ _)).trans (.accountEnd _ _)

theorem Inner.profileWriteFaulted (s : State) (a : Access) : Inner s (s.profileWriteFaulted a) := by
  unfold State.profileWriteFaulted; split <;> try exact .refl s
  exact ((Inner.endAccess s _).trans (.profileFault _ _)).trans (.accountEnd _ _)

/-! ## Every link-side command -/

/-- A command of the link side answers a next state with the frame of `Inner`. -/
theorem exec_linkSide (c : Instr) (s : State) (h : linkSide c = true) : ∃ t, exec c s = .next t ∧ Inner s t := by
  cases c <;> first | (cases h; done) | skip
  case chooseRequest => exact ⟨_, rfl, .chooseStep s⟩
  case resendRequest => exact ⟨_, rfl, .resendStep s⟩
  case frameSent =>
    refine ⟨_, rfl, ?_⟩; split
    · exact .frameDone s _
    · exact .refl s
  case collision =>
    refine ⟨_, rfl, ?_⟩; split
    · exact .abandonFrame s _
    · exact .refl s
  case replyReceived f => exact ⟨_, rfl, .replyStep s f⟩
  case profileReceived f => exact ⟨_, rfl, .profileStep s f⟩
  case replyWindowExpired =>
    refine ⟨_, rfl, ?_⟩; split
    · exact (Inner.quietGap s).trans (.windowOver _ _)
    · exact .refl s
  case pollResult x => exact ⟨_, rfl, .guard _ fun _ => .pollDone s x⟩
  case guardGapEnd => exact ⟨_, rfl, .guard _ fun _ => .endGap s⟩
  case attention => exact ⟨_, rfl, .guard _ fun _ => .hearAttention s⟩
  case clReturnHigh => exact ⟨_, rfl, .guard _ fun _ => .laneHigh s⟩
  case laneStuck => exact ⟨_, rfl, .guard _ fun _ => .startLinkReset s _⟩
  case linkResetEnd => exact ⟨_, rfl, .guard _ fun _ => .endLinkReset s⟩
  case pollTimerExpiry =>
    exact ⟨_, rfl, .guard _ fun _ => .of_rest rfl rfl rfl rfl rfl rfl rfl rfl rfl rfl rfl⟩
  case presenceChange st p => exact ⟨_, rfl, .presenceStep s st p⟩
  case presenceStable st => exact ⟨_, rfl, .guard _ fun _ => .stableLevel s st⟩
  case settleTimerExpiry st => exact ⟨_, rfl, .guard _ fun _ => .modStation s st _⟩
  case saturationTimerExpiry st => exact ⟨_, rfl, .guard _ fun _ => .clearSaturation s st⟩
  case deferralTimerExpiry t =>
    exact ⟨_, rfl, .guard _ fun _ => (Inner.recordCause s t _ 0).trans (.enterWithdrawing _ t)⟩
  case nextGrant =>
    refine ⟨_, rfl, ?_⟩; split
    · split
      · exact .grantNext s _
      · exact .refl s
    · exact .refl s
  case repeatGrant =>
    refine ⟨_, rfl, ?_⟩; split
    · split
      · exact .setPayload s _
      · exact .refl s
    · exact .refl s
  case readBlockReceived b k => exact ⟨_, rfl, .guard _ fun _ => .readBlock s b k⟩
  case dataTimeout =>
    refine ⟨_, rfl, ?_⟩; split
    · split
      · exact .haltWith s _ _
      · exact .refl s
    · exact .refl s
  case writeBlockBegin =>
    refine ⟨_, rfl, ?_⟩; split
    · split
      · exact .slotPayload s _ _ _
      · exact .refl s
    · exact .refl s
  case writeBlockEnd =>
    refine ⟨_, rfl, ?_⟩; split
    · exact .blockSent s _
    · exact .refl s
  case tokenTaken => exact ⟨_, rfl, .tokenReceived s _ _⟩
  case tokenCheckFail => exact ⟨_, rfl, .tokenReceived s _ _⟩
  case tokenFault => exact ⟨_, rfl, .tokenReceived s _ _⟩
  case tokenHold => exact ⟨_, rfl, .tokenReceived s _ _⟩
  case tokenRelease => exact ⟨_, rfl, .tokenReceived s _ _⟩
  case tokenBadCheck => exact ⟨_, rfl, .tokenReceived s _ _⟩
  case tokenWindowExpired => exact ⟨_, rfl, .guard _ fun _ => .tokenWindowOver s⟩
  case holdTimeout =>
    refine ⟨_, rfl, ?_⟩; split
    · split
      · exact .haltWith s _ _
      · exact .refl s
    · exact .refl s
  case quietIntervalEnd => exact ⟨_, rfl, .guard _ fun _ => .setQuiet s _⟩
  case drainBlockStart =>
    refine ⟨_, rfl, ?_⟩; split
    · rename_i j hj
      split
      · exact .takeSlot (State.owned_of_job (State.activeJob_some hj)) _ _ _
      · exact .refl s
    · exact .refl s
  case loadBlockStart =>
    refine ⟨_, rfl, ?_⟩; split
    · rename_i j hj
      split
      · exact .takeSlot (State.owned_of_job (State.activeJob_some hj)) _ _ _
      · exact .refl s
    · exact .refl s
  case descriptorReadComplete x d =>
    refine ⟨_, rfl, ?_⟩; split
    · exact .descriptorDone s _ d
    · exact .refl s
  case descriptorReadFault x =>
    refine ⟨_, rfl, ?_⟩; split
    · exact .descriptorFaulted s _
    · exact .refl s
  case dataWriteComplete x =>
    refine ⟨_, rfl, ?_⟩; split
    · exact .dataWritten s _
    · exact .refl s
  case dataWriteFault x =>
    refine ⟨_, rfl, ?_⟩; split
    · exact .dataWriteFaulted s _
    · exact .refl s
  case dataReadComplete x b =>
    refine ⟨_, rfl, ?_⟩; split
    · exact .dataReadDone s _ b
    · exact .refl s
  case dataReadFault x =>
    refine ⟨_, rfl, ?_⟩; split
    · exact .dataReadFaulted s _
    · exact .refl s
  case profileJobStart => exact ⟨_, rfl, .guard _ fun _ => .beginProfileJob s⟩
  case profileWriteComplete x =>
    refine ⟨_, rfl, ?_⟩; split
    · exact .profileWritten s _
    · exact .refl s
  case profileWriteFault x =>
    refine ⟨_, rfl, ?_⟩; split
    · exact .profileWriteFaulted s _
    · exact .refl s
  case readBlockStartMark =>
    refine ⟨_, rfl, ?_⟩; split
    · exact .blockStarts s _
    · exact .refl s
  case replyStartMark early => exact ⟨_, rfl, .guard _ fun _ => .startMark s early⟩

end Sys2Proof.Machine
end

