-- ==== Sys2Proof/Laws/Swept.lean ====
section
/-! SUPPORT. Sweeps: several exchanges reached at once (R17, R19, R20, R132). One lemma for each fate of one exchange,
one that puts two sweeps together, and one for a run of them. -/

namespace Sys2Proof.Machine

theorem allTags_mem (x : Tag) : x ∈ allTags := by revert x; decide

theorem allStations_mem (x : StationId) : x ∈ allStations := by revert x; decide

/-! ## Reading fates -/

theorem State.fateOf_some {s : State} {x : Tag} {e : Exchange} (h : s.exch x = some e) (f : Tag → Exchange → Fate) :
    s.fateOf f x = f x e := by unfold State.fateOf; rw [h]

theorem State.fateOf_none {s : State} {x : Tag} (h : s.exch x = none) (f : Tag → Exchange → Fate) :
    s.fateOf f x = .stays := by unfold State.fateOf; rw [h]

/-- A sweep with fate `f` from state `s` is a sweep with `f1` to `m`, followed by one with `f2`. -/
structure Splits (s m : State) (f1 f2 f : Tag → Exchange → Fate) : Prop where
  stays : ∀ x, s.fateOf f1 x = .stays → m.exch x = s.exch x ∧ s.fateOf f x = m.fateOf f2 x
  moved : ∀ x, s.fateOf f1 x ≠ .stays → m.fateOf f2 x = .stays ∧ s.fateOf f x = s.fateOf f1 x

theorem State.endsAt_eq (s : State) (f : Tag → Exchange → Fate) (u : StationId) (x : Tag) :
    s.endsAt f u x = (s.fateOf f x == .ends && (s.exch x).any (fun e => e.station == u)) := by
  unfold State.endsAt State.fateOf
  cases s.exch x <;> simp

/-- The exchange of a tag leaves a state that frees room at station `u`. -/
def State.freesAt (s : State) (f : Tag → Exchange → Fate) (u : StationId) (x : Tag) : Bool :=
  (s.exch x).any (fun e => (f x e).moves && e.state.freesRoom && e.station == u)

theorem State.freesAt_eq (s : State) (f : Tag → Exchange → Fate) (u : StationId) (x : Tag) :
    s.freesAt f u x
      = ((s.fateOf f x).moves && (s.exch x).any (fun e => e.state.freesRoom && e.station == u)) := by
  unfold State.freesAt State.fateOf
  cases s.exch x <;> simp [Fate.moves, Bool.and_assoc]

theorem State.endsOwner_eq {s : State} {f : Tag → Exchange → Fate} {r : Request} {x : Tag} (h : r.owner = .exchange x) :
    s.endsOwner f r = (s.fateOf f x == .ends) := by unfold State.endsOwner; rw [h]

theorem State.endsOwner_other {s : State} {f : Tag → Exchange → Fate} {r : Request} (h : ∀ x, r.owner ≠ .exchange x) :
    s.endsOwner f r = false := by
  unfold State.endsOwner
  cases ho : r.owner with
  | exchange x => exact absurd ho (h x)
  | _ => rfl

namespace Splits

variable {s m : State} {f1 f2 f : Tag → Exchange → Fate}

theorem endsAt (h : Splits s m f1 f2 f) (u : StationId) (x : Tag) :
    s.endsAt f u x = (s.endsAt f1 u x || m.endsAt f2 u x) := by
  simp only [State.endsAt_eq]
  by_cases hs : s.fateOf f1 x = .stays
  · have := h.stays x hs; rw [this.1, this.2, hs]; simp
  · have := h.moved x hs; rw [this.1, this.2]; simp

theorem freesAt (h : Splits s m f1 f2 f) (u : StationId) (x : Tag) :
    s.freesAt f u x = (s.freesAt f1 u x || m.freesAt f2 u x) := by
  simp only [State.freesAt_eq]
  by_cases hs : s.fateOf f1 x = .stays
  · have := h.stays x hs; rw [this.1, this.2, hs]; simp [Fate.moves]
  · have := h.moved x hs; rw [this.1, this.2]; simp [Fate.moves]

theorem is (h : Splits s m f1 f2 f) (x : Tag) (g : Fate) (hg : g ≠ .stays) :
    (s.fateOf f x = g) ↔ (s.fateOf f1 x = g ∨ m.fateOf f2 x = g) := by
  by_cases hs : s.fateOf f1 x = .stays
  · have := h.stays x hs; rw [this.2, hs]; simp [Ne.symm hg]
  · have := h.moved x hs; rw [this.1, this.2]; simp [Ne.symm hg]

theorem owner (h : Splits s m f1 f2 f) (r : Request) :
    s.endsOwner f r = (s.endsOwner f1 r || m.endsOwner f2 r) ∧ (s.endsOwner f1 r = true → m.endsOwner f2 r = false) := by
  by_cases ho : ∃ x, r.owner = .exchange x
  · obtain ⟨x, ho⟩ := ho
    simp only [State.endsOwner_eq ho]
    have := h.is x .ends (by decide)
    by_cases h1 : s.fateOf f1 x = .ends
    · have h2 := h.moved x (by rw [h1]; decide)
      rw [this.2 (.inl h1), h1, h2.1]; simp
    · by_cases h2 : m.fateOf f2 x = .ends
      · rw [this.2 (.inr h2), h2]; simp [h1]
      · have h3 : s.fateOf f x ≠ .ends := fun hh => (this.1 hh).elim h1 h2
        rw [beq_eq_false_iff_ne.2 h1, beq_eq_false_iff_ne.2 h2, beq_eq_false_iff_ne.2 h3]; simp
  · have hn : ∀ x, r.owner ≠ .exchange x := fun x hx => ho ⟨x, hx⟩
    rw [State.endsOwner_other hn, State.endsOwner_other hn, State.endsOwner_other hn]; simp

end Splits

/-! ## Two sweeps -/

/-- The stations as a sweep leaves them, with `freesAt` in place of its definition. -/
theorem Swept.station {s t : State} {f : Tag → Exchange → Fate} (h : Swept s t f) (u : StationId) :
    t.station u = { s.station u with
      pendingConfigs := (s.station u).pendingConfigs.filter (fun c => !s.endsAt f u c.tag),
      saturation := if allTags.any (s.freesAt f u) then none else (s.station u).saturation } := h.stations u

theorem bind_twice {α : Type} (o : Option α) (p q : α → Bool) (g : α → Option α)
    (h : ∀ r r', g r = some r' → p r = true → q r' = false) :
    (o.bind (fun r => if p r then g r else some r)).bind (fun r => if q r then g r else some r)
      = o.bind (fun r => if (p r || q r) then g r else some r) := by
  cases o with
  | none => rfl
  | some r =>
    simp only [Option.bind_some]
    by_cases hp : p r = true
    · rw [if_pos hp, hp]; simp only [Bool.true_or, if_true]
      cases hg : g r with
      | none => rfl
      | some r' => simp [h r r' hg hp]
    · simp [hp]

theorem Request.afterDetach_owner {r r' : Request} (h : r.afterDetach = some r') : r'.owner = r.owner := by
  unfold Request.afterDetach at h
  split at h
  · cases h
  · cases h; rfl

theorem State.endsOwner_congr {s : State} {f : Tag → Exchange → Fate} {r r' : Request} (h : r'.owner = r.owner) :
    s.endsOwner f r' = s.endsOwner f r := by unfold State.endsOwner; rw [h]

theorem Swept.trans {s m t : State} {f1 f2 f : Tag → Exchange → Fate} (a : Swept s m f1) (b : Swept m t f2)
    (h : Splits s m f1 f2 f) : Swept s t f := by
  refine ⟨fun u => ?_, ?_, fun u => ?_, ?_, ?_, fun p hp ho => ?_, fun p hp ho => ?_, fun hk => ?_, fun hk => ?_, ?_⟩
  · rw [b.queues, a.queues, List.filter_filter]
    congr 1; funext x; rw [h.endsAt]; simp [Bool.and_comm]
  · rw [b.reconnect, a.reconnect, List.filter_filter]
    congr 1; funext x
    by_cases hs : s.fateOf f1 x = .stays
    · rw [(h.stays x hs).2, hs]; simp
    · rw [(h.moved x hs).2, (h.moved x hs).1]; simp
  · rw [b.station u, a.station u]
    simp only [List.filter_filter]
    congr 1
    · congr 1; funext c; rw [h.endsAt]; simp [Bool.and_comm]
    · show _ = if allTags.any (s.freesAt f u) then none else (s.station u).saturation
      have : allTags.any (s.freesAt f u) = (allTags.any (s.freesAt f1 u) || allTags.any (m.freesAt f2 u)) := by
        have hfun : s.freesAt f u = fun x => (s.freesAt f1 u x || m.freesAt f2 u x) := by funext x; exact h.freesAt u x
        rw [hfun, Bool.eq_iff_iff]
        simp only [List.any_eq_true, Bool.or_eq_true]
        constructor
        · rintro ⟨x, hx, h1 | h1⟩
          · exact .inl ⟨x, hx, h1⟩
          · exact .inr ⟨x, hx, h1⟩
        · rintro (⟨x, hx, h1⟩ | ⟨x, hx, h1⟩)
          · exact ⟨x, hx, .inl h1⟩
          · exact ⟨x, hx, .inr h1⟩
      rw [this]
      cases allTags.any (s.freesAt f1 u) <;> cases allTags.any (m.freesAt f2 u) <;> rfl
  · rw [b.current, a.current]
    refine (bind_twice _ (s.endsOwner f1) (m.endsOwner f2) Request.afterDetach (fun r r' hg hp => ?_)).trans ?_
    · rw [State.endsOwner_congr (Request.afterDetach_owner hg)]; exact (h.owner r).2 hp
    · congr 1; funext r; rw [(h.owner r).1]
  · rw [b.setAside, a.setAside]
    refine (bind_twice _ (s.endsOwner f1) (m.endsOwner f2) (fun _ => none) (fun r r' hg hp => by cases hg)).trans ?_
    congr 1; funext r; rw [(h.owner r).1]
  · rcases (h.is p.owner .ends (by decide)).1 ho with h1 | h1
    · have h2 := a.released p hp h1
      have h3 := b.kept (fun q hq => by rw [h2.1] at hq; cases hq)
      have h4 := b.lane (fun q hq => by rw [h2.1] at hq; cases hq)
      exact ⟨h3.1.trans h2.1, h3.2.trans h2.2.1, by rw [h4.2, h2.2.2.1]; rfl, h4.1.trans h2.2.2.2⟩
    · have hs : s.fateOf f1 p.owner = .stays := by
        by_contra hn; rw [(h.moved _ hn).1] at h1; cases h1
      have hl := a.lane (fun q hq => by rw [hp] at hq; cases hq; rw [hs]; decide)
      have hk := a.kept (fun q hq => by rw [hp] at hq; cases hq; rw [hs]; decide)
      have h2 := b.released p (hk.1.trans hp) h1
      rw [hl.1] at h2; exact h2
  · rcases (h.is p.owner .halts (by decide)).1 ho with h1 | h1
    · have h2 := a.halted p hp h1
      have hs : m.fateOf f2 p.owner = .stays := (h.moved _ (by rw [h1]; decide)).1
      have ho2 : p.afterHalt.owner = p.owner := rfl
      have h3 := b.kept (fun q hq => by rw [h2.1] at hq; cases hq; rw [ho2, hs]; decide)
      exact ⟨h3.1.trans h2.1, h3.2.trans h2.2⟩
    · have hs : s.fateOf f1 p.owner = .stays := by
        by_contra hn; rw [(h.moved _ hn).1] at h1; cases h1
      have hk := a.kept (fun q hq => by rw [hp] at hq; cases hq; rw [hs]; decide)
      exact b.halted p (hk.1.trans hp) h1
  · have h1 := a.kept (fun q hq => by
      have := hk q hq
      exact ⟨fun hh => this.1 ((h.is _ .ends (by decide)).2 (.inl hh)), fun hh => this.2 ((h.is _ .halts (by decide)).2 (.inl hh))⟩)
    have h2 := b.kept (fun q hq => by
      have := hk q (h1.1.symm.trans hq)
      exact ⟨fun hh => this.1 ((h.is _ .ends (by decide)).2 (.inr hh)), fun hh => this.2 ((h.is _ .halts (by decide)).2 (.inr hh))⟩)
    exact ⟨h2.1.trans h1.1, h2.2.trans h1.2⟩
  · have h1 := a.lane (fun q hq hh => hk q hq ((h.is _ .ends (by decide)).2 (.inl hh)))
    have hown : ∀ q, m.payload = some q → ∃ p, s.payload = some p ∧ p.owner = q.owner := by
      intro q hq
      cases hp : s.payload with
      | none =>
        have := (a.kept (fun p hp' => by rw [hp] at hp'; cases hp')).1
        rw [hp, hq] at this; cases this
      | some p =>
        refine ⟨p, rfl, ?_⟩
        by_cases hh : s.fateOf f1 p.owner = .halts
        · have := (a.halted p hp hh).1
          rw [hq] at this; cases this; rfl
        · have := (a.kept (fun p' hp' => by
            rw [hp] at hp'; cases hp'
            exact ⟨fun h2 => hk p hp ((h.is _ .ends (by decide)).2 (.inl h2)), hh⟩)).1
          rw [hp, hq] at this; cases this; rfl
    have h2 := b.lane (fun q hq hh => by
      obtain ⟨p, hp, ho⟩ := hown q hq
      exact hk p hp ((h.is _ .ends (by decide)).2 (.inr (by rw [ho]; exact hh))))
    refine ⟨h2.1.trans h1.1, ?_⟩
    rw [h2.2, h1.2]
    cases s.job with
    | none => rfl
    | some j =>
      simp only [Option.bind_some]
      have he := h.is j.tag .ends (by decide)
      have hh := h.is j.tag .halts (by decide)
      by_cases h3 : s.fateOf f1 j.tag = .ends ∨ s.fateOf f1 j.tag = .halts
      · rw [if_pos h3, if_pos (h3.imp (fun h4 => he.2 (.inl h4)) (fun h4 => hh.2 (.inl h4)))]; rfl
      · rw [if_neg h3]; simp only [Option.bind_some]
        congr 1
        rw [eq_iff_iff, he, hh]
        constructor
        · rintro (h4 | h4)
          · exact .inl (.inr h4)
          · exact .inr (.inr h4)
        · rintro ((h4 | h4) | (h4 | h4))
          · exact absurd (.inl h4) h3
          · exact .inl h4
          · exact absurd (.inr h4) h3
          · exact .inr h4
  · rw [b.rest, a.rest]

/-! ## One exchange -/

/-- The fate of one exchange, the others staying. -/
def oneFate (x : Tag) (g : Fate) (y : Tag) (_ : Exchange) : Fate := if y = x then g else .stays

theorem State.fateOf_one {s : State} {x : Tag} {e : Exchange} (h : s.exch x = some e) (g : Fate) (y : Tag) :
    s.fateOf (oneFate x g) y = if y = x then g else .stays := by
  unfold State.fateOf oneFate
  by_cases hy : y = x
  · subst hy; rw [h]
  · cases s.exch y <;> simp [hy]

theorem State.freesAt_one {s : State} {x : Tag} {e : Exchange} (h : s.exch x = some e) (g : Fate) (u : StationId) :
    allTags.any (s.freesAt (oneFate x g) u) = (g.moves && e.state.freesRoom && e.station == u) := by
  rw [Bool.eq_iff_iff, List.any_eq_true]
  constructor
  · rintro ⟨y, _, hy⟩
    rw [State.freesAt_eq, State.fateOf_one h] at hy
    by_cases hx : y = x
    · subst hx; rw [h] at hy; simpa [Bool.and_assoc] using hy
    · rw [if_neg hx] at hy; simp [Fate.moves] at hy
  · intro hg
    refine ⟨x, allTags_mem x, ?_⟩
    rw [State.freesAt_eq, State.fateOf_one h, if_pos rfl, h]
    simpa [Bool.and_assoc] using hg

/-- What a sweep leaves where no exchange leaves its state. -/
theorem Swept.still {s t : State} {f : Tag → Exchange → Fate} (h : ∀ x, (s.fateOf f x).moves = false)
    (ht : t = { s with table := t.table, waiting := t.waiting, freeDraws := t.freeDraws }) : Swept s t f := by
  have h1 : ∀ x, s.fateOf f x ≠ .ends ∧ s.fateOf f x ≠ .halts ∧ s.fateOf f x ≠ .withdraws := by
    intro x; have := h x
    refine ⟨fun hh => ?_, fun hh => ?_, fun hh => ?_⟩ <;> rw [hh] at this <;> cases this
  have e1 : ∀ u x, s.endsAt f u x = false := fun u x => by rw [State.endsAt_eq]; simp [(h1 x).1]
  have e2 : ∀ u, allTags.any (s.freesAt f u) = false := fun u => by
    rw [List.any_eq_false]; intro x _; rw [State.freesAt_eq, h x]; simp
  have e3 : ∀ r, s.endsOwner f r = false := fun r => by
    unfold State.endsOwner; split
    · simp [(h1 _).1]
    · rfl
    · rfl
    · rfl
    · rfl
  have hq : ∀ u, t.queueOf u = s.queueOf u := fun u => by rw [ht]; rfl
  have hst : ∀ u, t.station u = s.station u := fun u => by rw [ht]; rfl
  refine ⟨fun u => ?_, ?_, fun u => ?_, ?_, ?_, fun p _ ho => absurd ho (h1 _).1, fun p _ ho => absurd ho (h1 _).2.1,
    fun _ => by rw [ht]; exact ⟨rfl, rfl⟩, fun _ => ⟨by rw [ht], ?_⟩, ?_⟩
  · rw [hq]; simp [e1]
  · rw [ht]; dsimp only; symm; rw [List.filter_eq_self]; intro x _; simp [(h1 x).1, (h1 x).2.2]
  · rw [hst]
    show _ = { s.station u with
      pendingConfigs := (s.station u).pendingConfigs.filter (fun c => !s.endsAt f u c.tag),
      saturation := if allTags.any (s.freesAt f u) then none else (s.station u).saturation }
    rw [e2]; simp [e1]
  · rw [ht]; dsimp only; cases s.current <;> simp [e3]
  · rw [ht]; dsimp only; cases s.setAside <;> simp [e3]
  · rw [ht]; dsimp only; cases s.job with
    | none => rfl
    | some j => simp [(h1 j.tag).1, (h1 j.tag).2.1]
  · rw [ht]

/-- R22: one exchange that ends, whatever else its lists and timers become. -/
theorem Swept.one_ends {s : State} {x : Tag} {e : Exchange} (h : s.exch x = some e) (T : Vector (Option Exchange) 16)
    (W : Vector (List Source) 4) (Q : Option Nat) (D : Nat) :
    Swept s { s.enterCompleting x with table := T, waiting := W, quiet := Q, freeDraws := D } (oneFate x .ends) := by
  have hf := State.fateOf_one h .ends
  have ea : ∀ u y, s.endsAt (oneFate x .ends) u y = (decide (y = x) && e.station == u) := by
    intro u y
    rw [State.endsAt_eq, hf]
    by_cases hy : y = x
    · subst hy; rw [h]; simp
    · rw [if_neg hy]; simp [hy]
  have eo : ∀ r : Request, s.endsOwner (oneFate x .ends) r = decide (r.owner = .exchange x) := by
    intro r
    by_cases ho : ∃ y, r.owner = .exchange y
    · obtain ⟨y, ho⟩ := ho
      rw [State.endsOwner_eq ho, hf, ho]
      by_cases hy : y = x <;> simp [hy]
    · rw [State.endsOwner_other (fun y hy => ho ⟨y, hy⟩)]
      symm; rw [decide_eq_false_iff_not]; exact fun hh => ho ⟨x, hh⟩
  rw [State.enterCompleting_eq h]
  refine ⟨fun u => ?_, ?_, fun u => ?_, ?_, ?_, fun p hp ho => ?_, fun p _ ho => ?_, fun hk => ?_, fun hk => ⟨?_, ?_⟩, rfl⟩
  · have h2 := State.queueOf_setQueue s e.station u ((s.queueOf e.station).filter (· != x))
    refine Eq.trans h2 ?_
    by_cases hu : e.station = u
    · subst hu; rw [if_pos rfl]; congr 1; funext y; rw [ea]; by_cases hy : y = x <;> simp [hy]
    · rw [if_neg hu]; symm; rw [List.filter_eq_self]; intro y _; rw [ea]; simp [hu]
  · show s.reconnect.filter (· != x) = _
    congr 1; funext y; rw [hf]
    by_cases hy : y = x
    · simp [hy]
    · rw [if_neg hy, bne_iff_ne.2 hy]; decide
  · have h2 := State.station_modStation s e.station u (fun r =>
      { r with pendingConfigs := r.pendingConfigs.filter (·.tag != x),
               saturation := if e.state.freesRoom then none else r.saturation })
    refine Eq.trans h2 ?_
    show _ = { s.station u with
      pendingConfigs := (s.station u).pendingConfigs.filter (fun c => !s.endsAt (oneFate x .ends) u c.tag),
      saturation := if allTags.any (s.freesAt (oneFate x .ends) u) then none else (s.station u).saturation }
    rw [State.freesAt_one h]
    by_cases hu : e.station = u
    · subst hu; rw [if_pos rfl]
      simp only [Fate.moves, Bool.true_and, beq_self_eq_true, Bool.and_true]
      congr 2; funext c; rw [ea]; by_cases hy : c.tag = x <;> simp [hy]
    · rw [if_neg hu]
      have : (e.station == u) = false := by simpa using hu
      have h3 : (s.station u).pendingConfigs.filter (fun c => !s.endsAt (oneFate x .ends) u c.tag)
          = (s.station u).pendingConfigs := by
        rw [List.filter_eq_self]; intro c _; rw [ea]; simp [hu]
      rw [h3, this]; simp
  · show s.current.bind _ = s.current.bind _
    congr 1; funext r; rw [eo]; simp
  · show s.setAside.bind _ = s.setAside.bind _
    congr 1; funext r; rw [eo]; simp
  · rw [hf] at ho
    have hx : p.owner = x := by by_contra hh; rw [if_neg hh] at ho; cases ho
    simp [hp, hx]
  · rw [hf] at ho; split at ho <;> cases ho
  · have : s.payload.any (fun p => p.owner == x) = false := by
      cases hp : s.payload with
      | none => rfl
      | some p =>
        have := (hk p hp).1; rw [hf] at this
        have hx : p.owner ≠ x := fun hh => this (by rw [if_pos hh])
        simpa using hx
    simp [this]
  · have : s.payload.any (fun p => p.owner == x) = false := by
      cases hp : s.payload with
      | none => rfl
      | some p =>
        have := hk p hp; rw [hf] at this
        have hx : p.owner ≠ x := fun hh => this (by rw [if_pos hh])
        simpa using hx
    simp [this]
  · have : s.payload.any (fun p => p.owner == x) = false := by
      cases hp : s.payload with
      | none => rfl
      | some p =>
        have := hk p hp; rw [hf] at this
        have hx : p.owner ≠ x := fun hh => this (by rw [if_pos hh])
        simpa using hx
    simp only [this]
    cases s.job with
    | none => rfl
    | some j => simp only [Option.bind_some, hf]; by_cases hj : j.tag = x <;> simp [hj]

end Sys2Proof.Machine
end

