-- ==== Sys2Proof/Laws/Sweeps.lean ====
section
/-! SUPPORT. Runs of sweeps: the records, what they leave behind and the quiet interval together, one exchange at a time
and then over a list of tags (R17, R19, R20, R132). -/

namespace Sys2Proof.Machine

/-- A sweep with fate `f` that leaves of the exchange of each tag what `g` says; where `q` holds it sets the quiet
interval as it releases the lanes (a link reset does not: it clears the interval afterwards). -/
structure Sweeps (q : Prop) (s t : State) (f : Tag → Exchange → Fate) (g : Tag → Exchange → Exchange) : Prop where
  exch : ∀ x, t.exch x = (s.exch x).map (g x)
  swept : Swept s t f
  quiet : q → QuietSet s t f
  draws : t.freeDraws = s.freeDraws

/-! ## Fates that agree -/

theorem State.fateOf_congr {s : State} {f f' : Tag → Exchange → Fate}
    (h : ∀ x e, s.exch x = some e → f x e = f' x e) (x : Tag) : s.fateOf f x = s.fateOf f' x := by
  unfold State.fateOf
  cases he : s.exch x with
  | none => rfl
  | some e => exact h x e he

theorem Swept.congr {s t : State} {f f' : Tag → Exchange → Fate} (a : Swept s t f)
    (h : ∀ x e, s.exch x = some e → f x e = f' x e) : Swept s t f' := by
  have h1 := State.fateOf_congr h
  have h2 : ∀ u x, s.endsAt f' u x = s.endsAt f u x := fun u x => by rw [State.endsAt_eq, State.endsAt_eq, h1]
  have h3 : ∀ u x, s.freesAt f' u x = s.freesAt f u x := fun u x => by rw [State.freesAt_eq, State.freesAt_eq, h1]
  have h4 : ∀ r, s.endsOwner f' r = s.endsOwner f r := fun r => by
    unfold State.endsOwner; split <;> first | rfl | rw [h1]
  refine ⟨fun u => ?_, ?_, fun u => ?_, ?_, ?_, fun p hp ho => ?_, fun p hp ho => ?_, fun hk => ?_, fun hk => ?_, a.rest⟩
  · rw [a.queues]; congr 1; funext x; rw [h2]
  · rw [a.reconnect]; congr 1; funext x; rw [h1]
  · rw [a.station]
    show _ = { s.station u with
      pendingConfigs := (s.station u).pendingConfigs.filter (fun c => !s.endsAt f' u c.tag),
      saturation := if allTags.any (s.freesAt f' u) then none else (s.station u).saturation }
    have h5 : s.freesAt f' u = s.freesAt f u := funext (h3 u)
    have h6 : (fun c : PendingConfig => !s.endsAt f' u c.tag) = fun c => !s.endsAt f u c.tag := by funext c; rw [h2]
    rw [h5, h6]
  · rw [a.current]; congr 1; funext r; rw [h4]
  · rw [a.setAside]; congr 1; funext r; rw [h4]
  · exact a.released p hp ((h1 _).trans ho)
  · exact a.halted p hp ((h1 _).trans ho)
  · exact a.kept (fun p hp => by rw [h1]; exact hk p hp)
  · have := a.lane (fun p hp => by rw [h1]; exact hk p hp)
    refine ⟨this.1, ?_⟩
    rw [this.2]; congr 1; funext j; rw [h1]

theorem QuietSet.congr {s t : State} {f f' : Tag → Exchange → Fate} (a : QuietSet s t f)
    (h : ∀ x e, s.exch x = some e → f x e = f' x e) : QuietSet s t f' := by
  refine ⟨fun p e hp he hf hs => a.1 p e hp he ((h _ e he).trans hf) hs, fun hk => a.2 (fun p e hp he => ?_)⟩
  rw [h _ e he]; exact hk p e hp he

theorem Sweeps.congr {q : Prop} {s t : State} {f f' : Tag → Exchange → Fate} {g g' : Tag → Exchange → Exchange} (a : Sweeps q s t f g)
    (hf : ∀ x e, s.exch x = some e → f x e = f' x e) (hg : ∀ x e, s.exch x = some e → g x e = g' x e) :
    Sweeps q s t f' g' := by
  refine ⟨fun x => ?_, a.swept.congr hf, fun hq => (a.quiet hq).congr hf, a.draws⟩
  rw [a.exch]
  cases he : s.exch x with
  | none => rfl
  | some e => exact congrArg some (hg x e he)

/-! ## Two sweeps -/

/-- The quiet interval after two sweeps: only one of them can release the lanes. -/
theorem QuietSet.trans {s m t : State} {f1 f2 f : Tag → Exchange → Fate} (w : Swept s m f1) (a : QuietSet s m f1)
    (b : QuietSet m t f2) (h : Splits s m f1 f2 f) : QuietSet s t f := by
  have hc : m.cfg = s.cfg := by rw [w.rest]; rfl
  -- Without an owner that ends here, the first sweep leaves the interval, and what is left is the second's.
  have keep : ∀ p e, s.payload = some p → s.exch p.owner = some e → f1 p.owner e ≠ .stays → t.quiet = m.quiet := by
    intro p e hp he hn
    have hf : s.fateOf f1 p.owner = f1 p.owner e := State.fateOf_some he f1
    have hs : m.fateOf f2 p.owner = .stays := (h.moved _ (by rw [hf]; exact hn)).1
    refine b.2 (fun q d hq hd => .inl ?_)
    have hq' : q.owner = p.owner := by
      by_cases h1 : f1 p.owner e = .ends
      · rw [(w.released p hp (hf.trans h1)).1] at hq; cases hq
      · by_cases h2 : f1 p.owner e = .halts
        · rw [(w.halted p hp (hf.trans h2)).1] at hq; cases hq; rfl
        · have := (w.kept (fun q hq => by rw [hp] at hq; cases hq; rw [hf]; exact ⟨h1, h2⟩)).1
          rw [this, hp] at hq; cases hq; rfl
    rw [hq'] at hd
    rw [hq', ← State.fateOf_some hd f2, hs]; decide
  have same : ∀ p e, s.payload = some p → s.exch p.owner = some e → f1 p.owner e = .stays →
      m.payload = some p ∧ m.exch p.owner = some e ∧ f2 p.owner e = f p.owner e ∧ m.quiet = s.quiet := by
    intro p e hp he hs
    have hf : s.fateOf f1 p.owner = .stays := (State.fateOf_some he f1).trans hs
    have h1 := h.stays _ hf
    have h2 : m.exch p.owner = some e := h1.1.trans he
    refine ⟨(w.kept (fun q hq => ?_)).1.trans hp, h2, ?_, a.2 (fun q d hq hd => ?_)⟩
    · rw [hp] at hq; cases hq; rw [hf]; decide
    · have := h1.2; rw [State.fateOf_some he, State.fateOf_some h2] at this; exact this.symm
    · rw [hp] at hq; cases hq; rw [he] at hd; cases hd; left; rw [hs]; decide
  refine ⟨fun p e hp he hf hst => ?_, fun hk => ?_⟩
  · by_cases hs : f1 p.owner e = .stays
    · obtain ⟨h1, h2, h3, h4⟩ := same p e hp he hs
      have := b.1 p e h1 h2 (h3.trans hf) hst
      rw [hc, h4] at this; exact this
    · have h1 : f1 p.owner e = .ends := by
        have h2 := (h.moved p.owner (by rw [State.fateOf_some he]; exact hs)).2
        rw [State.fateOf_some he, State.fateOf_some he] at h2
        exact h2.symm.trans hf
      have := a.1 p e hp he h1 hst
      rw [keep p e hp he hs]; exact this
  · cases hp : s.payload with
    | none =>
      have h1 : m.payload = none := (w.kept (fun q hq => by rw [hp] at hq; cases hq)).1.trans hp
      rw [b.2 (fun q d hq _ => by rw [h1] at hq; cases hq), a.2 (fun q d hq _ => by rw [hp] at hq; cases hq)]
    | some p =>
      cases he : s.exch p.owner with
      | none =>
        have hf : s.fateOf f1 p.owner = .stays := State.fateOf_none he f1
        have h1 := h.stays _ hf
        have h2 : m.payload = some p := (w.kept (fun q hq => by rw [hp] at hq; cases hq; rw [hf]; decide)).1.trans hp
        rw [b.2 (fun q d hq hd => by rw [h2] at hq; cases hq; rw [h1.1, he] at hd; cases hd),
          a.2 (fun q d hq hd => by rw [hp] at hq; cases hq; rw [he] at hd; cases hd)]
      | some e =>
        have hk' := hk p e hp he
        by_cases hs : f1 p.owner e = .stays
        · obtain ⟨h1, h2, h3, h4⟩ := same p e hp he hs
          rw [b.2 (fun q d hq hd => by rw [h1] at hq; cases hq; rw [h2] at hd; cases hd; rw [h3]; exact hk'), h4]
        · have h2 := (h.moved p.owner (by rw [State.fateOf_some he]; exact hs)).2
          rw [State.fateOf_some he, State.fateOf_some he] at h2
          rw [keep p e hp he hs,
            a.2 (fun q d hq hd => by rw [hp] at hq; cases hq; rw [he] at hd; cases hd; rw [← h2]; exact hk')]

theorem Sweeps.trans {q : Prop} {s m t : State} {f1 f2 f : Tag → Exchange → Fate} {g1 g2 g : Tag → Exchange → Exchange}
    (a : Sweeps q s m f1 g1) (b : Sweeps q m t f2 g2) (h : Splits s m f1 f2 f)
    (hg : ∀ x e, s.exch x = some e → g2 x (g1 x e) = g x e) : Sweeps q s t f g := by
  refine ⟨fun x => ?_, a.swept.trans b.swept h, fun hq => .trans a.swept (a.quiet hq) (b.quiet hq) h,
    b.draws.trans a.draws⟩
  rw [b.exch, a.exch]
  cases he : s.exch x with
  | none => rfl
  | some e => exact congrArg some (hg x e he)

/-! ## One exchange -/

/-- `f` at tag `x`, and no fate elsewhere. -/
def fateAt (x : Tag) (f : Tag → Exchange → Fate) (y : Tag) (e : Exchange) : Fate := if y = x then f y e else .stays

/-- `g` at tag `x`, and no change elsewhere. -/
def changeAt (x : Tag) (g : Tag → Exchange → Exchange) (y : Tag) (e : Exchange) : Exchange := if y = x then g y e else e

theorem fateAt_of {s : State} {x : Tag} {e : Exchange} {f : Tag → Exchange → Fate} {k : Fate} (h : s.exch x = some e)
    (hk : f x e = k) : ∀ y d, s.exch y = some d → oneFate x k y d = fateAt x f y d := by
  intro y d hd
  unfold oneFate fateAt
  by_cases hy : y = x
  · subst hy; rw [h] at hd; cases hd; rw [if_pos rfl, if_pos rfl, hk]
  · rw [if_neg hy, if_neg hy]

theorem State.exch_of_set {s t : State} {x : Tag} {e d : Exchange} {g : Tag → Exchange → Exchange}
    (h : s.exch x = some e) (ht : t.table = s.table.set x (some d)) (hg : g x e = d) (y : Tag) :
    t.exch y = (s.exch y).map (changeAt x g y) := by
  have h1 : t.exch y = (s.setExch x (some d)).exch y := by unfold State.exch State.setExch; rw [ht]
  rw [h1, State.exch_setExch]
  unfold changeAt
  by_cases hy : x = y
  · subst hy; rw [if_pos rfl, h]; simp [hg]
  · rw [if_neg hy]
    have : ∀ o : Option Exchange, o = o.map (fun e => if y = x then g y e else e) := by
      intro o; cases o <;> simp [Ne.symm hy]
    exact this _

/-- An exchange that keeps its place. -/
theorem Sweeps.one_still {q : Prop} {s t : State} {x : Tag} {e d : Exchange} {f : Tag → Exchange → Fate}
    {g : Tag → Exchange → Exchange} (h : s.exch x = some e) (ht : t = { s with table := s.table.set x (some d) })
    (hf : (f x e).moves = false) (hg : g x e = d) : Sweeps q s t (fateAt x f) (changeAt x g) := by
  have hm : ∀ y, (s.fateOf (fateAt x f) y).moves = false := by
    intro y
    unfold State.fateOf fateAt
    by_cases hy : y = x
    · subst hy; rw [h]; simpa using hf
    · cases s.exch y <;> simp [hy, Fate.moves]
  refine ⟨State.exch_of_set h (by rw [ht]) hg, Swept.still hm (by rw [ht]), fun _ => ⟨fun p c hp hc hh _ => ?_, fun _ => by rw [ht]⟩, by rw [ht]⟩
  have := hm p.owner
  rw [State.fateOf_some hc, hh] at this; cases this

/-- A tag that the sweep does not reach. -/
theorem Sweeps.one_none {q : Prop} {s : State} {x : Tag} {f : Tag → Exchange → Fate} {g : Tag → Exchange → Exchange}
    (h : ∀ e, s.exch x = some e → f x e = .stays ∧ g x e = e) : Sweeps q s s (fateAt x f) (changeAt x g) := by
  have hm : ∀ y e, s.exch y = some e → fateAt x f y e = .stays ∧ changeAt x g y e = e := by
    intro y e he
    unfold fateAt changeAt
    by_cases hy : y = x
    · subst hy; simpa using h e he
    · simp [hy]
  refine ⟨fun y => ?_, Swept.still (fun y => ?_) rfl, fun _ => ⟨fun p c hp hc hh _ => ?_, fun _ => rfl⟩, rfl⟩
  · cases he : s.exch y with
    | none => rfl
    | some e => exact congrArg some (hm y e he).2.symm
  · cases he : s.exch y with
    | none => rw [State.fateOf_none he]; rfl
    | some e => rw [State.fateOf_some he, (hm y e he).1]; rfl
  · rw [(hm _ c hc).1] at hh; cases hh

/-- R101: the quiet interval of an exchange that stops without HALT. -/
theorem State.stopWithoutHalt_quiet {s : State} {x : Tag} :
    (s.stopWithoutHalt x).quiet = match s.payload with
      | some p => if p.owner = x then (p.quietAfter (Cfg.dataTimeout s.cfg)).or s.quiet else s.quiet
      | none => s.quiet := by
  unfold State.stopWithoutHalt
  cases s.payload with
  | none => rfl
  | some p =>
    dsimp only; split
    · cases p.quietAfter (Cfg.dataTimeout s.cfg) <;> rfl
    · rfl

theorem Payload.quietAfter_spec (p : Payload) (d : Nat) (q : Option Nat) :
    let full := 1 + 8 * p.blockSize / p.laneWidth + 32
    let r := (p.quietAfter d).or q
    (p.phase = .receiving ∨ (p.phase = .halted ∧ p.tail = .receiving) →
      r = if p.elapsed < full then some (full - p.elapsed) else q) ∧
    (p.phase = .awaitingBlock ∨ (p.phase = .halted ∧ p.tail = .granted) → r = some (d + full)) ∧
    (p.phase ≠ .receiving → p.phase ≠ .awaitingBlock →
      ¬ (p.phase = .halted ∧ (p.tail = .receiving ∨ p.tail = .granted)) → r = q) := by
  have hr : ((if p.blockLength - p.elapsed = 0 then none else some (p.blockLength - p.elapsed)).or q)
      = if p.elapsed < p.blockLength then some (p.blockLength - p.elapsed) else q := by
    by_cases h : p.elapsed < p.blockLength
    · rw [if_pos h, if_neg (by omega)]; rfl
    · rw [if_neg h, if_pos (by omega)]; rfl
  unfold Payload.blockLength at hr
  unfold Payload.quietAfter Payload.blockLength
  cases hp : p.phase <;> simp
  case receiving => exact hr
  case halted => cases ht : p.tail <;> simp <;> exact hr

theorem Exchange.stopsLanes_iff (e : Exchange) :
    e.stopsLanes = true ↔ (e.state = .transfer ∧ e.readFinished = false) ∨ e.state = .halting := by
  unfold Exchange.stopsLanes; simp

/-- R22: an exchange that ends; where the interval counts, its payload was stopped without HALT if it was under way. -/
theorem Sweeps.one_ends {q : Prop} {s t : State} {x : Tag} {e d : Exchange} {f : Tag → Exchange → Fate}
    {g : Tag → Exchange → Exchange} (h : s.exch x = some e) (W : Vector (List Source) 4) (Q : Option Nat)
    (ht : t = { s.enterCompleting x with table := s.table.set x (some d), waiting := W, quiet := Q })
    (hQ : q → Q = if e.stopsLanes = true then (s.stopWithoutHalt x).quiet else s.quiet)
    (hf : f x e = .ends) (hg : g x e = d) : Sweeps q s t (fateAt x f) (changeAt x g) := by
  refine ⟨State.exch_of_set h (by rw [ht]) hg, ?_, fun hq' => ?_, by rw [ht, State.enterCompleting_eq h]⟩
  · have hd : (s.enterCompleting x).freeDraws = s.freeDraws := by rw [State.enterCompleting_eq h]
    have := Swept.one_ends h (s.table.set x (some d)) W Q s.freeDraws
    rw [← hd] at this
    rw [ht]; exact this.congr (fateAt_of h hf)
  · have hq : t.quiet = if e.stopsLanes = true then (s.stopWithoutHalt x).quiet else s.quiet := by
      rw [ht]; exact hQ hq'
    refine ⟨fun p c hp hc hh hst => ?_, fun hk => ?_⟩
    · have hx : p.owner = x := by
        unfold fateAt at hh; by_contra hn; rw [if_neg hn] at hh; cases hh
      rw [hx, h] at hc; cases hc
      rw [hq, if_pos (e.stopsLanes_iff.2 hst), State.stopWithoutHalt_quiet, hp]; dsimp only; rw [if_pos hx]
      exact Payload.quietAfter_spec p _ _
    · rw [hq]
      split
      · rename_i hst
        rw [State.stopWithoutHalt_quiet]
        cases hp : s.payload with
        | none => rfl
        | some p =>
          dsimp only
          split
          · rename_i hx
            rcases hk p e hp (by rw [hx]; exact h) with h1 | h1
            · unfold fateAt at h1; rw [if_pos hx, hx] at h1; exact absurd hf h1
            · rcases e.stopsLanes_iff.1 hst with h2 | h2
              · have := h1.1 h2.1; rw [h2.2] at this; cases this
              · exact absurd h2 h1.2
          · rfl
      · rfl

/-- R18, R99: an exchange that is halted. -/
theorem Sweeps.one_halts {q : Prop} {s t : State} {x : Tag} {e d : Exchange} {f : Tag → Exchange → Fate}
    {g : Tag → Exchange → Exchange} (h : s.exch x = some e)
    (ht : t = { s.enterHalting x with table := s.table.set x (some d) })
    (hf : f x e = .halts) (hg : g x e = d) : Sweeps q s t (fateAt x f) (changeAt x g) := by
  have hF := State.fateOf_one h .halts
  have ea : ∀ u y, s.endsAt (oneFate x .halts) u y = false := by
    intro u y; rw [State.endsAt_eq, hF]; by_cases hy : y = x <;> simp [hy]
  have eo : ∀ r : Request, s.endsOwner (oneFate x .halts) r = false := by
    intro r; unfold State.endsOwner
    split
    · rw [hF]; split <;> rfl
    all_goals rfl
  have hw : Swept s t (oneFate x .halts) := by
    rw [ht, State.enterHalting_eq h]
    refine ⟨fun u => ?_, ?_, fun u => ?_, ?_, ?_, fun p hp ho => ?_, fun p hp ho => ?_, fun hk => ?_, fun hk => ⟨rfl, ?_⟩, rfl⟩
    · show s.queueOf u = _
      simp [ea]
    · show s.reconnect = _
      symm; rw [List.filter_eq_self]; intro y _; rw [hF]; split <;> rfl
    · show (_ : Station) = { s.station u with
        pendingConfigs := (s.station u).pendingConfigs.filter (fun c => !s.endsAt (oneFate x .halts) u c.tag),
        saturation := if allTags.any (s.freesAt (oneFate x .halts) u) then none else (s.station u).saturation }
      rw [State.freesAt_one h]
      simp only [ea, Fate.moves, Bool.true_and, Bool.not_false, List.filter_true]
      by_cases hr : e.state.freesRoom = true
      · simp only [hr, if_true, Bool.true_and, beq_iff_eq]
        refine Eq.trans (State.station_modStation s e.station u (fun r => { r with saturation := none })) ?_
        by_cases hu : e.station = u
        · subst hu; simp
        · rw [if_neg hu, if_neg hu]
      · simp [hr, State.station]
    · show s.current = _
      cases s.current <;> simp [eo]
    · show s.setAside = _
      cases s.setAside <;> simp [eo]
    · rw [hF] at ho; split at ho <;> cases ho
    · rw [hF] at ho
      have hx : p.owner = x := by by_contra hh; rw [if_neg hh] at ho; cases ho
      simp [hp, hx, Payload.halt_eq]
    · have hx : ∀ p, s.payload = some p → p.owner ≠ x := by
        intro p hp hh; have := (hk p hp).2; rw [hF, if_pos hh] at this; exact this rfl
      constructor
      · show s.payload.map _ = s.payload
        cases hp : s.payload with
        | none => rfl
        | some p => simp [hx p hp]
      · show (if _ then _ else _) = s.staging
        rw [if_neg]
        cases hp : s.payload with
        | none => simp
        | some p => simpa using hx p hp
    · show s.job.bind _ = s.job.bind _
      congr 1; funext j; rw [hF]; by_cases hj : j.tag = x <;> simp [hj]
  refine ⟨State.exch_of_set h (by rw [ht]) hg, hw.congr (fateAt_of h hf), fun _ => ⟨fun p c hp hc hh _ => ?_, fun _ => ?_⟩, ?_⟩
  · unfold fateAt at hh; split at hh
    · rename_i hx; rw [hx] at hc hh; rw [h] at hc; cases hc; rw [hf] at hh; cases hh
    · cases hh
  · rw [ht, State.enterHalting_eq h]
  · rw [ht, State.enterHalting_eq h]

/-- R126: an exchange that is withdrawn from DEFERRED or RECONNECTING. -/
theorem Sweeps.one_withdraws {q : Prop} {s t : State} {x : Tag} {e d : Exchange} {f : Tag → Exchange → Fate}
    {g : Tag → Exchange → Exchange} (h : s.exch x = some e) (hr : e.state.freesRoom = true)
    (ht : t = { s.clearSaturation e.station with
      table := s.table.set x (some d), reconnect := s.reconnect.filter (· != x) })
    (hf : f x e = .withdraws) (hg : g x e = d) : Sweeps q s t (fateAt x f) (changeAt x g) := by
  have hF := State.fateOf_one h .withdraws
  have hne : ∀ y, s.fateOf (oneFate x .withdraws) y ≠ .ends ∧ s.fateOf (oneFate x .withdraws) y ≠ .halts := by
    intro y; rw [hF]; split <;> decide
  have ea : ∀ u y, s.endsAt (oneFate x .withdraws) u y = false := by
    intro u y; rw [State.endsAt_eq]; simp [(hne y).1]
  have eo : ∀ r : Request, s.endsOwner (oneFate x .withdraws) r = false := by
    intro r; unfold State.endsOwner
    split
    · rw [hF]; split <;> rfl
    all_goals rfl
  have hw : Swept s t (oneFate x .withdraws) := by
    rw [ht]
    refine ⟨fun u => ?_, ?_, fun u => ?_, ?_, ?_, fun p hp ho => absurd ho (hne _).1, fun p hp ho => absurd ho (hne _).2,
      fun _ => ⟨rfl, rfl⟩, fun _ => ⟨rfl, ?_⟩, rfl⟩
    · show s.queueOf u = _
      simp [ea]
    · show s.reconnect.filter (· != x) = _
      congr 1; funext y; rw [hF]
      by_cases hy : y = x
      · simp [hy]
      · rw [if_neg hy, bne_iff_ne.2 hy]; decide
    · show (s.clearSaturation e.station).station u = { s.station u with
        pendingConfigs := (s.station u).pendingConfigs.filter (fun c => !s.endsAt (oneFate x .withdraws) u c.tag),
        saturation := if allTags.any (s.freesAt (oneFate x .withdraws) u) then none else (s.station u).saturation }
      rw [State.freesAt_one h]
      simp only [ea, Fate.moves, Bool.true_and, Bool.not_false, List.filter_true, hr, beq_iff_eq]
      refine Eq.trans (State.station_modStation s e.station u (fun r => { r with saturation := none })) ?_
      by_cases hu : e.station = u
      · subst hu; simp
      · rw [if_neg hu, if_neg hu]
    · show s.current = _
      cases s.current <;> simp [eo]
    · show s.setAside = _
      cases s.setAside <;> simp [eo]
    · show s.job = _
      cases s.job with
      | none => rfl
      | some j => simp [(hne j.tag).1, (hne j.tag).2]
  refine ⟨State.exch_of_set h (by rw [ht]) hg, hw.congr (fateAt_of h hf), fun _ => ⟨fun p c hp hc hh _ => ?_, fun _ => ?_⟩, ?_⟩
  · unfold fateAt at hh; split at hh
    · rename_i hx; rw [hx] at hc hh; rw [h] at hc; cases hc; rw [hf] at hh; cases hh
    · cases hh
  · rw [ht]; rfl
  · rw [ht]; rfl

/-! ## A run over tags -/

/-- `f` at the tags of a list, and no fate elsewhere. -/
def fateIn (l : List Tag) (f : Tag → Exchange → Fate) (y : Tag) (e : Exchange) : Fate := if y ∈ l then f y e else .stays

/-- `g` at the tags of a list, and no change elsewhere. -/
def changeIn (l : List Tag) (g : Tag → Exchange → Exchange) (y : Tag) (e : Exchange) : Exchange :=
  if y ∈ l then g y e else e

/-- A sweep `f` that leaves what `g` says reaches nothing a second time. -/
structure Once (f : Tag → Exchange → Fate) (g : Tag → Exchange → Exchange) : Prop where
  stays : ∀ x e, f x e = .stays → g x e = e
  done : ∀ x e, f x (g x e) = .stays

/-- A run over a list of tags, each step of which sweeps its own tag where `ok` holds of it. The tags are distinct, or
`ok` holds again after a step. -/
theorem Sweeps.run {q : Prop} {f : Tag → Exchange → Fate} {g : Tag → Exchange → Exchange} (hfg : Once f g)
    {ok : Tag → Option Exchange → Prop} {step : State → Tag → State}
    (hs : ∀ m x, ok x (m.exch x) → Sweeps q m (step m x) (fateAt x f) (changeAt x g)) :
    ∀ (l : List Tag) (s : State), (∀ x ∈ l, ok x (s.exch x)) → (l.Nodup ∨ ∀ x o, ok x o → ok x (o.map (g x))) →
      Sweeps q s (l.foldl step s) (fateIn l f) (changeIn l g) := by
  intro l
  induction l with
  | nil =>
    intro s _ _
    have := Sweeps.one_none (q := q) (s := s) (x := 0) (f := fun _ _ => .stays) (g := fun _ e => e) (fun _ _ => ⟨rfl, rfl⟩)
    refine this.congr (fun x e _ => ?_) (fun x e _ => ?_)
    · unfold fateAt fateIn; split <;> simp
    · unfold changeAt changeIn; split <;> simp
  | cons x l ih =>
    intro s hok hn
    rw [List.foldl_cons]
    have a := hs s x (hok x (List.mem_cons.2 (.inl rfl)))
    have b := ih (step s x) (fun y hy => ?_) (hn.imp (fun h => (List.nodup_cons.1 h).2) id)
    · have h1 : ∀ y e, fateAt x f y e = if y = x then f y e else .stays := fun _ _ => rfl
      refine a.trans b ⟨fun y hy => ?_, fun y hy => ?_⟩ (fun y e he => ?_)
      · rw [a.exch]
        cases he : s.exch y with
        | none => exact ⟨rfl, by rw [State.fateOf_none he, State.fateOf_none (by rw [a.exch, he]; rfl)]⟩
        | some e =>
          rw [State.fateOf_some he] at hy
          have hc : changeAt x g y e = e := by
            unfold changeAt; split
            · rename_i hx; rw [h1, if_pos hx] at hy; exact hfg.stays y e hy
            · rfl
          have he' : (step s x).exch y = some e := by rw [a.exch, he]; exact congrArg some hc
          refine ⟨congrArg some hc, ?_⟩
          rw [State.fateOf_some he, State.fateOf_some he']
          unfold fateIn
          by_cases hx : y = x
          · rw [h1, if_pos hx] at hy
            rw [if_pos (List.mem_cons.2 (.inl hx)), hy]
            split <;> rfl
          · simp [hx]
      · cases he : s.exch y with
        | none => rw [State.fateOf_none he] at hy; exact absurd rfl hy
        | some e =>
          rw [State.fateOf_some he] at hy
          have hx : y = x := by by_contra hx; rw [h1, if_neg hx] at hy; exact hy rfl
          have he' : (step s x).exch y = some (g y e) := by
            rw [a.exch, he]; unfold changeAt; rw [Option.map_some, if_pos hx]
          rw [State.fateOf_some he, State.fateOf_some he, State.fateOf_some he']
          unfold fateIn
          refine ⟨?_, by rw [if_pos (List.mem_cons.2 (.inl hx)), h1, if_pos hx]⟩
          split
          · exact hfg.done y e
          · rfl
      · unfold changeIn changeAt
        by_cases hx : y = x
        · rw [if_pos hx, if_pos (List.mem_cons.2 (.inl hx))]
          split
          · exact hfg.stays _ _ (hfg.done y e)
          · rfl
        · simp [hx]
    · rw [a.exch]
      have h1 := hok y (List.mem_cons.2 (.inr hy))
      by_cases hx : y = x
      · rcases hn with hn | hn
        · subst hx; exact absurd hy (List.nodup_cons.1 hn).1
        · have := hn y _ h1
          have h2 : (s.exch y).map (changeAt x g y) = (s.exch y).map (g y) := by
            congr 1; funext e; unfold changeAt; rw [if_pos hx]
          rw [h2]; exact this
      · have h2 : (s.exch y).map (changeAt x g y) = s.exch y := by
          cases s.exch y with
          | none => rfl
          | some e => unfold changeAt; rw [Option.map_some, if_neg hx]
        rw [h2]; exact h1

/-- A run over every tag. -/
theorem Sweeps.run_all {q : Prop} {s t : State} {l : List Tag} {f : Tag → Exchange → Fate} {g : Tag → Exchange → Exchange}
    (h : Sweeps q s t (fateIn l f) (changeIn l g)) (hl : ∀ x, x ∈ l) : Sweeps q s t f g :=
  h.congr (fun x e _ => by unfold fateIn; rw [if_pos (hl x)]) (fun x e _ => by unfold changeIn; rw [if_pos (hl x)])

/-! ## The waiting lists of a run -/

/-- A source that is in its list, or may not join, joins no more. -/
def State.Settled (s : State) (w : Vector (List Source) 4) (src : Source) : Prop := s.joinSource w src = w

theorem joinInto_mem {w : Vector (List Source) 4} {c : RingId} {src : Source} (r : RingId) {x : Source} (h : x ∈ w[r]) :
    x ∈ (joinInto w c src)[r] := by
  unfold joinInto
  split
  · exact h
  · by_cases hc : c = r
    · subst hc
      have : x ∈ w[c] ++ [src] := List.mem_append.2 (.inl h)
      simpa using this
    · have : (w.set c (w[c] ++ [src]))[r] = w[r] := by
        have hv : c.val ≠ r.val := fun hh => hc (Fin.ext hh)
        exact Vector.getElem_set_ne _ _ hv
      rw [this]; exact h

theorem joinInto_self (w : Vector (List Source) 4) (c : RingId) (src : Source) : src ∈ (joinInto w c src)[c] := by
  unfold joinInto
  split
  · assumption
  · simp

theorem joinInto_of_mem {w : Vector (List Source) 4} {c : RingId} {src : Source} (h : src ∈ w[c]) :
    joinInto w c src = w := by unfold joinInto; rw [if_pos h]

/-- A source joins at most one list, which the records choose. -/
theorem State.joinSource_cases (s : State) (src : Source) :
    (∀ w, s.joinSource w src = w) ∨ ∃ c, ∀ w, s.joinSource w src = joinInto w c src := by
  unfold State.joinSource
  cases src with
  | exchange x =>
    dsimp only
    cases s.exch x with
    | none => exact .inl fun _ => rfl
    | some e =>
      dsimp only
      by_cases h : s.outstanding x = 0
      · simp only [if_pos h]
        cases s.cringOf e.ring with
        | none => exact .inl fun _ => rfl
        | some c => exact .inr ⟨c, fun _ => rfl⟩
      · simp only [if_neg h]; exact .inl fun _ => trivial
  | holding r =>
    dsimp only
    cases s.cringOf r with
    | none => exact .inl fun _ => rfl
    | some c => exact .inr ⟨c, fun _ => rfl⟩
  | event =>
    dsimp only
    cases s.eventRing with
    | none => exact .inl fun _ => rfl
    | some c => exact .inr ⟨c, fun _ => rfl⟩

theorem State.settled_self (s : State) (w : Vector (List Source) 4) (src : Source) :
    s.Settled (s.joinSource w src) src := by
  unfold State.Settled
  rcases s.joinSource_cases src with h | ⟨c, h⟩
  · rw [h, h]
  · rw [h, h]; exact joinInto_of_mem (joinInto_self w c src)

theorem State.Settled.mono {s : State} {w : Vector (List Source) 4} {src : Source} (h : s.Settled w src) (src' : Source) :
    s.Settled (s.joinSource w src') src := by
  unfold State.Settled at *
  rcases s.joinSource_cases src with h1 | ⟨c, h1⟩
  · rw [h1]
  · rw [h1] at h ⊢
    have hm : src ∈ w[c] := by have := joinInto_self w c src; rw [h] at this; exact this
    rcases s.joinSource_cases src' with h2 | ⟨c', h2⟩
    · rw [h2]; exact h
    · rw [h2]; exact joinInto_of_mem (joinInto_mem c hm)

/-- What `joinSource` reads of an exchange. -/
theorem State.joinSource_congr {s t : State} {x : Tag} (h1 : (t.exch x).map Exchange.ring = (s.exch x).map Exchange.ring)
    (h2 : t.accesses = s.accesses) (h3 : ∀ r, t.cringOf r = s.cringOf r) (w : Vector (List Source) 4) :
    t.joinSource w (.exchange x) = s.joinSource w (.exchange x) := by
  have ho : t.outstanding x = s.outstanding x := by unfold State.outstanding; rw [h2]
  unfold State.joinSource
  dsimp only
  cases hs : s.exch x with
  | none => rw [hs] at h1; cases ht : t.exch x with
    | none => rfl
    | some e => rw [ht] at h1; cases h1
  | some e =>
    rw [hs] at h1
    cases ht : t.exch x with
    | none => rw [ht] at h1; cases h1
    | some d =>
      rw [ht] at h1
      have hr : d.ring = e.ring := Option.some.inj h1
      dsimp only
      rw [ho, hr, h3]

/-- The waiting lists after a run, each step of which lets an exchange that ends join at once. -/
theorem Sweeps.run_waiting {q : Prop} {f : Tag → Exchange → Fate} {g : Tag → Exchange → Exchange} (hfg : Once f g)
    {step : State → Tag → State}
    (hs : ∀ m x, Sweeps q m (step m x) (fateAt x f) (changeAt x g))
    (hw : ∀ m x, (step m x).waiting
      = if m.fateOf f x = .ends then m.joinSource m.waiting (.exchange x) else m.waiting) (s : State) :
    ∀ (l : List Tag) (m : State),
      (∀ x, m.exch x = s.exch x ∨ (m.exch x = (s.exch x).map (g x)
        ∧ (s.fateOf f x = .ends → s.Settled m.waiting (.exchange x)))) →
      m.accesses = s.accesses → m.subRings = s.subRings →
      (l.foldl step m).waiting
        = ((l.filter (fun x => s.fateOf f x == .ends)).map Source.exchange).foldl s.joinSource m.waiting := by
  intro l
  induction l with
  | nil => intro m _ _ _; rfl
  | cons x l ih =>
    intro m hm ha hb
    rw [List.foldl_cons]
    have a := hs m x
    have h1 : (step m x).waiting = if s.fateOf f x = .ends then s.joinSource m.waiting (.exchange x) else m.waiting := by
      rw [hw]
      have hcr : ∀ r, m.cringOf r = s.cringOf r := fun r => by unfold State.cringOf State.subRing; rw [hb]
      rcases hm x with h | ⟨h, h'⟩
      · have : m.fateOf f x = s.fateOf f x := by unfold State.fateOf; rw [h]
        rw [this, State.joinSource_congr (by rw [h]) ha hcr]
      · have h2 : m.fateOf f x = .stays := by
          unfold State.fateOf; rw [h]
          cases s.exch x with
          | none => rfl
          | some e => exact hfg.done x e
        rw [h2, if_neg (by decide)]
        split
        · rename_i he; exact (h' he).symm
        · rfl
    have hx : (step m x).exch x = (s.exch x).map (g x) := by
      rw [a.exch]
      have h2 : (m.exch x).map (changeAt x g x) = (m.exch x).map (g x) := by
        congr 1; funext e; unfold changeAt; rw [if_pos rfl]
      rw [h2]
      rcases hm x with h | ⟨h, _⟩
      · rw [h]
      · rw [h, Option.map_map]; congr 1; funext e
        exact hfg.stays _ _ (hfg.done x e)
    have hset : ∀ y, s.Settled m.waiting (.exchange y) → s.Settled (step m x).waiting (.exchange y) := by
      intro y hy; rw [h1]; split
      · exact hy.mono _
      · exact hy
    refine (ih (step m x) (fun y => ?_) ?_ ?_).trans ?_
    rotate_left 3
    · rw [h1]
      by_cases he : s.fateOf f x = .ends
      · rw [List.filter_cons_of_pos (by simpa using he), if_pos he]; rfl
      · rw [List.filter_cons_of_neg (by simpa using he), if_neg he]
    · by_cases hy : y = x
      · subst hy
        refine .inr ⟨hx, fun he => ?_⟩
        rw [h1, if_pos he]; exact State.settled_self s _ _
      · have h2 : (step m x).exch y = m.exch y := by
          rw [a.exch]
          cases m.exch y with
          | none => rfl
          | some e => unfold changeAt; rw [Option.map_some, if_neg hy]
        rw [h2]
        rcases hm y with h | ⟨h, h'⟩
        · exact .inl h
        · exact .inr ⟨h, fun he => hset y (h' he)⟩
    · rw [a.swept.rest]; exact ha
    · rw [a.swept.rest]; exact hb

/-! ## Sources that join together (R156) -/

theorem insertByKey_perm (key : Nat → Nat) (x : Source) : ∀ l, (insertByKey key x l).Perm (x :: l) := by
  intro l
  induction l with
  | nil => exact .refl _
  | cons y l ih =>
    unfold insertByKey
    split
    · exact .refl _
    · exact (ih.cons y).trans (.swap x y l)

theorem orderByKey_perm (key : Nat → Nat) : ∀ l, (orderByKey key l).Perm l := by
  intro l
  induction l with
  | nil => exact .refl _
  | cons x l ih =>
    unfold orderByKey at *
    rw [List.foldr_cons]
    exact (insertByKey_perm key x _).trans (ih.cons x)

/-- A source whose conditions hold joins as `joinSource` says. -/
structure State.Joins (s t : State) (src : Source) : Prop where
  accesses : t.accesses = s.accesses
  rings : ∀ r, t.cringOf r = s.cringOf r
  events : t.eventRing = s.eventRing
  ready : ∀ x, src = .exchange x → ∃ e d, s.exch x = some e ∧ t.exch x = some d ∧ d.ring = e.ring
    ∧ d.state = .completing ∧ d.final.isSome = true

theorem State.Joins.join {s t : State} {src : Source} (h : s.Joins t src) :
    t.join src = { t with waiting := s.joinSource t.waiting src } := by
  unfold State.join State.joinSource
  cases src with
  | exchange x =>
    obtain ⟨e, d, he, hd, hr, hc, hf⟩ := h.ready x rfl
    have ho : t.outstanding x = s.outstanding x := by unfold State.outstanding; rw [h.accesses]
    have hj : t.joinReady x = (s.outstanding x == 0) := by
      unfold State.joinReady; rw [hd]; simp [hc, hf, ho]
    dsimp only
    rw [hj, hd, he]; dsimp only
    rw [Option.bind_some, hr, h.rings]
    by_cases h0 : s.outstanding x = 0
    · rw [if_pos h0, if_pos (by simpa using h0)]
      cases s.cringOf e.ring with
      | none => rfl
      | some c => exact State.joinList_waiting t c _
    · rw [if_neg h0, if_neg (by simpa using h0)]
  | holding r =>
    dsimp only; rw [h.rings]
    cases s.cringOf r with
    | none => rfl
    | some c => exact State.joinList_waiting t c _
  | event =>
    dsimp only; rw [h.events]
    cases s.eventRing with
    | none => rfl
    | some c => exact State.joinList_waiting t c _

/-- A source whose conditions do not hold: an exchange that is not in COMPLETING. -/
def State.Waits (t : State) (src : Source) : Prop :=
  ∃ x, src = .exchange x ∧ ∀ e, t.exch x = some e → e.state ≠ .completing

theorem State.Waits.join {t : State} {src : Source} (h : t.Waits src) : t.join src = t := by
  obtain ⟨x, rfl, hx⟩ := h
  unfold State.join
  have : t.joinReady x = false := by
    unfold State.joinReady
    cases he : t.exch x with
    | none => rfl
    | some e => simp [hx e he]
  dsimp only; rw [this]; rfl

/-- Of a run of sources those that `p` picks join, in order, and the others wait. -/
theorem State.Joins.run {s : State} (p : Source → Bool) : ∀ (l : List Source) (t : State),
    (∀ src ∈ l, (p src = true → s.Joins t src) ∧ (p src = false → t.Waits src)) →
    l.foldl State.join t = { t with waiting := (l.filter p).foldl s.joinSource t.waiting } := by
  intro l
  induction l with
  | nil => intro t _; rfl
  | cons x l ih =>
    intro t h
    have h1 := h x (List.mem_cons.2 (.inl rfl))
    rw [List.foldl_cons]
    cases hp : p x with
    | true =>
      rw [List.filter_cons_of_pos hp, List.foldl_cons, (h1.1 hp).join, ih]
      intro y hy
      have := h y (List.mem_cons.2 (.inr hy))
      exact ⟨fun hq => ⟨(this.1 hq).accesses, (this.1 hq).rings, (this.1 hq).events, (this.1 hq).ready⟩, this.2⟩
    | false =>
      rw [List.filter_cons_of_neg (by simp [hp]), (h1.2 hp).join]
      exact ih t (fun y hy => h y (List.mem_cons.2 (.inr hy)))

/-- R156: of the sources that are put together those that are ready join in some order, and a draw is taken. -/
theorem State.joinTogether_perm {s t : State} {l : List Source} (p : Source → Bool)
    (h : ∀ src ∈ l, (p src = true → s.Joins t src) ∧ (p src = false → t.Waits src)) :
    ∃ o : List Source, o.Perm (l.filter p) ∧
      t.joinTogether l = { t with waiting := o.foldl s.joinSource t.waiting, freeDraws := t.freeDraws + 1 } := by
  refine ⟨(orderByKey (Config.joinKey t.freeDraws) l).filter p, (orderByKey_perm _ _).filter _, ?_⟩
  unfold State.joinTogether
  refine State.Joins.run p _ _ (fun src hs => ?_)
  have := h src ((orderByKey_perm _ _).mem_iff.1 hs)
  exact ⟨fun hq => ⟨(this.1 hq).accesses, (this.1 hq).rings, (this.1 hq).events, (this.1 hq).ready⟩, this.2⟩

/-- A permutation of a mapped list is a permutation, mapped. -/
theorem perm_of_map {α β : Type} (f : α → β) : ∀ {o l' : List β}, o.Perm l' → ∀ l : List α, l' = l.map f →
    ∃ k : List α, k.Perm l ∧ o = k.map f := by
  intro o l' h
  induction h with
  | nil => intro l hl; exact ⟨[], by rw [List.map_eq_nil_iff.1 hl.symm], rfl⟩
  | cons x h ih =>
    intro l hl
    cases l with
    | nil => cases hl
    | cons a l =>
      rw [List.map_cons] at hl; injection hl with h1 h2
      obtain ⟨k, hk, ho⟩ := ih l h2
      exact ⟨a :: k, hk.cons a, by rw [List.map_cons, ho, h1]⟩
  | swap x y l1 =>
    intro l hl
    match l, hl with
    | a :: b :: l, hl =>
      rw [List.map_cons, List.map_cons] at hl
      injection hl with h1 h2; injection h2 with h2 h3
      exact ⟨b :: a :: l, .swap a b l, by rw [List.map_cons, List.map_cons, h1, h2, h3]⟩
  | trans h1 h2 ih1 ih2 =>
    intro l hl
    obtain ⟨k, hk, ho⟩ := ih2 l hl
    obtain ⟨k2, hk2, ho2⟩ := ih1 k ho
    exact ⟨k2, hk2.trans hk, ho2⟩

end Sys2Proof.Machine
end

