-- ==== Sys2Proof/Laws/Lost.lean ====
section
/-! SUPPORT. What the loss of a station (R19), a station reset (R12, R17) and the beginning of a link reset (R20, R59, R80)
do, once. -/

namespace Sys2Proof.Machine

/-- R22: an exchange with its cause recorded enters COMPLETING. -/
theorem State.complete_ended {s : State} {x : Tag} {e : Exchange} (h : s.exch x = some e) (hf : e.final.isSome = true)
    (st : Status) (v : Word) : Ended s (s.complete x) x e st v := by
  have h1 : s.recordCause x st v = s := by
    rw [State.recordCause_eq h]
    have : e.finalAfter st v = e.final := by unfold Exchange.finalAfter; rw [if_pos hf]
    rw [this]
    have h2 : (s.table.set x (some e)) = s.table := by
      have h3 : s.table[x] = some e := h
      rw [← h3]; simp
    show ({ s with table := s.table.set x (some e) } : State) = s
    rw [h2]
  have := State.endWith_ended h st v
  unfold State.endWith at this
  rw [h1] at this
  exact this

/-! ## An exchange that ends, as one update -/

/-- R22: an exchange whose record changes in what an end does not read, and then enters COMPLETING. -/
theorem State.setExch_enterCompleting {s : State} {x : Tag} {e d : Exchange} (h : s.exch x = some e)
    (h1 : d.state = e.state) (h2 : d.station = e.station) :
    (s.setExch x (some d)).enterCompleting x
      = { s.enterCompleting x with
          table := s.table.set x (some { d with state := .completing, retriesUsed := none, deferral := none }) } := by
  rw [State.enterCompleting_eq (State.exch_setExch_self s x (some d)), State.enterCompleting_eq h]
  obtain ⟨dst, dk, dr, dw, di, dstn⟩ := d
  subst h1 h2
  simp only [State.setExch, Vector.set_set, State.queueOf, State.station]
  rfl

/-- R101: stopping without HALT releases the lanes, which an end does too, and sets the quiet interval. -/
theorem State.stop_enterCompleting {s : State} {x : Tag} {e : Exchange} (h : s.exch x = some e) :
    (s.stopWithoutHalt x).enterCompleting x
      = { s.enterCompleting x with quiet := (s.stopWithoutHalt x).quiet } := by
  have hx : (s.stopWithoutHalt x).exch x = some e := by
    rw [← h]; unfold State.stopWithoutHalt
    cases s.payload with
    | none => rfl
    | some p => dsimp only; split <;> rfl
  rw [State.enterCompleting_eq hx, State.enterCompleting_eq h]
  unfold State.stopWithoutHalt
  cases hp : s.payload with
  | none => simp [hp]
  | some p =>
    dsimp only
    by_cases ho : p.owner = x
    · by_cases hc : s.cl = .hold <;> simp [ho, State.releaseLanes, State.queueOf, State.station, hc]
    · simp [ho, hp]

theorem State.stop_exch (s : State) (x y : Tag) : (s.stopWithoutHalt x).exch y = s.exch y := by
  unfold State.stopWithoutHalt
  cases s.payload with
  | none => rfl
  | some p => dsimp only; split <;> rfl

theorem State.stop_kept (s : State) (x : Tag) :
    (s.stopWithoutHalt x).table = s.table ∧ (s.stopWithoutHalt x).waiting = s.waiting
      ∧ (s.stopWithoutHalt x).accesses = s.accesses ∧ (s.stopWithoutHalt x).subRings = s.subRings
      ∧ (s.stopWithoutHalt x).device = s.device := by
  unfold State.stopWithoutHalt
  cases s.payload with
  | none => exact ⟨rfl, rfl, rfl, rfl, rfl⟩
  | some p => dsimp only; split <;> exact ⟨rfl, rfl, rfl, rfl, rfl⟩

/-- R7, R22: an exchange that ends with a cause and joins at once. -/
theorem State.endWith_eq {s : State} {x : Tag} {e : Exchange} (h : s.exch x = some e) (st : Status) (v : Word) :
    s.endWith x st v = { s.enterCompleting x with
      table := s.table.set x (some { e with state := .completing, retriesUsed := none, deferral := none,
                                            final := e.finalAfter st v }),
      waiting := s.joinSource s.waiting (.exchange x) } := by
  unfold State.endWith State.complete
  have h1 : (s.setExch x (some { e with final := e.finalAfter st v })).enterCompleting x
      = { s.enterCompleting x with
          table := s.table.set x (some { e with state := .completing, retriesUsed := none, deferral := none,
                                                final := e.finalAfter st v }) } :=
    State.setExch_enterCompleting h rfl rfl
  rw [State.recordCause_eq h, h1, State.enterCompleting_eq h]
  refine Eq.trans (State.Joins.join (s := s) ⟨rfl, fun _ => rfl, rfl, fun y hy => ?_⟩) rfl
  cases hy
  refine ⟨e, _, h, State.exch_setExch_self s x _, rfl, rfl, e.finalAfter_isSome st v⟩

theorem State.joinSource_stop (s : State) (x : Tag) (w : Vector (List Source) 4) (y : Tag) :
    (s.stopWithoutHalt x).joinSource w (.exchange y) = s.joinSource w (.exchange y) := by
  have hk := s.stop_kept x
  refine State.joinSource_congr (by rw [State.stop_exch]) hk.2.2.1 (fun r => ?_) w
  unfold State.cringOf State.subRing; rw [hk.2.2.2.1]

/-- R7, R22, R101: an exchange whose payload is stopped without HALT, and that ends with a cause and joins at once. -/
theorem State.stop_endWith_eq {s : State} {x : Tag} {e : Exchange} (h : s.exch x = some e) (st : Status) (v : Word) :
    (s.stopWithoutHalt x).endWith x st v = { s.enterCompleting x with
      table := s.table.set x (some { e with state := .completing, retriesUsed := none, deferral := none,
                                            final := e.finalAfter st v }),
      waiting := s.joinSource s.waiting (.exchange x),
      quiet := (s.stopWithoutHalt x).quiet } := by
  rw [State.endWith_eq ((State.stop_exch s x x).trans h), State.stop_enterCompleting h, State.joinSource_stop,
    (s.stop_kept x).1, (s.stop_kept x).2.1]

/-! ## Link reset -/

/-- What a link reset leaves of an exchange, by its tag. -/
def afterReset (_ : Tag) (e : Exchange) : Exchange := e.afterLinkReset

theorem linkReset_once : Once linkResetFate afterReset := by
  refine ⟨fun x e h => ?_, fun x e => ?_⟩
  · unfold linkResetFate at h; unfold afterReset Exchange.afterLinkReset
    split at h
    · cases h
    · rename_i hn; rw [if_neg hn]
  · unfold linkResetFate afterReset Exchange.afterLinkReset
    by_cases h : e.state.onLink = true
    · rw [if_pos h]; rfl
    · rw [if_neg h, if_neg h]

theorem State.linkResetOne_waiting (s : State) (x : Tag) :
    (s.linkResetOne x).waiting
      = if s.fateOf linkResetFate x = .ends then s.joinSource s.waiting (.exchange x) else s.waiting := by
  unfold State.linkResetOne
  cases he : s.exch x with
  | none => rw [State.fateOf_none he]; rfl
  | some e =>
    rw [State.fateOf_some he]
    dsimp only
    by_cases h : e.state.onLink = true
    · have hf : linkResetFate x e = .ends := by unfold linkResetFate; rw [if_pos h]
      rw [hf, if_pos h, State.endWith_eq he]; rfl
    · have hf : linkResetFate x e = .stays := by unfold linkResetFate; rw [if_neg h]
      rw [hf, if_neg h]; rfl

theorem State.linkResetOne_sweeps (s : State) (x : Tag) :
    Sweeps False s (s.linkResetOne x) (fateAt x linkResetFate) (changeAt x afterReset) := by
  unfold State.linkResetOne
  cases he : s.exch x with
  | none => exact .one_none (fun e h => by rw [he] at h; cases h)
  | some e =>
    dsimp only
    by_cases h : e.state.onLink = true
    · rw [if_pos h]
      refine .one_ends he (s.joinSource s.waiting (.exchange x)) s.quiet ?_ (fun hq => hq.elim) ?_ ?_
        (d := { e with state := .completing, retriesUsed := none, deferral := none, final := e.finalAfter .linkReset 0 })
      · rw [State.endWith_eq he, State.enterCompleting_eq he]
      · unfold linkResetFate; rw [if_pos h]
      · unfold afterReset Exchange.afterLinkReset; rw [if_pos h]
    · rw [if_neg h]
      refine .one_none (fun d hd => ?_)
      rw [he] at hd; cases hd
      unfold linkResetFate afterReset Exchange.afterLinkReset; rw [if_neg h, if_neg h]; exact ⟨rfl, rfl⟩

/-- R20: every exchange that is in flight ends, and they join their lists in ascending tag order. -/
theorem State.linkResetAll_sweeps (s : State) :
    Sweeps False s (allTags.foldl State.linkResetOne s) linkResetFate afterReset
      ∧ (allTags.foldl State.linkResetOne s).waiting
        = s.joined ((allTags.filter (fun x => s.fateOf linkResetFate x == .ends)).map .exchange) :=
  ⟨(Sweeps.run linkReset_once (ok := fun _ _ => True) (fun m x _ => m.linkResetOne_sweeps x) allTags s
      (fun _ _ => trivial) (.inr fun _ _ _ => trivial)).run_all allTags_mem,
    Sweeps.run_waiting linkReset_once State.linkResetOne_sweeps State.linkResetOne_waiting s allTags s
      (fun _ => .inl rfl) rfl rfl⟩

/-- Every station is read through a sweep over the eight slots. -/
theorem State.station_foldAll (f : Station → Station) (s : State) (u : StationId) :
    (allStations.foldl (fun a st => a.modStation st f) s).station u = f (s.station u) := by
  have h : ∀ (l : List StationId), l.Nodup → ∀ s : State, (l.foldl (fun a st => a.modStation st f) s).station u
      = if u ∈ l then f (s.station u) else s.station u := by
    intro l
    induction l with
    | nil => intro _ s; simp
    | cons x l ih =>
      intro hn s
      rw [List.foldl_cons, ih (List.nodup_cons.1 hn).2, State.station_modStation]
      have hx := (List.nodup_cons.1 hn).1
      by_cases hux : x = u
      · subst hux; simp [hx]
      · simp [hux, Ne.symm hux]
  rw [h allStations (by decide) s, if_pos (allStations_mem u)]

/-- A sweep over the eight stations writes the station records alone. -/
theorem State.foldAll_stations (f : Station → Station) (l : List StationId) (s : State) :
    l.foldl (fun a st => a.modStation st f) s
      = { s with stations := (l.foldl (fun a st => a.modStation st f) s).stations } := by
  induction l generalizing s with
  | nil => rfl
  | cons x l ih => rw [List.foldl_cons, ih]; rfl

/-- The end of `startLinkReset`, once the exchanges and stations have been swept. -/
def State.linkResetTail (s : State) (cause : LinkCause) : State :=
  { s with reconnect := [], stray := [], reservation := false, payload := none,
           staging := Vector.replicate 4 Slot.free, job := none, cl := if s.cl = .hold then .idle else s.cl,
           quiet := none, linkLatch := if cause = .startUp then s.linkLatch else some cause }

/-- The beginning of `startLinkReset`: the engine's own fields. -/
def State.linkResetHead (s : State) (cause : LinkCause) : State :=
  { s with linkReset := some cause, cl := .signalling 0, current := none, setAside := none, attention := false,
           pollDue := false, pollTimer := none, laneLow := 0 }

/-- The middle of `startLinkReset`: every exchange, then every station. -/
def State.linkResetSweep (s : State) : State :=
  allStations.foldl (fun a st => a.modStation st Station.atLinkReset) (allTags.foldl State.linkResetOne s)

theorem State.startLinkReset_eq {s : State} (h : s.linkReset = none) (cause : LinkCause) :
    s.startLinkReset cause = ((s.linkResetHead cause).linkResetSweep).linkResetTail cause := by
  unfold State.startLinkReset
  rw [if_neg (by rw [h]; simp)]
  extract_lets s1 s2 s3 s4 s5
  have e : (s.linkResetHead cause).linkResetSweep = s3 := rfl
  rw [e]
  clear_value s3
  unfold State.linkResetTail
  split <;> rfl

/-- R80: the start of a link reset while none is in progress. -/
theorem State.startLinkReset_begun {s : State} (h : s.linkReset = none) (cause : LinkCause) :
    LinkResetBegun s (s.startLinkReset cause) cause := by
  rw [State.startLinkReset_eq h]
  unfold State.linkResetSweep
  have h1 := State.linkResetHead.eq_1 s cause
  generalize s.linkResetHead cause = s1 at h1
  obtain ⟨sw, wt⟩ := State.linkResetAll_sweeps s1
  generalize allTags.foldl State.linkResetOne s1 = s2 at sw wt
  have r3 := State.foldAll_stations Station.atLinkReset allStations s2
  have st3 := State.station_foldAll Station.atLinkReset s2
  generalize allStations.foldl (fun a st => a.modStation st Station.atLinkReset) s2 = s3 at r3 st3
  have ex1 : ∀ u, s1.exch u = s.exch u := fun u => by rw [h1]; rfl
  have q1 : ∀ u, s1.queueOf u = s.queueOf u := fun u => by rw [h1]; rfl
  have st1 : ∀ u, s1.station u = s.station u := fun u => by rw [h1]; rfl
  have f1 : ∀ x, s1.fateOf linkResetFate x = s.fateOf linkResetFate x := fun x => by
    unfold State.fateOf; rw [ex1]
  have e1 : ∀ u x, s1.endsAt linkResetFate u x = s.endsAt linkResetFate u x := fun u x => by
    unfold State.endsAt; rw [ex1]
  have w1 : ∀ l, s1.joined l = s.joined l := by
    intro l; unfold State.joined
    have hj : s1.joinSource = s.joinSource := by
      funext w src; rw [h1]; rfl
    rw [hj, h1]
  have cl2 : s2.cl = .signalling 0 := by
    by_cases hp : ∃ p, s1.payload = some p ∧ s1.fateOf linkResetFate p.owner = .ends
    · obtain ⟨p, hp, ho⟩ := hp
      rw [(sw.swept.released p hp ho).2.2.2, if_neg (by rw [h1]; intro hh; cases hh), h1]
    · rw [(sw.swept.lane (fun p hp' ho => hp ⟨p, hp', ho⟩)).1, h1]
  have cur2 : s2.current = none ∧ s2.setAside = none := by
    rw [sw.swept.current, sw.swept.setAside, h1]; exact ⟨rfl, rfl⟩
  have dr2 : s2.freeDraws = s.freeDraws := sw.draws.trans (by rw [h1])
  have r2 := sw.swept.rest
  have ex3 : ∀ u, s3.exch u = s2.exch u := fun u => by rw [r3]; rfl
  have q3 : ∀ u, s3.queueOf u = s2.queueOf u := fun u => by rw [r3]; rfl
  refine ⟨⟨?_, ?_, ?_, ?_, ?_, ?_, ?_, ?_⟩, ?_, fun x => ?_, fun u => ?_, fun u => ?_, ⟨rfl, rfl, rfl, rfl⟩,
    ⟨rfl, rfl, rfl⟩, ?_, ?_⟩
  · show s3.linkReset = _; rw [r3, r2, h1]
  · show (if s3.cl = .hold then Lane.idle else s3.cl) = _
    have : s3.cl = .signalling 0 := by rw [r3]; exact cl2
    rw [this]; rfl
  · show s3.current = _; rw [r3]; exact cur2.1
  · show s3.setAside = _; rw [r3]; exact cur2.2
  · show s3.attention = _; rw [r3, r2, h1]
  · show s3.pollDue = _; rw [r3, r2, h1]
  · show s3.pollTimer = _; rw [r3, r2, h1]
  · show s3.laneLow = _; rw [r3, r2, h1]
  · show (if cause = .startUp then s3.linkLatch else some cause) = _; rw [r3, r2, h1]
  · show s3.exch x = _; rw [ex3, sw.exch, ex1]; rfl
  · show s3.station u = _
    have hp : (fun c : PendingConfig => !s1.endsAt linkResetFate u c.tag) = fun c => !s.endsAt linkResetFate u c.tag := by
      funext c; rw [e1]
    have hq : (fun x => (s1.exch x).any (fun e => (linkResetFate x e).moves && e.state.freesRoom && e.station == u))
        = fun x => (s.exch x).any (fun e => e.state.onLink && e.state.freesRoom && e.station == u) := by
      funext x; rw [ex1]; unfold linkResetFate; congr 1; funext e; cases e.state.onLink <;> rfl
    rw [st3, sw.swept.stations u, st1, hp, hq]
    rfl
  · show s3.queueOf u = _
    rw [q3, sw.swept.queues, q1]; congr 1; funext x; rw [e1]
  · show s3.waiting = _
    have : s3.waiting = s2.waiting := by rw [r3]
    rw [this, wt, w1]
    have hp : (fun x => s1.fateOf linkResetFate x == .ends) = fun x => s.fateOf linkResetFate x == .ends := by
      funext x; rw [f1]
    rw [hp]
  · have e4 : s3.linkResetTail cause = { s3 with
        reconnect := (s3.linkResetTail cause).reconnect, stray := (s3.linkResetTail cause).stray,
        reservation := (s3.linkResetTail cause).reservation, payload := (s3.linkResetTail cause).payload,
        staging := (s3.linkResetTail cause).staging, job := (s3.linkResetTail cause).job,
        cl := (s3.linkResetTail cause).cl, quiet := (s3.linkResetTail cause).quiet,
        linkLatch := (s3.linkResetTail cause).linkLatch } := rfl
    generalize s3.linkResetTail cause = t at e4
    have hr : s3 = { s with
        table := s3.table, pendingQ := s3.pendingQ, stations := s3.stations, current := s3.current,
        setAside := s3.setAside, attention := s3.attention, pollDue := s3.pollDue, pollTimer := s3.pollTimer,
        laneLow := s3.laneLow, linkReset := s3.linkReset, cl := s3.cl, payload := s3.payload, quiet := s3.quiet,
        staging := s3.staging, job := s3.job, reconnect := s3.reconnect, waiting := s3.waiting } := by
      generalize s3.stations = z at r3
      rw [r3, r2, h1]
      rw [← dr2]
    rw [e4]
    clear e4 r3 st3 ex3 q3
    rw [hr]

/-- R80: a start while a link reset is in progress is absorbed. -/
theorem State.startLinkReset_absorbed {s : State} (h : s.linkReset ≠ none) (cause : LinkCause) :
    s.startLinkReset cause = s := by
  unfold State.startLinkReset
  rw [if_pos (by cases hl : s.linkReset <;> simp_all)]

/-! ## Loss of a station -/

/-- What the loss of a station leaves of an exchange, by its tag. -/
def afterLossOf (st : StationId) (_ : Tag) (e : Exchange) : Exchange := e.afterLoss st

theorem loss_once (st : StationId) : Once (lossFate st) (afterLossOf st) := by
  refine ⟨fun x e h => ?_, fun x e => ?_⟩
  · unfold lossFate at h; unfold afterLossOf Exchange.afterLoss
    split at h
    · cases h
    · rename_i hn; rw [if_neg hn]
  · unfold lossFate afterLossOf Exchange.afterLoss
    by_cases h : e.station = st ∧ e.lostWithStation = true
    · rw [if_pos h, if_neg]; simp [Exchange.lostWithStation]
    · rw [if_neg h, if_neg h]

/-- R19, R101: one exchange of a station that is lost, as one update. -/
theorem State.loseOne_eq (st : StationId) (s : State) (x : Tag) :
    (∀ e, s.exch x = some e → lossFate st x e = .ends →
      State.loseOne st s x = { s.enterCompleting x with
        table := s.table.set x (some (e.afterLoss st)), waiting := s.joinSource s.waiting (.exchange x),
        quiet := if e.stopsLanes = true then (s.stopWithoutHalt x).quiet else s.quiet }) ∧
    ((∀ e, s.exch x = some e → lossFate st x e ≠ .ends) → State.loseOne st s x = s) := by
  unfold State.loseOne
  refine ⟨fun e he hf => ?_, fun hn => ?_⟩
  · have hl : e.station = st ∧ e.lostWithStation = true := by
      by_contra h; unfold lossFate at hf; rw [if_neg h] at hf; cases hf
    have hd : e.afterLoss st = { e with state := .completing, retriesUsed := none, deferral := none,
                                        final := e.finalAfter .stationGone 0 } := by
      unfold Exchange.afterLoss; rw [if_pos hl]
    rw [he, hd]; dsimp only; rw [if_pos hl.1]
    unfold State.loseExchange
    have h2 := hl.2
    unfold Exchange.lostWithStation at h2
    have hq : (s.enterCompleting x).quiet = s.quiet := by rw [State.enterCompleting_eq he]
    cases hs : e.state <;> rw [hs] at h2
    case completing => simp at h2
    case transfer =>
      have hr : e.readFinished = false := by simpa using h2
      dsimp only
      rw [hr, if_neg (by decide), State.stop_endWith_eq he, if_pos (e.stopsLanes_iff.2 (.inl ⟨hs, hr⟩))]
    case halting => dsimp only; rw [State.stop_endWith_eq he, if_pos (e.stopsLanes_iff.2 (.inr hs))]
    all_goals
      dsimp only
      rw [State.endWith_eq he, if_neg (by rw [e.stopsLanes_iff, hs]; simp), ← hq]
  · cases he : s.exch x with
    | none => rfl
    | some e =>
      have h := hn e he
      dsimp only
      by_cases hst : e.station = st
      · rw [if_pos hst]
        have hl : e.lostWithStation = false := by
          rw [Bool.eq_false_iff]; intro hl; apply h; unfold lossFate; rw [if_pos ⟨hst, hl⟩]
        unfold Exchange.lostWithStation at hl
        unfold State.loseExchange
        cases hs : e.state <;> rw [hs] at hl <;> first | (simp at hl; done) | dsimp only
        have hr : e.readFinished = true := by simpa using hl
        rw [if_pos hr]
      · rw [if_neg hst]

theorem State.loseOne_sweeps (st : StationId) (s : State) (x : Tag) :
    Sweeps True s (State.loseOne st s x) (fateAt x (lossFate st)) (changeAt x (afterLossOf st)) := by
  have h := State.loseOne_eq st s x
  by_cases hf : ∃ e, s.exch x = some e ∧ lossFate st x e = .ends
  · obtain ⟨e, he, hf⟩ := hf
    exact .one_ends he _ _ (h.1 e he hf) (fun _ => rfl) hf rfl
  · have hn : ∀ e, s.exch x = some e → lossFate st x e ≠ .ends := fun e he hh => hf ⟨e, he, hh⟩
    rw [h.2 hn]
    refine .one_none (fun e he => ?_)
    have : lossFate st x e = .stays := by
      have := hn e he; unfold lossFate at this ⊢; split <;> simp_all
    exact ⟨this, (loss_once st).stays x e this⟩

theorem State.loseOne_waiting (st : StationId) (s : State) (x : Tag) :
    (State.loseOne st s x).waiting
      = if s.fateOf (lossFate st) x = .ends then s.joinSource s.waiting (.exchange x) else s.waiting := by
  have h := State.loseOne_eq st s x
  cases he : s.exch x with
  | none =>
    rw [h.2 (fun e h => by rw [he] at h; cases h), State.fateOf_none he]; rfl
  | some e =>
    rw [State.fateOf_some he]
    by_cases hf : lossFate st x e = .ends
    · rw [h.1 e he hf, if_pos hf]
    · rw [h.2 (fun d hd => by rw [he] at hd; cases hd; exact hf), if_neg hf]

/-- R19: the loss of a station, in pending queue order and then by tag. -/
theorem State.loseStation_lost (s : State) (st : StationId) : StationLost s (s.loseStation st) st := by
  have hall : s.loseStation st = (s.queueOf st ++ allTags).foldl (State.loseOne st) s := by
    rw [List.foldl_append]; rfl
  have w := (Sweeps.run (loss_once st) (ok := fun _ _ => True) (fun m x _ => State.loseOne_sweeps st m x)
    (s.queueOf st ++ allTags) s (fun _ _ => trivial) (.inr fun _ _ _ => trivial)).run_all
    (fun x => List.mem_append.2 (.inr (allTags_mem x)))
  have v := Sweeps.run_waiting (loss_once st) (State.loseOne_sweeps st) (State.loseOne_waiting st) s
    (s.queueOf st ++ allTags) s (fun _ => .inl rfl) rfl rfl
  rw [← hall] at w v
  exact ⟨w.exch, w.swept, w.quiet trivial, v, w.draws⟩

/-! ## Station reset (R12, R17) -/

/-- What a station reset leaves of an exchange: `x` is the RESET, which ends SUCCESS. -/
def afterStationReset (st : StationId) (x u : Tag) (e : Exchange) : Exchange :=
  if u = x then
    { e with state := .completing, retriesUsed := none, deferral := none, final := e.finalAfter .success 0 }
  else if resetFate st x u e = .ends then
    { e with state := .completing, retriesUsed := none, deferral := none, final := e.finalAfter .stationReset 0 }
  else e

theorem resetFate_other {st : StationId} {x u : Tag} {e : Exchange} (h : u ≠ x) :
    resetFate st x u e = .ends ↔ e.station = st ∧ e.endedByReset = true := by
  unfold resetFate Exchange.endedByReset
  cases hs : e.state <;> simp [h]

theorem resetFate_self (st : StationId) (x : Tag) (e : Exchange) : resetFate st x x e = .ends := by
  unfold resetFate; rw [if_pos (.inl rfl)]

/-- A station reset reaches its exchanges once: the RESET itself while it is in ISSUING. -/
def resetOnce (st : StationId) (x u : Tag) (e : Exchange) : Fate :=
  if u = x then (if e.state = .issuing then .ends else .stays) else resetFate st x u e

def afterResetOnce (st : StationId) (x u : Tag) (e : Exchange) : Exchange :=
  if resetOnce st x u e = .ends then afterStationReset st x u e else e

theorem reset_once (st : StationId) (x : Tag) : Once (resetOnce st x) (afterResetOnce st x) := by
  refine ⟨fun u e h => ?_, fun u e => ?_⟩
  · unfold afterResetOnce; rw [if_neg (by rw [h]; decide)]
  · by_cases hf : resetOnce st x u e = .ends
    · have hc : (afterResetOnce st x u e).state = .completing := by
        unfold afterResetOnce afterStationReset; rw [if_pos hf]
        by_cases hu : u = x
        · rw [if_pos hu]
        · rw [if_neg hu, if_pos (by unfold resetOnce at hf; rw [if_neg hu] at hf; exact hf)]
      unfold resetOnce resetFate; rw [hc]
      by_cases hu : u = x <;> simp [hu]
    · have he : afterResetOnce st x u e = e := by unfold afterResetOnce; rw [if_neg hf]
      rw [he]
      unfold resetOnce resetFate at hf ⊢
      by_cases hu : u = x
      · rw [if_pos hu] at hf ⊢; split <;> simp_all
      · rw [if_neg hu] at hf ⊢; split <;> simp_all

/-- One step of a station reset, the RESET itself among them. -/
def State.resetStep (x : Tag) (s : State) (u : Tag) : State :=
  if u = x then (s.recordCause x .success 0).enterCompleting x else s.resetOne u

/-- A tag that a station reset picks. -/
def resetPicks (st : StationId) (x u : Tag) (o : Option Exchange) : Prop :=
  ∃ e, o = some e ∧ resetOnce st x u e = .ends

theorem State.resetStep_sweeps (st : StationId) (x : Tag) (s : State) (u : Tag) (h : resetPicks st x u (s.exch u)) :
    Sweeps True s (s.resetStep x u) (fateAt u (resetOnce st x)) (changeAt u (afterResetOnce st x)) := by
  obtain ⟨e, he, hf⟩ := h
  have hg : afterResetOnce st x u e = afterStationReset st x u e := by unfold afterResetOnce; rw [if_pos hf]
  unfold State.resetStep
  by_cases hu : u = x
  · rw [if_pos hu]
    have hi : e.state = .issuing := by
      unfold resetOnce at hf; rw [if_pos hu] at hf; by_contra hn; rw [if_neg hn] at hf; cases hf
    refine .one_ends he s.waiting s.quiet ?_ (fun _ => ?_) hf hg
    · subst hu
      rw [State.recordCause_eq he]
      refine (State.setExch_enterCompleting (d := { e with final := e.finalAfter .success 0 }) he rfl rfl).trans ?_
      unfold afterStationReset; rw [if_pos rfl, State.enterCompleting_eq he]
    · rw [if_neg]; rw [e.stopsLanes_iff, hi]; simp
  · rw [if_neg hu]
    have hr : resetFate st x u e = .ends := by unfold resetOnce at hf; rw [if_neg hu] at hf; exact hf
    refine .one_ends he s.waiting (if e.stopsLanes = true then (s.stopWithoutHalt u).quiet else s.quiet) ?_ (fun _ => rfl)
      hf hg
    unfold State.resetOne
    rw [he]; dsimp only; rw [Option.any_some]
    have hd : afterStationReset st x u e = { e with state := .completing, retriesUsed := none, deferral := none,
                                                    final := e.finalAfter .stationReset 0 } := by
      unfold afterStationReset; rw [if_neg hu, if_pos hr]
    rw [hd]
    split
    · rw [State.recordCause_eq ((State.stop_exch s u u).trans he)]
      refine (State.setExch_enterCompleting (d := { e with final := e.finalAfter .stationReset 0 })
        ((State.stop_exch s u u).trans he) rfl rfl).trans ?_
      rw [State.stop_enterCompleting he, (s.stop_kept u).1, State.enterCompleting_eq he]
    · rw [State.recordCause_eq he]
      refine (State.setExch_enterCompleting (d := { e with final := e.finalAfter .stationReset 0 }) he rfl rfl).trans ?_
      rw [State.enterCompleting_eq he]

/-- The record of a station whose reset is done may be written before its RESET ends. -/
theorem State.stationResets_enterCompleting {s : State} {x : Tag} {e : Exchange} (h : s.exch x = some e) :
    (s.enterCompleting x).stationResets e.station = (s.stationResets e.station).enterCompleting x := by
  have h' : (s.stationResets e.station).exch x = some e := h
  rw [State.enterCompleting_eq h, State.enterCompleting_eq h']
  unfold State.stationResets State.modStation
  simp only [State.station, State.queueOf, Fin.getElem_fin, Vector.getElem_set_self, Vector.set_set, ite_self]

theorem State.enterCompleting_waiting (s : State) (x : Tag) : (s.enterCompleting x).waiting = s.waiting := by
  cases h : s.exch x with
  | none => unfold State.enterCompleting; rw [h]
  | some e => rw [State.enterCompleting_eq h]

theorem State.recordCause_waiting (s : State) (x : Tag) (st : Status) (v : Word) :
    (s.recordCause x st v).waiting = s.waiting := by
  cases h : s.exch x with
  | none => unfold State.recordCause State.modExch; rw [h]
  | some e => rw [State.recordCause_eq h]; rfl

/-- Until they join together, the exchanges that a station reset ends leave the waiting lists alone. -/
theorem State.resetStep_waiting (x : Tag) (s : State) (u : Tag) : (s.resetStep x u).waiting = s.waiting := by
  unfold State.resetStep State.resetOne
  split
  · rw [State.enterCompleting_waiting, State.recordCause_waiting]
  · dsimp only; rw [State.enterCompleting_waiting, State.recordCause_waiting]
    split
    · exact (s.stop_kept u).2.1
    · rfl

/-- R12, R17, R54: DONE to a RESET, whose own end is SUCCESS or the cause that it has. -/
theorem State.stationResetDone_reset {s : State} {x : Tag} {e : Exchange} (h : s.exch x = some e)
    (hi : e.state = .issuing) :
    StationReset s ((s.recordCause x .success 0).stationResetDone e.station x) x e := by
  have hpick : ∀ u, s.fateOf (resetFate e.station x) u = s.fateOf (resetOnce e.station x) u := by
    refine State.fateOf_congr (fun u d hd => ?_)
    unfold resetOnce
    by_cases hu : u = x
    · subst hu; rw [h] at hd; cases hd; rw [if_pos rfl, if_pos hi, resetFate_self]
    · rw [if_neg hu]
  have hrec : ∀ u, u ≠ x → (s.recordCause x .success 0).exch u = s.exch u := fun u hu => by
    rw [State.recordCause_eq h, State.exch_setExch, if_neg (Ne.symm hu)]
  have hvict : (s.recordCause x .success 0).resetVictims e.station x
      = allTags.filter (fun u => u != x && s.fateOf (resetFate e.station x) u == .ends) := by
    unfold State.resetVictims
    congr 1; funext u
    by_cases hu : u = x
    · simp [hu]
    · rw [bne_iff_ne.2 hu, Bool.true_and, Bool.true_and, hrec u hu]
      unfold State.fateOf
      cases hd : s.exch u with
      | none => rfl
      | some d =>
        dsimp only
        rw [Bool.eq_iff_iff, beq_iff_eq, resetFate_other hu]; simp
  -- The run starts from the state in which the station has entered RESETTING.
  have hs0 : s.stationResets e.station = { s with
      stations := s.stations.set e.station
        { s.station e.station with state := .resetting, profile := none, settings := none, saturation := none,
                                   notices := 0, settle := some settleTime } } := rfl
  have he0 : ∀ u, (s.stationResets e.station).exch u = s.exch u := fun _ => rfl
  generalize hv : allTags.filter (fun u => u != x && s.fateOf (resetFate e.station x) u == .ends) = victims at hvict
  have hvm : ∀ u, u ∈ victims ↔ u ≠ x ∧ s.fateOf (resetFate e.station x) u = .ends := by
    intro u; rw [← hv]; simp [allTags_mem]
  have hnd : (x :: victims).Nodup := by
    refine List.nodup_cons.2 ⟨fun hh => ((hvm x).1 hh).1 rfl, ?_⟩
    rw [← hv]; exact List.Nodup.filter _ (by decide)
  have hfold : victims.foldl State.resetOne (((s.recordCause x .success 0).enterCompleting x).stationResets e.station)
      = (x :: victims).foldl (State.resetStep x) (s.stationResets e.station) := by
    rw [List.foldl_cons]
    have h1 : (s.stationResets e.station).resetStep x x
        = ((s.recordCause x .success 0).enterCompleting x).stationResets e.station := by
      unfold State.resetStep; rw [if_pos rfl]
      rw [State.recordCause_eq ((he0 x).trans h), State.recordCause_eq h]
      have h2 := State.stationResets_enterCompleting (s := s.setExch x (some { e with final := e.finalAfter .success 0 }))
        (State.exch_setExch_self _ _ _)
      exact h2.symm
    rw [h1]
    refine List.foldl_ext _ _ _ (fun a u hu => ?_)
    unfold State.resetStep; rw [if_neg ((hvm u).1 hu).1]
  have hrun := Sweeps.run (q := True) (reset_once e.station x) (ok := resetPicks e.station x)
    (fun m u hp => State.resetStep_sweeps e.station x m u hp) (x :: victims) (s.stationResets e.station) (fun u hu => by
      rw [he0]
      rcases List.mem_cons.1 hu with rfl | hu
      · exact ⟨e, h, by unfold resetOnce; rw [if_pos rfl, if_pos hi]⟩
      · have h1 := ((hvm u).1 hu).2
        cases hd : s.exch u with
        | none => rw [State.fateOf_none hd] at h1; cases h1
        | some d => rw [hpick, State.fateOf_some hd] at h1; exact ⟨d, rfl, h1⟩) (.inl hnd)
  have hrun2 : Sweeps True (s.stationResets e.station)
      ((x :: victims).foldl (State.resetStep x) (s.stationResets e.station)) (resetFate e.station x)
      (afterStationReset e.station x) := by
    have hmem : ∀ u d, s.exch u = some d → (u ∈ x :: victims ↔ resetFate e.station x u d = .ends) := by
      intro u d hd
      rw [List.mem_cons, hvm, State.fateOf_some hd]
      by_cases hu : u = x
      · subst hu; simp [resetFate_self]
      · simp [hu]
    have hre : ∀ u d, s.exch u = some d → resetOnce e.station x u d = resetFate e.station x u d := by
      intro u d hd; have := hpick u; rw [State.fateOf_some hd, State.fateOf_some hd] at this; exact this.symm
    have hst : ∀ u d, resetFate e.station x u d = .ends ∨ resetFate e.station x u d = .stays := by
      intro u d; unfold resetFate; split <;> simp
    refine hrun.congr (fun u d hd => ?_) (fun u d hd => ?_)
    · unfold fateIn
      split
      · exact hre u d hd
      · rename_i hn
        rcases hst u d with h1 | h1
        · exact absurd ((hmem u d hd).2 h1) hn
        · exact h1.symm
    · unfold changeIn afterResetOnce
      split
      · rename_i hm; rw [if_pos ((hre u d hd).trans ((hmem u d hd).1 hm))]
      · rename_i hn
        have h1 : resetFate e.station x u d ≠ .ends := fun h1 => hn ((hmem u d hd).2 h1)
        unfold afterStationReset
        rw [if_neg (fun hu => h1 (by rw [hu]; exact resetFate_self _ _ _)), if_neg h1]
  -- What has ended joins together.
  have hexch := hrun2.exch
  unfold State.stationResetDone
  rw [hvict]; dsimp only; rw [hfold]
  have hw : ((x :: victims).foldl (State.resetStep x) (s.stationResets e.station)).waiting = s.waiting :=
    List.foldlRecOn (motive := fun m : State => m.waiting = s.waiting) (x :: victims) _ rfl
      (fun m hm u _ => (State.resetStep_waiting x m u).trans hm)
  generalize (x :: victims).foldl (State.resetStep x) (s.stationResets e.station) = t0 at hrun2 hexch hw
  have hr := hrun2.swept.rest
  obtain ⟨o, ho, hj⟩ := State.joinTogether_perm (s := s) (t := t0) (l := (x :: victims).map Source.exchange) (fun _ => true)
    (fun src hsrc => by
      refine ⟨fun _ => ⟨?_, fun r => ?_, ?_, fun y hy => ?_⟩, fun hh => by cases hh⟩
      · rw [hr]; rfl
      · rw [hr]; rfl
      · rw [hr]; rfl
      · subst hy
        obtain ⟨u, hu, hus⟩ := List.mem_map.1 hsrc
        cases hus
        have hy' : ∃ d, s.exch y = some d ∧ resetFate e.station x y d = .ends := by
          rcases List.mem_cons.1 hu with rfl | hu
          · exact ⟨e, h, resetFate_self _ _ _⟩
          · have h1 := ((hvm y).1 hu).2
            cases hd : s.exch y with
            | none => rw [State.fateOf_none hd] at h1; cases h1
            | some d => rw [State.fateOf_some hd] at h1; exact ⟨d, rfl, h1⟩
        obtain ⟨d, hd, hf⟩ := hy'
        refine ⟨d, afterStationReset e.station x y d, hd, ?_, ?_, ?_, ?_⟩
        · rw [hexch]; show (s.exch y).map _ = _; rw [hd]; rfl
        · unfold afterStationReset; rw [if_pos hf]; split <;> rfl
        · unfold afterStationReset; rw [if_pos hf]; split <;> rfl
        · unfold afterStationReset; rw [if_pos hf]; split <;> exact d.finalAfter_isSome _ _)
  rw [List.filter_true] at ho
  obtain ⟨l, hl, hol⟩ := perm_of_map Source.exchange ho (x :: victims) rfl
  rw [hj]
  refine ⟨?_, fun u hu => ?_, ?_, ?_, ⟨l, by rw [hv]; exact hl, ?_⟩, ?_⟩
  · show t0.exch x = _
    rw [hexch]; show (s.exch x).map _ = _; rw [h]; unfold afterStationReset; rw [Option.map_some, if_pos rfl]
  · show t0.exch u = _
    rw [hexch]; show (s.exch u).map _ = _
    congr 1; funext d; unfold afterStationReset; rw [if_neg hu]
  · rw [← hs0]
    have w := hrun2.swept
    exact ⟨w.queues, w.reconnect, w.stations, w.current, w.setAside, w.released, w.halted, w.kept, w.lane, by rw [hr]⟩
  · have := hrun2.quiet trivial
    exact this
  · show o.foldl s.joinSource t0.waiting = _
    rw [hol, hw]; rfl
  · show t0.freeDraws + 1 = _
    rw [hrun2.draws]; rfl

/-! ## Cancellation (R131, R132) -/

/-- What a CANCEL leaves of an exchange, by its fate. -/
def afterCancel (r : RingId) (id : BitVec 16) (u : Tag) (e : Exchange) : Exchange :=
  match cancelFate r id u e with
  | .stays => e
  | .marked => { e with cancelMark := true, final := some (.cancelled, 0) }
  | .ends => { e with state := .completing, retriesUsed := none, deferral := none, cancelMark := true,
                      final := some (.cancelled, 0) }
  | .halts => { e with state := .halting, retriesUsed := none, cancelMark := true, final := some (.cancelled, 0) }
  | .withdraws => { e with state := .withdrawing, deferral := none, cancelMark := true, final := some (.cancelled, 0) }

theorem cancel_once (r : RingId) (id : BitVec 16) : Once (cancelFate r id) (afterCancel r id) := by
  refine ⟨fun u e h => by unfold afterCancel; rw [h], fun u e => ?_⟩
  have hn : ∀ d : Exchange, d.final ≠ none → cancelFate r id u d = .stays := by
    intro d hd; unfold cancelFate; rw [if_neg (fun h => hd h.2.2)]
  unfold afterCancel
  cases hf : cancelFate r id u e <;> dsimp only
  · exact hf
  all_goals exact hn _ (by simp)

theorem Exchange.cancelled_eq {e : Exchange} (h : e.final = none) :
    e.cancelled = { e with cancelMark := true, final := some (.cancelled, 0) } := by
  unfold Exchange.cancelled Exchange.record; rw [if_neg (by rw [h]; decide)]

theorem State.setExch_enterHalting {s : State} {x : Tag} {e d : Exchange} (h : s.exch x = some e)
    (h1 : d.state = e.state) (h2 : d.station = e.station) :
    (s.setExch x (some d)).enterHalting x
      = { s.enterHalting x with table := s.table.set x (some { d with state := .halting, retriesUsed := none }) } := by
  rw [State.enterHalting_eq (State.exch_setExch_self s x (some d)), State.enterHalting_eq h]
  obtain ⟨dst, dk, dr, dw, di, dstn⟩ := d
  subst h1 h2
  simp only [State.setExch, Vector.set_set, State.station]
  rfl

/-- R126, R132: entering WITHDRAWING, as one update. -/
theorem State.enterWithdrawing_eq {s : State} {x : Tag} {e : Exchange} (h : s.exch x = some e)
    (hf : e.state.freesRoom = true) :
    s.enterWithdrawing x = { s.clearSaturation e.station with
      table := s.table.set x (some { e with state := .withdrawing, deferral := none }),
      reconnect := s.reconnect.filter (· != x) } := by
  unfold State.enterWithdrawing State.moveTo
  rw [h]; dsimp only; rw [if_pos hf]
  have h2 : ({ (s.setExch x (some { e with state := .withdrawing })).clearSaturation e.station with
      reconnect := s.reconnect.filter (· != x) } : State).exch x = some { e with state := .withdrawing } :=
    State.exch_setExch_self s x _
  rw [State.modExch_of_some _ h2]
  simp only [State.setExch, State.clearSaturation, State.modStation, Vector.set_set, State.station]

theorem State.setExch_enterWithdrawing {s : State} {x : Tag} {e d : Exchange} (h1 : d.station = e.station)
    (hf : d.state.freesRoom = true) :
    (s.setExch x (some d)).enterWithdrawing x = { s.clearSaturation e.station with
      table := s.table.set x (some { d with state := .withdrawing, deferral := none }),
      reconnect := s.reconnect.filter (· != x) } := by
  rw [State.enterWithdrawing_eq (State.exch_setExch_self s x (some d)) hf, h1]
  simp only [State.setExch, State.clearSaturation, State.modStation, Vector.set_set, State.station]

/-- A tag that a CANCEL finds. -/
def cancelPicks (r : RingId) (id : BitVec 16) (u : Tag) (o : Option Exchange) : Prop :=
  ∃ e, o = some e ∧ cancelFate r id u e ≠ .stays

theorem State.cancelOne_sweeps (r : RingId) (id : BitVec 16) (s : State) (u : Tag) (h : cancelPicks r id u (s.exch u)) :
    Sweeps True s (s.cancelOne u) (fateAt u (cancelFate r id)) (changeAt u (afterCancel r id)) := by
  obtain ⟨e, he, hf⟩ := h
  have hm : e.ring = r ∧ e.requestId = id ∧ e.final = none := by
    by_contra hn; unfold cancelFate at hf; rw [if_neg hn] at hf; exact hf rfl
  have hc := Exchange.cancelled_eq hm.2.2
  have hfate := cancelFate.eq_1 r id u e
  rw [if_pos hm] at hfate
  have hg := afterCancel.eq_1 r id u e
  unfold State.cancelOne
  rw [he]; dsimp only
  rw [State.modExch_of_some _ he, hc]
  generalize hd : ({ e with cancelMark := true, final := some (.cancelled, 0) } : Exchange) = d
  have h1 : d.state = e.state := by rw [← hd]
  have h2 : d.station = e.station := by rw [← hd]
  have ended : e.stopsLanes = false → cancelFate r id u e = .ends →
      Sweeps True s ((s.setExch u (some d)).enterCompleting u)
        (fateAt u (cancelFate r id)) (changeAt u (afterCancel r id)) := by
    intro hs hk
    rw [hk] at hg
    refine .one_ends he s.waiting s.quiet ?_ (fun _ => by rw [hs]; rfl) hk (hg.trans ?_)
      (d := { d with state := .completing, retriesUsed := none, deferral := none })
    · refine (State.setExch_enterCompleting he h1 h2).trans ?_
      rw [State.enterCompleting_eq he]
    · rw [← hd]
  have withdrawn : e.state.freesRoom = true → cancelFate r id u e = .withdraws →
      Sweeps True s ((s.setExch u (some d)).enterWithdrawing u)
        (fateAt u (cancelFate r id)) (changeAt u (afterCancel r id)) := by
    intro hs hk
    rw [hk] at hg
    refine .one_withdraws he hs (State.setExch_enterWithdrawing h2 (by rw [h1]; exact hs)) hk (hg.trans ?_)
    rw [← hd]
  have marked : cancelFate r id u e = .marked →
      Sweeps True s (s.setExch u (some d)) (fateAt u (cancelFate r id)) (changeAt u (afterCancel r id)) := by
    intro hk
    rw [hk] at hg
    exact .one_still he rfl (by rw [hk]; rfl) (hg.trans hd)
  cases hs : e.state <;> rw [hs] at hfate <;> dsimp only at hfate ⊢
  case queued => exact ended (by unfold Exchange.stopsLanes; rw [hs]; rfl) hfate
  case issuing => exact marked hfate
  case resuming => exact marked hfate
  case deferred => exact withdrawn (by rw [hs]; rfl) hfate
  case reconnecting => exact withdrawn (by rw [hs]; rfl) hfate
  case transfer =>
    by_cases hr : e.readFinished = true
    · rw [if_pos hr] at hfate ⊢
      exact ended (by unfold Exchange.stopsLanes; rw [hs, hr]; rfl) hfate
    · rw [if_neg hr] at hfate ⊢
      rw [hfate] at hg
      refine .one_halts he (State.setExch_enterHalting he h1 h2) hfate (hg.trans ?_)
      rw [← hd]
  case halting => exact absurd hfate hf
  case withdrawing => exact absurd hfate hf
  case completing => exact absurd hfate hf

theorem State.cancelFinds_mem (s : State) (r : RingId) (id : BitVec 16) (u : Tag) :
    u ∈ s.cancelFinds r id ↔ s.fateOf (cancelFate r id) u ≠ .stays := by
  unfold State.cancelFinds
  rw [List.mem_filter, and_iff_right (allTags_mem u)]
  cases he : s.exch u with
  | none => rw [State.fateOf_none he]; simp
  | some e =>
    rw [State.fateOf_some he]
    dsimp only
    unfold Exchange.matchesCancel Exchange.cancellable cancelFate
    by_cases hm : e.ring = r ∧ e.requestId = id ∧ e.final = none
    · rw [if_pos hm]
      obtain ⟨h1, h2, h3⟩ := hm
      cases hs : e.state <;> simp [h1, h2, h3]
      split <;> decide
    · rw [if_neg hm]
      by_cases h3 : e.final = none
      · by_cases h1 : e.ring = r
        · have h2 : e.requestId ≠ id := fun h2 => hm ⟨h1, h2, h3⟩
          simp [h2]
        · simp [h1]
      · have : e.final.isNone = false := by cases hh : e.final <;> simp_all
        simp [this]

/-- R131, R132: what a CANCEL does to the exchanges that it finds. -/
theorem State.cancelFold_sweeps (s : State) (r : RingId) (id : BitVec 16) :
    Sweeps True s ((s.cancelFinds r id).foldl State.cancelOne s) (cancelFate r id) (afterCancel r id) := by
  have h := Sweeps.run (q := True) (cancel_once r id) (ok := cancelPicks r id)
    (fun m u hp => State.cancelOne_sweeps r id m u hp) (s.cancelFinds r id) s (fun u hu => by
      have h1 := (s.cancelFinds_mem r id u).1 hu
      cases hd : s.exch u with
      | none => rw [State.fateOf_none hd] at h1; exact absurd rfl h1
      | some d => rw [State.fateOf_some hd] at h1; exact ⟨d, rfl, h1⟩) (.inl (List.Nodup.filter _ (by decide)))
  have hn : ∀ u d, s.exch u = some d → u ∉ s.cancelFinds r id → cancelFate r id u d = .stays := by
    intro u d hd hu
    rw [State.cancelFinds_mem, State.fateOf_some hd] at hu
    exact not_not.1 hu
  refine h.congr (fun u d hd => ?_) (fun u d hd => ?_)
  · unfold fateIn; split
    · rfl
    · rename_i hu; exact (hn u d hd hu).symm
  · unfold changeIn; split
    · rfl
    · rename_i hu; exact ((cancel_once r id).stays u d (hn u d hd hu)).symm

theorem State.cancelOne_waiting (s : State) (u : Tag) : (s.cancelOne u).waiting = s.waiting := by
  unfold State.cancelOne
  cases he : s.exch u with
  | none => rfl
  | some e =>
    dsimp only
    rw [State.modExch_of_some _ he]
    have hw : (s.setExch u (some e.cancelled)).waiting = s.waiting := rfl
    have hx := State.exch_setExch_self s u (some e.cancelled)
    have hst : e.cancelled.state = e.state := by unfold Exchange.cancelled Exchange.record; split <;> rfl
    generalize s.setExch u (some e.cancelled) = m at hw hx
    rw [← hw]
    cases hs : e.state <;> dsimp only
    case queued => exact State.enterCompleting_waiting _ _
    case transfer =>
      split
      · exact State.enterCompleting_waiting _ _
      · rw [State.enterHalting_eq hx]
    all_goals first | rfl | (rw [State.enterWithdrawing_eq hx (by rw [hst, hs]; rfl)]; rfl)

end Sys2Proof.Machine
end

