-- ==== Sys2Proof/Laws/Mover.lean ====
section
/-! SUPPORT. What the data mover's operations do: placing a block in hand as far as a descriptor reaches (R104, R110, R111),
reporting a fault (R112), and taking an entry of a page into use (R106 to R108). -/

namespace Sys2Proof.Machine

theorem table_set_set {n : Nat} {α : Type} (v : Vector α n) (i : Fin n) (a b : α) : (v.set i a).set i b = v.set i b := by
  simp

theorem State.table_set_same {s : State} {t : Tag} {e : Exchange} (h : s.exch t = some e) :
    s.table.set t (some e) = s.table := by
  ext1 k hk
  by_cases hh : t.val = k
  · subst hh; simp; exact h.symm
  · simp [hh]

/-- The job and the exchange's cursor follow a walk. -/
theorem State.setWalk_eq {s : State} {j : Job} {e : Exchange} (hx : s.exch j.tag = some e) (w : Walk) :
    s.setWalk j w = { s with job := some { j with walk := w },
                             table := s.table.set j.tag (some { e with cursor := some w.cursor }) } := by
  unfold State.setWalk State.syncCursor
  have h : ∀ q, ({ s with job := q } : State).exch j.tag = some e := fun _ => hx
  rw [State.modExch_of_some _ (h _)]; rfl

/-! ## The accesses of a block -/

/-- Nothing is placed where the descriptor or the block has ended. -/
theorem PlacesBlock.nil {id : Nat} {addr : BitVec 64} {room size : Nat} (h : min room size = 0) :
    PlacesBlock [] id addr room size :=
  ⟨by rw [h]; rfl, fun k a hk => by simp at hk⟩

/-- One access, and those after it. -/
theorem PlacesBlock.cons {a : Access} {l : List Access} {id : Nat} {addr : BitVec 64} {room size : Nat}
    (hi : a.id = id) (ha : a.addr = addr) (h1 : 1 ≤ a.len)
    (hl : a.len = min 256 (min room (min (4096 - a.addr.toNat % 4096) size)))
    (h : PlacesBlock l (id + 1) (addr + BitVec.ofNat 64 a.len) (room - a.len) (size - a.len)) :
    PlacesBlock (a :: l) id addr room size := by
  refine ⟨?_, fun k b hk => ?_⟩
  · simp only [List.map_cons, List.sum_cons]; rw [h.1]; omega
  · cases k with
    | zero =>
      simp at hk; subst hk
      exact ⟨hi, by rw [ha]; simp, h1, hl⟩
    | succ k =>
      simp only [List.getElem?_cons_succ] at hk
      have h2 := h.2 k b hk
      dsimp only at h2
      obtain ⟨b1, b2, b3, b4⟩ := h2
      simp only [List.take_succ_cons, List.map_cons, List.sum_cons]
      refine ⟨by rw [b1]; omega, ?_, b3, by omega⟩
      rw [b2]; simp only [BitVec.ofNat_add, BitVec.add_assoc]

theorem CarriesBlock.nil (j : Job) (slot : List Byte) (placed : Nat) : CarriesBlock j slot placed [] := by
  unfold CarriesBlock
  cases j.dir
  · exact ⟨rfl, fun a ha => by simp at ha⟩
  · exact fun k a hk => by simp at hk

/-- The bytes of one list of accesses, and of the one that goes on where it ends. -/
theorem CarriesBlock.append {j : Job} {slot : List Byte} {placed : Nat} {l l' : List Access}
    (h : CarriesBlock j slot placed l) (h' : CarriesBlock j slot (placed + (l.map Access.len).sum) l') :
    CarriesBlock j slot placed (l ++ l') := by
  unfold CarriesBlock at *
  cases hd : j.dir <;> rw [hd] at h h' <;> dsimp only at *
  · refine ⟨?_, fun a ha => (List.mem_append.1 ha).elim (h.2 a) (h'.2 a)⟩
    rw [List.map_append, List.flatten_append, List.map_append, List.sum_append, List.take_add, List.drop_drop, h.1, h'.1]
  · intro k a hk
    rcases Nat.lt_or_ge k l.length with hkl | hkl
    · rw [List.getElem?_append_left hkl] at hk
      rw [List.take_append_of_le_length (Nat.le_of_lt hkl)]
      exact h k a hk
    · rw [List.getElem?_append_right hkl] at hk
      rw [List.take_append, List.take_of_length_le hkl, List.map_append, List.sum_append, ← Nat.add_assoc]
      exact h' _ a hk

/-- The access that the mover issues carries its part of the block. -/
theorem State.nextPlaced_carries {s : State} {j : Job} {h : InHand} {c : CurDesc}
    (hl : j.dir = .read → (s.slot h.slot).data.length = j.blockSize) :
    CarriesBlock j (s.slot h.slot).data h.placed [s.nextPlaced j h c] := by
  unfold CarriesBlock State.nextPlaced
  cases hd : j.dir <;> dsimp only
  · refine ⟨by simp, fun a ha => ?_⟩
    rw [List.mem_singleton.1 ha]
    refine ⟨rfl, ?_⟩
    dsimp only
    rw [List.length_take, List.length_drop, hl hd]; unfold accessLength; omega
  · intro k a hk
    cases k with
    | zero => simp at hk; subst hk; exact ⟨by simp, rfl⟩
    | succ k => simp at hk

/-! ## Placing as far as the descriptor reaches (R104, R110, R111) -/

/-- The state once the accesses `l` have placed `n` bytes more of the block in hand `h`, in the current descriptor `c`. -/
def State.placing (s : State) (j : Job) (h : InHand) (c : CurDesc) (e : Exchange) (n : Nat) (l : List Access) : State :=
  { s with
    job := some { j with walk := { j.walk with cur := some { c with offset := c.offset + n } },
                         inHand := some { h with placed := h.placed + n, issued := h.issued + l.length } },
    table := s.table.set j.tag
      (some { e with cursor := if n = 0 then e.cursor else some { index := c.index, offset := c.offset + n } }),
    accesses := s.accesses ++ l, nextAccess := s.nextAccess + l.length }

/-- Placing nothing changes nothing. -/
theorem State.placing_nil {s : State} {j : Job} {h : InHand} {c : CurDesc} {e : Exchange}
    (hj : s.job = some j) (hh : j.inHand = some h) (hc : j.walk.cur = some c) (hx : s.exch j.tag = some e) :
    s.placing j h c e 0 [] = s := by
  unfold State.placing
  have h1 : ({ j with walk := { j.walk with cur := some { c with offset := c.offset + 0 } },
                      inHand := some { h with placed := h.placed + 0, issued := h.issued + ([] : List Access).length } }
      : Job) = j := by
    show ({ j with walk := { j.walk with cur := some c }, inHand := some h } : Job) = j
    rw [← hc, ← hh]
  rw [h1, if_pos rfl, State.table_set_same (show s.exch j.tag = some { e with cursor := e.cursor } from hx)]
  simp only [List.append_nil, List.length_nil, Nat.add_zero]
  rw [← hj]

/-- The mover places the block in hand to its end, or to that of the current descriptor where that comes first. -/
theorem State.pump_places (n : Nat) : ∀ (fuel : Nat) (s : State) (j : Job) (h : InHand) (c : CurDesc) (e : Exchange),
    s.job = some j → j.inHand = some h → j.walk.needed = false → j.walk.cur = some c → s.exch j.tag = some e →
    n = min (c.desc.len - c.offset) (j.blockSize - h.placed) → n ≤ fuel →
    (j.dir = .read → (s.slot h.slot).data.length = j.blockSize) →
    ∃ l, l.length ≤ n ∧ State.pump fuel s = State.pump (fuel - l.length) (s.placing j h c e n l) ∧
      PlacesBlock l s.nextAccess (c.desc.addr + BitVec.ofNat 64 c.offset) (c.desc.len - c.offset)
        (j.blockSize - h.placed) ∧
      CarriesBlock j (s.slot h.slot).data h.placed l := by
  induction n using Nat.strong_induction_on with
  | _ n ih =>
  intro fuel s j h c e hj hh hn hc hx hr hf hd
  by_cases h0 : n = 0
  · subst h0
    exact ⟨[], Nat.le_refl _, by rw [State.placing_nil hj hh hc hx]; rfl, .nil hr.symm, .nil _ _ _⟩
  · obtain ⟨fuel, rfl⟩ : ∃ m, fuel = m + 1 := ⟨fuel - 1, by omega⟩
    rw [State.pump_step hj hh hn, if_neg (by omega),
      if_neg (by unfold Walk.left; rw [hc]; dsimp only; omega)]
    have hp := State.placeAccess_eq (h := h) hc hx
    have hA : (s.nextPlaced j h c).len = min 256 (min (c.desc.len - c.offset)
        (min (4096 - (s.nextPlaced j h c).addr.toNat % 4096) (j.blockSize - h.placed))) := rfl
    have hi : (s.nextPlaced j h c).id = s.nextAccess := rfl
    have ha : (s.nextPlaced j h c).addr = c.desc.addr + BitVec.ofNat 64 c.offset := rfl
    have hcar := State.nextPlaced_carries (h := h) (c := c) hd
    generalize s.nextPlaced j h c = A at hp hA hi ha hcar
    have hm : A.addr.toNat % 4096 < 4096 := Nat.mod_lt _ (by decide)
    dsimp only at hp
    rw [hp]
    obtain ⟨l, g0, g1, g2, g3⟩ := ih (n - A.len) (by omega) fuel
      { s with
        job := some { j with walk := { j.walk with cur := some { c with offset := c.offset + A.len } },
                             inHand := some { h with placed := h.placed + A.len, issued := h.issued + 1 } },
        table := s.table.set j.tag (some { e with cursor := some { index := c.index, offset := c.offset + A.len } }),
        accesses := s.accesses ++ [A], nextAccess := s.nextAccess + 1 }
      { j with walk := { j.walk with cur := some { c with offset := c.offset + A.len } },
               inHand := some { h with placed := h.placed + A.len, issued := h.issued + 1 } }
      { h with placed := h.placed + A.len, issued := h.issued + 1 }
      { c with offset := c.offset + A.len }
      { e with cursor := some { index := c.index, offset := c.offset + A.len } }
      rfl rfl hn rfl (State.exch_setExch_self s j.tag _) (by dsimp only; omega) (by omega) hd
    refine ⟨A :: l, by simp only [List.length_cons]; omega, ?_, .cons hi ha (by omega) hA ?_,
      .append (l := [A]) hcar ?_⟩
    · rw [g1, show fuel + 1 - (A :: l).length = fuel - l.length by simp only [List.length_cons]; omega]
      congr 1
      unfold State.placing
      dsimp only
      rw [table_set_set, if_neg h0]
      have e1 : c.offset + A.len + (n - A.len) = c.offset + n := by omega
      have e2 : (if n - A.len = 0 then some ({ index := c.index, offset := c.offset + A.len } : Cursor)
            else some { index := c.index, offset := c.offset + A.len + (n - A.len) })
          = some { index := c.index, offset := c.offset + n } := by
        split
        · congr 2; omega
        · rw [e1]
      rw [e2, e1, show h.placed + A.len + (n - A.len) = h.placed + n by omega,
        show s.nextAccess + 1 + l.length = s.nextAccess + (A :: l).length by simp; omega,
        show h.issued + 1 + l.length = h.issued + (A :: l).length by simp; omega]
      simp only [List.append_assoc, List.singleton_append]
    · have g2 := g2
      dsimp only at g2
      rw [show c.desc.addr + BitVec.ofNat 64 (c.offset + A.len)
          = c.desc.addr + BitVec.ofNat 64 c.offset + BitVec.ofNat 64 A.len by
        simp only [BitVec.ofNat_add, BitVec.add_assoc], Nat.sub_add_eq, Nat.sub_add_eq] at g2
      exact g2
    · have g3 : CarriesBlock j (s.slot h.slot).data (h.placed + A.len) l := g3
      simpa using g3

/-! ## The fault report (R112) -/

/-- R112: the mover reports a fault of the job of an exchange in TRANSFER. -/
theorem State.moverFault_reports {s : State} {j : Job} {e : Exchange} (hj : s.job = some j) (hx : s.exch j.tag = some e)
    (ht : e.state = .transfer) (st : Status) : MoverReports s (s.moverFault j.tag st) j.tag e st := by
  have he : s.endJob j.tag = { s with job := none } := by
    unfold State.endJob; rw [hj]; dsimp only; rw [if_pos rfl]
  have hx' : ({ s with job := none } : State).exch j.tag = some e := hx
  unfold State.moverFault
  dsimp only
  rw [he, hx']; dsimp only; rw [if_pos ht]
  refine ⟨fun h => ?_, fun h => ?_⟩
  · rw [if_neg (by rw [h]; simp)]; exact State.haltWith_halted hx' st
  · rw [if_pos h]; exact State.endWith_ended hx' st 0

/-- A report leaves no job. -/
theorem MoverReports.job {u t : State} {x : Tag} {e : Exchange} {st : Status} (h : MoverReports u t x e st) :
    t.job = none := by
  cases hr : e.readFinished with
  | false => rw [(h.1 hr).job]; rfl
  | true =>
    have he := h.2 hr
    by_cases hp : ∃ p, u.payload = some p ∧ p.owner = x
    · obtain ⟨p, hp, ho⟩ := hp; exact (he.lanes p hp ho).2.2.1
    · exact (he.noLanes fun p hp' ho => hp ⟨p, hp', ho⟩).2.2.2

/-- An exchange that is not in COMPLETING joins nothing. -/
theorem State.accountEnd_of_not_completing {s : State} {x : Tag} {e : Exchange} (hx : s.exch x = some e)
    (h : e.state ≠ .completing) : s.accountEnd x = s := by
  unfold State.accountEnd State.join
  dsimp only
  rw [if_neg]
  unfold State.joinReady; rw [hx]; dsimp only
  intro hh; simp at hh; exact h hh.1.1

/-- R22: an exchange that has ended has joined already if it can. -/
theorem Ended.accountEnd {s t : State} {x : Tag} {e : Exchange} {st : Status} {v : Word} (h : Ended s t x e st v) :
    t.accountEnd x = t := by
  unfold State.accountEnd State.join
  dsimp only
  split
  · rename_i hj
    have ho : t.outstanding x = s.outstanding x := by
      have := h.rest
      unfold State.outstanding; rw [this]
    have h0 : s.outstanding x = 0 := by
      unfold State.joinReady at hj; rw [h.record] at hj; simp at hj; rw [← ho]; exact hj.2
    have hc : t.cringOf e.ring = s.cringOf e.ring := by
      have := h.rest
      unfold State.cringOf State.subRing; rw [this]
    have hw := h.waiting
    rw [if_pos h0] at hw
    rw [h.record]; dsimp only [Option.bind]
    rw [hc]
    cases hq : s.cringOf e.ring with
    | none => rfl
    | some c =>
      dsimp only
      rw [hq] at hw; dsimp only at hw
      rw [State.joinList_waiting]
      have : joinedAt t c (.exchange x) = t.waiting := by
        unfold joinedAt; rw [hw]; unfold joinedAt; exact joinInto_of_mem (joinInto_self _ _ _)
      rw [this]
  · rfl

theorem MoverReports.accountEnd {u t : State} {x : Tag} {e : Exchange} {st : Status} (h : MoverReports u t x e st) :
    t.accountEnd x = t := by
  cases hr : e.readFinished with
  | false => exact State.accountEnd_of_not_completing (h.1 hr).record (by intro hh; cases hh)
  | true => exact (h.2 hr).accountEnd

/-! ## An entry of a page (R106 to R108) -/

theorem Walk.takeListed_malformed {w : Walk} {d : Descriptor} (h : d.Malformed w.walked) (page : BitVec 64) (entry : Nat) :
    w.takeListed page entry d = .fault .listMalformed := by
  unfold Walk.takeListed
  by_cases h1 : d.last = true ∧ d.chain = true
  · rw [if_pos h1]
  · rw [if_neg h1]
    by_cases h2 : maxWalked < w.walked + 1
    · rw [if_pos h2]
    · have h3 : ¬ 4096 ≤ w.walked := by unfold maxWalked at h2; omega
      rw [if_neg h2]
      rcases h with h | h | h | h
      · exact absurd h h1
      · exact absurd h h3
      · rw [if_pos h.1]; unfold Walk.openPage; rw [if_pos h.2]
      · rw [if_neg (by rw [h.1]; simp), if_pos (show d.len = 0 ∨ maxSegment < d.len from h.2)]

theorem Walk.takeListed_leads {w : Walk} {d : Descriptor} (h : d.Leads w.walked) (page : BitVec 64) (entry : Nat) :
    w.takeListed page entry d =
      .read { w with pos := .page d.addr 0, walked := w.walked + 1, look := .empty, needed := true } d.addr := by
  obtain ⟨h1, h2, h3, h4⟩ := h
  unfold Walk.takeListed
  rw [if_neg (by rw [h1]; simp), if_neg (by unfold maxWalked; omega), if_pos h2]
  unfold Walk.openPage; rw [if_neg (by rw [h4]; simp)]

theorem Walk.takeListed_usable {w : Walk} {d : Descriptor} (h : d.Usable w.walked) (page : BitVec 64) (entry : Nat) :
    w.takeListed page entry d = .ready (w.inEntry page entry d 0 .empty) := by
  obtain ⟨h1, h2, h3, h4⟩ := h
  unfold Walk.takeListed
  rw [if_neg (by rw [h1]; simp), if_neg (by unfold maxWalked; omega), if_neg (by rw [h1]; simp),
    if_neg (by unfold maxSegment; omega)]
  rfl

/-- R107: the look-ahead that begins as an entry becomes current. -/
theorem Walk.lookAddr_inEntry (w : Walk) (page : BitVec 64) (entry : Nat) (d : Descriptor) :
    (w.inEntry page entry d 0 .empty).lookAddr =
      if d.last = false ∧ entry + 1 < 256 then some (page + BitVec.ofNat 64 (16 * (entry + 1))) else none := by
  unfold Walk.lookAddr Walk.inEntry
  dsimp only
  by_cases h : d.last = false ∧ entry + 1 < 256
  · rw [if_pos h, if_neg (by simp [h.1]; omega)]; rfl
  · rw [if_neg h, if_pos]
    cases hd : d.last
    · exact .inr (.inl (Nat.not_lt.1 fun hh => h ⟨hd, hh⟩))
    · exact .inl rfl

/-- R104, R107: an entry becomes current: the cursor is at its start, and the entry after it is read ahead. -/
theorem State.jobNeed_inEntry {s : State} {j : Job} {e : Exchange} (hx : s.exch j.tag = some e) (page : BitVec 64)
    (entry : Nat) (d : Descriptor) :
    let ahead := aheadReads j.tag s.nextAccess page entry d
    let look : LookAhead := if d.last = false ∧ entry + 1 < 256 then .reading else .empty
    s.jobNeed j (.ready (j.walk.inEntry page entry d 0 .empty)) = { s with
      job := some { j with walk := j.walk.inEntry page entry d 0 look },
      table := s.table.set j.tag (some { e with cursor := some { index := j.walk.walked, offset := 0 } }),
      accesses := s.accesses ++ ahead, nextAccess := s.nextAccess + ahead.length } := by
  intro ahead look
  unfold State.jobNeed State.lookAhead
  dsimp only
  rw [Walk.lookAddr_inEntry]
  by_cases h : d.last = false ∧ entry + 1 < 256
  · rw [if_pos h]; dsimp only
    rw [State.setWalk_eq hx]
    simp only [ahead, look, aheadReads, if_pos h, State.issue]; rfl
  · rw [if_neg h]; dsimp only
    rw [State.setWalk_eq hx]
    simp only [ahead, look, aheadReads, if_neg h, List.append_nil, List.length_nil, Nat.add_zero]; rfl

/-- `EntryTaken` depends on its first state but for the job and the cursor of the exchange. -/
theorem EntryTaken.of_base {u t : State} {j : Job} {e f : Exchange} {h : InHand} {page : BitVec 64} {entry : Nat}
    {d : Descriptor} {q : Option Job} {tb : Vector (Option Exchange) 16}
    (he : EntryTaken { u with job := q, table := tb } t j e h page entry d)
    (hef : ∀ c, ({ e with cursor := c } : Exchange) = { f with cursor := c })
    (htb : ∀ p, tb.set j.tag p = u.table.set j.tag p) : EntryTaken u t j f h page entry d := by
  unfold EntryTaken at *
  dsimp only at *
  simp only [htb, hef] at he
  exact he

/-- R104, R107, R108, R110 to R112: an entry becomes current while a block is in hand: what is left of the block is placed
into it, as far as it reaches. -/
theorem State.pump_entry {s : State} {j : Job} {h : InHand} {e : Exchange} {g : SegSource} {page : BitVec 64}
    {entry : Nat} {d : Descriptor} {fuel : Nat} (hh : j.inHand = some h) (hx : s.exch j.tag = some e) (hg : e.seg = some g)
    (ht : e.state = .transfer) (hd : d.Usable j.walk.walked) (hp : h.placed < j.blockSize)
    (hf : j.blockSize < fuel + h.placed)
    (hl : j.dir = .read → (s.slot h.slot).data.length = j.blockSize) :
    EntryTaken s (State.pump fuel (s.jobNeed j (.ready (j.walk.inEntry page entry d 0 .empty)))) j e h page entry d := by
  rw [State.jobNeed_inEntry hx]
  unfold EntryTaken
  dsimp only
  obtain ⟨d1, d2, d3, d4⟩ := hd
  generalize hlk : (if d.last = false ∧ entry + 1 < 256 then LookAhead.reading else .empty) = look
  generalize aheadReads j.tag s.nextAccess page entry d = ahead
  set w0 := j.walk.inEntry page entry d 0 look with hw0
  set v : State := { s with
      job := some { j with walk := w0 },
      table := s.table.set j.tag (some { e with cursor := some { index := j.walk.walked, offset := 0 } }),
      accesses := s.accesses ++ ahead, nextAccess := s.nextAccess + ahead.length } with hv
  obtain ⟨l, g0, g1, g2, g3⟩ := State.pump_places (min (j.blockSize - h.placed) d.len) fuel v { j with walk := w0 } h
    { desc := d, index := j.walk.walked, offset := 0 } { e with cursor := some { index := j.walk.walked, offset := 0 } }
    rfl hh rfl rfl (State.exch_setExch_self s j.tag _) (by dsimp only; omega) (by omega) hl
  have h0 : ¬ min (j.blockSize - h.placed) d.len = 0 := by omega
  have g2 : PlacesBlock l (s.nextAccess + ahead.length) d.addr d.len (j.blockSize - h.placed) := by
    simpa using g2
  refine ⟨l, g2, g3, ?_⟩
  obtain ⟨m, hm⟩ : ∃ m, fuel - l.length = m + 1 := ⟨fuel - l.length - 1, by omega⟩
  rw [g1, hm]
  generalize hn : min (j.blockSize - h.placed) d.len = n at *
  -- The state once the entry has been placed, and its job.
  set jv : Job := { j with walk := j.walk.inEntry page entry d n look,
                           inHand := some { h with placed := h.placed + n, issued := h.issued + l.length } } with hjv
  set ev : Exchange := { e with cursor := some { index := j.walk.walked, offset := n } } with hev
  have hV : v.placing { j with walk := w0 } h { desc := d, index := j.walk.walked, offset := 0 }
      { e with cursor := some { index := j.walk.walked, offset := 0 } } n l
      = { s with job := some jv, table := s.table.set j.tag (some ev), accesses := s.accesses ++ ahead ++ l,
                 nextAccess := s.nextAccess + ahead.length + l.length } := by
    unfold State.placing
    dsimp only
    rw [table_set_set, if_neg h0, Nat.zero_add]
    rfl
  rw [hV]
  clear hV g1
  set V : State := { s with
      job := some jv, table := s.table.set j.tag (some ev), accesses := s.accesses ++ ahead ++ l,
      nextAccess := s.nextAccess + ahead.length + l.length } with hVd
  have hVj : V.job = some jv := rfl
  have hVx : V.exch jv.tag = some ev := State.exch_setExch_self s j.tag _
  by_cases hr : j.blockSize - h.placed ≤ d.len
  · rw [if_pos hr, State.pump_placed hVj rfl (by show j.blockSize ≤ h.placed + n; omega)]
    rfl
  · have hnd : n = d.len := by omega
    have hneed : V.needDescriptor jv = V.jobNeed jv (jv.walk.need g) := by
      unfold State.needDescriptor State.segOf
      rw [hVx]; dsimp only [Option.bind]; rw [show ev.seg = some g from hg]
    have hpump : State.pump (m + 1) V = State.pump m (V.jobNeed jv (jv.walk.need g)) := by
      rw [State.pump_step hVj rfl rfl, if_neg (by show ¬ j.blockSize ≤ h.placed + n; omega),
        if_pos (by show d.len - n = 0; omega), hneed]
    rw [if_neg hr, hpump]
    have hfault : ∀ st, jv.walk.need g = .fault st →
        MoverReports V (State.pump m (V.jobNeed jv (jv.walk.need g))) j.tag ev st := by
      intro st hst
      rw [hst]
      have hR : MoverReports V (V.moverFault jv.tag st) j.tag ev st := State.moverFault_reports hVj hVx ht st
      show MoverReports V (State.pump m (V.moverFault jv.tag st)) j.tag ev st
      rw [State.pump_none hR.job]; exact hR
    by_cases hl1 : d.last = true
    · rw [if_pos hl1]
      exact hfault _ (by unfold Walk.need; rw [if_pos (show jv.walk.ended = true from hl1)])
    · have hw : ¬ jv.walk.ended = true := hl1
      rw [if_neg hl1]
      by_cases he : entry + 1 < 256
      · have hlr : look = .reading := by rw [← hlk, if_pos ⟨by simpa using hl1, he⟩]
        have hwait : jv.walk.need g = .wait { jv.walk with needed := true } := by
          unfold Walk.need
          rw [if_neg hw, show jv.walk.pos = .page page (entry + 1) from rfl]; dsimp only
          rw [if_neg (by omega), show jv.walk.look = .reading from hlr]
          rfl
        rw [if_pos he, hwait]
        show State.pump m (V.setWalk jv { jv.walk with needed := true }) = _
        rw [State.setWalk_eq hVx, State.pump_idle rfl (.inl rfl)]
        have htb : V.table.set jv.tag (some { ev with cursor := some ({ jv.walk with needed := true } : Walk).cursor })
            = s.table.set j.tag (some ev) := table_set_set _ _ _ _
        rw [htb]
      · rw [if_neg he]
        exact hfault _ (by
          unfold Walk.need
          rw [if_neg hw, show jv.walk.pos = .page page (entry + 1) from rfl]; dsimp only
          rw [if_pos (by omega)])

/-! ## The profile short path (R104, R107, R114) -/

theorem CarriesProfile.nil (j : ProfileJob) (placed : Nat) : CarriesProfile j placed [] :=
  ⟨rfl, fun a ha => by simp at ha⟩

/-- The profile bytes of one list of writes, and of the one that goes on where it ends. -/
theorem CarriesProfile.append {j : ProfileJob} {placed : Nat} {l l' : List Access} (h : CarriesProfile j placed l)
    (h' : CarriesProfile j (placed + (l.map Access.len).sum) l') : CarriesProfile j placed (l ++ l') := by
  refine ⟨?_, fun a ha => (List.mem_append.1 ha).elim (h.2 a) (h'.2 a)⟩
  rw [List.map_append, List.flatten_append, List.map_append, List.sum_append, List.take_add, List.drop_drop, h.1, h'.1]

/-- One round of the mover with the head job. -/
theorem State.profilePump_step {s : State} {j : ProfileJob} {rest : List ProfileJob} (h : s.profiles = j :: rest)
    (hs : j.started = true) (hn : j.walk.needed = false) (hp : j.placed < 16) (fuel : Nat) :
    State.profilePump (fuel + 1) s =
      if j.walk.left = 0 then
        match s.segOf j.tag with
        | some seg =>
          if (j.walk.need seg).faults then s.profileNeed j (j.walk.need seg)
          else State.profilePump fuel (s.profileNeed j (j.walk.need seg))
        | none => s
      else State.profilePump fuel (s.placeProfile j) := by
  rw [State.profilePump.eq_2, h]; dsimp only
  exact (if_neg (by rw [hs, hn]; simp; omega)).trans rfl

/-- The mover stops while the head job waits for a descriptor, and when its bytes are placed. -/
theorem State.profilePump_idle {s : State} {j : ProfileJob} {rest : List ProfileJob} (h : s.profiles = j :: rest)
    (hi : j.walk.needed = true ∨ 16 ≤ j.placed) (fuel : Nat) : State.profilePump fuel s = s := by
  cases fuel with
  | zero => rfl
  | succ n => rw [State.profilePump.eq_2, h]; dsimp only; rw [if_pos (.inr hi)]

/-- The head job takes a new record, and the exchange's cursor follows its walk. -/
theorem State.setProfileJob_eq {s : State} (j : ProfileJob) {e : Exchange} (hx : s.exch j.tag = some e) :
    s.setProfileJob j = { s with profiles := j :: s.profiles.tail,
                                 table := s.table.set j.tag (some { e with cursor := some j.walk.cursor }) } := by
  unfold State.setProfileJob State.syncCursor
  have h : ({ s with profiles := j :: s.profiles.tail } : State).exch j.tag = some e := hx
  rw [State.modExch_of_some _ h]; rfl

/-- Placing nothing changes nothing. -/
theorem State.profilePlaced_nil {s : State} {j : ProfileJob} {rest : List ProfileJob} {e : Exchange}
    (h : s.profiles = j :: rest) (hs : j.started = true) (hx : s.exch j.tag = some e)
    (hc : e.cursor = some j.walk.cursor) : s.profilePlaced j e j.walk 0 [] = s := by
  unfold State.profilePlaced
  have h1 : ({ j with started := true, walk := j.walk, placed := j.placed + 0,
                      issued := j.issued + ([] : List Access).length } : ProfileJob) = j := by rw [← hs]; rfl
  have h2 : ({ e with cursor := some j.walk.cursor } : Exchange) = e := by rw [← hc]
  rw [h1, h2, State.table_set_same hx, h]
  simp only [List.append_nil, List.length_nil, Nat.add_zero, List.tail_cons]
  rw [← h]

/-- The mover places the profile to its end, or to that of the current descriptor where that comes first. -/
theorem State.profilePump_places (n : Nat) : ∀ (fuel : Nat) (s : State) (j : ProfileJob) (rest : List ProfileJob)
    (c : CurDesc) (e : Exchange),
    s.profiles = j :: rest → j.started = true → j.walk.needed = false → j.walk.cur = some c → s.exch j.tag = some e →
    e.cursor = some j.walk.cursor → n = min (c.desc.len - c.offset) (16 - j.placed) → n ≤ fuel →
    ∃ l, l.length ≤ n ∧
      State.profilePump fuel s = State.profilePump (fuel - l.length)
        (s.profilePlaced j e { j.walk with cur := some { c with offset := c.offset + n } } n l) ∧
      PlacesBlock l s.nextAccess (c.desc.addr + BitVec.ofNat 64 c.offset) (c.desc.len - c.offset) (16 - j.placed) ∧
      CarriesProfile j j.placed l := by
  induction n using Nat.strong_induction_on with
  | _ n ih =>
  intro fuel s j rest c e hj hs hn hc hx he hr hf
  by_cases h0 : n = 0
  · subst h0
    refine ⟨[], Nat.le_refl _, ?_, .nil hr.symm, .nil _ _⟩
    have hw : ({ j.walk with cur := some { c with offset := c.offset + 0 } } : Walk) = j.walk := by
      show ({ j.walk with cur := some c } : Walk) = j.walk
      rw [← hc]
    rw [hw, State.profilePlaced_nil hj hs hx he]; rfl
  · obtain ⟨fuel, rfl⟩ : ∃ m, fuel = m + 1 := ⟨fuel - 1, by omega⟩
    rw [State.profilePump_step hj hs hn (by omega),
      if_neg (by unfold Walk.left; rw [hc]; dsimp only; omega)]
    -- The write that is issued, and the state after it.
    let A : Access :=
      { id := s.nextAccess, purpose := .profileWrite j.tag, addr := hostPlus c.desc.addr c.offset,
        len := accessLength (hostPlus c.desc.addr c.offset) (c.desc.len - c.offset) (16 - j.placed),
        data := ((beBytes 16 16 j.bytes).drop j.placed).take
          (accessLength (hostPlus c.desc.addr c.offset) (c.desc.len - c.offset) (16 - j.placed)) }
    have hm : A.addr.toNat % 4096 < 4096 := Nat.mod_lt _ (by decide)
    have hA : A.len = min 256 (min (c.desc.len - c.offset) (min (4096 - A.addr.toNat % 4096) (16 - j.placed))) := rfl
    have hp : s.placeProfile j
        = s.profilePlaced j e { j.walk with cur := some { c with offset := c.offset + A.len } } A.len [A] := by
      unfold State.placeProfile
      dsimp only
      rw [show j.walk.hostAddr = hostPlus c.desc.addr c.offset by unfold Walk.hostAddr; rw [hc],
        show j.walk.left = c.desc.len - c.offset by unfold Walk.left; rw [hc]]
      rw [State.setProfileJob_eq { j with walk := j.walk.advance A.len, placed := j.placed + A.len, issued := j.issued + 1 }
        hx]
      unfold State.issue State.profilePlaced Walk.advance
      rw [hc, ← hs]
      rfl
    have hcar : CarriesProfile j j.placed [A] := by
      refine ⟨?_, fun a ha => ?_⟩
      · simp only [List.map_cons, List.map_nil, List.flatten_cons, List.flatten_nil, List.append_nil, List.sum_cons,
          List.sum_nil, Nat.add_zero]
        rfl
      · rw [List.mem_singleton.1 ha]
        refine ⟨rfl, ?_⟩
        show (List.take A.len _).length = A.len
        rw [List.length_take, List.length_drop]
        have : (beBytes 16 16 j.bytes).length = 16 := by unfold beBytes; simp
        rw [this]; omega
    have h1 : 1 ≤ A.len := by omega
    have hi : A.id = s.nextAccess := rfl
    have ha : A.addr = c.desc.addr + BitVec.ofNat 64 c.offset := rfl
    generalize A = A at hp hcar hA hm h1 hi ha
    rw [hp]
    obtain ⟨l, g0, g1, g2, g3⟩ := ih (n - A.len) (by omega) fuel
      (s.profilePlaced j e { j.walk with cur := some { c with offset := c.offset + A.len } } A.len [A])
      { j with started := true, walk := { j.walk with cur := some { c with offset := c.offset + A.len } },
               placed := j.placed + A.len, issued := j.issued + 1 } s.profiles.tail
      { c with offset := c.offset + A.len }
      { e with cursor := some { index := c.index, offset := c.offset + A.len } }
      rfl rfl hn rfl (State.exch_setExch_self s j.tag _) rfl (by dsimp only; omega) (by omega)
    refine ⟨A :: l, by simp only [List.length_cons]; omega, ?_, .cons hi ha h1 hA ?_, .append (l := [A]) hcar ?_⟩
    · rw [g1, show fuel + 1 - (A :: l).length = fuel - l.length by simp only [List.length_cons]; omega]
      congr 1
      unfold State.profilePlaced
      dsimp only
      rw [table_set_set, show c.offset + A.len + (n - A.len) = c.offset + n by omega,
        show j.placed + A.len + (n - A.len) = j.placed + n by omega,
        show s.nextAccess + [A].length + l.length = s.nextAccess + (A :: l).length by simp; omega,
        show j.issued + 1 + l.length = j.issued + (A :: l).length by simp; omega]
      simp only [List.append_assoc, List.singleton_append, List.tail_cons]
    · have g2 := g2
      dsimp only at g2
      rw [show c.desc.addr + BitVec.ofNat 64 (c.offset + A.len)
          = c.desc.addr + BitVec.ofNat 64 c.offset + BitVec.ofNat 64 A.len by
        simp only [BitVec.ofNat_add, BitVec.add_assoc], Nat.sub_add_eq, Nat.sub_add_eq] at g2
      exact g2
    · have g3 : CarriesProfile j (j.placed + A.len) l := g3
      simpa using g3

/-- R104, R114: a descriptor becomes current for the head job, and the bytes left go into it, as far as it reaches. -/
theorem State.profilePump_takes {u : State} {j : ProfileJob} {e : Exchange} {w : Walk} {d : Descriptor} {index fuel : Nat} (hs : j.started = true)
    (hx : u.exch j.tag = some e) (hw : w.cur = some { desc := d, index := index, offset := 0 })
    (hn : w.needed = false) (hf : 16 ≤ fuel) :
    let n := min d.len (16 - j.placed)
    ∃ l, l.length ≤ n ∧
      State.profilePump fuel (u.setProfileJob { j with walk := w }) = State.profilePump (fuel - l.length)
        (u.profilePlaced j e { w with cur := some { desc := d, index := index, offset := n } } n l) ∧
      PlacesBlock l u.nextAccess d.addr d.len (16 - j.placed) ∧ CarriesProfile j j.placed l := by
  intro n
  rw [State.setProfileJob_eq { j with walk := w } hx]
  obtain ⟨l, g0, g1, g2, g3⟩ := State.profilePump_places n fuel
    { u with profiles := { j with walk := w } :: u.profiles.tail,
             table := u.table.set j.tag (some { e with cursor := some w.cursor }) }
    { j with walk := w } u.profiles.tail { desc := d, index := index, offset := 0 } { e with cursor := some w.cursor }
    rfl hs hn hw (State.exch_setExch_self u j.tag _) rfl rfl (by omega)
  refine ⟨l, g0, ?_, by simpa using g2, g3⟩
  rw [g1]
  congr 1
  unfold State.profilePlaced
  dsimp only
  rw [table_set_set, Nat.zero_add]
  rfl

end Sys2Proof.Machine
end

