-- ==== Sys2Proof/Laws/RingFrame.lean ====
section
/-! SUPPORT. The frame of rings, admission, cancellation, the poster, device control and the tick (chapters 8 to 11):
what each shared operation outside the link side leaves alone. -/

namespace Sys2Proof.Machine

/-! ## Cancellation (chapter 8) -/

theorem Inner.cancelMark (s : State) (t : Tag) : Inner s (s.modExch t Exchange.cancelled) :=
  .modExch s t _ (fun e => by unfold Exchange.cancelled Exchange.record; split <;> rfl)

theorem Inner.cancelOne (s : State) (t : Tag) : Inner s (s.cancelOne t) := by
  have h := Inner.cancelMark s t
  unfold State.cancelOne; split
  · dsimp only; split
    · exact h.trans (.enterCompleting _ t)
    · exact h
    · exact h
    · exact h.trans (.enterWithdrawing _ t)
    · exact h.trans (.enterWithdrawing _ t)
    · split
      · exact h.trans (.enterCompleting _ t)
      · exact h.trans (.enterHalting _ t)
    all_goals exact h
  · exact .refl s

/-- R131, R132: the treatment of every exchange a CANCEL finds. -/
theorem Inner.cancelAll (s : State) (l : List Tag) : Inner s (l.foldl State.cancelOne s) := .foldl _ .cancelOne l s

/-! ## Submission rings and completion rings -/

/-- What a change of ring records, messages and latches leaves alone on the rest of the part. -/
structure Outer (s t : State) : Prop where
  table : t.table = s.table
  payload : t.payload = s.payload
  job : t.job = s.job
  staging : t.staging = s.staging
  reservation : t.reservation = s.reservation
  pending : t.pending = s.pending

namespace Outer

theorem refl (s : State) : Outer s s := ⟨rfl, rfl, rfl, rfl, rfl, rfl⟩

theorem trans {s t u : State} (a : Outer s t) (b : Outer t u) : Outer s u :=
  ⟨b.table.trans a.table, b.payload.trans a.payload, b.job.trans a.job, b.staging.trans a.staging,
   b.reservation.trans a.reservation, b.pending.trans a.pending⟩

theorem staged {s t : State} (h : Outer s t) (hs : s.StagingOk) : t.StagingOk := by
  unfold State.StagingOk at *; rw [h.payload, h.job, h.staging]; exact hs

theorem exch {s t : State} (h : Outer s t) (x : Tag) : t.exch x = s.exch x := by simp only [State.exch, h.table]

end Outer

theorem State.faultRing_outer (s : State) (r : RingId) (c : RingCause) :
    Outer s (s.faultRing r c) ∧ (s.faultRing r c).crings = s.crings ∧ (s.faultRing r c).eventQueue = s.eventQueue
      ∧ (s.faultRing r c).vectors = s.vectors ∧ (s.faultRing r c).device.state = s.device.state
      ∧ (s.faultRing r c).device.lck = s.device.lck ∧ (s.faultRing r c).device.config = s.device.config := by
  unfold State.faultRing; split
  · exact ⟨.refl s, rfl, rfl, rfl, rfl, rfl, rfl⟩
  · exact ⟨⟨rfl, rfl, rfl, rfl, rfl, rfl⟩, rfl, rfl, rfl, rfl, rfl, rfl⟩

/-- R145: a ring that faults keeps its configuration, its indices, its count and its holding position. -/
theorem State.subRing_faultRing (s : State) (r u : RingId) (c : RingCause) :
    ((s.faultRing r c).subRing u).cfg = (s.subRing u).cfg
      ∧ ((s.faultRing r c).subRing u).fetchIdx = (s.subRing u).fetchIdx
      ∧ ((s.faultRing r c).subRing u).postIdx = (s.subRing u).postIdx
      ∧ ((s.faultRing r c).subRing u).outstanding = (s.subRing u).outstanding
      ∧ ((s.faultRing r c).subRing u).holding = (s.subRing u).holding := by
  unfold State.faultRing; split
  · simp
  · have h : (({ (s.modSubRing r (fun x => { x with state := .faulted, cause := some c })).setRingFault r with
        ringLatch := s.ringLatch.set r (some c) } : State)).subRing u
        = (s.modSubRing r (fun x => { x with state := .faulted, cause := some c })).subRing u := rfl
    rw [h, State.subRing_modSubRing]
    split <;> simp

theorem State.moderate_outer (s : State) (r : RingId) (c : CRing) :
    Outer s (s.moderate r c) ∧ (s.moderate r c).device = s.device ∧ (s.moderate r c).subRings = s.subRings
      ∧ (s.moderate r c).eventQueue = s.eventQueue ∧ (s.moderate r c).crings = s.crings.set r (some c.counted.2) := by
  unfold State.moderate
  cases h : c.counted with
  | mk b c' => cases b <;> exact ⟨⟨rfl, rfl, rfl, rfl, rfl, rfl⟩, rfl, rfl, rfl, rfl⟩

/-- R164: counting a record changes the moderation fields alone. -/
theorem CRing.counted_ok {c : CRing} (h : c.Ok) : c.counted.2.Ok := by
  unfold CRing.counted; split <;> exact h

/-- R158: a record written keeps the law of its ring. -/
theorem CRing.written_ok {c : CRing} (h : c.Ok) (hw : c.writing.isSome = true) : c.written.Ok := by
  obtain ⟨h1, h2, h3, h4, h5⟩ := h
  have h6 := h5 hw
  refine ⟨h1, h2, ?_, ?_, ?_⟩
  · exact h6
  · show (c.tail + 1) % c.size = (c.head + (c.unreleased + 1)) % c.size
    rw [h4, Nat.mod_add_mod, Nat.add_assoc]
  · intro hx; cases hx

/-- R160: an accepted release keeps the law of its ring. -/
theorem CRing.released_ok {c : CRing} (h : c.Ok) {n : Nat} (hn : n < c.size) (hd : c.handedBack n ≤ c.unreleased) :
    ({ c with head := n, unreleased := c.unreleased - c.handedBack n } : CRing).Ok := by
  obtain ⟨h1, h2, h3, h4, h5⟩ := h
  refine ⟨h1, hn, ?_, ?_, ?_⟩
  · show c.unreleased - c.handedBack n ≤ c.size; omega
  · show c.tail = (n + (c.unreleased - c.handedBack n)) % c.size
    rw [h4]
    unfold CRing.handedBack at *
    split at hd
    · rw [if_pos ‹_›]; congr 1; omega
    · rw [if_neg ‹_›]
      have : c.head + c.unreleased = n + (c.unreleased - (n + c.size - c.head)) + c.size := by omega
      rw [this, Nat.add_mod_right]
  · intro hw; have := h5 hw; show c.unreleased - c.handedBack n < c.size; omega

/-! ## The poster's sources (R23, R146, R163) -/

theorem State.dequeueEvent_frame (s : State) :
    s.dequeueEvent.table = s.table ∧ s.dequeueEvent.subRings = s.subRings ∧ s.dequeueEvent.crings = s.crings
      ∧ s.dequeueEvent.device = s.device ∧ s.dequeueEvent.reservation = s.reservation
      ∧ s.dequeueEvent.eventQueue = s.eventQueue.tail ∧ s.dequeueEvent.payload = s.payload
      ∧ s.dequeueEvent.job = s.job ∧ s.dequeueEvent.staging = s.staging ∧ s.dequeueEvent.pending = s.pending := by
  unfold State.dequeueEvent; dsimp only; split
  · exact ⟨rfl, rfl, rfl, rfl, rfl, rfl, rfl, rfl, rfl, rfl⟩
  · unfold State.join; dsimp only; split
    · unfold State.joinList; split <;> exact ⟨rfl, rfl, rfl, rfl, rfl, rfl, rfl, rfl, rfl, rfl⟩
    · exact ⟨rfl, rfl, rfl, rfl, rfl, rfl, rfl, rfl, rfl, rfl⟩

/-! ## Time -/

/-- What one period of the link clock leaves alone. -/
structure Ticked (s t : State) : Prop where
  device : t.device = s.device
  subRings : t.subRings = s.subRings
  vectors : t.vectors = s.vectors
  eventQueue : t.eventQueue = s.eventQueue
  reservation : t.reservation = s.reservation
  job : t.job = s.job
  staging : t.staging = s.staging
  owned : t.payload = none ↔ s.payload = none
  origins : ∀ x, (t.exch x).map (·.ring) = (s.exch x).map (·.ring)
  crings : s.CRingsOk → t.CRingsOk
  queued : ∃ l, t.pending = s.pending ++ l

namespace Ticked

theorem refl (s : State) : Ticked s s := ⟨rfl, rfl, rfl, rfl, rfl, rfl, rfl, Iff.rfl, fun _ => rfl, id, [], by simp⟩

theorem trans {s t u : State} (a : Ticked s t) (b : Ticked t u) : Ticked s u :=
  ⟨b.device.trans a.device, b.subRings.trans a.subRings, b.vectors.trans a.vectors, b.eventQueue.trans a.eventQueue,
   b.reservation.trans a.reservation, b.job.trans a.job, b.staging.trans a.staging, b.owned.trans a.owned,
   fun x => (b.origins x).trans (a.origins x), fun h => b.crings (a.crings h), by
     obtain ⟨l, hl⟩ := a.queued; obtain ⟨m, hm⟩ := b.queued; exact ⟨l ++ m, by rw [hm, hl, List.append_assoc]⟩⟩

theorem foldl {α : Type} (f : State → α → State) (hf : ∀ s a, Ticked s (f s a)) (l : List α) (s : State) :
    Ticked s (l.foldl f s) := by
  induction l generalizing s with
  | nil => exact refl s
  | cons a l ih => exact (hf s a).trans (ih (f s a))

/-- An update of fields that none of these laws reads. -/
theorem of_rest {s t : State} (h1 : t.device = s.device) (h2 : t.subRings = s.subRings) (h3 : t.vectors = s.vectors)
    (h4 : t.eventQueue = s.eventQueue) (h5 : t.reservation = s.reservation) (h6 : t.job = s.job)
    (h7 : t.staging = s.staging) (h8 : t.payload = s.payload) (h9 : t.table = s.table) (h10 : t.crings = s.crings)
    (l : List Instr) (h11 : t.pending = s.pending ++ l) : Ticked s t :=
  ⟨h1, h2, h3, h4, h5, h6, h7, by rw [h8], fun x => by simp only [State.exch, h9],
   fun h r c hc => h r c (by unfold State.cring at *; rw [← h10]; exact hc), l, h11⟩

theorem enqueue (s : State) (c : Instr) : Ticked s (s.enqueue c) :=
  .of_rest rfl rfl rfl rfl rfl rfl rfl rfl rfl rfl [c] rfl

theorem setCl (s : State) (c : Lane) : Ticked s { s with cl := c } :=
  .of_rest rfl rfl rfl rfl rfl rfl rfl rfl rfl rfl [] (by simp)

theorem setPayload {s : State} {p : Payload} (h : s.payload = some p) (q : Payload) : Ticked s { s with payload := some q } :=
  ⟨rfl, rfl, rfl, rfl, rfl, rfl, rfl, by simp [h], fun _ => rfl, id, [], by simp⟩

theorem modStation (s : State) (st : StationId) (f : Station → Station) : Ticked s (s.modStation st f) :=
  .of_rest rfl rfl rfl rfl rfl rfl rfl rfl rfl rfl [] (by simp)

theorem bound (s : State) (n b : Nat) (f : Nat → Lane) (c : Instr) : Ticked s (s.tickBound n b f c) := by
  unfold State.tickBound; split
  · exact .enqueue s c
  · exact .setCl s _

theorem cl (s : State) : Ticked s s.tickCl := by
  unfold State.tickCl; split
  · exact .bound s _ _ _ _
  · exact .bound s _ _ _ _
  · exact .bound s _ _ _ _
  · exact .bound s _ _ _ _
  · exact .bound s _ _ _ _
  all_goals exact .refl s

theorem lane (s : State) : Ticked s s.tickLane := by
  have h : Ticked s ({ s with laneLow := s.tickLow } : State).tickCl :=
    (of_rest (s := s) (t := { s with laneLow := s.tickLow }) rfl rfl rfl rfl rfl rfl rfl rfl rfl rfl [] (by simp)).trans (.cl _)
  unfold State.tickLane; dsimp only; split
  · exact h.trans (.enqueue _ _)
  · exact h

theorem data (s : State) : Ticked s s.tickData := by
  unfold State.tickData; split
  · rename_i p hp
    split
    · split
      · exact .enqueue s _
      · exact .setPayload hp _
    · exact .refl s
  · exact .refl s

theorem hold (s : State) : Ticked s s.tickHold := by
  unfold State.tickHold; split
  · rename_i p hp
    split
    · split
      · exact .enqueue s _
      · exact .setPayload hp _
    · exact .refl s
  · exact .refl s

theorem block (s : State) : Ticked s s.tickBlock := by
  unfold State.tickBlock; split
  · rename_i p hp
    split
    · split
      · exact .enqueue s _
      · exact .setPayload hp _
    · exact .setPayload hp _
    · exact .refl s
  · exact .refl s

theorem wait (s : State) : Ticked s s.tickWait := by
  unfold State.tickWait; split
  · rename_i p hp
    split
    · exact .refl s
    · exact .setPayload hp _
  · exact .refl s

theorem quiet (s : State) : Ticked s s.tickQuiet := by
  unfold State.tickQuiet; split
  · split
    · exact .enqueue s _
    · exact .of_rest rfl rfl rfl rfl rfl rfl rfl rfl rfl rfl [] (by simp)
  · exact .refl s

theorem poll (s : State) (ns : Nat) : Ticked s (s.tickPoll ns) := by
  unfold State.tickPoll; split
  · split
    · exact .refl s
    · split
      · exact .enqueue s _
      · exact .of_rest rfl rfl rfl rfl rfl rfl rfl rfl rfl rfl [] (by simp)
  · exact .refl s

theorem debounce (ns : Nat) (s : State) (st : StationId) : Ticked s (State.tickDebounce ns s st) := by
  unfold State.tickDebounce; split
  · split
    · exact .refl s
    · split
      · exact .enqueue s _
      · exact .modStation s _ _
  · exact .refl s

theorem settle (ns : Nat) (s : State) (st : StationId) : Ticked s (State.tickSettle ns s st) := by
  unfold State.tickSettle; split
  · split
    · split
      · exact .enqueue s _
      · exact .modStation s _ _
    · exact .refl s
  · exact .refl s

theorem saturation (ns : Nat) (s : State) (st : StationId) : Ticked s (State.tickSaturation ns s st) := by
  unfold State.tickSaturation; split
  · split
    · exact .enqueue s _
    · exact .modStation s _ _
  · exact .refl s

theorem deferral (ns : Nat) (s : State) (t : Tag) : Ticked s (State.tickDeferral ns s t) := by
  unfold State.tickDeferral; split
  · split
    · exact .enqueue s _
    · rename_i n _ _
      have h := Inner.modExch s t (fun e => { e with deferral := some (n - ns) }) (fun _ => rfl)
      unfold State.modExch at *; split at h
      · exact ⟨rfl, rfl, rfl, rfl, rfl, rfl, rfl, Iff.rfl, h.origins, id, [], by simp⟩
      · exact .refl s
  · exact .refl s

theorem delay (ns : Nat) (s : State) (r : RingId) : Ticked s (State.tickDelay ns s r) := by
  unfold State.tickDelay; split
  · rename_i c hc
    split
    · split
      · exact .enqueue s _
      · refine ⟨rfl, rfl, rfl, rfl, rfl, rfl, rfl, Iff.rfl, fun _ => rfl, fun h u c' hu => ?_, [], by simp⟩
        rw [State.cring_setCring] at hu
        split at hu
        · cases hu; exact h r c hc
        · exact h u c' hu
    · exact .refl s
  · exact .refl s

theorem timers (s : State) (ns : Nat) : Ticked s (s.tickTimers ns) :=
  (((((poll s ns).trans (.foldl _ (.debounce ns) allStations _)).trans (.foldl _ (.settle ns) allStations _)).trans
    (.foldl _ (.saturation ns) allStations _)).trans (.foldl _ (.deferral ns) allTags _)).trans
    (.foldl _ (.delay ns) allRings _)

end Ticked

/-- One period of the link clock leaves all but timers, counters and the queue alone. -/
theorem State.tick_frame (s : State) : Ticked s s.tick := by
  unfold State.tick; split
  · exact ((((((Ticked.lane s).trans (.data _)).trans (.hold _)).trans (.block _)).trans (.wait _)).trans (.quiet _)).trans (.timers _ _)
  · exact .refl s

end Sys2Proof.Machine
end

