-- ==== Sys2Proof/Laws/Tick.lean ====
section
/-! SUPPORT. What each part of a link period writes: the timers it moves, and the commands it puts in the queue. -/

namespace Sys2Proof.Machine

/-! ## CL and the payload -/

/-- The condition of CL after one more period. -/
def State.nextCl (s : State) : Lane :=
  match s.cl with
  | .sending n => .sending (countUp (s.due .frameSent) 1 n)
  | .window n => .window (countUp (s.due .replyWindowExpired) 1 n)
  | .guardGap n => .guardGap (countUp (s.due .guardGapEnd) 1 n)
  | .tokenWindow n => .tokenWindow (countUp (s.due .tokenWindowExpired) 1 n)
  | .signalling n => .signalling (countUp (s.due .linkResetEnd) 1 n)
  | c => c

theorem State.tickBound_eq (s : State) (n b : Nat) (f : Nat → Lane) (c : Instr) (hf : s.cl = f n) :
    s.tickBound n b f c = { s with cl := f (countUp (decide (b ≤ n + 1)) 1 n),
                                   pending := s.pending ++ if b ≤ n + 1 then [c] else [] } := by
  unfold State.tickBound countUp State.enqueue
  by_cases h : b ≤ n + 1
  · simp [h, ← hf]
  · simp [h]

theorem State.tickCl_eq (s : State) :
    s.tickCl = { s with
      cl := s.nextCl,
      pending := s.pending ++ [.frameSent, .replyWindowExpired, .guardGapEnd, .tokenWindowExpired,
        .linkResetEnd].filter s.due } := by
  unfold State.tickCl State.nextCl
  cases h : s.cl <;> simp only []
  case sending n =>
    rw [State.tickBound_eq s n _ _ _ h]
    by_cases hb : 81 ≤ n + 1 <;> simp [State.due, h, framePeriods, hb]
  case window n =>
    rw [State.tickBound_eq s n _ _ _ h]
    by_cases hb : Cfg.replyWindow s.cfg ≤ n + 1 <;> simp [State.due, h, hb]
  case guardGap n =>
    rw [State.tickBound_eq s n _ _ _ h]
    by_cases hb : 4 ≤ n + 1 <;> simp [State.due, h, gapPeriods, hb]
  case tokenWindow n =>
    rw [State.tickBound_eq s n _ _ _ h]
    by_cases hb : Cfg.replyWindow s.cfg ≤ n + 1 <;> simp [State.due, h, hb]
  case signalling n =>
    rw [State.tickBound_eq s n _ _ _ h]
    by_cases hb : 1024 ≤ n + 1 <;> simp [State.due, h, signallingPeriods, hb]
  all_goals
    have hd : [Instr.frameSent, .replyWindowExpired, .guardGapEnd, .tokenWindowExpired, .linkResetEnd].filter s.due = [] := by
      simp [State.due, h]
    rw [hd, List.append_nil, ← h]

theorem State.due_laneStuck (s : State) : s.due .laneStuck = (decide (4097 ≤ s.tickLow) && s.linkReset.isNone) := by
  have : (4097 ≤ s.laneLow + if s.cl = .low then 1 else 0) ↔ 4097 ≤ s.tickLow := by
    unfold State.tickLow State.highLow stuckCount
    cases h : s.cl <;> simp only [reduceCtorEq, if_true, if_false] <;> first | omega | (repeat' split) <;> omega
  simp only [State.due, this]

theorem State.tickLane_eq (s : State) :
    s.tickLane = { s with
      cl := s.nextCl, laneLow := s.tickLow,
      pending := s.pending ++ [.frameSent, .replyWindowExpired, .guardGapEnd, .tokenWindowExpired, .linkResetEnd,
        .laneStuck].filter s.due } := by
  have h := State.tickCl_eq { s with laneLow := s.tickLow }
  have hn : ({ s with laneLow := s.tickLow } : State).nextCl = s.nextCl := rfl
  have hd : ([Instr.frameSent, .replyWindowExpired, .guardGapEnd, .tokenWindowExpired, .linkResetEnd].filter
      ({ s with laneLow := s.tickLow } : State).due)
    = [Instr.frameSent, .replyWindowExpired, .guardGapEnd, .tokenWindowExpired, .linkResetEnd].filter s.due := rfl
  rw [hn, hd] at h
  have hs : [Instr.frameSent, .replyWindowExpired, .guardGapEnd, .tokenWindowExpired, .linkResetEnd, .laneStuck].filter
      s.due = [Instr.frameSent, .replyWindowExpired, .guardGapEnd, .tokenWindowExpired, .linkResetEnd].filter s.due
        ++ if stuckCount ≤ s.tickLow ∧ s.linkReset.isNone then [.laneStuck] else [] := by
    rw [show [Instr.frameSent, .replyWindowExpired, .guardGapEnd, .tokenWindowExpired, .linkResetEnd, .laneStuck]
      = [Instr.frameSent, .replyWindowExpired, .guardGapEnd, .tokenWindowExpired, .linkResetEnd] ++ [.laneStuck] from rfl,
      List.filter_append]
    congr 1
    by_cases hk : stuckCount ≤ s.tickLow ∧ s.linkReset.isNone
    · have : s.due .laneStuck = true := by
        rw [State.due_laneStuck]; simpa [stuckCount] using hk
      rw [if_pos hk]; simp [this]
    · have : s.due .laneStuck = false := by
        rw [State.due_laneStuck, Bool.eq_false_iff]; simpa [stuckCount] using hk
      rw [if_neg hk]; simp [this]
  unfold State.tickLane
  dsimp only
  rw [h, hs]
  by_cases hk : stuckCount ≤ s.tickLow ∧ s.linkReset.isNone
  · rw [if_pos hk, if_pos hk]; simp [State.enqueue]
  · rw [if_neg hk, if_neg hk, List.append_nil]

/-- A state that differs from `s` in the payload record and the queue alone. -/
theorem State.eq_payload {s t : State} {p : Option Payload} {q : List Instr}
    (h : t = { s with payload := t.payload, pending := t.pending }) (hp : t.payload = p)
    (hq : t.pending = s.pending ++ q) : t = { s with payload := p, pending := s.pending ++ q } := by
  rw [← hp, ← hq]; exact h

theorem State.tickData_eq (s : State) :
    s.tickData = { s with
      payload := s.payload.map (fun p => { p with dataTimer := p.dataTimer.map (countUp (s.due .dataTimeout) 1) }),
      pending := s.pending ++ [.dataTimeout].filter s.due } := by
  cases hp : s.payload with
  | none =>
    rw [show s.tickData = s by simp only [State.tickData, hp]]
    exact State.eq_payload rfl hp (by simp [State.due, hp])
  | some p =>
    cases ht : p.dataTimer with
    | none =>
      rw [show s.tickData = s by simp only [State.tickData, hp, ht]]
      refine State.eq_payload rfl ?_ (by simp [State.due, hp, ht])
      rw [hp]; cases p; cases ht; rfl
    | some n =>
      have hd : s.due .dataTimeout = decide (Cfg.dataTimeout s.cfg ≤ n + 1) := by simp [State.due, hp, ht]
      by_cases hb : Cfg.dataTimeout s.cfg ≤ n + 1
      · rw [show s.tickData = s.enqueue .dataTimeout by simp only [State.tickData, hp, ht, hb, if_true], hd]
        refine State.eq_payload rfl ?_ (by simp [State.enqueue, hd, hb])
        rw [decide_eq_true hb]
        refine Eq.trans (b := s.payload) rfl ?_
        rw [hp]; cases p; cases ht; rfl
      · rw [show s.tickData = { s with payload := some { p with dataTimer := some (n + 1) } } by
          simp only [State.tickData, hp, ht, hb, if_false], hd]
        refine State.eq_payload rfl ?_ (by simp [hd, hb])
        rw [decide_eq_false hb]
        cases p; cases ht; rfl

theorem State.tickHold_eq (s : State) :
    s.tickHold = { s with
      payload := s.payload.map (fun p => { p with holdTimer := p.holdTimer.map (countUp (s.due .holdTimeout) 1) }),
      pending := s.pending ++ [.holdTimeout].filter s.due } := by
  cases hp : s.payload with
  | none =>
    rw [show s.tickHold = s by simp only [State.tickHold, hp]]
    exact State.eq_payload rfl hp (by simp [State.due, hp])
  | some p =>
    cases ht : p.holdTimer with
    | none =>
      rw [show s.tickHold = s by simp only [State.tickHold, hp, ht]]
      refine State.eq_payload rfl ?_ (by simp [State.due, hp, ht])
      rw [hp]; cases p; cases ht; rfl
    | some n =>
      have hd : s.due .holdTimeout = decide (Cfg.holdLimit s.cfg ≤ n + 1) := by simp [State.due, hp, ht]
      by_cases hb : Cfg.holdLimit s.cfg ≤ n + 1
      · rw [show s.tickHold = s.enqueue .holdTimeout by simp only [State.tickHold, hp, ht, hb, if_true], hd]
        refine State.eq_payload rfl ?_ (by simp [State.enqueue, hd, hb])
        rw [decide_eq_true hb]
        refine Eq.trans (b := s.payload) rfl ?_
        rw [hp]; cases p; cases ht; rfl
      · rw [show s.tickHold = { s with payload := some { p with holdTimer := some (n + 1) } } by
          simp only [State.tickHold, hp, ht, hb, if_false], hd]
        refine State.eq_payload rfl ?_ (by simp [hd, hb])
        rw [decide_eq_false hb]
        cases p; cases ht; rfl

theorem State.tickBlock_eq (s : State) :
    s.tickBlock = { s with
      payload := s.payload.map (fun p =>
        { p with elapsed := (match p.onLanes with
            | some .write => countUp (s.due .writeBlockEnd) 1 p.elapsed
            | some .read => min p.blockLength (p.elapsed + 1)
            | none => p.elapsed) }),
      pending := s.pending ++ [.writeBlockEnd].filter s.due } := by
  cases hp : s.payload with
  | none =>
    rw [show s.tickBlock = s by simp only [State.tickBlock, hp]]
    exact State.eq_payload rfl hp (by simp [State.due, hp])
  | some p =>
    cases hl : p.onLanes with
    | none =>
      rw [show s.tickBlock = s by simp only [State.tickBlock, hp, hl]]
      exact State.eq_payload rfl (by simp [hp, hl]) (by simp [State.due, hp, hl])
    | some d =>
      cases d with
      | read =>
        rw [show s.tickBlock = { s with payload := some { p with elapsed := min p.blockLength (p.elapsed + 1) } } by
          simp only [State.tickBlock, hp, hl]]
        exact State.eq_payload rfl (by simp [hl]) (by simp [State.due, hp, hl])
      | write =>
        have hd : s.due .writeBlockEnd = decide (p.blockLength ≤ p.elapsed + 1) := by simp [State.due, hp, hl]
        by_cases hb : p.blockLength ≤ p.elapsed + 1
        · rw [show s.tickBlock = s.enqueue .writeBlockEnd by simp only [State.tickBlock, hp, hl, hb, if_true], hd]
          refine State.eq_payload rfl ?_ (by simp [State.enqueue, hd, hb])
          exact Eq.trans (b := s.payload) rfl (by simp [hp, hl, hb, countUp])
        · rw [show s.tickBlock = { s with payload := some { p with elapsed := p.elapsed + 1 } } by
            simp only [State.tickBlock, hp, hl, hb, if_false], hd]
          exact State.eq_payload rfl (by simp [hl, hb, countUp]) (by simp [hd, hb])

theorem State.tickWait_eq (s : State) :
    s.tickWait = { s with
      payload := s.payload.map (fun p => { p with wait := if p.gapDue then p.wait else p.wait - 1 }) } := by
  have h {t : State} {p} (h : t = { s with payload := t.payload }) (hp : t.payload = p) : t = { s with payload := p } := by
    rw [← hp]; exact h
  cases hp : s.payload with
  | none => rw [show s.tickWait = s by simp only [State.tickWait, hp]]; exact h rfl hp
  | some p =>
    by_cases hg : p.gapDue = true
    · rw [show s.tickWait = s by simp only [State.tickWait, hp, hg, if_true]]
      exact h rfl (by rw [hp, Option.map_some, if_pos hg])
    · rw [show s.tickWait = { s with payload := some { p with wait := p.wait - 1 } } by
        unfold State.tickWait; rw [hp]; exact if_neg hg]
      exact h rfl (by simp [hg])

theorem State.tickQuiet_eq (s : State) :
    s.tickQuiet = { s with
      quiet := s.quiet.map (countDown (s.due .quietIntervalEnd) 1),
      pending := s.pending ++ [.quietIntervalEnd].filter s.due } := by
  have h {t : State} {p q} (h : t = { s with quiet := t.quiet, pending := t.pending }) (hp : t.quiet = p)
      (hq : t.pending = s.pending ++ q) : t = { s with quiet := p, pending := s.pending ++ q } := by
    rw [← hp, ← hq]; exact h
  cases hq : s.quiet with
  | none => rw [show s.tickQuiet = s by simp only [State.tickQuiet, hq]]; exact h rfl hq (by simp [State.due, hq])
  | some n =>
    have hd : s.due .quietIntervalEnd = decide (n ≤ 1) := by simp [State.due, hq]
    rw [hd]
    by_cases hb : n ≤ 1
    · rw [show s.tickQuiet = s.enqueue .quietIntervalEnd by simp only [State.tickQuiet, hq, hb, if_true]]
      exact h rfl (Eq.trans (b := s.quiet) rfl (by simp [hq, hb, countDown])) (by simp [State.enqueue, hd, hb])
    · rw [show s.tickQuiet = { s with quiet := some (n - 1) } by simp only [State.tickQuiet, hq, hb, if_false]]
      exact h rfl (by simp [hb, countDown]) (by simp [hd, hb])

theorem State.tickPoll_eq (s : State) :
    s.tickPoll s.linkPeriod = { s with
      pollTimer := s.pollTimer.map (countDown (s.due .pollTimerExpiry) s.linkPeriod),
      pending := s.pending ++ [.pollTimerExpiry].filter s.due } := by
  have h {t : State} {p q} (h : t = { s with pollTimer := t.pollTimer, pending := t.pending }) (hp : t.pollTimer = p)
      (hq : t.pending = s.pending ++ q) : t = { s with pollTimer := p, pending := s.pending ++ q } := by
    rw [← hp, ← hq]; exact h
  cases hq : s.pollTimer with
  | none =>
    rw [show s.tickPoll s.linkPeriod = s by simp only [State.tickPoll, hq]]
    exact h rfl hq (by simp [State.due, hq])
  | some n =>
    have hd : s.due .pollTimerExpiry = decide (0 < n ∧ n ≤ s.linkPeriod) := by simp [State.due, hq]
    rw [hd]
    by_cases h0 : n = 0
    · subst h0
      rw [show s.tickPoll s.linkPeriod = s by simp only [State.tickPoll, hq, if_true]]
      exact h rfl (by simp [hq, countDown]) (by simp [hd])
    · have h1 := Nat.pos_of_ne_zero h0
      by_cases hb : n ≤ s.linkPeriod
      · rw [show s.tickPoll s.linkPeriod = s.enqueue .pollTimerExpiry by
          simp only [State.tickPoll, hq, h0, hb, if_true, if_false]]
        exact h rfl (Eq.trans (b := s.pollTimer) rfl (by simp [hq, hb, h1, countDown])) (by simp [State.enqueue, hd, hb, h1])
      · rw [show s.tickPoll s.linkPeriod = { s with pollTimer := some (n - s.linkPeriod) } by
          simp only [State.tickPoll, hq, h0, hb, if_false]]
        exact h rfl (by simp [hb, countDown]) (by simp [hd, hb])

/-! ## The timers of stations, exchanges and rings

Each is a fold that moves one record at a time and may put one command in the queue. -/

/-- A fold over distinct indices, each step of which writes one record and may add one command: `env` says what no step
changes, `write` what becomes of a record, `brings` whether its command joins. -/
theorem fold_records {α β : Type} [DecidableEq α] (f : State → α → State) (env : State → Prop) (get : State → α → β)
    (write : α → β → β) (brings : α → β → Bool) (c : α → Instr)
    (step : ∀ s a, env s → env (f s a) ∧ (∀ b, get (f s a) b = if b = a then write a (get s a) else get s b) ∧
      (f s a).pending = s.pending ++ if brings a (get s a) then [c a] else []) :
    ∀ (l : List α), l.Nodup → ∀ s, env s →
      env (l.foldl f s) ∧ (∀ b, get (l.foldl f s) b = if b ∈ l then write b (get s b) else get s b) ∧
      (l.foldl f s).pending = s.pending ++ (l.filter (fun a => brings a (get s a))).map c := by
  intro l
  induction l with
  | nil => intro _ s hs; exact ⟨hs, fun b => by simp, by simp⟩
  | cons a l ih =>
    intro hl s hs
    obtain ⟨ha, hl⟩ := List.nodup_cons.1 hl
    obtain ⟨h1, h2, h3⟩ := step s a hs
    obtain ⟨i1, i2, i3⟩ := ih hl (f s a) h1
    rw [List.foldl_cons]
    refine ⟨i1, fun b => ?_, ?_⟩
    · rw [i2, h2]
      by_cases hb : b = a
      · subst hb; simp [ha]
      · simp [hb]
    · rw [i3, h3]
      have : l.filter (fun b => brings b (get (f s a) b)) = l.filter (fun b => brings b (get s b)) :=
        List.filter_congr fun b hb => by rw [h2, if_neg (by rintro rfl; exact ha hb)]
      rw [this, List.filter_cons]
      split <;> simp [*]

/-- The station records and the queue apart, `t` is `s`. -/
def SameButStations (s t : State) : Prop := t = { s with stations := t.stations, pending := t.pending }

/-- The exchange table and the queue apart, `t` is `s`. -/
def SameButTable (s t : State) : Prop := t = { s with table := t.table, pending := t.pending }

/-- The completion rings and the queue apart, `t` is `s`. -/
def SameButCRings (s t : State) : Prop := t = { s with crings := t.crings, pending := t.pending }

theorem SameButStations.trans {s t u : State} (a : SameButStations s t) (b : SameButStations t u) :
    SameButStations s u := by
  unfold SameButStations at *; rw [b, a]

theorem SameButTable.trans {s t u : State} (a : SameButTable s t) (b : SameButTable t u) : SameButTable s u := by
  unfold SameButTable at *; rw [b, a]

theorem SameButCRings.trans {s t u : State} (a : SameButCRings s t) (b : SameButCRings t u) : SameButCRings s u := by
  unfold SameButCRings at *; rw [b, a]

/-- R47: what a period of `ns` does to a station's debounce timer. -/
def Station.debounced (ns : Nat) (due : Bool) (r : Station) : Station :=
  { r with debounce := r.debounce.map (fun n => if 10000000 ≤ n then n else countUp due ns n) }

/-- R48, R54: what a period of `ns` does to a station's settle timer. -/
def Station.settled (ns : Nat) (quiet due : Bool) (r : Station) : Station :=
  { r with
    settle := if (r.state = .settling ∧ quiet = true) ∨ r.state = .resetting then r.settle.map (countDown due ns)
      else r.settle }

/-- R57: what a period of `ns` does to a station's saturation timer. -/
def Station.saturated (ns : Nat) (due : Bool) (r : Station) : Station :=
  { r with saturation := r.saturation.map (countUp due ns) }

/-- R118: what a period of `ns` does to an exchange's deferral timer. -/
def Exchange.deferred (ns : Nat) (due : Bool) (e : Exchange) : Exchange :=
  { e with deferral := e.deferral.map (countDown due ns) }

/-- R164: what a period of `ns` does to a ring's delay timer. -/
def CRing.delayed (ns : Nat) (due : Bool) (c : CRing) : CRing :=
  { c with delayTimer := c.delayTimer.map (countUp due ns) }

/-- A fold over the stations, each step of which leaves the state, or puts its command in the queue, or writes its record. -/
theorem stations_fold (f : State → StationId → State) (s0 : State) (write : StationId → Station → Station)
    (brings : StationId → Station → Bool) (c : StationId → Instr)
    (step : ∀ s a, SameButStations s0 s →
      (f s a = s ∧ write a (s.station a) = s.station a ∧ brings a (s.station a) = false) ∨
      (f s a = s.enqueue (c a) ∧ write a (s.station a) = s.station a ∧ brings a (s.station a) = true) ∨
      (f s a = s.modStation a (write a) ∧ brings a (s.station a) = false)) :
    let t := allStations.foldl f s0
    SameButStations s0 t ∧ (∀ u, t.station u = write u (s0.station u)) ∧
      t.pending = s0.pending ++ (allStations.filter (fun a => brings a (s0.station a))).map c := by
  have h := fold_records f (SameButStations s0) State.station write brings c (fun s a hs => by
      have keep (h : write a (s.station a) = s.station a) (b : StationId) :
          s.station b = if b = a then write a (s.station a) else s.station b := by
        split
        · subst_vars; exact h.symm
        · rfl
      rcases step s a hs with ⟨e, hw, hb⟩ | ⟨e, hw, hb⟩ | ⟨e, hb⟩ <;> rw [e, hb]
      · exact ⟨hs, keep hw, by simp⟩
      · exact ⟨hs.trans (t := s) rfl, keep hw, rfl⟩
      · refine ⟨hs.trans (t := s) rfl, fun b => ?_, by simp⟩
        rw [State.station_modStation]
        by_cases hb : b = a
        · subst hb; simp
        · rw [if_neg (fun h => hb h.symm), if_neg hb]) allStations (by decide) s0 rfl
  refine ⟨h.1, fun u => ?_, h.2.2⟩
  rw [h.2.1, if_pos (by revert u; decide)]

/-- The same over the exchange slots. -/
theorem tags_fold (f : State → Tag → State) (s0 : State) (write : Tag → Exchange → Exchange)
    (brings : Tag → Option Exchange → Bool) (c : Tag → Instr)
    (step : ∀ s a, SameButTable s0 s →
      (f s a = s ∧ (s.exch a).map (write a) = s.exch a ∧ brings a (s.exch a) = false) ∨
      (f s a = s.enqueue (c a) ∧ (s.exch a).map (write a) = s.exch a ∧ brings a (s.exch a) = true) ∨
      (f s a = s.modExch a (write a) ∧ brings a (s.exch a) = false)) :
    let t := allTags.foldl f s0
    SameButTable s0 t ∧ (∀ u, t.exch u = (s0.exch u).map (write u)) ∧
      t.pending = s0.pending ++ (allTags.filter (fun a => brings a (s0.exch a))).map c := by
  have h := fold_records f (SameButTable s0) State.exch (fun a o => o.map (write a)) brings c (fun s a hs => by
      have keep (h : (s.exch a).map (write a) = s.exch a) (b : Tag) :
          s.exch b = if b = a then (s.exch a).map (write a) else s.exch b := by
        split
        · subst_vars; exact h.symm
        · rfl
      rcases step s a hs with ⟨e, hw, hb⟩ | ⟨e, hw, hb⟩ | ⟨e, hb⟩ <;> rw [e, hb]
      · exact ⟨hs, keep hw, by simp⟩
      · exact ⟨hs.trans (t := s) rfl, keep hw, rfl⟩
      · refine ⟨hs.trans (t := s) (by unfold State.modExch; split <;> rfl), fun b => ?_,
          by unfold State.modExch; split <;> simp⟩
        rw [State.exch_modExch]
        by_cases hb : b = a
        · subst hb; simp
        · rw [if_neg (fun h => hb h.symm), if_neg hb]) allTags (by decide) s0 rfl
  refine ⟨h.1, fun u => ?_, h.2.2⟩
  rw [h.2.1, if_pos (by revert u; decide)]

/-- The same over the completion rings. -/
theorem crings_fold (f : State → RingId → State) (s0 : State) (write : RingId → CRing → CRing)
    (brings : RingId → Option CRing → Bool) (c : RingId → Instr)
    (step : ∀ s a, SameButCRings s0 s →
      (f s a = s ∧ (s.cring a).map (write a) = s.cring a ∧ brings a (s.cring a) = false) ∨
      (f s a = s.enqueue (c a) ∧ (s.cring a).map (write a) = s.cring a ∧ brings a (s.cring a) = true) ∨
      (∃ g, s.cring a = some g ∧ f s a = s.setCring a (write a g) ∧ brings a (s.cring a) = false)) :
    let t := allRings.foldl f s0
    SameButCRings s0 t ∧ (∀ u, t.cring u = (s0.cring u).map (write u)) ∧
      t.pending = s0.pending ++ (allRings.filter (fun a => brings a (s0.cring a))).map c := by
  have h := fold_records f (SameButCRings s0) State.cring (fun a o => o.map (write a)) brings c (fun s a hs => by
      have keep (h : (s.cring a).map (write a) = s.cring a) (b : RingId) :
          s.cring b = if b = a then (s.cring a).map (write a) else s.cring b := by
        split
        · subst_vars; exact h.symm
        · rfl
      rcases step s a hs with ⟨e, hw, hb⟩ | ⟨e, hw, hb⟩ | ⟨g, hg, e, hb⟩ <;> rw [e, hb]
      · exact ⟨hs, keep hw, by simp⟩
      · exact ⟨hs.trans (t := s) rfl, keep hw, rfl⟩
      · refine ⟨hs.trans (t := s) rfl, fun b => ?_, by simp⟩
        rw [State.cring_setCring]
        by_cases hb : b = a
        · subst hb; simp [hg]
        · rw [if_neg (fun h => hb h.symm), if_neg hb]) allRings (by decide) s0 rfl
  refine ⟨h.1, fun u => ?_, h.2.2⟩
  rw [h.2.1, if_pos (by revert u; decide)]

/-- A list of commands that are due, from the list of what they stand for. -/
theorem filter_map_due {α : Type} (l : List α) (p : α → Bool) (due : Instr → Bool) (c : α → Instr)
    (h : ∀ a, due (c a) = p a) : (l.filter p).map c = (l.map c).filter due := by
  rw [List.filter_map]; congr 2; funext a; exact (h a).symm

theorem Station.debounced_of {ns due} {r : Station}
    (h : r.debounce.map (fun n => if 10000000 ≤ n then n else countUp due ns n) = r.debounce) : r.debounced ns due = r := by
  unfold Station.debounced; rw [h]

/-- The debounce timers after a period. -/
theorem State.debounce_fold (s : State) :
    let t := allStations.foldl (State.tickDebounce s.linkPeriod) s
    SameButStations s t ∧
      (∀ u, t.station u = (s.station u).debounced s.linkPeriod (s.due (.presenceStable u))) ∧
      t.pending = s.pending ++ (allStations.map .presenceStable).filter s.due := by
  have h := stations_fold (State.tickDebounce s.linkPeriod) s
    (fun _ r => r.debounced s.linkPeriod (r.debounce.any (fun n => decide (n < 10000000 ∧ 10000000 ≤ n + s.linkPeriod))))
    (fun _ r => r.debounce.any (fun n => decide (n < 10000000 ∧ 10000000 ≤ n + s.linkPeriod))) .presenceStable
    (fun v a _ => by
      unfold State.tickDebounce
      rcases hd : (v.station a).debounce with _ | n <;> dsimp only
      · exact .inl ⟨rfl, Station.debounced_of (by simp [hd]), by simp⟩
      · by_cases h1 : 10000000 ≤ n
        · rw [if_pos (show debounceTime ≤ n from h1)]
          exact .inl ⟨rfl, Station.debounced_of (by simp [hd, h1]), by simp; omega⟩
        · rw [if_neg (show ¬ debounceTime ≤ n from h1)]
          by_cases h2 : 10000000 ≤ n + s.linkPeriod
          · rw [if_pos (show debounceTime ≤ n + s.linkPeriod from h2)]
            exact .inr (.inl ⟨rfl, Station.debounced_of (by simp [hd, h2, Nat.lt_of_not_le h1, countUp]),
              by simp [h2, Nat.lt_of_not_le h1]⟩)
          · rw [if_neg (show ¬ debounceTime ≤ n + s.linkPeriod from h2)]
            refine .inr (.inr ⟨?_, by simp [h2]⟩)
            unfold State.modStation Station.debounced
            simp [hd, h1, h2, countUp])
  refine ⟨h.1, h.2.1, h.2.2.trans ?_⟩
  rw [filter_map_due]
  intro a; rfl

/-- The settle timers after a period. -/
theorem State.settle_fold (s : State) (hl : s.live = true) :
    let t := allStations.foldl (State.tickSettle s.linkPeriod) s
    SameButStations s t ∧
      (∀ u, t.station u =
        (s.station u).settled s.linkPeriod s.linkReset.isNone (s.due (.settleTimerExpiry u))) ∧
      t.pending = s.pending ++ (allStations.map .settleTimerExpiry).filter s.due := by
  have h := stations_fold (State.tickSettle s.linkPeriod) s
    (fun _ r => r.settled s.linkPeriod s.linkReset.isNone (r.settle.any (fun n => decide (n ≤ s.linkPeriod)) &&
      ((r.state == .settling && s.linkReset.isNone) || r.state == .resetting)))
    (fun _ r => r.settle.any (fun n => decide (n ≤ s.linkPeriod)) &&
      ((r.state == .settling && s.linkReset.isNone) || r.state == .resetting)) .settleTimerExpiry
    (fun v a hv => by
      have hl' : v.live = true := by unfold SameButStations at hv; rw [hv]; exact hl
      have hr : v.linkReset = s.linkReset := by unfold SameButStations at hv; rw [hv]
      unfold State.tickSettle
      rcases hd : (v.station a).settle with _ | n <;> dsimp only
      · refine .inl ⟨rfl, ?_, by simp⟩
        unfold Station.settled; rw [hd]; simp only [Option.map_none, ite_self]; rw [← hd]
      · by_cases h1 : ((v.station a).state = .settling ∧ s.linkReset.isNone = true) ∨ (v.station a).state = .resetting
        · have hs : v.settleRuns a = true := by
            unfold State.settleRuns; rw [hl', hd, hr]; simpa using h1
          have hs' : (((v.station a).state == .settling && s.linkReset.isNone) || (v.station a).state == .resetting) = true := by
            simpa using h1
          rw [if_pos hs, hs']
          by_cases h2 : n ≤ s.linkPeriod
          · rw [if_pos h2]
            refine .inr (.inl ⟨rfl, ?_, by simp [h2]⟩)
            unfold Station.settled; rw [if_pos h1, hd]; simp only [Option.map_some, Option.any_some, h2, decide_true,
              countDown, Bool.and_self, if_true]; rw [← hd]
          · rw [if_neg h2]
            refine .inr (.inr ⟨?_, by simp [h2]⟩)
            unfold State.modStation Station.settled
            dsimp only; rw [if_pos h1]; simp [hd, h2, countDown]
        · have hs : v.settleRuns a = false := by
            unfold State.settleRuns; rw [hl', hd, hr, Bool.eq_false_iff]; simpa using h1
          have hs' : (((v.station a).state == .settling && s.linkReset.isNone) || (v.station a).state == .resetting) = false := by
            rw [Bool.eq_false_iff]; simpa using h1
          rw [hs, hs']
          refine .inl ⟨rfl, ?_, by simp⟩
          unfold Station.settled; rw [if_neg h1])
  refine ⟨h.1, h.2.1, h.2.2.trans ?_⟩
  rw [filter_map_due]
  intro a; rfl

/-- The saturation timers after a period. -/
theorem State.saturation_fold (s : State) :
    let t := allStations.foldl (State.tickSaturation s.linkPeriod) s
    SameButStations s t ∧
      (∀ u, t.station u = (s.station u).saturated s.linkPeriod (s.due (.saturationTimerExpiry u))) ∧
      t.pending = s.pending ++ (allStations.map .saturationTimerExpiry).filter s.due := by
  have h := stations_fold (State.tickSaturation s.linkPeriod) s
    (fun _ r => r.saturated s.linkPeriod (r.saturation.any (fun n => decide (1000000 ≤ n + s.linkPeriod))))
    (fun _ r => r.saturation.any (fun n => decide (1000000 ≤ n + s.linkPeriod))) .saturationTimerExpiry
    (fun v a _ => by
      unfold State.tickSaturation
      rcases hd : (v.station a).saturation with _ | n <;> dsimp only
      · refine .inl ⟨rfl, ?_, by simp⟩
        unfold Station.saturated; rw [hd, Option.map_none, ← hd]
      · by_cases h1 : 1000000 ≤ n + s.linkPeriod
        · rw [if_pos (show saturationTime ≤ n + s.linkPeriod from h1)]
          refine .inr (.inl ⟨rfl, ?_, by simp [h1]⟩)
          unfold Station.saturated; rw [hd]; simp only [Option.map_some, Option.any_some, h1, decide_true, countUp,
            if_true]; rw [← hd]
        · rw [if_neg (show ¬ saturationTime ≤ n + s.linkPeriod from h1)]
          refine .inr (.inr ⟨?_, by simp [h1]⟩)
          unfold State.modStation Station.saturated; simp [hd, h1, countUp])
  refine ⟨h.1, h.2.1, h.2.2.trans ?_⟩
  rw [filter_map_due]
  intro a; rfl

/-- The deferral timers after a period. -/
theorem State.deferral_fold (s : State) :
    let t := allTags.foldl (State.tickDeferral s.linkPeriod) s
    SameButTable s t ∧
      (∀ x, t.exch x = (s.exch x).map (Exchange.deferred s.linkPeriod (s.due (.deferralTimerExpiry x)))) ∧
      t.pending = s.pending ++ (allTags.map .deferralTimerExpiry).filter s.due := by
  have h := tags_fold (State.tickDeferral s.linkPeriod) s
    (fun _ e => e.deferred s.linkPeriod (e.deferral.any (fun n => decide (n ≤ s.linkPeriod))))
    (fun _ o => (o.bind (·.deferral)).any (fun n => decide (n ≤ s.linkPeriod))) .deferralTimerExpiry
    (fun v a _ => by
      unfold State.tickDeferral
      rcases he : v.exch a with _ | e
      · exact .inl ⟨rfl, rfl, rfl⟩
      · rcases hd : e.deferral with _ | n
        · simp only [Option.bind_some, hd]
          refine .inl ⟨trivial, ?_, rfl⟩
          simp only [Option.map_some, Exchange.deferred]; rw [hd, Option.map_none, ← hd]
        · simp only [Option.bind_some, hd]
          by_cases h1 : n ≤ s.linkPeriod
          · rw [if_pos h1]
            refine .inr (.inl ⟨rfl, ?_, by simp [h1]⟩)
            simp only [Option.map_some, Exchange.deferred, hd, Option.any_some, h1, decide_true, countDown, if_true]
            rw [← hd]
          · rw [if_neg h1]
            refine .inr (.inr ⟨?_, by simp [h1]⟩)
            rw [State.modExch_of_some _ he, State.modExch_of_some _ he]
            simp [Exchange.deferred, hd, h1, countDown])
  refine ⟨h.1, fun x => (h.2.1 x).trans ?_, h.2.2.trans ?_⟩
  · rcases he : s.exch x with _ | e
    · rfl
    · simp [State.due, he]
  · rw [filter_map_due]
    intro a; rfl

/-- The delay timers after a period. -/
theorem State.delay_fold (s : State) :
    let t := allRings.foldl (State.tickDelay s.linkPeriod) s
    SameButCRings s t ∧
      (∀ r, t.cring r = (s.cring r).map (CRing.delayed s.linkPeriod (s.due (.moderationDelayExpiry r)))) ∧
      t.pending = s.pending ++ (allRings.map .moderationDelayExpiry).filter s.due := by
  have h := crings_fold (State.tickDelay s.linkPeriod) s
    (fun _ c => c.delayed s.linkPeriod (c.delayTimer.any (fun n => decide (c.delay * 1000 ≤ n + s.linkPeriod))))
    (fun _ o => o.any (fun c => c.delayTimer.any (fun n => decide (c.delay * 1000 ≤ n + s.linkPeriod))))
    .moderationDelayExpiry
    (fun v a _ => by
      unfold State.tickDelay
      rcases he : v.cring a with _ | c
      · exact .inl ⟨rfl, rfl, rfl⟩
      · rcases hd : c.delayTimer with _ | n
        · simp only [hd]
          refine .inl ⟨trivial, ?_, by simp [hd]⟩
          simp only [Option.map_some, CRing.delayed]; rw [hd, Option.map_none, ← hd]
        · simp only [hd]
          by_cases h1 : c.delay * 1000 ≤ n + s.linkPeriod
          · rw [if_pos (show c.delay * nsPerUs ≤ n + s.linkPeriod from h1)]
            refine .inr (.inl ⟨rfl, ?_, by simp [hd, h1]⟩)
            simp only [Option.map_some, CRing.delayed, hd, Option.any_some, h1, decide_true, countUp, if_true]
            rw [← hd]
          · rw [if_neg (show ¬ c.delay * nsPerUs ≤ n + s.linkPeriod from h1)]
            refine .inr (.inr ⟨c, rfl, ?_, by simp [hd, h1]⟩)
            simp [CRing.delayed, hd, h1, countUp])
  refine ⟨h.1, fun x => (h.2.1 x).trans ?_, h.2.2.trans ?_⟩
  · rcases he : s.cring x with _ | e
    · rfl
    · simp [State.due, he]
  · rw [filter_map_due]
    intro a; rfl

end Sys2Proof.Machine
end

