-- ==== Sys2Proof/Tests/Slice0.lean ====
section
/-! SUPPORT. Tests: the ill-formed terms, and for every statement with hypotheses states and operands that meet them. -/

open Sys2Proof Sys2Proof.Machine

namespace Sys2Proof.Tests

/- One theorem after the other: their many small decisions, taken together, would need a thread each. -/
set_option Elab.async false

/-! ## Small states -/

/-- A valid configuration block (R181): submission ring 0 of 16 entries with weight 2 to completion ring 0, completion
ring 0 of 16 entries with threshold 2 and delay 5, event ring 0, lane limit 4, reply window 16, data timeout and hold limit
256, deferral limit 1, retry limit 1, poll interval 10. -/
def conf : BitVec 2048 :=
  BitVec.ofNat 2048
    (0x1000 + (4 <<< 64) + (2 <<< 72) + (0x2000 <<< 512) + (4 <<< 576) + (2 <<< 584) + (5 <<< 592)
      + (4 <<< 1040) + (16 <<< 1048) + (256 <<< 1056) + (256 <<< 1088) + (1 <<< 1120) + (1 <<< 1136) + (10 <<< 1152))

/-- An acceptable profile: class 1, four lanes, depth 2, exponent 9, unprotected. -/
def prof : BitVec 128 := 0x01420900000003E80000000000000001

def ring0 : RingConfig := { base := 0x1000, size := 16, weight := 2, cring := 0 }

def cring0 : CRing :=
  { base := 0x2000, size := 16, tail := 0, head := 0, unreleased := 0, phase := true, threshold := 2, delay := 5,
    modCount := 0, delayTimer := none, writing := none }

def ready : Station := { Station.reset with state := .ready, level := some true, debounce := some 0,
                                            profile := some prof, settings := some (1, 6) }

/-- RUNNING, CL idle, station slot 1 READY, rings 0 in use. -/
def run : State :=
  { State.reset with
    device := { Device.reset with state := .running, result := .ok, config := some conf, lck := some 0 },
    stations := State.reset.stations.set 0 ready,
    subRings := State.reset.subRings.set 0 { SubRing.reset with state := .active, cfg := some ring0 },
    crings := State.reset.crings.set 0 (some cring0),
    arbCredit := 2, cl := .idle }

/-- A descriptor of 4096 bytes at 0x8000, LAST. -/
def desc : Descriptor := { addr := 0x8000, len := 4096, last := true, chain := false }

def seg (list : Bool) : SegSource := { list := list, d0 := desc, d1 := desc }

/-- An exchange of ring 0 at station slot 1, two blocks of 64 bytes. -/
def ex (k : ExKind) (st : ExState) : Exchange :=
  { state := st, kind := k, ring := 0, wrIndex := 0, requestId := 7, station := 0, argument := 5, count := 2, lanes := 2,
    blockExp := 7, seg := some (seg false), cursor := some { index := 0, offset := 0 }, blockSize := some 64,
    blocksDone := some 0, linkFinished := some false, bytesMoved := some 0, retriesUsed := none, deferral := none,
    cancelMark := false, final := none }

/-- The state with an exchange under tag 3. -/
def State.put (s : State) (e : Exchange) : State := s.setExch 3 (some e)

/-- A request whose frame has gone out. -/
def req (k : RequestKind) (o : Owner) : Request :=
  { Request.new k 1 3 0 0 o with phase := .awaiting }

/-- The state in which that request awaits its reply. -/
def State.asks (s : State) (r : Request) : State := { s with current := some r, cl := .window 0 }

/-- A reply frame of station 1 and tag 3 with no notices (R177). -/
def reply (code : BitVec 4) (reason : Byte) (value : Word) : BitVec 80 :=
  let body : BitVec 64 := 1#8 ++ code ++ 3#4 ++ value ++ reason ++ 0#8
  body ++ crc16 (beBytes 8 8 body)

def rep (o : ReplyOutcome) (value : Word) : Reply :=
  { alertPending := false, station := 1, outcome := o, tag := 3, value := value, notices := 0 }

/-- A payload of tag 3 at station slot 1. -/
def pay (ph : Phase) : Payload :=
  { Payload.taken 3 (ex .readBlocks .transfer) 1 false with phase := ph, gapDue := false }

/-- The state in which tag 3 owns the lanes. -/
def State.owned (s : State) (e : Exchange) (p : Payload) : State := { State.put s e with payload := some p }

/-- The payload job of tag 3, its list at the start of its descriptor. -/
def job (d : Direction) : Job :=
  { tag := 3, dir := d, blockSize := 64, count := 2, nextBlock := 0, inHand := none,
    walk := { pos := .inline 1, ended := true, cur := some { desc := desc, index := 0, offset := 0 }, walked := 1,
              look := .empty, needed := false } }

def acc (p : Purpose) : Access := { id := 9, purpose := p, addr := 0, len := 64, data := [] }

/-- The state with one host access outstanding. -/
def State.has (s : State) (p : Purpose) : State := { s with accesses := [acc p], nextAccess := 10 }

/-- A work request of 64 bytes (R179). -/
def wr (kind flags station count lanes exp target : Nat) : BitVec 512 :=
  BitVec.ofNat 512
    (kind + (flags <<< 8) + (7 <<< 16) + (station <<< 32) + (count <<< 48) + (lanes <<< 96) + (exp <<< 104)
      + (target <<< 112) + (7 <<< 128) + (0x8000 <<< 256) + (128 <<< 320) + (1 <<< 352))

/-- The state in which ring 0 holds a work request. -/
def State.holds (s : State) (w : BitVec 512) : State :=
  s.modSubRing 0 (fun x => { x with holding := .waiting w 0, outstanding := 1 })

/-! ## Ill-formed terms, and their neighbours at the boundary -/

theorem test_undefinedCommand_refused :
    ¬ Instr.WellFormed (.undefinedCommand 1) ∧ ¬ Instr.WellFormed (.undefinedCommand 4) := by decide

theorem test_undefinedCommand_accepted :
    Instr.WellFormed (.undefinedCommand 0) ∧ Instr.WellFormed (.undefinedCommand 5) := by decide

theorem test_registerWrite_refused :
    ¬ Instr.WellFormed (.registerWrite 0x08 0 0) ∧ ¬ Instr.WellFormed (.registerWrite 0x08 5 0) ∧
    ¬ Instr.WellFormed (.registerWrite 0x15 4 0) ∧ ¬ Instr.WellFormed (.registerWrite 0x18 1 0) := by decide

theorem test_registerWrite_accepted :
    Instr.WellFormed (.registerWrite 0x08 1 0) ∧ Instr.WellFormed (.registerWrite 0x14 4 0) ∧
    Instr.WellFormed (.registerWrite 0x17 1 0) := by decide

theorem test_readBlockReceived_refused :
    ¬ Instr.WellFormed (.readBlockReceived [[], [], [], [], []] 0) ∧
    ¬ Instr.WellFormed (.readBlockReceived [List.replicate 2049 0] 0) := by decide +kernel

theorem test_readBlockReceived_accepted :
    Instr.WellFormed (.readBlockReceived [[], [], [], []] 0) ∧
    Instr.WellFormed (.readBlockReceived [List.replicate 2048 0] 0) := by decide +kernel

theorem test_dataReadComplete_refused :
    ¬ Instr.WellFormed (.dataReadComplete 0 []) ∧ ¬ Instr.WellFormed (.dataReadComplete 0 (List.replicate 257 0)) := by
  decide +kernel

theorem test_dataReadComplete_accepted :
    Instr.WellFormed (.dataReadComplete 0 [0]) ∧ Instr.WellFormed (.dataReadComplete 0 (List.replicate 256 0)) := by
  decide +kernel

theorem test_decodeTableWord_none : decodeTableWord 8 0 = none ∧ run.withFetchWord 8 0 = run := ⟨rfl, rfl⟩

/-! ## The step and the laws -/

theorem test_StepRunsFrontCommand_met :
    ({ run with pending := [.enable, .post 0] } : State).pending = .enable :: [.post 0] := rfl

theorem test_EmptyQueueIsOneLinkPeriod_met :
    run.pending = [] ∧ run.live = true ∧ State.reset.pending = [] ∧ State.reset.live = false ∧
    /- a guard gap one period short of its end, and one before that -/
    timedCommands.filter ({ run with cl := .guardGap 3 } : State).due = [.guardGapEnd] ∧
    timedCommands.filter ({ run with cl := .guardGap 2 } : State).due = [] ∧
    timedCommands.filter ({ run with cl := .low, laneLow := 4096 } : State).due = [.laneStuck] := by decide +kernel

theorem test_StepKeeps_met :
    run.ClockOk ∧ run.CRingsOk ∧ run.IndicesOk ∧ run.CountsOk ∧ run.RoomOk ∧ run.StagingOk ∧
      ∃ t, step run = .next t := by
  refine ⟨⟨by decide, by decide⟩, ?_, ?_, ⟨by decide +kernel, by decide⟩, by unfold State.RoomOk; decide, ?_, ⟨_, rfl⟩⟩
  · intro r c h
    have : ∀ r, run.cring r = none ∨ run.cring r = some cring0 := by decide +kernel
    rcases this r with h' | h' <;> rw [h'] at h <;> cases h
    exact ⟨by decide, by decide, by decide, by decide, by decide⟩
  · intro r c h
    have : ∀ r, (run.subRing r).cfg = none ∨ (run.subRing r).cfg = some ring0 ∧ (run.subRing r).fetchIdx = 0
        ∧ (run.subRing r).postIdx = 0 := by decide +kernel
    rcases this r with h' | ⟨h', h1, h2⟩ <;> rw [h'] at h <;> cases h
    rw [h1, h2]; decide
  · intro _; exact ⟨rfl, by decide +kernel⟩

theorem test_DeviceStateMovesOnlyAsListed_met :
    (∃ t, exec .enable State.reset = .next t ∧ t.device.state = .loading) ∧
    (∃ t, exec .disable run = .next t ∧ t.device.state = .draining) := ⟨⟨_, rfl, rfl⟩, ⟨_, rfl, rfl⟩⟩

/-! ## Device control -/

/-- LOADING with three of the four parts of a block read, the last outstanding. -/
def loading (c : BitVec 2048) : State :=
  State.has
    { State.reset with
      device := { Device.reset with state := .loading,
                                    load := #v[some (c.extractLsb' 0 512), some (c.extractLsb' 512 512),
                                      some (c.extractLsb' 1024 512), none] } }
    (.configRead 3)

/-- The device with the last part put in. -/
def loaded (c : BitVec 2048) : Device :=
  { (loading c).device with load := (loading c).device.load.set 3 (some (c.extractLsb' 1536 512)) }

theorem test_ResetsClearThePart_met :
    (Instr.powerOn = .powerOn ∨ Instr.powerOn = .hostLinkResetInput) ∧
    (Instr.functionReset = .functionReset ∨ Instr.functionReset = .endpointFunctionReset) := by decide

theorem test_EnableReadsTheConfigurationBlock_met :
    State.reset.device.state = .off ∧ State.reset.device.configBase.toNat % 256 = 0 ∧
    ({ State.reset with device := { Device.reset with configBase := 255 } } : State).device.configBase.toNat % 256 ≠ 0 := by
  decide

theorem test_RefusedCommandsOnlySetTheResult_met :
    run.device.state ≠ .off ∧ State.reset.device.state = .off ∧ (loading 0).device.state = .loading ∧
    ¬ namesCommand 0 ∧ ¬ namesCommand 5 := by decide

theorem test_DisableEndsALoadOrStartsADrain_met :
    (loading 0).device.state = .loading ∧ run.device.state = .running := by decide

theorem test_RegisterWritesReachTheirWords_met :
    3 < 4 ∧ 1 % 4 ≠ 0 ∧ 24 ≤ 24 ∧ run.device.state ≠ .off ∧ State.reset.device.state = .off ∧ ¬ namesCommand 5 ∧
    0 + 4 ≤ 4 ∧ 3 + 1 ≤ 4 := by decide

/-- The byte of the status word that holds the ring faults and, above them, the two refusals (R181). -/
theorem test_status_byte_read :
    let d : Device := { Device.reset with state := .stopped, cause := .completionWriteFault,
                                          ringFault := #v[true, false, false, true], postIgnored := true }
    ({ State.reset with device := d } : State).readWindow 0x0C 4 = [0x04, 0x91, 0x02, 0x00] ∧
    ({ State.reset with device := d } : State).readWindow 0x0D 1 = [0x91] := by decide +kernel

theorem test_ConfigurationReadsAreCollectedAndJudged_met :
    (loading 0).device.state = .loading ∧ (loading 0).access 9 = some (acc (.configRead 3)) ∧
    (loaded 0).loadedBlock = some 0 ∧ Cfg.valid 0 = false ∧
    ({ Device.reset with load := Device.reset.load.set 3 (some 0) } : Device).loadedBlock = none := by decide +kernel

/-- The valid block with `v` in the `n` bytes from byte `k` on. -/
def confWith (k n v : Nat) : BitVec 2048 :=
  (conf &&& ~~~ BitVec.ofNat 2048 ((2 ^ (8 * n) - 1) <<< (8 * k))) ||| BitVec.ofNat 2048 (v <<< (8 * k))

/-- The last value that is accepted, and the first that is not, at the ends of the ranges of R171. -/
theorem test_ConfigurationReadsAreCollectedAndJudged_bounds :
    [(8, 1, 4), (8, 1, 10), (0, 8, 64), (9, 1, 1), (9, 1, 8), (72, 1, 4), (72, 1, 12), (64, 8, 16), (73, 1, 1),
      (73, 1, 64), (74, 2, 1023), (129, 1, 3), (130, 1, 1), (130, 1, 2), (131, 1, 16), (131, 1, 255), (132, 4, 256),
      (132, 4, 16777215), (136, 4, 256), (136, 4, 16777215), (140, 2, 1), (140, 2, 65535), (142, 1, 3),
      (144, 2, 65535)].all (fun y => Cfg.valid (confWith y.1 y.2.1 y.2.2)) = true ∧
    [(8, 1, 3), (8, 1, 11), (8, 1, 0), (0, 8, 32), (9, 1, 0), (9, 1, 9), (10, 1, 1), (10, 1, 4), (72, 1, 3), (72, 1, 13),
      (72, 1, 0), (64, 8, 8), (73, 1, 0), (73, 1, 65), (74, 2, 1024), (128, 1, 1), (128, 1, 4), (129, 1, 4), (130, 1, 0),
      (130, 1, 3), (131, 1, 15), (132, 4, 255), (132, 4, 16777216), (136, 4, 255), (136, 4, 16777216), (140, 2, 0),
      (142, 1, 4)].any (fun y => Cfg.valid (confWith y.1 y.2.1 y.2.2)) = false ∧
    /- a block whose four parts are in the device -/
    (∀ part : Fin 4, (loaded conf).load[part] = some (conf.extractLsb' (512 * part.val) 512)) := by decide +kernel

theorem test_ValidBlockStartsRunning_met :
    (loading conf).device.state = .loading ∧ (loading conf).access 9 = some (acc (.configRead 3)) ∧
    (loading conf).linkReset = none ∧ (loaded conf).loadedBlock = some conf ∧ Cfg.valid conf = true := by decide +kernel

theorem test_DrainEndsInOff_met :
    let s : State := { run with device := { run.device with state := .draining } }
    s.device.state = .draining ∧ (∀ t, s.exch t = none) ∧ (∀ r, (s.subRing r).holding = .empty) ∧ s.eventQueue = [] ∧
      (∀ st, (s.station st).latch = none) ∧ (∀ r : RingId, s.ringLatch[r] = none) ∧ s.linkLatch = none ∧
      s.reservation = false := by decide +kernel

/-! ## Rings, admission, cancellation -/

theorem test_PostTakenByRingAndDeviceState_met :
    ((0x10000#32).extractLsb' 16 2).toNat = (1 : RingId).val ∧ State.reset.live = false ∧ (run.subRing 1).state = .unused ∧
    ((15#32).extractLsb' 16 2).toNat = (0 : RingId).val ∧ run.live = true ∧ (run.subRing 0).state = .active ∧
    (run.subRing 0).cfg = some ring0 ∧ ((15#32).extractLsb' 0 16).toNat < ring0.size ∧
    ring0.size ≤ ((16#32).extractLsb' 0 16).toNat := by decide +kernel

/-- Completion ring 0 with two unreleased records round its end. -/
def held2 : CRing := { cring0 with head := 15, tail := 1, unreleased := 2 }

theorem test_ReleaseHandsBackEntries_met :
    let s := run.setCring 0 held2
    s.live = true ∧ s.cring 0 = some held2 ∧ s.cring 1 = none ∧ State.reset.live = false ∧
    /- 1 is the last head taken, 2 and 16 are refused, 15 hands back none. -/
    (let d (head : Nat) : Nat := if held2.head ≤ head then head - held2.head else head + held2.size - held2.head
     d 1 = 2 ∧ d 1 ≤ held2.unreleased ∧ held2.unreleased < d 2 ∧ held2.size ≤ 16 ∧ d 15 = 0) ∧
    (∃ t, exec .powerOn s = .next t) := by
  refine ⟨by decide, by decide +kernel, by decide +kernel, by decide, by decide, ⟨_, rfl⟩⟩

theorem test_FetchReadsTheNextEntry_met :
    let s := run.modSubRing 0 (fun x => { x with postIdx := 1 })
    s.device.state = .running ∧ (s.subRing 0).state = .active ∧ (s.subRing 0).cfg = some ring0 ∧
    (s.subRing 0).holding = .empty ∧ (s.subRing 0).postIdx ≠ (s.subRing 0).fetchIdx := by decide +kernel

theorem test_FetchEndsInAHeldRequestOrARingFault_met :
    let s := State.has (run.modSubRing 0 (fun x => { x with holding := .fetching 15, fetchIdx := 15 })) (.fetch 0)
    s.live = true ∧ s.access 9 = some (acc (.fetch 0)) ∧ (s.subRing 0).holding = .fetching 15 ∧
    (s.subRing 0).cfg = some ring0 ∧ (s.subRing 0).state ≠ .faulted ∧
    ((s.modSubRing 0 (fun x => { x with state := .faulted })).subRing 0).state = .faulted := by decide +kernel

theorem test_AdmissionChecksInThreeSteps_met :
    Wr.kindByte (wr 0 0 1 1 0 0 0) = 0 ∧ 9 < Wr.kindByte (wr 10 0 1 1 0 0 0) ∧ Wr.kindByte (wr 9 0 0 0 0 0 0) = 9 ∧
    4 ≤ Wr.targetRing (wr 8 0 0 0 0 0 4) ∧ Wr.targetRing (wr 8 0 0 0 0 0 3) = (3 : RingId).val ∧
    Wr.kind (wr 1 0 9 2 0 0 0) = some (.link .readBlocks) ∧ Wr.stationByte (wr 1 0 0 2 0 0 0) = 0 ∧
    8 < Wr.stationByte (wr 1 0 9 2 0 0 0) ∧ Wr.stationByte (wr 1 0 8 2 0 0 0) = (7 : StationId).val + 1 ∧
    /- count 0 and 4097 fail the first step, station slot 8 is EMPTY, three blocks do not match the inline total -/
    run.judge (wr 1 0 1 0 0 0 0) = .immediate .malformed ∧ run.judge (wr 1 0 1 4097 0 0 0) = .immediate .malformed ∧
    run.judge (wr 1 0 8 2 0 0 0) = .immediate .stationAbsent ∧ run.judge (wr 1 0 1 3 0 0 0) = .immediate .malformed ∧
    run.judge (wr 1 0 1 2 0 0 0) = .exchange .readBlocks 0 ∧ run.judge (wr 1 2 1 4096 0 0 0) = .exchange .readBlocks 0 ∧
    run.judge (wr 5 0 1 0 4 9 0) = .exchange .configureStation 0 ∧
    run.judge (wr 5 0 1 0 4 10 0) = .immediate .malformed := by decide +kernel

theorem test_AdmissionPlacesAnExchange_met :
    let s := State.holds run (wr 1 1 1 2 0 0 0)
    s.live = true ∧ (s.subRing s.arbPtr).holding = .waiting (wr 1 1 1 2 0 0 0) 0 ∧
    (wr 1 1 1 2 0 0 0).getLsbD 8 = true ∧ (s.subRing s.arbPtr).outstanding = 1 ∧
    s.judge (wr 1 1 1 2 0 0 0) = .exchange .readBlocks 0 ∧ s.exch 0 = none ∧ (∀ u, u < 0 → s.exch u ≠ none) ∧
    2 ≤ s.arbCredit ∧ ({ s with arbCredit := 1 } : State).arbCredit = 1 ∧
    (ringsAfter s.arbPtr).find? s.usedRing = some 0 ∧ (s.subRing 0).cfg = some ring0 := by decide +kernel

theorem test_AdmissionCompletesAtOnce_met :
    let s := State.holds run (wr 9 0 0 0 0 0 0)
    s.live = true ∧ (s.subRing s.arbPtr).holding = .waiting (wr 9 0 0 0 0 0 0) 0 ∧
    (s.subRing s.arbPtr).cfg = some ring0 ∧ (wr 9 0 0 0 0 0 0).getLsbD 8 = false ∧
    s.judge (wr 9 0 0 0 0 0 0) = .immediate .success ∧
    2 ≤ s.arbCredit ∧ ({ s with arbCredit := 1 } : State).arbCredit = 1 ∧
    (ringsAfter s.arbPtr).find? s.usedRing = some 0 ∧ (s.subRing 0).cfg = some ring0 := by decide +kernel

theorem test_CancelTreatsWhatItFinds_met :
    let w := wr 8 0 0 0 0 0 0
    let s (st : ExState) := State.holds (State.put run (ex .readBlocks st)) w
    let found (s : State) := allTags.filter (fun x => s.fateOf (cancelFate 0 7) x != .stays)
    let ended := { ex .readBlocks .halting with final := some (.dataTimeout, 0) }
    (s .queued).live = true ∧ ((s .queued).subRing 0).holding = .waiting w 0 ∧ ((s .queued).subRing 0).cfg = some ring0 ∧
    w.getLsbD 8 = false ∧ (s .queued).judge w = .cancel 0 7 ∧ (s .queued).exch 3 = some (ex .readBlocks .queued) ∧
    (s .issuing).exch 3 = some (ex .readBlocks .issuing) ∧ (s .deferred).exch 3 = some (ex .readBlocks .deferred) ∧
    (s .transfer).exch 3 = some (ex .readBlocks .transfer) ∧
    (ex .readBlocks .transfer).ring = 0 ∧ (ex .readBlocks .transfer).requestId = 7 ∧
    (ex .readBlocks .transfer).final = none ∧ (ex .readBlocks .transfer).readFinished = false ∧
    ({ ex .readBlocks .transfer with linkFinished := some true } : Exchange).readFinished = true ∧
    (s .queued).exch 4 = none ∧ ended.final ≠ none ∧
    /- found, only matched, and neither -/
    found (s .queued) = [3] ∧ found (s .halting) = [] ∧
    (cancelFate 0 7 3 (ex .readBlocks .queued), cancelFate 0 7 3 (ex .readBlocks .resuming),
      cancelFate 0 7 3 (ex .readBlocks .reconnecting), cancelFate 0 7 3 (ex .readBlocks .transfer))
      = (.ends, .marked, .withdraws, .halts) ∧
    found (State.holds run w) = [] ∧
    2 ≤ (s .queued).arbCredit ∧ ({ s .queued with arbCredit := 1 } : State).arbCredit = 1 ∧
    (ringsAfter (s .queued).arbPtr).find? (s .queued).usedRing = some 0 := by decide +kernel

theorem test_ArbiterMovesInRingOrder_met :
    run.admissible run.arbPtr = false ∧ (∀ r, (run.usedRing r && run.admissible r) = false) ∧
    (let s := run.modSubRing 0 (fun x => { x with holding := .fetching 0 })
     s.admissible s.arbPtr = false ∧ (s.subRing s.arbPtr).holding.isFetching = true) ∧
    (let s := { State.holds run (wr 9 0 0 0 0 0 0) with arbPtr := 1 }
     s.admissible s.arbPtr = false ∧ (s.subRing s.arbPtr).holding.isFetching = false ∧
     (ringsAfter s.arbPtr).find? (fun u => s.usedRing u && s.admissible u) = some 0 ∧ (s.subRing 0).cfg = some ring0) := by
  decide +kernel

/-! ## Choosing and sending -/

/-- Every exchange of a state is `e`. -/
def Only (s : State) (e : Exchange) : Prop := ∀ x, s.exch x = none ∨ s.exch x = some e

theorem Only.eq {s : State} {e : Exchange} (h : Only s e) {x : Tag} {f : Exchange} (hf : s.exch x = some f) : f = e := by
  rcases h x with h | h <;> rw [h] at hf <;> cases hf
  rfl

theorem Only.noHalt {s : State} {e : Exchange} (h : Only s e) (he : e.state ≠ .halting) (x : Tag) : ¬ s.HaltDue x := by
  rintro ⟨f, hf, h', _⟩; rw [h.eq hf] at h'; exact he h'

theorem Only.noWithdraw {s : State} {e : Exchange} (h : Only s e) (he : e.state ≠ .withdrawing) (x : Tag) :
    ¬ s.WithdrawDue x := by
  rintro ⟨f, hf, h', _⟩; rw [h.eq hf] at h'; exact he h'

theorem Only.noReset {s : State} {e : Exchange} (h : Only s e) (he : e.kind ≠ .resetStation) (st : StationId) :
    ¬ s.ResetDue st := by
  rintro ⟨x, f, hf, h', _⟩; rw [h.eq hf.2] at h'; exact he h'

theorem Only.noResume {s : State} {e : Exchange} (_ : Only s e) (he : s.reconnect = []) (x : Tag) (f : Exchange) :
    ¬ s.ResumeDue x f := by
  rintro ⟨h', _⟩; rw [he] at h'; cases h'

theorem noWrite {s : State} (h : s.payload = none) : ¬ s.WriteRuns := by
  rintro ⟨p, hp, _⟩; rw [h] at hp; cases hp

/-- A choice that reaches priority 3, with one exchange at most. -/
theorem Only.pastWithdraw {s : State} {e : Exchange} (h : Only s e) (c : s.Chooses) (h1 : e.state ≠ .halting)
    (h2 : e.state ≠ .withdrawing) (h3 : s.payload = none) (h4 : s.stray = []) : s.PastWithdraw :=
  { c with halt := h.noHalt h1, write := noWrite h3, withdraw := h.noWithdraw h2, stray := h4 }

theorem Only.pastPoll {s : State} {e : Exchange} (h : Only s e) (c : s.PastWithdraw) (h1 : e.kind ≠ .resetStation)
    (h2 : ∀ st, (s.station st).state ≠ .identifying) (h3 : s.attention = false) (h4 : s.pollDue = false) : s.PastPoll :=
  { c with reset := h.noReset h1, identify := h2, attention := h3, poll := h4 }

theorem run_only : Only run (ex .query .queued) := by unfold Only; decide +kernel

theorem run_chooses : run.Chooses := ⟨rfl, rfl, .inl rfl, rfl, rfl⟩

theorem test_HaltIsChosenFirst_met :
    let s := State.put run (ex .readBlocks .halting)
    let w := State.owned run (ex .writeBlocks .transfer) { pay .hold with dir := .write }
    s.Chooses ∧ Lowest s.HaltDue 3 ∧ s.exch 3 = some (ex .readBlocks .halting) ∧
    w.Chooses ∧ w.WriteRuns ∧ (∀ x, ¬ w.HaltDue x) := by
  intro s w
  have hw : Only w (ex .writeBlocks .transfer) := by unfold Only; decide +kernel
  refine ⟨⟨rfl, rfl, .inl rfl, rfl, rfl⟩, ⟨⟨ex .readBlocks .halting, by decide +kernel, rfl, rfl, by decide +kernel, ?_⟩, ?_⟩,
    by decide +kernel, ⟨rfl, rfl, .inl rfl, rfl, rfl⟩, ⟨_, rfl, rfl⟩, hw.noHalt (by decide)⟩
  · rintro ⟨p, hp, _⟩; cases hp
  · rintro x hx ⟨f, hf, _⟩
    have : ∀ x : Tag, x < 3 → s.exch x = none := by decide +kernel
    rw [this x hx] at hf; cases hf

theorem test_ChoiceFollowsPriority_met :
    let s := State.put run (ex .readBlocks .withdrawing)
    let stray (st : StationId) : State := { run with stray := [(st, 3)] }
    let reset := { State.put run (ex .resetStation .queued) with pendingQ := run.pendingQ.set 0 [3] }
    let identify := run.modStation 0 (fun r => { r with state := .identifying })
    let poll := { run with pollDue := true }
    let fetch := run.modStation 0 (fun r => { r with notices := 1 })
    let full := { State.put run (ex .readBlocks .reconnecting) with
                  reconnect := [3], eventQueue := List.replicate 8 (.stationLeft 0) }
    (s.Chooses ∧ (∀ x, ¬ s.HaltDue x) ∧ ¬ s.WriteRuns ∧ Lowest s.WithdrawDue 3 ∧ s.exch 3 = some (ex .readBlocks .withdrawing)) ∧
    ((stray 0).Chooses ∧ (∀ u, ¬ (stray 0).WithdrawDue u) ∧ (stray 0).stray = (0, 3) :: [] ∧
      ((stray 0).station 0).state = .ready ∧ ((stray 1).station 1).state ≠ .ready) ∧
    (reset.PastWithdraw ∧ Lowest reset.ResetDue 0 ∧ reset.Heads 0 3 (ex .resetStation .queued)) ∧
    (identify.PastWithdraw ∧ (∀ st, ¬ identify.ResetDue st) ∧ Lowest (fun u => (identify.station u).state = .identifying) 0) ∧
    (poll.PastWithdraw ∧ (∀ st, ¬ poll.ResetDue st) ∧ (∀ st, (poll.station st).state ≠ .identifying) ∧ poll.pollDue = true) ∧
    (fetch.PastPoll ∧ fetch.eventQueue.length < 8 ∧ FirstFrom fetch.fetchPtr fetch.FetchDue 0) ∧
    (full.PastPoll ∧ 8 ≤ full.eventQueue.length ∧ full.ResumeDue 3 (ex .readBlocks .reconnecting) ∧
      (ex .readBlocks .reconnecting).state = .reconnecting) := by
  intro s stray reset identify poll fetch full
  have hs : Only s (ex .readBlocks .withdrawing) := by unfold Only; decide +kernel
  have hr : Only reset (ex .resetStation .queued) := by unfold Only; decide +kernel
  have hi : Only identify (ex .query .queued) := by unfold Only; decide +kernel
  have hp : Only poll (ex .query .queued) := by unfold Only; decide +kernel
  have hf : Only fetch (ex .query .queued) := by unfold Only; decide +kernel
  have hu : Only full (ex .readBlocks .reconnecting) := by unfold Only; decide +kernel
  have ht : ∀ st, Only (stray st) (ex .query .queued) := by unfold Only; decide +kernel
  have hpast {t : State} {e : Exchange} (h : Only t e) (c : t.Chooses) (h1 : e.state ≠ .halting)
      (h2 : e.state ≠ .withdrawing) (h3 : t.payload = none) (h4 : t.stray = []) := h.pastWithdraw c h1 h2 h3 h4
  refine ⟨⟨⟨rfl, rfl, .inl rfl, rfl, rfl⟩, hs.noHalt (by decide), noWrite rfl,
      ⟨⟨ex .readBlocks .withdrawing, by decide +kernel, rfl, rfl, by decide +kernel⟩, ?_⟩, by decide +kernel⟩,
    ⟨⟨rfl, rfl, .inl rfl, rfl, rfl⟩, (ht 0).noWithdraw (by decide), rfl, by decide +kernel, by decide +kernel⟩,
    ⟨hpast hr ⟨rfl, rfl, .inl rfl, rfl, rfl⟩ (by decide) (by decide) rfl rfl,
      ⟨⟨3, ex .resetStation .queued, ⟨by decide +kernel, by decide +kernel⟩, rfl, .inl (by decide +kernel)⟩, fun j hj => absurd hj (Nat.not_lt_zero _)⟩,
      ⟨by decide +kernel, by decide +kernel⟩⟩,
    ⟨hpast hi ⟨rfl, rfl, .inl rfl, rfl, rfl⟩ (by decide) (by decide) rfl rfl, hi.noReset (by decide),
      ⟨by decide +kernel, fun j hj => absurd hj (Nat.not_lt_zero _)⟩⟩,
    ⟨hpast hp ⟨rfl, rfl, .inl rfl, rfl, rfl⟩ (by decide) (by decide) rfl rfl, hp.noReset (by decide), by decide +kernel, rfl⟩,
    ⟨hf.pastPoll (hpast hf ⟨rfl, rfl, .inl rfl, rfl, rfl⟩ (by decide) (by decide) rfl rfl) (by decide) (by decide +kernel) rfl rfl,
      by decide, ⟨by unfold State.FetchDue; decide +kernel, fun u hu' => absurd hu' (by have : fetch.fetchPtr = 0 := rfl; rw [this]; exact Nat.not_lt_zero _)⟩⟩,
    ⟨hu.pastPoll (hpast hu ⟨rfl, rfl, .inl rfl, rfl, rfl⟩ (by decide) (by decide) rfl rfl) (by decide) (by decide +kernel) rfl rfl,
      by decide, ⟨rfl, by decide +kernel, rfl, by decide +kernel⟩, rfl⟩⟩
  rintro x hx ⟨f, hf, _⟩
  have : ∀ x : Tag, x < 3 → s.exch x = none := by decide +kernel
  rw [this x hx] at hf; cases hf

theorem test_QueueHeadIsIssued_met :
    let s := { State.put run (ex .readBlocks .queued) with pendingQ := run.pendingQ.set 0 [3] }
    s.PastResume ∧ FirstFrom s.issuePtr s.HeadDue 0 ∧ s.Heads 0 3 (ex .readBlocks .queued) ∧
    run.PastResume ∧ (∀ st, ¬ run.HeadDue st) := by
  intro s
  have hs : Only s (ex .readBlocks .queued) := by unfold Only; decide +kernel
  have past {t : State} {e : Exchange} (h : Only t e) (c : t.PastPoll) (h1 : t.reconnect = [])
      (h2 : ∀ st, ¬ t.FetchDue st) : t.PastResume := { c with fetch := .inr h2, resume := h.noResume h1 }
  refine ⟨past hs (hs.pastPoll (hs.pastWithdraw ⟨rfl, rfl, .inl rfl, rfl, rfl⟩ (by decide) (by decide) rfl rfl) (by decide)
      (by decide +kernel) rfl rfl) rfl (by unfold State.FetchDue; decide +kernel),
    ⟨⟨3, ex .readBlocks .queued, ⟨by decide +kernel, by decide +kernel⟩, rfl, by decide +kernel, by decide +kernel, prof, by decide +kernel,
      by decide +kernel⟩, fun u hu' => absurd hu' (by have : s.issuePtr = 0 := rfl; rw [this]; exact Nat.not_lt_zero _)⟩,
    ⟨by decide +kernel, by decide +kernel⟩,
    past run_only (run_only.pastPoll (run_only.pastWithdraw run_chooses (by decide) (by decide) rfl rfl) (by decide)
      (by decide +kernel) rfl rfl) rfl (by unfold State.FetchDue; decide +kernel), ?_⟩
  rintro st ⟨x, f, ⟨hh, hf⟩, _⟩
  have : ∀ x, run.exch x = none := by decide +kernel
  rw [this x] at hf; cases hf

/-- A READ of tag 3 whose first attempt has failed. -/
def again : Request := { req .read (.exchange 3) with attemptsFailed := 1, phase := .toSend }

theorem test_RequestIsBegunAgain_met :
    let s := { run with current := some again }
    let c := { run with current := some { again with abandoned := true }, attention := true }
    s.live = true ∧ s.linkReset = none ∧ s.cl = .idle ∧ s.current = some again ∧ again.phase = .toSend ∧
    again.abandoned = false ∧ again.kind ≠ .poll ∧ c.attention = true ∧ ¬ c.WriteRuns ∧
    (∃ r : Request, ({ run with current := some r } : State).current = some r ∧ r.phase = .toSend ∧ r.abandoned = true ∧
      r.kind = .poll) ∧
    ({ c with payload := some { pay .hold with dir := .write } } : State).WriteRuns :=
  ⟨rfl, rfl, rfl, rfl, rfl, rfl, by decide, rfl, noWrite rfl,
    ⟨{ Request.new .poll 0 0 0 0 .poll with abandoned := true, phase := .toSend }, rfl, rfl, rfl, rfl⟩, ⟨_, rfl, rfl⟩⟩

theorem test_FrameIsSentAbandonedOrOpened_met :
    let r := { again with phase := .sending }
    let s := { run with current := some r }
    let w := State.asks run (req .read (.exchange 3))
    let h := { run with payload := some (pay .hold), cl := .hold }
    s.live = true ∧ s.linkReset = none ∧ s.current = some r ∧ r.phase = .sending ∧
    w.cl = .window 0 ∧ w.current = some (req .read (.exchange 3)) ∧ h.live = true ∧ h.cl = .hold ∧
    h.holdInForce = true ∧ ({ h with cl := .guardGap 3 } : State).cl = .guardGap 3 ∧
    ({ h with cl := .guardGap 3 } : State).holdInForce = true ∧
    ({ run with cl := .tokenWindow 15 } : State).cl = .tokenWindow 15 := by decide +kernel

/-! ## Replies -/

/-- Tag 3 in this state awaits the reply to a request of this kind. -/
def asking (k : RequestKind) (e : Exchange) : State := State.asks (State.put run e) (req k (.exchange 3))

/-- The reply frame of each outcome is answered in that state. -/
theorem answered (k : RequestKind) (e : Exchange) (f : BitVec 80) (o : ReplyOutcome) (v : Word) (hk : k ≠ .poll)
    (hf : parseReply f = some (rep o v)) : (asking k e).Answered f (req k (.exchange 3)) (rep o v) :=
  { live := rfl, current := rfl, kind := hk, phase := .inl rfl, lane := .inl ⟨0, rfl⟩, good := hf, station := rfl,
    tag := rfl, attached := rfl }

theorem test_reply_done : parseReply (reply 1 0 42) = some (rep .done 42) := by decide +kernel
theorem test_reply_accepted : parseReply (reply 2 0 0) = some (rep .accepted 0) := by decide +kernel
theorem test_reply_deferred : parseReply (reply 3 0 0) = some (rep .deferred 0) := by decide +kernel
theorem test_reply_rejected : parseReply (reply 4 6 0) = some (rep (.rejected .stationError) 0) := by decide +kernel
theorem test_reply_busy : parseReply (reply 5 0 0) = some (rep .busy 0) := by decide +kernel
theorem test_reply_undefined :
    parseReply (reply 0 0 0) = some (rep .undefined 0) ∧ parseReply (reply 6 0 0) = some (rep .undefined 0) ∧
    parseReply (reply 4 7 0) = some (rep .undefined 0) := by decide +kernel
theorem test_reply_badCheck : parseReply (reply 1 0 42 ^^^ 1) = none := by decide +kernel

theorem test_DoneReplyEndsQueryOrControl_met :
    (asking .query (ex .query .issuing)).Answered (reply 1 0 42) (req .query (.exchange 3)) (rep .done 42) ∧
    (asking .query (ex .query .issuing)).exch 3 = some (ex .query .issuing) ∧
    (ex .query .issuing).state = .issuing ∧ (req .query (.exchange 3)).kind = (ex .query .issuing).kind.request ∧
    (ex .query .issuing).cancelMark = false ∧ (ex .query .issuing).final = none ∧
    (asking .control (ex .control .issuing)).Answered (reply 1 0 42) (req .control (.exchange 3)) (rep .done 42) :=
  ⟨answered _ _ _ _ _ (by decide) test_reply_done, by decide +kernel, rfl, rfl, rfl, rfl,
    answered _ _ _ _ _ (by decide) test_reply_done⟩

theorem test_RefusedOrUnpermittedReplyEndsTheExchange_met :
    (asking .query (ex .query .issuing)).Answered (reply 4 6 0) (req .query (.exchange 3))
        (rep (.rejected .stationError) 0) ∧
    (asking .query (ex .query .issuing)).Answered (reply 5 0 0) (req .query (.exchange 3)) (rep .busy 0) ∧
    (asking .read (ex .readBlocks .issuing)).Answered (reply 1 0 42) (req .read (.exchange 3)) (rep .done 42) ∧
    (asking .resume (ex .readBlocks .resuming)).Answered (reply 6 0 0) (req .resume (.exchange 3))
        (rep .undefined 0) ∧
    (ex .query .issuing).awaits (req .query (.exchange 3)) ∧ (ex .readBlocks .issuing).awaits (req .read (.exchange 3)) ∧
    (ex .readBlocks .resuming).awaits (req .resume (.exchange 3)) ∧
    (asking .resume (ex .readBlocks .resuming)).exch 3 = some (ex .readBlocks .resuming) :=
  ⟨answered _ _ _ _ _ (by decide) test_reply_rejected, answered _ _ _ _ _ (by decide) test_reply_busy,
    answered _ _ _ _ _ (by decide) test_reply_done, answered _ _ _ _ _ (by decide) test_reply_undefined.2.1,
    .inl ⟨rfl, rfl⟩, .inl ⟨rfl, rfl⟩, .inr ⟨rfl, rfl, rfl⟩, by decide +kernel⟩

theorem test_AcceptedReplyTakesTheLanes_met :
    (asking .read (ex .readBlocks .issuing)).Answered (reply 2 0 0) (req .read (.exchange 3)) (rep .accepted 0) ∧
    (ex .readBlocks .issuing).awaits (req .read (.exchange 3)) ∧ (ex .readBlocks .issuing).kind.payload = true ∧
    (asking .read (ex .readBlocks .issuing)).exch 3 = some (ex .readBlocks .issuing) ∧
    (ex .readBlocks .issuing).blockSize = some 64 ∧ (ex .readBlocks .issuing).seg = some (seg false) ∧
    ((asking .read (ex .readBlocks .issuing)).station 0).settings = some (1, 6) ∧
    (seg false).list = false ∧ desc.chain = false ∧ 1 ≤ desc.len ∧ desc.len ≤ 16777216 ∧
    (seg true).list = true ∧ desc.addr.toNat % 16 = 0 :=
  ⟨answered _ _ _ _ _ (by decide) test_reply_accepted, .inl ⟨rfl, rfl⟩, rfl, by decide +kernel, rfl, rfl,
    by decide +kernel, rfl, rfl, by decide, by decide, rfl, by decide⟩

/-- A first descriptor that is malformed: CHAIN, no byte, or more than R108 allows; and a first page that is not aligned. -/
theorem test_AcceptedReplyTakesTheLanes_malformed :
    (∀ g, let e := { ex .readBlocks .issuing with seg := some g }
      (asking .read e).Answered (reply 2 0 0) (req .read (.exchange 3)) (rep .accepted 0) ∧
      (asking .read e).exch 3 = some e ∧ e.awaits (req .read (.exchange 3))) ∧
    { desc with chain := true }.chain = true ∧ { desc with len := 0 }.len = 0 ∧
    16777216 < { desc with len := 16777217 }.len ∧ { desc with addr := 0x8008 }.addr.toNat % 16 ≠ 0 :=
  ⟨fun _ => ⟨answered _ _ _ _ _ (by decide) test_reply_accepted, rfl, .inl ⟨rfl, rfl⟩⟩, rfl, rfl, by decide, by decide⟩

theorem test_BusyOrDeferredReplyReturnsTheExchange_met :
    (asking .write (ex .writeBlocks .issuing)).Answered (reply 5 0 0) (req .write (.exchange 3)) (rep .busy 0) ∧
    (asking .resume (ex .readBlocks .resuming)).Answered (reply 5 0 0) (req .resume (.exchange 3)) (rep .busy 0) ∧
    (asking .read (ex .readBlocks .issuing)).Answered (reply 3 0 0) (req .read (.exchange 3)) (rep .deferred 0) ∧
    (ex .writeBlocks .issuing).awaits (req .write (.exchange 3)) ∧
    (ex .readBlocks .resuming).awaits (req .resume (.exchange 3)) ∧ (ex .writeBlocks .issuing).kind.payload = true ∧
    (asking .write (ex .writeBlocks .issuing)).exch 3 = some (ex .writeBlocks .issuing) :=
  ⟨answered _ _ _ _ _ (by decide) test_reply_busy, answered _ _ _ _ _ (by decide) test_reply_busy,
    answered _ _ _ _ _ (by decide) test_reply_deferred, .inl ⟨rfl, rfl⟩, .inr ⟨rfl, rfl, rfl⟩, rfl, by decide +kernel⟩

/-- A cancelled exchange. -/
def marked (k : ExKind) (st : ExState) : Exchange := { ex k st with cancelMark := true, final := some (.cancelled, 0) }

theorem test_ReplyToAnEndingExchangeKeepsItsCause_met :
    let accepting := asking .read (marked .readBlocks .issuing)
    let configure := asking .configure (marked .configureStation .issuing)
    (asking .halt (marked .readBlocks .halting)).Answered (reply 1 0 42) (req .halt (.exchange 3)) (rep .done 42) ∧
    (asking .halt (marked .readBlocks .halting)).exch 3 = some (marked .readBlocks .halting) ∧
    accepting.Answered (reply 3 0 0) (req .read (.exchange 3)) (rep .deferred 0) ∧
    (accepting.Answered (reply 2 0 0) (req .read (.exchange 3)) (rep .accepted 0) ∧
      (marked .readBlocks .issuing).blockSize = some 64 ∧ (accepting.station 0).settings = some (1, 6)) ∧
    accepting.Answered (reply 5 0 0) (req .read (.exchange 3)) (rep .busy 0) ∧
    (asking .resume (marked .readBlocks .resuming)).Answered (reply 5 0 0) (req .resume (.exchange 3)) (rep .busy 0) ∧
    accepting.Answered (reply 1 0 42) (req .read (.exchange 3)) (rep .done 42) ∧
    (marked .readBlocks .issuing).awaits (req .read (.exchange 3)) ∧
    (marked .readBlocks .resuming).awaits (req .resume (.exchange 3)) ∧
    /- the kinds without a payload -/
    (asking .query (marked .query .issuing)).Answered (reply 1 0 42) (req .query (.exchange 3)) (rep .done 42) ∧
    (marked .query .issuing).awaits (req .query (.exchange 3)) ∧ (marked .query .issuing).kind.payload = false ∧
    (configure.Answered (reply 5 0 0) (req .configure (.exchange 3)) (rep .busy 0) ∧
      configure.Answered (reply 1 0 42) (req .configure (.exchange 3)) (rep .done 42) ∧
      (marked .configureStation .issuing).awaits (req .configure (.exchange 3)) ∧ (configure.station 0).state = .ready) ∧
    (asking .reset (marked .resetStation .issuing)).Answered (reply 1 0 42) (req .reset (.exchange 3)) (rep .done 42) ∧
    (marked .resetStation .issuing).awaits (req .reset (.exchange 3)) :=
  ⟨answered _ _ _ _ _ (by decide) test_reply_done, by decide +kernel,
    answered _ _ _ _ _ (by decide) test_reply_deferred,
    ⟨answered _ _ _ _ _ (by decide) test_reply_accepted, rfl, by decide +kernel⟩,
    answered _ _ _ _ _ (by decide) test_reply_busy, answered _ _ _ _ _ (by decide) test_reply_busy,
    answered _ _ _ _ _ (by decide) test_reply_done, .inl ⟨rfl, rfl⟩, .inr ⟨rfl, rfl, rfl⟩,
    answered _ _ _ _ _ (by decide) test_reply_done, .inl ⟨rfl, rfl⟩, rfl,
    ⟨answered _ _ _ _ _ (by decide) test_reply_busy, answered _ _ _ _ _ (by decide) test_reply_done, .inl ⟨rfl, rfl⟩,
      by decide +kernel⟩,
    answered _ _ _ _ _ (by decide) test_reply_done, .inl ⟨rfl, rfl⟩⟩

theorem test_DoneReplyConfiguresOrResetsAStation_met :
    (asking .configure (ex .configureStation .issuing)).Answered (reply 1 0 42) (req .configure (.exchange 3))
        (rep .done 42) ∧
    ((asking .configure (ex .configureStation .issuing)).station 0).state = .ready ∧
    (asking .configure (ex .configureStation .issuing)).exch 3 = some (ex .configureStation .issuing) ∧
    (asking .reset (ex .resetStation .issuing)).Answered (reply 1 0 42) (req .reset (.exchange 3)) (rep .done 42) ∧
    (asking .reset (ex .resetStation .issuing)).exch 3 = some (ex .resetStation .issuing) ∧
    /- another exchange of the station in flight, and one that is kept -/
    ((asking .reset (ex .resetStation .issuing)).setExch 4 (some (ex .readBlocks .deferred))).exch 4
        = some (ex .readBlocks .deferred) ∧
    ((asking .reset (ex .resetStation .issuing)).setExch 4 (some (ex .readBlocks .queued))).exch 4
        = some (ex .readBlocks .queued) :=
  ⟨answered _ _ _ _ _ (by decide) test_reply_done, by decide +kernel, by decide +kernel,
    answered _ _ _ _ _ (by decide) test_reply_done, by decide +kernel, by decide +kernel, by decide +kernel⟩

/-- The station of a request's owner and the rest, for requests no exchange owns. -/
def askingFor (k : RequestKind) (o : Owner) (st : StationState) : State :=
  State.asks (run.modStation 0 (fun r => { r with state := st })) (req k o)

theorem test_FailedAttemptIsResentOrExhausted_met :
    let s := asking .read (ex .readBlocks .issuing)
    let r := req .read (.exchange 3)
    let i := askingFor .identify (.autoIdentify 0) .identifying
    s.live = true ∧ s.current = some r ∧ r.detached = false ∧ s.exch 3 = some (ex .readBlocks .issuing) ∧
    (∃ m, s.AttemptFails r .replyWindowExpired .window m) ∧ (∃ m, s.AttemptFails r (.replyReceived 0) .check m) ∧
    (∃ m, (asking .reset (ex .resetStation .issuing)).AttemptFails { r with kind := .reset, station := 2 }
      (.replyReceived (reply 1 0 42)) .window m) ∧
    (∃ m, s.AttemptFails r (.tokenTaken 1 3) .check m) ∧
    (∃ m, i.AttemptFails { req .identify (.autoIdentify 0) with station := 2 } (.replyReceived (reply 5 0 0)) .window m) ∧
    r.attemptsFailed < Cfg.retryLimit s.cfg ∧ Cfg.retryLimit s.cfg ≤ { r with attemptsFailed := 1 }.attemptsFailed ∧
    (ex .readBlocks .issuing).awaits { r with attemptsFailed := 1 } ∧ s.linkReset = none ∧
    (i.station 0).state = .identifying ∧
    (∃ m, (askingFor .halt (.exchange 3) .ready).AttemptFails { req .halt (.exchange 3) with attemptsFailed := 1 }
      .replyWindowExpired .window m) ∧
    (∃ m, (askingFor .withdraw (.exchange 3) .ready).AttemptFails { req .withdraw (.exchange 3) with attemptsFailed := 1 }
      .replyWindowExpired .window m) ∧
    (∃ m, i.AttemptFails (req .identify (.autoIdentify 0)) .replyWindowExpired .window m) ∧
    (∃ m, { i with cl := .profile .judge }.AttemptFails (req .identify (.autoIdentify 0)) (.profileReceived 1) .check m) ∧
    (∃ m, { i with cl := .profile (.discard .window) }.AttemptFails (req .identify (.autoIdentify 0))
      (.profileReceived 0) .window m) ∧
    (∃ m, (askingFor .fetchNotice (.fetchNotice 0) .ready).AttemptFails (req .fetchNotice (.fetchNotice 0))
      .replyWindowExpired .window m) ∧
    (∃ m, (askingFor .withdraw .strayWithdraw .ready).AttemptFails (req .withdraw .strayWithdraw)
      .replyWindowExpired .window m) := by
  refine ⟨rfl, rfl, rfl, by decide +kernel, ⟨_, .window 0 rfl rfl (by decide +kernel)⟩,
    ⟨_, .badReply 0 (.inl ⟨0, rfl⟩) (.inl rfl) (by decide) (by decide) (by decide +kernel)⟩,
    ⟨_, .otherReply _ (rep .done 42) (.inl ⟨0, rfl⟩) (.inl rfl) (by decide) (by decide) test_reply_done
      (.inl (by decide))⟩, ⟨_, .token _ rfl (.inl ⟨0, rfl⟩) (.inl rfl) (by decide) (by decide)⟩,
    ⟨_, .otherReply _ (rep .busy 0) (.inl ⟨0, rfl⟩) (.inl rfl) (by decide) (.inr (by decide)) test_reply_busy
      (.inl (by decide))⟩, by decide +kernel, by decide +kernel, .inl ⟨rfl, rfl⟩, rfl, by decide +kernel,
    ⟨_, .window 0 rfl rfl (by decide +kernel)⟩, ⟨_, .window 0 rfl rfl (by decide +kernel)⟩,
    ⟨_, .window 0 rfl rfl rfl⟩, ⟨_, .badProfile 1 rfl (by decide +kernel)⟩, ⟨_, .discarded 0 .window rfl⟩,
    ⟨_, .window 0 rfl rfl rfl⟩, ⟨_, .window 0 rfl rfl rfl⟩⟩

theorem test_MarkedOrDetachedRequestIsNotResent_met :
    let s := asking .read (marked .readBlocks .issuing)
    let gone := { req .read (.exchange 3) with detached := true }
    s.live = true ∧ s.current = some (req .read (.exchange 3)) ∧ s.cl = .window 0 ∧
    s.exch 3 = some (marked .readBlocks .issuing) ∧ (marked .readBlocks .issuing).final = some (.cancelled, 0) ∧
    (∃ m, s.AttemptFails gone (.replyReceived 0) .check m) ∧
    (State.asks run gone).Matched (reply 1 0 42) gone (rep .done 42) ∧ gone.kind ≠ .identify :=
  ⟨rfl, rfl, rfl, by decide +kernel, rfl,
    ⟨_, .badReply 0 (.inl ⟨0, rfl⟩) (.inl rfl) (by decide) (by decide) (by decide +kernel)⟩,
    { live := rfl, current := rfl, kind := by decide, phase := .inl rfl, lane := .inl ⟨0, rfl⟩, good := test_reply_done,
      station := rfl, tag := rfl }, by decide⟩

/-- A profile frame (R177). -/
def profileFrame (p : BitVec 128) : BitVec 144 := p ++ crc16 (beBytes 16 16 p)

/-- The profile interval of a request, to be judged. -/
def judging (s : State) : State := { s with cl := .profile .judge }

theorem test_ProfileBringsAStationIntoService_met :
    let a := askingFor .identify (.autoIdentify 0) .identifying
    let i (e : Exchange) (st : StationState) (y : Nat × Nat) :=
      (asking .identify e).modStation 0 (fun r => { r with state := st, settings := some y })
    let e := ex .identifyStation .issuing
    let cancelled := marked .identifyStation .issuing
    let three := ((i e .ready (1, 6)).setExch 4 (some (ex .readBlocks .deferred))).setExch 5 (some (ex .readBlocks .deferred))
      |>.setExch 6 (some (ex .readBlocks .deferred))
    a.live = true ∧ a.current = some (req .identify (.autoIdentify 0)) ∧
    (asking .identify e).Answered (reply 1 0 42) (req .identify (.exchange 3)) (rep .done 42) ∧
    /- a bad reply frame, and a good one of another station -/
    parseReply 0 = none ∧ (rep .done 42).station ≠ { req .identify (.exchange 3) with station := 2 }.station ∧
    parseProfile (profileFrame prof) = some prof ∧ parseProfile (profileFrame 0) = some 0 ∧
    Profile.acceptable prof = true ∧ Profile.acceptable 0 = false ∧ (judging a).cl = .profile .judge ∧
    { req .identify (.exchange 3) with detached := true }.detached = true ∧
    ((judging a).station 0).state = .identifying ∧ ((judging (i e .faulted (1, 6))).station 0).state = .faulted ∧
    ((judging (i e .ready (1, 6))).station 0).state = .ready ∧
    ((judging (i e .ready (1, 6))).station 0).settings = some (1, 6) ∧
    1 ≤ Profile.maxLanes prof ∧ 6 ≤ Profile.maxExp prof ∧ (judging (i e .ready (1, 6))).heldCount 0 ≤ Profile.depth prof ∧
    /- settings and a held count that the profile does not admit -/
    ((i e .ready (5, 10)).station 0).settings = some (5, 10) ∧ Profile.maxLanes prof < 5 ∧ Profile.maxExp prof < 10 ∧
    Profile.depth prof < three.heldCount 0 ∧
    (i e .ready (1, 6)).exch 3 = some e ∧ e.seg = some (seg false) ∧
    (i cancelled .ready (1, 6)).exch 3 = some cancelled ∧ cancelled.final = some (.cancelled, 0) ∧
    (i e .ready (1, 6)).setAside = none ∧ (i e .ready (1, 6)).payload = none ∧ (i e .ready (1, 6)).job = none ∧
    /- a token where the reply was due -/
    (tokenOf (.tokenBadCheck 0)).isSome = true ∧ (tokenOf (.tokenTaken 1 3)).isSome = true := by
  refine ⟨rfl, rfl, answered _ _ _ _ _ (by decide) test_reply_done, ?_⟩
  decide +kernel

/-- An automatic IDENTIFY whose matched reply is not DONE, and one whose station has left IDENTIFYING. -/
theorem test_ProfileBringsAStationIntoService_notDone :
    let a := askingFor .identify (.autoIdentify 0)
    (∀ st, (a st).Answered (reply 5 0 0) (req .identify (.autoIdentify 0)) (rep .busy 0)) ∧ ReplyOutcome.busy ≠ .done ∧
    ((a .identifying).station 0).state = .identifying ∧ ((a .settling).station 0).state ≠ .identifying :=
  ⟨fun _ => ⟨⟨rfl, rfl, by decide, .inl rfl, .inl ⟨0, rfl⟩, test_reply_busy, rfl, rfl⟩, rfl⟩, by decide, by decide +kernel,
    by decide +kernel⟩

theorem test_NoticeIsTakenFromItsReply_met :
    let s := { askingFor .fetchNotice (.fetchNotice 0) .ready with reservation := true }
    let r := req .fetchNotice (.fetchNotice 0)
    (∀ f o v, parseReply f = some (rep o v) → s.Answered f r (rep o v)) ∧ r.kind = .fetchNotice ∧ s.reservation = true ∧
    (s.station 0).state = .ready ∧
    parseReply (reply 1 0 0) = some (rep .done 0) ∧
    parseReply (reply 1 0 0x01000003) = some (rep .done 0x01000003) ∧
    parseReply (reply 1 0 0x020000FF) = some (rep .done 0x020000FF) ∧
    parseReply (reply 1 0 0x01000010) = some (rep .done 0x01000010) ∧
    (0x01000003 : Word) = BitVec.ofNat 32 (0x01000000 + (3 : Tag).val) ∧
    (0x020000FF : Word) = 0x02000000#32 + (0xFF : Byte).setWidth 32 ∧ (0xFF : Byte) ≠ 0 ∧
    (0x01000010 : Word) ≠ 0 ∧ (∀ x : Tag, (0x01000010 : Word) ≠ BitVec.ofNat 32 (0x01000000 + x.val)) ∧
    (∀ c : Byte, (0x01000010 : Word) ≠ 0x02000000#32 + c.setWidth 32) ∧
    s.exch 3 = none ∧ (State.put s (ex .readBlocks .deferred)).exch 3 = some (ex .readBlocks .deferred) ∧
    (State.put s (ex .readBlocks .resuming)).exch 3 = some (ex .readBlocks .resuming) ∧
    (State.put s (ex .readBlocks .queued)).exch 3 = some (ex .readBlocks .queued) := by
  refine ⟨fun f o v h => ⟨⟨rfl, rfl, by decide, .inl rfl, .inl ⟨0, rfl⟩, h, rfl, rfl⟩, rfl⟩, ?_⟩
  decide +kernel

theorem test_NoticeIsTakenFromItsReply_stray :
    ({ askingFor .withdraw .strayWithdraw .ready with stray := [(0, 3)] } : State).Answered (reply 4 6 0)
      (req .withdraw .strayWithdraw) (rep (.rejected .stationError) 0) ∧
    (req .withdraw .strayWithdraw).owner = .strayWithdraw ∧ (req .withdraw .strayWithdraw).kind = .withdraw :=
  ⟨⟨⟨rfl, rfl, by decide, .inl rfl, .inl ⟨0, rfl⟩, test_reply_rejected, rfl, rfl⟩, rfl⟩, rfl, rfl⟩

/-! ## POLL, gaps, link reset, presence, timers -/

theorem test_PollResultWritesEveryCount_met :
    ({ run with cl := .pollSlots } : State).live = true ∧ ({ run with cl := .pollSlots } : State).cl = .pollSlots :=
  ⟨rfl, rfl⟩

/-- The count after levels: all low, a high first, lows since the last high, and a run at and past 4096. -/
theorem test_lowAfter :
    lowAfter 0 1 (0 : BitVec 80) = 81 ∧ lowHead (0x80 : BitVec 8) = 0 ∧ lowAfter 5 1 (0x80 : BitVec 8) = 7 ∧
    lowAfter 5 1 (0x0F : BitVec 8) = 0 ∧ lowHead (0x0F : BitVec 8) = 4 ∧ 4091 + 1 + lowHead (0x0F : BitVec 8) ≤ 4096 ∧
    lowAfter 4091 1 (0x0F : BitVec 8) = 0 ∧ 4096 < 4092 + 1 + lowHead (0x0F : BitVec 8) ∧
    lowAfter 4092 1 (0x0F : BitVec 8) = 4097 := by decide +kernel

/-- CL stays low after a reply of zeros: the periods before an ATTENTION are counted with the reply's (R37). -/
theorem test_low_across_gap :
    (match exec (.replyReceived 0) (asking .read (ex .readBlocks .issuing)) with
      | .next t => match step t with
        | .next t => match step t with
          | .next t => match exec .attention t with
            | .next t => (t.cl, t.laneLow)
            | _ => (.idle, 0)
          | _ => (.idle, 0)
        | _ => (.idle, 0)
      | _ => (.idle, 0)) = (.low, 83) := by decide +kernel

/-- CL is low over the turnaround and the slots of a POLL and two periods of the gap: 1 + 8 + 2 periods (R36, R37). -/
theorem test_low_poll :
    (match exec (.pollResult { turnaround := true, slots := 0xFF }) { run with cl := .pollSlots } with
      | .next t => match step t with
        | .next t => match step t with
          | .next t => match exec .attention t with
            | .next t => t.laneLow
            | _ => 0
          | _ => 0
        | _ => 0
      | _ => 0) = 11 ∧
    /- slots 1 and 2 high, and then the turnaround alone -/
    lowAfter 5 0 (pollPeriods { turnaround := true, slots := 0xFC }) = 6 ∧
    lowAfter 5 0 (pollPeriods { turnaround := false, slots := 0xFF }) = 8 := by decide +kernel

/-- A token window that opens while CL is low goes on with the count through its first period (R37). -/
theorem test_low_into_window :
    (match exec .writeBlockEnd
        { State.owned run (ex .writeBlocks .transfer) { pay .sending with dir := .write } with cl := .low, laneLow := 7 } with
      | .next t => match step t with
        | .next u => (t.cl, t.laneLow, u.laneLow)
        | _ => (.idle, 0, 0)
      | _ => (.idle, 0, 0)) = (.tokenWindow 0, 7, 7) := by decide +kernel

/-- CL is low for the last period of a write block, and goes on as the start mark and a token of zeros: 1 + 33 periods. -/
theorem test_low_before_window :
    (match exec .writeBlockEnd (State.owned run (ex .writeBlocks .transfer) { pay .sending with dir := .write }) with
      | .next t => [true, false].map (fun early => match step t with
        | .next t => match exec (.replyStartMark early) t with
          | .next t => match exec (.tokenBadCheck 0) t with
            | .next t => t.laneLow
            | _ => 0
          | _ => 0
        | _ => 0)
      | _ => []) = [34, 33] := by decide +kernel

theorem test_LaneReturnsToIdle_met :
    let s := { run with cl := .guardGap 3 }
    let p := { s with payload := some { pay .tokenWait with reopen := true } }
    let h := { s with payload := some (pay .hold) }
    s.live = true ∧ s.cl = .guardGap 3 ∧ s.payload = none ∧ p.payload = some { pay .tokenWait with reopen := true } ∧
    (pay .hold).reopen = false ∧ h.payload = some (pay .hold) ∧ s.holdInForce = false ∧ run.cl = .idle ∧
    run.holdInForce = false ∧ ({ run with cl := .low } : State).holdInForce = false ∧ h.holdInForce = true := by
  decide +kernel

/-- A link reset leaves the record of an EMPTY station as it was (R59). -/
theorem test_linkReset_empty :
    (run.station 1).state = .empty ∧ (run.startLinkReset .hostCommand).station 1 = run.station 1 := by decide +kernel

theorem test_LinkResetBeginsAndEnds_met :
    run.live = true ∧ run.linkReset = none ∧ ({ run with linkReset := some .laneStuck } : State).live = true := by decide

theorem test_PresenceDecidesAStation_met :
    let s := run.modStation 1 (fun r => { r with level := some true, debounce := some 0 })
    let g := run.modStation 0 (fun r => { r with level := some false })
    run.live = true ∧ (run.station 0).level = some (!false) ∧ (run.station 0).level = some true ∧
    (s.station 1).debounce = some 0 ∧ 0 < 10000000 ∧ 9999999 < 10000000 ∧ (s.station 1).level = some true ∧
    (s.station 1).state = .empty ∧ (run.station 0).state ≠ .empty ∧ (g.station 0).level = some false ∧
    (g.station 0).state ≠ .empty ∧ (g.station 0).debounce = some 0 := by decide +kernel

theorem test_ExpiredTimersTakeEffect_met :
    let s := run.modStation 0 (fun r => { r with state := .settling, settle := some 1, saturation := some 0 })
    let x := State.put run (ex .readBlocks .deferred)
    let r := run.setCring 0 { cring0 with delayTimer := some 4999 }
    run.live = true ∧ (s.station 0).settle = some 1 ∧ (s.station 0).state = .settling ∧ s.linkReset = none ∧
    ((s.modStation 0 (fun r => { r with state := .resetting })).station 0).state = .resetting ∧
    (s.station 0).saturation = some 0 ∧ x.exch 3 = some (ex .readBlocks .deferred) ∧
    ({ run with pollTimer := some 1 } : State).pollTimer = some 1 ∧ ({ run with quiet := some 1 } : State).quiet = some 1 ∧
    r.cring 0 = some { cring0 with delayTimer := some 4999 } := by decide +kernel

/-! ## The payload lanes -/

/-- Tag 3 in TRANSFER owns the lanes in this phase. -/
def lanes (ph : Phase) : State := State.owned run (ex .readBlocks .transfer) (pay ph)

theorem test_GrantsOpenAReadBlock_met :
    let s := lanes .grantPending
    let waits (ph : Phase) (n : Nat) : Payload := { pay ph with wait := n }
    let open_ (n : Nat) : Payload := { pay .awaitingBlock with dataTimer := some n }
    s.live = true ∧ s.payload = some (pay .grantPending) ∧ (pay .grantPending).repeatDue = false ∧
    (s.slot (pay .grantPending).pos).state = .free ∧ (pay .grantPending).gapDue = false ∧
    (waits .grantPending 0).wait = 0 ∧ (waits .grantPending 1).wait ≠ 0 ∧ s.quiet = none ∧
    ({ pay .grantPending with repeatDue := true } : Payload).repeatDue = true ∧
    (open_ 4).dataTimer = some 4 ∧ 4 ≤ 4 ∧ (open_ 3).dataTimer = some 3 ∧ 3 < 4 ∧
    (lanes .awaitingBlock).exch 3 = some (ex .readBlocks .transfer) ∧
    ({ waits .halted 0 with tail := .granted } : Payload).tail = .granted ∧
    ({ s with quiet := some 1 } : State).quiet ≠ none := by
  decide +kernel

/-- A start mark is taken from the fourth period after a grant on (R89). -/
theorem test_startMark_distance :
    ((lanes .awaitingBlock).blockStarts { pay .awaitingBlock with dataTimer := some 4 }).payload.map (·.phase)
      = some .receiving ∧
    (lanes .awaitingBlock).blockStarts { pay .awaitingBlock with dataTimer := some 3 } = lanes .awaitingBlock := by
  decide +kernel

theorem test_ReadBlockIsKeptOrRepeated_met :
    let p := { pay .receiving with blockSize := 4, laneWidth := 2 }
    let s := { lanes .receiving with payload := some p }
    s.live = true ∧ s.payload = some p ∧ s.exch p.owner = some (ex .readBlocks .transfer) ∧
    (ex .readBlocks .transfer).blocksDone = some 0 ∧ p.repeatDue = false ∧
    /- a block on two lanes, the second cut short by one byte, completed by 1 bits -/
    (let lanes : List (List Byte) := [[1, 3], [2]]
     let data := (List.range p.blockSize).map (fun k =>
       ((lanes[k % p.laneWidth]?).bind (fun l => l[k / p.laneWidth]?)).getD 0xFF#8)
     data = [1, 2, 3, 0xFF] ∧ crc32 data = crc32 [1, 2, 3, 0xFF] ∧ crc32 data ≠ crc32 [1, 2, 3]) ∧
    p.blockRetries < Cfg.retryLimit s.cfg ∧ Cfg.retryLimit s.cfg ≤ { p with blockRetries := 1 }.blockRetries ∧
    0 + 1 ≠ p.count ∧ 1 + 1 = p.count ∧ ({ pay .halted with tail := .receiving } : Payload).tail = .receiving ∧
    (pay .awaitingBlock).phase = .awaitingBlock ∧ ({ pay .halted with tail := .granted } : Payload).tail = .granted := by
  decide +kernel

/-- R38: a block is dealt over the lanes in use, and gathered from them again. -/
theorem test_deal :
    dealBlock 4 [1, 2, 3, 4, 5, 6] = [[1, 5], [2, 6], [3], [4]] ∧ dealBlock 2 [1, 2, 3] = [[1, 3], [2], [], []] ∧
    dealBlock 1 [1, 2] = [[1, 2], [], [], []] ∧ gatherBlock 4 6 (dealBlock 4 [1, 2, 3, 4, 5, 6]) = [1, 2, 3, 4, 5, 6] := by
  decide +kernel

theorem test_WriteBlockIsSent_met :
    let s := lanes .sendPending
    s.live = true ∧ s.payload = some (pay .sendPending) ∧ (pay .sendPending).gapDue = false ∧ s.current = none ∧
    s.quiet = none ∧ (pay .sendPending).laneWidth = 1 ∧ 0 < (pay .sendPending).laneWidth ∧
    (lanes .sending).payload = some (pay .sending) ∧ (pay .sending).phase = .sending ∧
    ({ pay .halted with tail := .cutBlock } : Payload).tail = .cutBlock ∧
    (lanes .hold).exch 3 = some (ex .readBlocks .transfer) ∧ (pay .hold).phase = .hold := by decide +kernel

/-- A token frame of a code that is not defined (R177, R178). -/
def undefinedToken : BitVec 32 :=
  let body : BitVec 16 := 0#4 ++ 1#4 ++ 6#4 ++ 3#4
  body ++ crc16 [body.extractLsb' 8 8, body.extractLsb' 0 8]

theorem test_TokenSettlesTheBlock_met :
    let s := { lanes .tokenWait with cl := .tokenWindow 15 }
    let h := { lanes .hold with cl := .hold }
    s.live = true ∧ s.payload = some (pay .tokenWait) ∧ s.exch 3 = some (ex .readBlocks .transfer) ∧
    (pay .tokenWait).owner = 3 ∧ (ex .readBlocks .transfer).blocksDone = some 0 ∧
    (ex .readBlocks .transfer).bytesMoved = some 0 ∧ (pay .tokenWait).resendDue = false ∧ s.cl = .tokenWindow 15 ∧
    h.cl = .hold ∧ h.payload = some (pay .hold) ∧ (pay .hold).phase = .hold ∧
    (pay .tokenWait).blockRetries < Cfg.retryLimit s.cfg ∧ Cfg.retryLimit s.cfg ≤ 1 ∧ 0 + 1 ≠ (pay .tokenWait).count ∧
    1 + 1 = (pay .tokenWait).count ∧ 2 = (pay .hold).count ∧
    parseToken undefinedToken
      = .good (BitVec.ofNat 4 ((pay .hold).station.val + 1)) .undefined (BitVec.ofNat 4 (pay .hold).owner.val) := by
  decide +kernel

/-- HOLD, or what is left of it in HALTED, with a count of lows. -/
def holding (ph : Phase) (tail : HaltTail) (cl : Lane) (low : Nat) : State :=
  { State.owned run (ex .readBlocks .transfer) { pay ph with tail := tail } with cl := cl, laneLow := low }

theorem test_TokenSettlesTheBlock_heard :
    let wait := { lanes .tokenWait with cl := .tokenWindow 15 }
    let hold := holding .hold .nothing (.guardGap 3)
    [TokenCode.taken, .checkFail, .fault, .hold, .release].all
      (fun c => decide (wait.laneLow + 1 + lowHead (tokenFrame 1 c 3) ≤ 4096)) = true ∧
    wait.Hears undefinedToken ∧ (hold 0).cl = .guardGap 3 ∧ (hold 0).payload = some (pay .hold) ∧
    /- the frame of station 1 begins with seven lows -/
    (hold 4088).Hears (tokenFrame 1 .release 3) ∧ ¬ (hold 4089).Hears (tokenFrame 1 .release 3) ∧
    tokenOf (.tokenTaken 1 3) = some (tokenFrame 1 .taken 3, .good 1 .taken 3) ∧
    tokenOf (.tokenBadCheck undefinedToken) = some (undefinedToken, .good 1 .undefined 3) ∧ 0 ≠ (pay .hold).count := by
  unfold State.Hears; decide +kernel

theorem test_LostTokenIsAwaitedAgain_met :
    let s := { lanes .tokenWait with cl := .tokenWindow 15 }
    s.live = true ∧ s.payload = some (pay .tokenWait) ∧ s.exch (pay .tokenWait).owner = some (ex .readBlocks .transfer) ∧
    (pay .tokenWait).phase = .tokenWait ∧ s.cl = .tokenWindow 15 ∧ parseToken 0 = .bad ∧
    (2 : BitVec 4) ≠ BitVec.ofNat 4 ((pay .tokenWait).station.val + 1) ∧
    (4 : BitVec 4) ≠ BitVec.ofNat 4 (pay .tokenWait).owner.val ∧
    (pay .tokenWait).tokenWaits < Cfg.retryLimit s.cfg ∧ Cfg.retryLimit s.cfg ≤ 1 ∧
    ({ lanes .halted with cl := .tokenWindow 0 } : State).payload = some (pay .halted) ∧
    ({ lanes .hold with cl := .hold } : State).payload = some (pay .hold) := by decide +kernel

theorem test_LostTokenIsAwaitedAgain_heard :
    let open_ (tail : HaltTail) : State := holding .halted tail (.tokenWindow 0) 0
    let stuck := holding .hold .nothing .hold 4092
    let free := { run with cl := .tokenReceiving }
    (open_ .nothing).payload = some (pay .halted) ∧ (pay .halted).tail ≠ .hold ∧
    (holding .halted .hold .hold 0).payload = some { pay .halted with tail := .hold } ∧
    tokenOf (.tokenBadCheck 0) = some (0, .bad) ∧
    /- another station, and another tag -/
    tokenOf (.tokenTaken 2 3) = some (tokenFrame 2 .taken 3, .good 2 .taken 3) ∧
    tokenOf (.tokenHold 1 4) = some (tokenFrame 1 .hold 4, .good 1 .hold 4) ∧
    (open_ .nothing).Hears 0 ∧ (holding .hold .nothing (.guardGap 3) 0).Hears (tokenFrame 1 .hold 4) ∧
    free.payload = none ∧ free.Hears 0 ∧ free.live = true ∧
    (lanes .finished).payload = some (pay .finished) ∧ (pay .finished).phase ≠ .tokenWait ∧
    stuck.TakesToken ∧ ¬ stuck.Hears 0x000000FF ∧ stuck.linkReset = none ∧
    tokenOf (.tokenBadCheck 0x000000FF) = some (0x000000FF, .bad) :=
  ⟨by decide +kernel, by decide, by decide +kernel, by decide +kernel, rfl, rfl, by unfold State.Hears; decide +kernel,
    by unfold State.Hears; decide +kernel, rfl, by unfold State.Hears; decide +kernel, rfl,
    by decide +kernel, by decide, .inr (.inr ⟨by decide +kernel, .inl rfl⟩), by unfold State.Hears; decide +kernel, rfl,
    by decide +kernel⟩

/-- A run of lows that passes 4096 within a token frame begins a link reset, though the frame ends high (R37, R79). -/
theorem test_stuck_in_token :
    (match exec (.tokenBadCheck 0x000000FF) (holding .hold .nothing .hold 4092) with
      | .next t => (t.linkReset, t.cl)
      | _ => (none, .idle)) = (some .laneStuck, .signalling 0) ∧
    (match exec (.tokenBadCheck 0x0000FFFF) (holding .hold .nothing .hold 4079) with
      | .next t => (t.linkReset, t.laneLow)
      | _ => (none, 1)) = (none, 0) := by decide +kernel

/-- A good token frame of each code reads back (R177, R178). -/
theorem test_token_frames :
    let frame (code : BitVec 4) : BitVec 32 :=
      let body : BitVec 16 := 0#4 ++ 1#4 ++ code ++ 3#4
      body ++ crc16 [body.extractLsb' 8 8, body.extractLsb' 0 8]
    [1, 2, 3, 4, 5, 0, 6].map (fun c => parseToken (frame c)) =
      [TokenCode.taken, .checkFail, .fault, .hold, .release, .undefined, .undefined].map (fun c => .good 1 c 3) := by
  decide +kernel

/-! ## The data mover -/

/-- Tag 3 with its payload job. -/
def moving (ph : Phase) (j : Job) : State := { lanes ph with job := some j }

theorem test_MoverTakesABlock_met :
    let c : CurDesc := { desc := desc, index := 0, offset := 0 }
    let full : Slot := { state := .full, block := 0, data := List.replicate 64 0 }
    let s := (moving .grantPending (job .read)).setSlot 0 full
    /- the descriptor ends 32 bytes into the block, and another inline descriptor follows -/
    let near : CurDesc := { c with offset := 4064 }
    let two : Job := { job .read with walk := { (job .read).walk with ended := false, cur := some near } }
    s.live = true ∧ s.job = some (job .read) ∧ s.exch (job .read).tag = some (ex .readBlocks .transfer) ∧
    (ex .readBlocks .transfer).seg = some (seg false) ∧
    (job .read).inHand = none ∧ (job .read).nextBlock < (job .read).count ∧ (job .read).walk.needed = false ∧
    (job .read).walk.cur = some c ∧ 1 ≤ (job .read).blockSize ∧ (job .read).blockSize ≤ 2048 ∧
    c.offset + (job .read).blockSize ≤ c.desc.len ∧ (s.slot 0).state = .full ∧ (s.slot 0).block = 0 ∧
    (s.slot 0).data.length = (job .read).blockSize ∧
    two.walk.cur = some near ∧ near.offset ≤ near.desc.len ∧ near.desc.len - near.offset < two.blockSize ∧
    two.walk.pos = .inline 1 ∧ two.walk.ended = false ∧ (seg false).d1.chain = false ∧ 64 - 32 ≤ (seg false).d1.len ∧
    (seg false).d1.len ≤ 16777216 ∧
    (job .read).walk.ended = true ∧ (ex .readBlocks .transfer).readFinished = false ∧
    ((moving .loadWait (job .write)).slot 0).state = .free ∧ (job .write).dir = .write := by decide +kernel

/-- A block of 64 bytes over the end of the first inline descriptor is placed in two accesses. -/
theorem test_twoDescriptors :
    let near : CurDesc := { desc := desc, index := 0, offset := 4064 }
    let two : Job := { job .write with walk := { (job .write).walk with ended := false, cur := some near } }
    (match exec .loadBlockStart (moving .loadWait two) with
      | .next t => t.accesses.map (fun a => (a.addr, a.len))
      | _ => []) = [(0x8FE0, 32), (0x8000, 32)] := by decide +kernel

/-- A job of a page whose current descriptor, 32 bytes before its end, is followed by entry `entry`. -/
def between (entry : Nat) (look : LookAhead) : Job :=
  { job .read with walk := { pos := .page 0x9000 entry, ended := false,
                             cur := some { desc := desc, index := 0, offset := 4064 }, walked := 1, look := look,
                             needed := false } }

/-- A data entry of a page. -/
def entryOf (len : Nat) (last : Bool) : Descriptor := { addr := 0xA000, len := len, last := last, chain := false }

/-- An entry that leads to another page. -/
def leadTo (addr : BitVec 64) : Descriptor := { addr := addr, len := 0, last := false, chain := true }

/-- Entries of a page at the ends of their ranges (R106, R108). -/
theorem test_entries :
    (leadTo 0xA008).Malformed 1 ∧ (leadTo 0xA000).Leads 1 ∧ (leadTo 0xA000).Leads 4095 ∧
    (leadTo 0xA000).Malformed 4096 ∧ { leadTo 0xA000 with last := true }.Malformed 1 ∧ (entryOf 0 false).Malformed 1 ∧
    (entryOf 1 false).Usable 1 ∧ (entryOf 16777216 true).Usable 4095 ∧ (entryOf 16777217 false).Malformed 1 ∧
    (entryOf 1 false).Malformed 4096 :=
  ⟨.inr (.inr (.inl ⟨rfl, by decide⟩)), ⟨rfl, rfl, by decide, by decide⟩, ⟨rfl, rfl, by decide, by decide⟩,
    .inr (.inl (by decide)), .inl ⟨rfl, rfl⟩, .inr (.inr (.inr ⟨rfl, .inl rfl⟩)), ⟨rfl, by decide, by decide, by decide⟩,
    ⟨rfl, by decide, by decide, by decide⟩, .inr (.inr (.inr ⟨rfl, .inr (by decide)⟩)), .inr (.inl (by decide))⟩

theorem test_MoverTakesABlock_list :
    (∀ entry look, (moving .grantPending (between entry look)).job = some (between entry look) ∧
      (between entry look).walk.pos = .page 0x9000 entry ∧ (between entry look).walk.look = look ∧
      (between entry look).walk.ended = false ∧ (between entry look).walk.walked = 1) ∧
    4096 - 4064 < 64 ∧ ({ desc with len := 4064 } : Descriptor).len - 4064 = 0 ∧ 255 < 256 ∧ 256 ≤ 256 ∧ 1 ≤ 1 ∧
    /- a second inline descriptor that is malformed, and one that ends before the block -/
    ({ desc with chain := true } : Descriptor).chain = true ∧ ({ desc with len := 31 } : Descriptor).len < 64 - 32 :=
  ⟨fun _ _ => ⟨rfl, rfl, rfl, rfl, rfl⟩, by decide⟩

/-- At the block's boundary the entry held ahead goes on, one that leads on is followed, and a faulted one is reported. -/
theorem test_look_ahead :
    let full : Slot := { state := .full, block := 0, data := List.replicate 64 0 }
    let out (look : LookAhead) :=
      match exec .drainBlockStart ((moving .grantPending (between 1 look)).setSlot 0 full) with
      | .next t => (t.accesses.map (fun a => (a.addr, a.len)), (t.exch 3).bind (·.final))
      | _ => ([], none)
    out (.held (entryOf 4096 true)) = ([(0x8FE0, 32), (0xA000, 32)], none) ∧
    out (.held (leadTo 0xB000)) = ([(0x8FE0, 32), (0xB000, 16)], none) ∧
    out .faulted = ([(0x8FE0, 32)], some (.hostAccessFault, 0)) ∧ out .reading = ([(0x8FE0, 32)], none) ∧
    out .empty = ([(0x8FE0, 32), (0x9010, 16)], none) := by decide +kernel

/-- Reports that come after their job has ended: the exchange waits for its last access, and joins with it. -/
theorem test_late_reports :
    let e := { ex .readBlocks .completing with final := some (.success, 0) }
    let s (p : Purpose) := State.has (State.put run e) p
    (s (.descriptor 3)).live = true ∧ (s (.descriptor 3)).access 9 = some (acc (.descriptor 3)) ∧
    (s (.descriptor 3)).exch 3 = some e ∧ (s (.descriptor 3)).job = none ∧
    (s (.profileWrite 3)).access 9 = some (acc (.profileWrite 3)) ∧ (s (.profileWrite 3)).profiles = [] ∧
    (s (.profileDescriptor 3)).access 9 = some (acc (.profileDescriptor 3)) ∧
    [Instr.descriptorReadComplete 9 0, .descriptorReadFault 9].map (fun c => match exec c (s (.descriptor 3)) with
      | .next t => (t.accesses, t.waiting[(0 : RingId)])
      | _ => ([], [])) = [([], [.exchange 3]), ([], [.exchange 3])] := by decide +kernel

/-- A walk of a page that waits for an entry, or reads one ahead. -/
def paged (needed : Bool) : Job :=
  { job .read with walk := { pos := .page 0x9000 254, ended := false, cur := none, walked := 4095, look := .reading,
                             needed := needed } }

theorem test_DescriptorReadIsJudgedWhenNeeded_met :
    let s (needed : Bool) := State.has (moving .grantPending (paged needed)) (.descriptor 3)
    let h : InHand := { slot := 0, placed := 32, issued := 1, ended := 1 }
    (s true).live = true ∧ (s true).access 9 = some (acc (.descriptor 3)) ∧ (s true).job = some (paged true) ∧
    (s true).exch 3 = some (ex .readBlocks .transfer) ∧ (ex .readBlocks .transfer).readFinished = false ∧
    (paged true).walk.pos = .page 0x9000 254 ∧ (paged false).walk.look = .reading ∧
    (paged true).walk.walked < 4096 ∧ 4096 ≤ ({ (paged true).walk with walked := 4096 } : Walk).walked ∧
    (paged true).inHand = none ∧ 254 + 1 < 256 ∧ ¬ 255 + 1 < 256 ∧ (ex .readBlocks .transfer).seg ≠ none ∧
    /- a block in hand of which half is placed -/
    { paged true with inHand := some h }.inHand = some h ∧ h.placed < (paged true).blockSize ∧
    (paged true).blockSize ≤ 2048 ∧
    /- a descriptor that holds the rest of it, one byte less, and the last one -/
    (paged true).blockSize - h.placed ≤ 32 ∧ ¬ (paged true).blockSize - h.placed ≤ 31 ∧ desc.last = true ∧
    parseDescriptor 0x00000002000000000000000000009000 = { addr := 0x9000, len := 0, last := false, chain := true } ∧
    parseDescriptor 0x00000003000000000000000000009000 = { addr := 0x9000, len := 0, last := true, chain := true } ∧
    parseDescriptor 0x00000001010000010000000000009000
      = { addr := 0x9000, len := 16777217, last := true, chain := false } ∧
    parseDescriptor 0x00000000010000000000000000009000
      = { addr := 0x9000, len := 16777216, last := false, chain := false } := by decide +kernel

theorem test_DataAccessesFillAndDrainSlots_met :
    let h : InHand := { slot := 0, placed := 64, issued := 2, ended := 1 }
    let r := State.has (moving .grantPending { job .read with inHand := some h }) (.dataWrite 3)
    let loadingSlot : Slot := { state := .loading, block := 0, data := List.replicate 64 0 }
    let w := (State.has (moving .loadWait { job .write with inHand := some h }) (.dataRead 3 0 0)).setSlot 0 loadingSlot
    r.live = true ∧ r.access 9 = some (acc (.dataWrite 3)) ∧ r.job = some { job .read with inHand := some h } ∧
    r.exch 3 = some (ex .readBlocks .transfer) ∧ r.payload = some (pay .grantPending) ∧ (job .read).dir = .read ∧
    ((job .read).blockSize ≤ h.placed ∧ h.ended + 1 = h.issued) ∧ (job .read).nextBlock + 1 < (job .read).count ∧
    ({ job .read with nextBlock := 1 } : Job).nextBlock + 1 = (job .read).count ∧ (pay .finished).owner = (job .read).tag ∧
    w.access 9 = some (acc (.dataRead 3 0 0)) ∧ (List.replicate 64 (0 : Byte)).length = (acc (.dataRead 3 0 0)).len ∧
    h.slot = 0 ∧ (w.slot 0).state = .loading ∧ (w.slot 0).block = (job .write).nextBlock ∧
    (ex .readBlocks .transfer).readFinished = false ∧
    (moving .sendPending (job .write)).payload = some (pay .sendPending) ∧ (pay .sendPending).phase = .sendPending ∧
    ({ run with device := { run.device with state := .stopped } } : State).device.state = .stopped ∧
    ({ ex .readBlocks .transfer with linkFinished := some true } : Exchange).readFinished = true ∧
    /- no job of the tag any more, and the exchange waiting for its last access -/
    (let gone := State.has (State.put run { ex .readBlocks .completing with final := some (.cancelled, 0) }) (.dataWrite 3)
     gone.live = true ∧ gone.access 9 = some (acc (.dataWrite 3)) ∧ gone.job = none ∧ gone.outstanding 3 = 1) := by
  decide +kernel

/-- The profile job of tag 3, its exchange COMPLETING. -/
def profiling (list : Bool) (j : ProfileJob) : State :=
  { State.put run { ex .identifyStation .completing with seg := some (seg list) } with profiles := [j] }

def pjob (list : Bool) : ProfileJob :=
  { tag := 3, bytes := prof, walk := Walk.start (seg list), started := false, placed := 0, issued := 0, ended := 0 }

theorem test_ProfileIsWrittenToItsSegments_met :
    let j := { pjob false with started := true, placed := 16, issued := 1 }
    let s := State.has (profiling false j) (.profileWrite 3)
    (profiling false (pjob false)).live = true ∧ (profiling false (pjob false)).profiles = [pjob false] ∧
    (profiling false (pjob false)).exch 3 = some { ex .identifyStation .completing with seg := some (seg false) } ∧
    (ex .identifyStation .completing).final = none ∧ desc.chain = false ∧ 16 ≤ desc.len ∧ desc.len ≤ 16777216 ∧
    desc.addr.toNat % 4096 ≤ 4080 ∧ (seg true).list = true ∧ desc.addr.toNat % 16 = 0 ∧
    s.access 9 = some (acc (.profileWrite 3)) ∧ j.started = true ∧ s.cringOf 0 = some 0 ∧ 16 ≤ j.placed ∧
    j.ended + 1 = j.issued ∧ ({ j with placed := 15 } : ProfileJob).placed < 16 ∧
    (State.has (profiling true j) (.profileDescriptor 3)).access 9 = some (acc (.profileDescriptor 3)) := by
  decide +kernel

theorem test_ProfileIsWrittenToItsSegments_walk :
    let inl (n m : Nat) : SegSource := { list := false, d0 := { desc with len := n, last := false }, d1 := { desc with len := m } }
    let w (needed : Bool) : Walk := { pos := .page 0x9000 255, ended := false, cur := none, walked := 4095, look := .empty,
                                      needed := needed }
    let j := { pjob true with started := true, walk := w true, placed := 4 }
    let s := State.has (profiling true j) (.profileDescriptor 3)
    /- a descriptor that holds the profile, and a first one of a byte less, alone or with a second that holds it or not -/
    16 ≤ (inl 16 1).d0.len ∧ (inl 15 1).d0.len < 16 ∧ (inl 15 1).d0.last = false ∧ desc.last = true ∧
    16 ≤ (inl 15 1).d0.len + (inl 15 1).d1.len ∧ (inl 14 1).d0.len + (inl 14 1).d1.len < 16 ∧
    (inl 15 0).d1.len = 0 ∧ ({ desc with chain := true } : Descriptor).chain = true ∧
    ({ desc with addr := 0x8008 } : Descriptor).addr.toNat % 16 ≠ 0 ∧ desc.addr.toNat % 16 = 0 ∧
    (∀ g, (pjob false).walk = Walk.start (seg false) ∧
      State.exch (State.put run { ex .identifyStation .completing with seg := some g }) 3
        = some { ex .identifyStation .completing with seg := some g }) ∧
    /- an entry read for the job -/
    s.live = true ∧ s.access 9 = some (acc (.profileDescriptor 3)) ∧ s.profiles = [j] ∧ j.walk.needed = true ∧
    j.walk.pos = .page 0x9000 255 ∧ j.placed < 16 ∧ 16 - j.placed ≤ (entryOf 12 false).len ∧
    (entryOf 11 true).len < 16 - j.placed ∧ (entryOf 11 true).last = true ∧ 256 ≤ 255 + 1 ∧ 254 + 1 < 256 ∧
    (entryOf 0 false).Malformed j.walk.walked ∧ (leadTo 0xA000).Leads j.walk.walked ∧
    (entryOf 11 true).Usable j.walk.walked := by
  refine ⟨by decide, by decide, rfl, rfl, by decide, by decide, rfl, rfl, by decide, by decide, fun g => ⟨rfl, rfl⟩, ?_⟩
  exact ⟨rfl, by decide +kernel, rfl, rfl, rfl, by decide, by decide, by decide, rfl, by decide, by decide,
    .inr (.inr (.inr ⟨rfl, .inl rfl⟩)), ⟨rfl, rfl, by decide, by decide⟩, ⟨rfl, by decide, by decide, by decide⟩⟩

/-- A profile across two descriptors, over a 4 KiB boundary in the first. -/
theorem test_profile_pieces :
    let g : SegSource := { list := false, d0 := { addr := 0x8FFC, len := 12, last := false, chain := false }, d1 := desc }
    let s := { State.put run { ex .identifyStation .completing with seg := some g } with
               profiles := [{ pjob false with walk := Walk.start g }] }
    (match exec .profileJobStart s with
      | .next t => t.accesses.map (fun a => (a.addr, a.data))
      | _ => []) = [(0x8FFC, [1, 0x42, 9, 0]), (0x9000, [0, 0, 3, 0xE8, 0, 0, 0, 0]), (0x8000, [0, 0, 0, 1])] := by
  decide +kernel

/-! ## The completion poster -/

theorem test_LatchedEventEntersTheQueue_met :
    let full := { run with eventQueue := List.replicate 8 (.stationLeft 0) }
    let almost := { run with eventQueue := List.replicate 7 (.stationLeft 0), linkLatch := some .laneStuck }
    let ring := { run with ringLatch := run.ringLatch.set 3 (some .badPost) }
    let st := run.modStation 7 (fun r => { r with latch := some .left })
    run.live = true ∧ 8 ≤ full.eventQueue.length + full.reservation.toNat ∧
    almost.eventQueue.length + almost.reservation.toNat < 8 ∧ almost.linkLatch = some .laneStuck ∧
    ring.linkLatch = none ∧ ring.ringLatch[(3 : RingId)] = some .badPost ∧
    (∀ q : RingId, q < 3 → ring.ringLatch[q] = none) ∧ (∀ q : RingId, st.ringLatch[q] = none) ∧
    (st.station 7).latch = some .left ∧ (∀ q, q < 7 → (st.station q).latch = none) := by decide +kernel

theorem test_RecordIsWrittenAndItsSourceFreed_met :
    let e := { ex .query .completing with final := some (.success, 42) }
    let s := { State.put run e with waiting := run.waiting.set 0 [.exchange 3] }
    let c := { cring0 with writing := some (.exchange 3) }
    let w := State.has (s.setCring 0 c) (.record 0)
    let held (w : BitVec 512) := (State.holds run 0).modSubRing 0 (fun x => { x with holding := .completing w 0 .success 0 })
    s.live = true ∧ s.cring 0 = some cring0 ∧ cring0.writing = none ∧ cring0.unreleased < cring0.size ∧
    s.waiting[(0 : RingId)] = [.exchange 3] ∧ s.sourceFields (.exchange 3) = some e.fields ∧
    e.final = some (.success, 42) ∧ w.access 9 = some (acc (.record 0)) ∧ w.cring 0 = some c ∧
    w.exch 3 = some e ∧ w.eventRing = some 0 ∧ ((held 0).subRing 0).holding = .completing 0 0 .success 0 ∧
    /- the station byte of a link work request for slot 8, and none for slot 9 or kind 9 -/
    [wr 7 0 8 0 0 0 0, wr 7 0 9 0 0 0 0, wr 9 0 8 0 0 0 0].map (fun w => (immediateFields 0 w 0 .success 0).station)
      = [8, 0, 0] ∧
    Event.ringFault 3 .fetchFault ≠ .linkReset .startUp ∧ (Event.ringFault 3 .fetchFault).fields.value = 0x302 := by
  decide +kernel

/-! ## A few steps -/

/-- A QUERY answered with 42 completes, and its record of 16 bytes is written and frees its slot. -/
theorem test_query_record :
    let s := { asking .query (ex .query .issuing) with pending := [.replyReceived (reply 1 0 42), .recordWriteBegin 0,
      .recordWriteComplete 0] }
    (match step s with
      | .next a => match step a with
        | .next b => match step b with
          | .next c => (b.accesses.map (fun x => (x.addr, x.data)), c.exch 3, c.pending, (c.cring 0).map (·.tail))
          | _ => ([], none, [], none)
        | _ => ([], none, [], none)
      | _ => ([], none, [], none))
      = ([(0x2000, [7, 0, 0, 0, 0, 0, 1, 1, 0, 0, 0, 0, 42, 0, 0, 0])], none, [], some 1) := by decide +kernel

/-- A period of the link clock counts the lane condition up, and a guard gap's end is put in the queue. -/
theorem test_tick :
    step { run with cl := .guardGap 1 } = .next { run with cl := .guardGap 1 }.tick ∧
    ({ run with cl := .guardGap 1 } : State).tick.cl = .guardGap 2 :=
  ⟨rfl, by decide +kernel⟩

/-! ## What the statements' words mean, at the ends of their ranges -/

/-- A work request whose fields hold their largest values lies as R179 says; with LAST clear both inline lengths count. -/
theorem test_wr_fields :
    let w : BitVec 512 := ~~~ (BitVec.ofNat 512 (1 <<< 352))
    Wr.kindByte w = 255 ∧ Wr.kind w = none ∧ Wr.stationByte w = 255 ∧ Wr.count w = 0xFFFF ∧ Wr.targetRing w = 255 ∧
    Wr.inlineTotal w = 2 * 0xFFFFFFFF ∧ (Wr.d0 w).last = false ∧ (Wr.d0 w).chain = true ∧
    Wr.inlineTotal (~~~ (0 : BitVec 512)) = 0xFFFFFFFF ∧ Wr.kind (wr 9 0 0 0 0 0 0) = some .nop := by decide +kernel

/-- The pending block exponent: of the last pending configuration, or else the current one (R52). -/
theorem test_pendingExp :
    ready.pendingExp = 6 ∧
    ({ ready with pendingConfigs := [⟨1, 1, 7⟩, ⟨2, 2, 9⟩] } : Station).pendingExp = 9 := by decide +kernel

/-- The ranges of R51 at their ends, and the value of STATION_READY. -/
theorem test_profile_ranges :
    ([0x01110600, 0x01240B01, 0x01410600].map (fun n => Profile.acceptable (n <<< 96)) = [true, true, true]) ∧
    ([0x01010600, 0x01310600, 0x01510600, 0x01100600, 0x01150600, 0x01110500, 0x01110C00, 0x01110602].map
      (fun n => Profile.acceptable (n <<< 96)) = List.replicate 8 false) ∧
    Profile.readyValue prof = 0x01040902 := by decide +kernel

/-- The count a reply hands over (R30, R58): kept, raised to 1, or none for a station field 0 or 9, or an EMPTY slot. -/
theorem test_handCount :
    let r (st : BitVec 4) (n : Nat) (alert : Bool) : Reply := { rep .done 0 with station := st, notices := n, alertPending := alert }
    ((run.handCount (r 1 15 true)).station 0).notices = 15 ∧ ((run.handCount (r 1 0 true)).station 0).notices = 1 ∧
    ((run.handCount (r 1 0 false)).station 0).notices = 0 ∧ run.handCount (r 0 3 false) = run ∧
    run.handCount (r 9 3 false) = run ∧ run.handCount (r 8 3 false) = run := by decide +kernel

/-- The link period by rate code (R25). -/
theorem test_linkPeriod :
    ([0, 1, 2, 3] : List Byte).map (fun c => ({ run with device := { run.device with lck := some c } } : State).linkPeriod)
      = [160, 80, 40, 20] ∧ run.live = true := by decide +kernel

end Sys2Proof.Tests
end

section
/-! The exchange table: proofs of the statements about replies. -/

namespace Sys2Proof.Machine

/-! ## A reply is delivered (R30, R33, R71) -/

/-- R33: the request whose window is open, or whose reply frame arrives, is the one a reply can come for. -/
theorem State.awaited_eq {s : State} {r : Request} (hc : s.current = some r) (hk : r.kind ≠ .poll)
    (hp : r.phase = .awaiting ∨ r.phase = .receiving) (hl : (∃ n, s.cl = .window n) ∨ s.cl = .receiving) :
    s.awaited = some r := by
  unfold State.awaited
  rw [hc]; dsimp only; rw [if_pos ⟨hk, hp⟩]
  rcases hl with ⟨n, h⟩ | h <;> rw [h]

/-- A reply frame that comes while one is awaited is taken, its levels counted. -/
theorem exec_replyReceived {s : State} {r : Request} (hl : s.live = true) (hr : s.awaited = some r) (f : BitVec 80) :
    exec (.replyReceived f) s = .next ((s.hear 1 f).takeReply r (parseReply f)) := by
  show Host.Outcome.next (s.replyStep f) = _
  unfold State.replyStep; rw [hr]; dsimp only; rw [if_pos hl]

/-- R58: a count handed over reaches station records alone. -/
theorem State.setNotices_stations (s : State) (st : StationId) (n : Nat) :
    s.setNotices st n = { s with stations := (s.setNotices st n).stations } := by
  unfold State.setNotices; split <;> rfl

theorem State.handCount_stations (s : State) (rep : Reply) :
    s.handCount rep = { s with stations := (s.handCount rep).stations } := by
  unfold State.handCount
  cases slotOfNumber rep.station.toNat with
  | none => rfl
  | some st => exact s.setNotices_stations st _

/-- The levels of a frame may be counted before its count is handed over. -/
theorem State.handCount_hear {w : Nat} (s : State) (n : Nat) (f : BitVec w) (rep : Reply) :
    (s.hear n f).handCount rep = { s.handCount rep with laneLow := lowAfter s.laneLow n f } := by
  unfold State.handCount
  cases slotOfNumber rep.station.toNat with
  | none => rfl
  | some st =>
    dsimp only
    unfold State.setNotices
    by_cases h : (s.station st).state = .empty
    · rw [if_pos h, if_pos (show ((s.hear n f).station st).state = .empty from h)]; rfl
    · rw [if_neg h, if_neg (show ¬ ((s.hear n f).station st).state = .empty from h)]; rfl

/-- A station record keeps everything but its notices-waiting count when a reply hands its count over. -/
theorem State.handCount_station (s : State) (rep : Reply) (u : StationId) :
    (s.handCount rep).station u = { s.station u with notices := ((s.handCount rep).station u).notices } := by
  unfold State.handCount
  cases slotOfNumber rep.station.toNat with
  | none => rfl
  | some st =>
    dsimp only
    unfold State.setNotices
    split
    · rfl
    · rw [State.station_modStation]
      split <;> rfl

/-- The state in which an outcome is delivered differs from that before in the fields named. -/
theorem State.afterReply_rest (s : State) (f : BitVec 80) (rep : Reply) :
    s.afterReply f rep = { s with stations := (s.handCount rep).stations, cl := .guardGap 0, current := none,
                                  laneLow := lowAfter s.laneLow 1 f } := by
  unfold State.afterReply; rw [s.handCount_stations rep]

theorem State.exch_afterReply (s : State) (f : BitVec 80) (rep : Reply) (x : Tag) :
    (s.afterReply f rep).exch x = s.exch x := by
  rw [s.afterReply_rest f rep]; rfl

/-- The count that a reply hands over is all that it writes to a station record. -/
theorem State.station_afterReply (s : State) (f : BitVec 80) (rep : Reply) (u : StationId) :
    (s.afterReply f rep).station u = { s.station u with notices := ((s.handCount rep).station u).notices } :=
  s.handCount_station rep u

theorem State.cfg_afterReply (s : State) (f : BitVec 80) (rep : Reply) : (s.afterReply f rep).cfg = s.cfg := by
  rw [s.afterReply_rest f rep]; rfl

/-- R71: the reply that matches is one that is awaited. -/
theorem State.Matched.awaited {s : State} {f : BitVec 80} {r : Request} {rep : Reply} (h : s.Matched f r rep) :
    s.awaited = some r :=
  State.awaited_eq h.current h.kind h.phase h.lane

theorem State.Matched.matches {s : State} {f : BitVec 80} {r : Request} {rep : Reply} (h : s.Matched f r rep) :
    r.matches rep = true := by
  unfold Request.matches; rw [h.station, h.tag]; simp

/-- R71: a matched reply that is not DONE to IDENTIFY is delivered in the state after it. -/
theorem State.Matched.deliver {s : State} {f : BitVec 80} {r : Request} {rep : Reply} (h : s.Matched f r rep)
    (hi : r.kind ≠ .identify ∨ rep.outcome ≠ .done) :
    exec (.replyReceived f) s
      = .next (({ s.handCount rep with cl := .guardGap 0, laneLow := lowAfter s.laneLow 1 f } : State).deliver r
          rep.outcome rep.value) := by
  rw [exec_replyReceived h.live h.awaited, h.good]
  unfold State.takeReply
  dsimp only
  rw [if_neg (fun hh => hi.elim (fun h1 => h1 hh.1) (fun h1 => h1 hh.2)), if_pos h.matches, State.handCount_hear]
  rfl

/-- R9, R18, R125, R126: the outcome of a reply reaches the exchange that owns its request. -/
theorem State.Answered.exchange {s : State} {f : BitVec 80} {r : Request} {rep : Reply} {x : Tag}
    (h : s.Answered f r rep) (ho : r.owner = .exchange x) (hi : r.kind ≠ .identify ∨ rep.outcome ≠ .done) :
    exec (.replyReceived f) s = .next ((s.afterReply f rep).answerExchange x rep.outcome rep.value) := by
  rw [h.toMatched.deliver hi]
  unfold State.deliver
  dsimp only
  rw [h.attached, if_neg (by decide), ho]
  rfl

/-- Which rule answers an exchange in ISSUING or RESUMING. -/
theorem State.answerExchange_issuing {a : State} {x : Tag} {e : Exchange} (hx : a.exch x = some e)
    (hs : e.state = .issuing) (o : ReplyOutcome) (v : Word) :
    a.answerExchange x o v = if e.cancelMark then a.answerMarkedIssue x e o else a.answerIssue x e v o := by
  unfold State.answerExchange; rw [hx]; dsimp only; rw [hs]

theorem State.answerExchange_resuming {a : State} {x : Tag} {e : Exchange} (hx : a.exch x = some e)
    (hs : e.state = .resuming) (o : ReplyOutcome) (v : Word) :
    a.answerExchange x o v = if e.cancelMark then a.answerMarkedResume x e o else a.answerResume x e o := by
  unfold State.answerExchange; rw [hx]; dsimp only; rw [hs]

theorem State.answerExchange_ending {a : State} {x : Tag} {e : Exchange} (hx : a.exch x = some e)
    (hs : e.state = .halting ∨ e.state = .withdrawing) (o : ReplyOutcome) (v : Word) :
    a.answerExchange x o v = a.complete x := by
  unfold State.answerExchange; rw [hx]; dsimp only
  rcases hs with hs | hs <;> rw [hs]

/-- The request of an exchange of another kind is no IDENTIFY. -/
theorem ExKind.request_ne_identify {k : ExKind} (h : k ≠ .identifyStation) : k.request ≠ .identify := by
  cases k with
  | identifyStation => exact absurd rfl h
  | readBlocks | writeBlocks | query | control | configureStation | resetStation => decide

theorem Exchange.awaits.kind_ne {e : Exchange} {r : Request} (h : e.awaits r) (hk : e.kind ≠ .identifyStation) :
    r.kind ≠ .identify := by
  rcases h with ⟨-, h⟩ | ⟨-, h, -⟩
  · rw [h]; exact ExKind.request_ne_identify hk
  · rw [h]; decide

theorem ExKind.ne_identify_of_payload {k : ExKind} (h : k.payload = true) : k ≠ .identifyStation := by
  rintro rfl; cases h

/-- Settles O35: the rule of R10 for DONE is the end of the exchange with SUCCESS. -/
theorem doneReplyEndsQueryOrControl : Obligations.DoneReplyEndsQueryOrControl := by
  intro s f r rep x e h ho hx hs hr hm hk hd v
  have hx' := (s.exch_afterReply f rep x).trans hx
  have hi : r.kind ≠ .identify := by
    rw [hr]; exact ExKind.request_ne_identify (by rcases hk with hk | hk <;> rw [hk] <;> decide)
  have hstep : exec (.replyReceived f) s = .next ((s.afterReply f rep).endWith x .success v) := by
    rw [h.exchange ho (.inl hi), State.answerExchange_issuing hx' hs, if_neg (by rw [hm]; decide), hd]
    rcases hk with hk | hk <;> simp only [State.answerIssue, v, hk, if_true, reduceCtorEq, if_false]
  have he := State.endWith_ended hx' .success v
  refine ⟨_, hstep, he, fun hf => ?_, fun u hu => ?_⟩
  · rw [he.record]; unfold Exchange.finalAfter; rw [hf]; rfl
  · rw [he.stations u]
    split
    · have hc : ((s.afterReply f rep).station u).pendingConfigs = (s.station u).pendingConfigs := by
        rw [s.station_afterReply f rep u]
      have hfil : ((s.afterReply f rep).station u).pendingConfigs.filter (fun c => c.tag != x)
          = ((s.afterReply f rep).station u).pendingConfigs := by
        rw [hc]; exact List.filter_eq_self.2 fun c hcm => by simpa using hu c hcm
      rw [hfil, hs]; rfl
    · rfl

end Sys2Proof.Machine
end

section
namespace Sys2Proof.Machine

/-- R9, R15, R125: which rule refuses an outcome, in ISSUING and in RESUMING. -/
theorem State.answer_refused {a : State} {x : Tag} {e : Exchange} {r : Request} {o : ReplyOutcome} (v : Word)
    (hx : a.exch x = some e) (hw : e.awaits r) (hm : e.cancelMark = false) :
    (∀ reason, o = .rejected reason → a.answerExchange x o v = a.endWith x .rejected (reasonCode reason)) ∧
    (o = .undefined ∨ (e.kind.payload = true ∧ o = .done) ∨
        (e.kind.payload = false ∧ (o = .accepted ∨ o = .deferred ∨ o = .busy)) →
      a.answerExchange x o v = a.endWith x .protocol 0) := by
  have hn : ¬ e.cancelMark = true := by rw [hm]; decide
  rcases hw with ⟨hs, -⟩ | ⟨hs, -, hk⟩
  · rw [State.answerExchange_issuing hx hs, if_neg hn]
    refine ⟨fun reason ho => by rw [ho]; rfl, ?_⟩
    rintro (ho | ⟨hk, ho⟩ | ⟨hk, ho | ho | ho⟩) <;> rw [ho]
    · rfl
    · unfold State.answerIssue
      cases hk' : e.kind <;> rw [hk'] at hk <;> first | rfl | cases hk
    all_goals (unfold State.answerIssue; dsimp only; rw [if_neg (by rw [hk]; decide)])
  · rw [State.answerExchange_resuming hx hs, if_neg hn]
    refine ⟨fun reason ho => by rw [ho]; rfl, ?_⟩
    rintro (ho | ⟨-, ho⟩ | ⟨hk', -⟩)
    · rw [ho]; rfl
    · rw [ho]; rfl
    · rw [hk] at hk'; cases hk'

/-- Settles O36: both rules end the exchange, with the status of each. -/
theorem refusedOrUnpermittedReplyEndsTheExchange : Obligations.RefusedOrUnpermittedReplyEndsTheExchange := by
  intro s f r rep x e h ho hx hw hm
  have hx' := (s.exch_afterReply f rep x).trans hx
  obtain ⟨hrej, hprot⟩ := State.answer_refused (o := rep.outcome) rep.value hx' hw hm
  refine ⟨fun reason hr => ⟨_, ?_, State.endWith_ended hx' .rejected (reasonCode reason)⟩,
    fun hp => ⟨_, ?_, State.endWith_ended hx' .protocol 0⟩⟩
  · rw [h.exchange ho (.inr (by rw [hr]; simp)), hrej reason hr]
  · have hi : r.kind ≠ .identify ∨ rep.outcome ≠ .done := by
      rcases hp with hp | ⟨hk, -⟩ | ⟨-, hp | hp | hp⟩
      · exact .inr (by rw [hp]; decide)
      · exact .inl (hw.kind_ne (ExKind.ne_identify_of_payload hk))
      all_goals exact .inr (by rw [hp]; decide)
    rw [h.exchange ho hi, hprot hp]

/-- Settles O38: each of the three answers is one update of the exchange's record and its queue. -/
theorem busyOrDeferredReplyReturnsTheExchange : Obligations.BusyOrDeferredReplyReturnsTheExchange := by
  intro s f r rep x e h ho hx hw hm hk a
  have hx' : a.exch x = some e := (s.exch_afterReply f rep x).trans hx
  have hn : ¬ e.cancelMark = true := by rw [hm]; decide
  have hi : r.kind ≠ .identify := hw.kind_ne (ExKind.ne_identify_of_payload hk)
  have hstep := h.exchange ho (.inl hi)
  refine ⟨fun hb hs => ?_, fun hb hs => ?_, fun hd => ?_⟩
  · rw [hstep, State.answerExchange_issuing hx' hs, if_neg hn, hb]
    unfold State.answerIssue State.busyRequeue
    dsimp only; rw [if_pos hk, State.modExch_of_some _ hx']
    rfl
  · rw [hstep, State.answerExchange_resuming hx' hs, if_neg hn, hb]
    unfold State.answerResume
    dsimp only; rw [State.modExch_of_some _ hx']
    rfl
  · have hdef : a.answerExchange x .deferred rep.value = a.modExch x (Exchange.deferredFor a.deferralTime) := by
      rcases hw with ⟨hs, -⟩ | ⟨hs, -⟩
      · rw [State.answerExchange_issuing hx' hs, if_neg hn]
        unfold State.answerIssue; dsimp only; rw [if_pos hk]
      · rw [State.answerExchange_resuming hx' hs, if_neg hn]; rfl
    have ht : a.deferralTime = Cfg.deferralLimit s.cfg * 1000000 := by
      unfold State.deferralTime nsPerMs; rw [s.cfg_afterReply f rep]
    rw [hstep, hd, hdef, State.modExch_of_some _ hx', ht]
    rfl

/-! ## A reply to CONFIGURE or RESET (R11, R12) -/

/-- R53: the settings of a CONFIGURE become current at a READY station. -/
theorem State.applySettings_ready {a : State} {e : Exchange} (h : (a.station e.station).state = .ready) :
    a.applySettings e = { a with
      stations := a.stations.set e.station { a.station e.station with settings := some (e.lanes, e.blockExp) } } := by
  unfold State.applySettings State.isReady; rw [h]; rfl

/-- R54: what a station reset leaves of the station's own record. -/
theorem StationReset.station {s t : State} {x : Tag} {e : Exchange} (h : StationReset s t x e) :
    (t.station e.station).state = .resetting ∧ (t.station e.station).profile = none ∧
    (t.station e.station).settings = none ∧ (t.station e.station).saturation = none ∧
    (t.station e.station).notices = 0 ∧ (t.station e.station).settle = some 5000000 ∧
    (t.station e.station).latch = (s.station e.station).latch := by
  have hu := Swept.station (s := s.stationResets e.station) h.swept e.station
  have hb := State.station_modStation_self s e.station (fun r =>
    { r with state := .resetting, profile := none, settings := none, saturation := none, notices := 0,
             settle := some settleTime })
  unfold State.stationResets at hu
  rw [hb] at hu
  rw [hu]
  exact ⟨rfl, rfl, rfl, ite_self _, rfl, rfl, rfl⟩

/-- Settles O40: a station's settings are written, or the station is reset, as its exchange ends. -/
theorem doneReplyConfiguresOrResetsAStation : Obligations.DoneReplyConfiguresOrResetsAStation := by
  intro s f r rep x e h ho hx hs hr hm hd a
  have hx' : a.exch x = some e := (s.exch_afterReply f rep x).trans hx
  have hn : ¬ e.cancelMark = true := by rw [hm]; decide
  have hstep : e.kind ≠ .identifyStation →
      exec (.replyReceived f) s = .next (a.answerIssue x e rep.value .done) := fun hk => by
    rw [h.exchange ho (.inl (by rw [hr]; exact ExKind.request_ne_identify hk)),
      State.answerExchange_issuing hx' hs, if_neg hn, hd]
  have hst := s.station_afterReply f rep e.station
  refine ⟨fun hk hready => ?_, fun hk => ?_⟩
  · have hset := State.applySettings_ready (a := a) (e := e)
      (show (a.station e.station).state = .ready by rw [hst]; exact hready)
    have hend := State.endWith_ended (s := a.applySettings e) (e := e) (by rw [hset]; exact hx') .success 0
    rw [hset] at hend
    refine ⟨_, ?_, hend⟩
    rw [hstep (by rw [hk]; decide), ← hset]
    unfold State.answerIssue; dsimp only; rw [hk]
  · have hreset := State.stationResetDone_reset hx' hs
    obtain ⟨h1, h2, h3, h4, h5, h6, h7⟩ := hreset.station
    refine ⟨_, ?_, hreset, h1, h2, h3, h4, h5, h6, h7.trans (by rw [hst])⟩
    rw [hstep (by rw [hk]; decide)]
    unfold State.answerIssue; dsimp only; rw [hk]

end Sys2Proof.Machine
end

section
namespace Sys2Proof.Machine

/-! ## ACCEPTED: an exchange takes the lanes (R13, R83, R109, R136) -/

theorem stations_set (v : Vector Station 8) (i u : StationId) (r : Station) :
    (v.set i r)[u] = if u = i then r else v[u] := by
  by_cases h : u = i
  · subst h; simp
  · have : ¬ i.val = u.val := fun h' => h (Fin.ext h'.symm)
    simp [h, this]

/-- R13, R57: on ACCEPTED the record is written, and leaving RESUMING clears the saturated flag. -/
theorem State.accepted_eq {a : State} {x : Tag} {e : Exchange} (hx : a.exch x = some e)
    (hs : e.state = .issuing ∨ e.state = .resuming) (new : ExState) :
    (a.moveTo x new).modExch x (Exchange.accepted new) =
      { a with
        table := a.table.set x (some (e.accepted new)),
        stations := if e.state = .resuming then
            a.stations.set e.station { a.station e.station with saturation := none }
          else a.stations } := by
  have hm : (a.moveTo x new).exch x = some { e with state := new } := by
    unfold State.moveTo; rw [hx]; dsimp only; split
    · exact State.exch_setExch_self _ _ _
    · exact State.exch_setExch_self _ _ _
  rw [State.modExch_of_some _ hm]
  unfold State.moveTo
  rw [hx]
  rcases hs with hs | hs
  · simp [hs, ExState.freesRoom, State.setExch, Exchange.accepted]
  · simp [hs, ExState.freesRoom, State.setExch, Exchange.accepted, State.clearSaturation, State.modStation,
      State.station]

/-- The station records after ACCEPTED, one at a time. -/
theorem State.station_accepted {a t : State} {e : Exchange}
    (h : t.stations = if e.state = .resuming then
        a.stations.set e.station { a.station e.station with saturation := none }
      else a.stations) (u : StationId) :
    t.station u = if u = e.station ∧ e.state = .resuming then { a.station u with saturation := none }
      else a.station u := by
  unfold State.station
  rw [h]
  by_cases hs : e.state = .resuming
  · simp only [hs, if_true, and_true, stations_set]
    by_cases hu : u = e.station
    · subst hu; rfl
    · rw [if_neg hu, if_neg hu]
  · simp only [hs, if_false, and_false]

/-- A table in which one slot is written, one slot at a time. -/
theorem State.exch_of_table {a t : State} {x : Tag} {o : Option Exchange} (h : t.table = a.table.set x o) :
    t.exch x = o ∧ ∀ u, u ≠ x → t.exch u = a.exch u := by
  have he : ∀ u, t.exch u = (a.setExch x o).exch u := fun u => by unfold State.exch; rw [h]; rfl
  exact ⟨(he x).trans (State.exch_setExch_self a x o),
    fun u hu => (he u).trans (State.exch_setExch_ne a o (Ne.symm hu))⟩

/-- R13, R125, R133, R135: ACCEPTED of a payload kind, without and with a cancel mark. -/
theorem State.answer_accepted {a : State} {x : Tag} {e : Exchange} {r : Request} (v : Word) (hx : a.exch x = some e)
    (hw : e.awaits r) (hk : e.kind.payload = true) :
    a.answerExchange x .accepted v = if e.cancelMark then a.acceptHalted x e else a.acceptTransfer x e := by
  rcases hw with ⟨hs, -⟩ | ⟨hs, -⟩
  · rw [State.answerExchange_issuing hx hs]
    unfold State.answerMarkedIssue State.answerIssue
    dsimp only; rw [if_pos hk, if_pos hk]
  · rw [State.answerExchange_resuming hx hs]; rfl

theorem Exchange.awaits.state {e : Exchange} {r : Request} (h : e.awaits r) :
    e.state = .issuing ∨ e.state = .resuming :=
  h.elim (fun h => .inl h.1) (fun h => .inr h.1)

/-- R83: the payload engine's record as an exchange takes the lanes. -/
theorem Payload.taken_eq {e : Exchange} {b : Nat} (hb : e.blockSize = some b) (x : Tag) (l : Nat) (halted : Bool) :
    Payload.taken x e l halted =
      { owner := x, dir := if e.kind = .writeBlocks then .write else .read, station := e.station, laneWidth := l,
        blockSize := b, count := e.count.toNat,
        phase := if halted then .halted else if e.kind = .writeBlocks then .loadWait else .grantPending,
        linkPos := 0, pos := 0, blockRetries := 0, tokenWaits := 0, dataTimer := none, holdTimer := none,
        gapDue := true, repeatDue := false, resendDue := false, reopen := false, tail := .nothing, grant := none,
        elapsed := 0, wait := if e.kind = .writeBlocks then 0 else 4, sendCheck := none, sendLanes := [] } := by
  unfold Payload.taken
  rw [hb]
  cases e.kind <;> rfl

/-- R133, R135: DEFERRED, and BUSY to RESUME, lead an exchange with a cancel mark to WITHDRAWING. -/
theorem State.answer_withdraws {a : State} {x : Tag} {e : Exchange} {r : Request} {o : ReplyOutcome} (v : Word)
    (hx : a.exch x = some e) (hw : e.awaits r) (hm : e.cancelMark = true) (hk : e.kind.payload = true)
    (ho : o = .deferred ∨ (o = .busy ∧ e.state = .resuming)) :
    a.answerExchange x o v = a.modExch x Exchange.withdrawn := by
  rcases hw with ⟨hs, -⟩ | ⟨hs, -⟩
  · rcases ho with ho | ⟨-, hs'⟩
    · rw [State.answerExchange_issuing hx hs, if_pos hm, ho]
      unfold State.answerMarkedIssue; dsimp only; rw [if_pos hk]
    · rw [hs] at hs'; cases hs'
  · rw [State.answerExchange_resuming hx hs, if_pos hm]
    rcases ho with ho | ⟨ho, -⟩ <;> rw [ho] <;> rfl

/-- R133, R135: any other outcome ends an exchange of a payload kind with a cancel mark. -/
theorem State.answer_marked_ends {a : State} {x : Tag} {e : Exchange} {r : Request} {o : ReplyOutcome} (v : Word)
    (hx : a.exch x = some e) (hw : e.awaits r) (hm : e.cancelMark = true) (hk : e.kind.payload = true)
    (ho : o = .done ∨ o = .undefined ∨ ∃ reason, o = .rejected reason) : a.answerExchange x o v = a.complete x := by
  rcases hw with ⟨hs, -⟩ | ⟨hs, -⟩
  · rw [State.answerExchange_issuing hx hs, if_pos hm]
    rcases ho with hd | hd | ⟨reason, hd⟩ <;> rw [hd]
    · unfold State.answerMarkedIssue; cases hk' : e.kind <;> rw [hk'] at hk <;> first | rfl | cases hk
    · rfl
    · rfl
  · rw [State.answerExchange_resuming hx hs, if_pos hm]
    rcases ho with hd | hd | ⟨reason, hd⟩ <;> rw [hd] <;> rfl

/-- R136: of an exchange of another kind with a cancel mark, QUERY, CONTROL and every outcome but DONE end it. -/
theorem State.answer_marked_other {a : State} {x : Tag} {e : Exchange} {o : ReplyOutcome} (v : Word)
    (hx : a.exch x = some e) (hs : e.state = .issuing) (hm : e.cancelMark = true) (hk : e.kind.payload = false)
    (ho : e.kind = .query ∨ e.kind = .control ∨ o ≠ .done) : a.answerExchange x o v = a.complete x := by
  have hn : ¬ e.kind.payload = true := by rw [hk]; decide
  rw [State.answerExchange_issuing hx hs, if_pos hm]
  unfold State.answerMarkedIssue
  cases hout : o <;> dsimp only
  case done => rcases ho with hq | hq | hq <;> first | rw [hq] | exact absurd hout hq
  all_goals rw [if_neg hn]

/-- R124: only a payload kind is resumed. -/
theorem Exchange.awaits.issuing {e : Exchange} {r : Request} (h : e.awaits r) (hk : e.kind.payload = false) :
    e.state = .issuing := by
  rcases h with ⟨hs, -⟩ | ⟨-, -, hk'⟩
  · exact hs
  · rw [hk] at hk'; cases hk'

/-- Settles O39: the cause recorded stays, whichever way the exchange goes. -/
theorem replyToAnEndingExchangeKeepsItsCause : Obligations.ReplyToAnEndingExchangeKeepsItsCause := by
  intro s f r rep x e st v h ho hx hf a
  have hx' : a.exch x = some e := (s.exch_afterReply f rep x).trans hx
  have hfin : e.final.isSome = true := by rw [hf]; rfl
  have hst := s.station_afterReply f rep e.station
  refine ⟨fun hs hi => ?_,
    fun hw hm hk => ⟨fun ho' => ?_, fun b l be hacc hb hset => ?_, fun hb hs => ?_, fun hend => ?_⟩,
    fun hw hm hk => ⟨fun hend => ?_, fun hkind hd hready => ?_, fun hkind hd => ?_⟩⟩
  · exact ⟨_, by rw [h.exchange ho (.inl hi), State.answerExchange_ending hx' hs], State.complete_ended hx' hfin st v⟩
  · have hstep := h.exchange ho (.inl (hw.kind_ne (ExKind.ne_identify_of_payload hk)))
    rw [hstep, State.answer_withdraws _ hx' hw hm hk ho', State.modExch_of_some _ hx']
    rfl
  · have hl : a.laneWidthOf e.station = l := by
      unfold State.laneWidthOf; rw [hst]; dsimp only; rw [hset]
    have hstep := h.exchange ho (.inl (hw.kind_ne (ExKind.ne_identify_of_payload hk)))
    rw [hacc, State.answer_accepted rep.value hx' hw hk, if_pos hm] at hstep
    unfold State.acceptHalted at hstep
    dsimp only at hstep
    rw [State.accepted_eq hx' hw.state, Payload.taken_eq hb, hl] at hstep
    refine ⟨_, hstep, ?_⟩
    refine ⟨(State.exch_of_table (a := a) rfl).1, fun u hu => ?_, State.station_accepted (a := a) rfl, rfl, rfl⟩
    exact ((State.exch_of_table (a := a) rfl).2 u hu).trans (s.exch_afterReply f rep u)
  · have hstep := h.exchange ho (.inl (hw.kind_ne (ExKind.ne_identify_of_payload hk)))
    refine ⟨_, ?_, State.complete_ended (s := a.setSaturated e.station) hx' hfin st v⟩
    rw [hstep, State.answerExchange_issuing hx' hs, if_pos hm, hb]
    unfold State.answerMarkedIssue; dsimp only; rw [if_pos hk]
  · have hstep := h.exchange ho (.inl (hw.kind_ne (ExKind.ne_identify_of_payload hk)))
    exact ⟨_, by rw [hstep, State.answer_marked_ends _ hx' hw hm hk hend], State.complete_ended hx' hfin st v⟩
  all_goals have hs := hw.issuing hk
  · have hi : r.kind ≠ .identify ∨ rep.outcome ≠ .done := by
      rcases hend with hq | hq | hq
      · exact .inl (hw.kind_ne (by rw [hq]; decide))
      · exact .inl (hw.kind_ne (by rw [hq]; decide))
      · exact .inr hq
    exact ⟨_, by rw [h.exchange ho hi, State.answer_marked_other _ hx' hs hm hk hend],
      State.complete_ended hx' hfin st v⟩
  · have hset := State.applySettings_ready (a := a) (e := e)
      (show (a.station e.station).state = .ready by rw [hst]; exact hready)
    have hend := State.complete_ended (s := a.applySettings e) (e := e) (by rw [hset]; exact hx') hfin st v
    rw [hset] at hend
    refine ⟨_, ?_, hend⟩
    rw [h.exchange ho (.inl (hw.kind_ne (by rw [hkind]; decide))), State.answerExchange_issuing hx' hs, if_pos hm, hd,
      ← hset]
    unfold State.answerMarkedIssue; dsimp only; rw [hkind]
  · have hkeep : a.recordCause x .success 0 = a := by
      rw [State.recordCause_eq hx']
      unfold Exchange.finalAfter; rw [if_pos hfin]
      unfold State.setExch; rw [State.table_set_same hx']
    have hreset := State.stationResetDone_reset hx' hs
    rw [hkeep] at hreset
    refine ⟨_, ?_, hreset⟩
    rw [h.exchange ho (.inl (hw.kind_ne (by rw [hkind]; decide))), State.answerExchange_issuing hx' hs, if_pos hm, hd]
    unfold State.answerMarkedIssue; dsimp only; rw [hkind]

end Sys2Proof.Machine
end

section
namespace Sys2Proof.Machine

/-! ## The first descriptor of a list (R105, R106, R108) -/

/-- R105, R108: a first inline descriptor that can be used. -/
def Descriptor.Good (d : Descriptor) : Prop := d.chain = false ∧ 1 ≤ d.len ∧ d.len ≤ 16777216

/-- A good inline descriptor is taken into use. -/
theorem Walk.takeInline_good {w : Walk} {d : Descriptor} (h : d.Good) (k : Nat) :
    w.takeInline k d = .ready { w with pos := .inline (k + 1), ended := d.last || k != 0, walked := w.walked + 1,
                                       needed := false, cur := some { desc := d, index := w.walked, offset := 0 } } := by
  obtain ⟨h1, h2, h3⟩ := h
  unfold Walk.takeInline
  rw [if_neg (by rw [h1]; decide), if_neg (by unfold maxSegment; omega)]

theorem Walk.takeInline_bad {w : Walk} {d : Descriptor} (h : ¬ d.Good) (k : Nat) :
    w.takeInline k d = .fault .listMalformed := by
  unfold Walk.takeInline
  split
  · rfl
  · rename_i hc
    rw [if_pos]
    by_contra hn
    exact h ⟨by simpa using hc, by omega, by unfold maxSegment at hn; omega⟩

/-- The walk in which the first inline descriptor has been taken into use. -/
def Walk.firstInline (d : Descriptor) (n : Nat) : Walk :=
  { pos := .inline 1, ended := d.last, cur := some { desc := d, index := 0, offset := n }, walked := 1,
    look := .empty, needed := false }

/-- The walk that waits for the first entry of a listed page. -/
def Walk.firstPage (addr : BitVec 64) : Walk :=
  { pos := .page addr 0, ended := false, cur := none, walked := 0, look := .empty, needed := true }

/-- R105, R106, R108: the three ways a list begins. -/
theorem Walk.start_inline {g : SegSource} (hl : g.list = false) (hd : g.d0.Good) :
    (Walk.start g).need g = .ready (Walk.firstInline g.d0 0) := by
  unfold Walk.need Walk.start
  rw [hl]
  refine (Walk.takeInline_good hd 0).trans ?_
  unfold Walk.firstInline; simp

theorem Walk.start_page {g : SegSource} (hl : g.list = true) (hd : g.d0.addr.toNat % 16 = 0) :
    (Walk.start g).need g = .read (Walk.firstPage g.d0.addr) g.d0.addr := by
  unfold Walk.need Walk.start
  rw [hl]
  dsimp only
  rw [if_neg (by decide), if_pos rfl]
  dsimp only
  rw [if_neg (by decide), if_pos rfl]
  unfold Walk.openPage
  rw [if_neg (by rw [hd]; decide)]
  rfl

theorem Walk.start_malformed {g : SegSource}
    (h : (g.list = false ∧ ¬ g.d0.Good) ∨ (g.list = true ∧ g.d0.addr.toNat % 16 ≠ 0)) :
    (Walk.start g).need g = .fault .listMalformed := by
  unfold Walk.need Walk.start
  rcases h with ⟨hl, hd⟩ | ⟨hl, hd⟩
  · rw [hl]; exact Walk.takeInline_bad hd 0
  · rw [hl]
    dsimp only
    rw [if_neg (by decide), if_pos rfl]
    dsimp only
    rw [if_neg (by decide), if_pos rfl]
    unfold Walk.openPage
    rw [if_pos hd]

/-! ## A payload job begins (R109) -/

/-- R109: the payload job of an exchange that takes the lanes, before its first descriptor is judged. -/
def Job.first (x : Tag) (dir : Direction) (b n : Nat) (w : Walk) : Job :=
  { tag := x, dir := dir, blockSize := b, count := n, walk := w, nextBlock := 0, inHand := none }

/-- R2, R109: the segment cursor at the start of a list. -/
def Exchange.atStart (e : Exchange) : Exchange := { e with cursor := some { index := 0, offset := 0 } }

/-- The state in which the payload job `j` is present and the segment cursor stands at the start of the list. -/
def State.withJob (s : State) (x : Tag) (e : Exchange) (j : Job) : State :=
  { s with job := some j, table := s.table.set x (some e.atStart) }

theorem State.exch_withJob (s : State) (x : Tag) (e : Exchange) (j : Job) : (s.withJob x e j).exch x = some e.atStart :=
  State.exch_setExch_self s x _

theorem State.startJob_eq {s : State} {x : Tag} {e : Exchange} {g : SegSource} (hx : s.exch x = some e)
    (hg : e.seg = some g) (dir : Direction) (b n : Nat) :
    s.startJob x dir b n
      = (s.withJob x e (Job.first x dir b n (Walk.start g))).jobNeed (Job.first x dir b n (Walk.start g))
          ((Walk.start g).need g) := by
  have hw : s.setWalk (Job.first x dir b n (Walk.start g)) (Walk.start g)
      = s.withJob x e (Job.first x dir b n (Walk.start g)) :=
    State.setWalk_eq (j := Job.first x dir b n (Walk.start g)) hx _
  have hs : s.startJob x dir b n
      = (s.setWalk (Job.first x dir b n (Walk.start g)) (Walk.start g)).needDescriptor
          (Job.first x dir b n (Walk.start g)) := by
    unfold State.startJob State.segOf; rw [hx]; dsimp only [Option.bind]; rw [hg]; rfl
  have hseg : (s.withJob x e (Job.first x dir b n (Walk.start g))).segOf x = some g := by
    unfold State.segOf
    rw [State.exch_withJob]
    exact hg
  rw [hs, hw]
  unfold State.needDescriptor
  rw [show (Job.first x dir b n (Walk.start g)).tag = x from rfl, hseg]
  rfl

/-- A walk whose first descriptor stands at its start, or has not been read, leaves the cursor at the start. -/
theorem State.withJob_setWalk {s : State} {x : Tag} {e : Exchange} {j : Job} (hj : j.tag = x) {w : Walk}
    (hw : w.cursor = { index := 0, offset := 0 }) :
    (s.withJob x e j).setWalk j w = s.withJob x e { j with walk := w } := by
  subst hj
  rw [State.setWalk_eq (s.exch_withJob j.tag e j), hw]
  unfold State.withJob
  dsimp only
  rw [table_set_set]
  rfl

/-- R109: the job takes a good first descriptor into use. -/
theorem State.startJob_inline {s : State} {x : Tag} {e : Exchange} {g : SegSource} (hx : s.exch x = some e)
    (hg : e.seg = some g) (hl : g.list = false) (hd : g.d0.Good) (dir : Direction) (b n : Nat) :
    s.startJob x dir b n = s.withJob x e (Job.first x dir b n (Walk.firstInline g.d0 0)) := by
  rw [State.startJob_eq hx hg, Walk.start_inline hl hd]
  exact State.withJob_setWalk (j := Job.first x dir b n (Walk.start g)) rfl rfl

/-- R106, R109: the job reads its first descriptor under LIST. -/
theorem State.startJob_page {s : State} {x : Tag} {e : Exchange} {g : SegSource} (hx : s.exch x = some e)
    (hg : e.seg = some g) (hl : g.list = true) (hd : g.d0.addr.toNat % 16 = 0) (dir : Direction) (b n : Nat) :
    s.startJob x dir b n
      = (s.withJob x e (Job.first x dir b n (Walk.firstPage g.d0.addr))).issue (.descriptor x) g.d0.addr 16 [] := by
  rw [State.startJob_eq hx hg, Walk.start_page hl hd]
  exact congrArg (fun m : State => m.issue (.descriptor x) g.d0.addr 16 [])
    (State.withJob_setWalk (j := Job.first x dir b n (Walk.start g)) rfl rfl)

/-- R108, R112: a malformed first descriptor is a fault of the job. -/
theorem State.startJob_malformed {s : State} {x : Tag} {e : Exchange} {g : SegSource} (hx : s.exch x = some e)
    (hg : e.seg = some g) (ht : e.state = .transfer)
    (hd : (g.list = false ∧ ¬ g.d0.Good) ∨ (g.list = true ∧ g.d0.addr.toNat % 16 ≠ 0)) (dir : Direction) (b n : Nat) :
    MoverReports (s.withJob x e (Job.first x dir b n (Walk.start g))) (s.startJob x dir b n) x e.atStart
      .listMalformed := by
  rw [State.startJob_eq hx hg, Walk.start_malformed hd]
  exact State.moverFault_reports (j := Job.first x dir b n (Walk.start g)) rfl (s.exch_withJob x e _) ht _

/-! ## ACCEPTED without a cancel mark -/

/-- R13, R57, R83: the state in which an exchange has taken the lanes, its payload engine `p`, and no job yet. -/
def State.taken (a : State) (x : Tag) (e : Exchange) (p : Payload) : State :=
  { a with
    table := a.table.set x (some (e.accepted .transfer)),
    stations := if e.state = .resuming then
        a.stations.set e.station { a.station e.station with saturation := none }
      else a.stations,
    payload := some p }

theorem State.acceptTransfer_eq {a : State} {x : Tag} {e : Exchange} (hx : a.exch x = some e)
    (hs : e.state = .issuing ∨ e.state = .resuming) {p : Payload}
    (hp : Payload.taken x e (a.laneWidthOf e.station) false = p) :
    a.acceptTransfer x e = (a.taken x e p).startJob x p.dir p.blockSize p.count := by
  unfold State.acceptTransfer
  dsimp only
  rw [State.accepted_eq hx hs, hp]
  rfl

/-- Settles O37: the exchange takes the lanes, and its payload job begins as its list does. -/
theorem acceptedReplyTakesTheLanes : Obligations.AcceptedReplyTakesTheLanes := by
  intro s f r rep x e g b l be h ho hx hw hm hk hacc hg hb hset dir p job e' running
  have hx' := (s.exch_afterReply f rep x).trans hx
  have hl : (s.afterReply f rep).laneWidthOf e.station = l := by
    unfold State.laneWidthOf; rw [s.station_afterReply f rep e.station]; dsimp only; rw [hset]
  have hp : Payload.taken x e ((s.afterReply f rep).laneWidthOf e.station) false = p := by
    rw [hl, Payload.taken_eq hb]
    simp only [p, dir]
    by_cases hkw : e.kind = .writeBlocks <;> simp [hkw]
  have hstep : exec (.replyReceived f) s
      = .next (((s.afterReply f rep).taken x e p).startJob x dir b e.count.toNat) := by
    rw [h.exchange ho (.inl (hw.kind_ne (ExKind.ne_identify_of_payload hk))), hacc,
      State.answer_accepted rep.value hx' hw hk, if_neg (by rw [hm]; decide), State.acceptTransfer_eq hx' hw.state hp]
  have hxt : ((s.afterReply f rep).taken x e p).exch x = some (e.accepted .transfer) :=
    State.exch_setExch_self (s.afterReply f rep) x _
  have htable : ∀ w : Walk, (((s.afterReply f rep).taken x e p).withJob x (e.accepted .transfer) (job w)).table
      = (s.afterReply f rep).table.set x (some e') := fun w => table_set_set _ _ _ _
  -- The state in which the job runs, and its step of access numbers.
  have hrun : ∀ (w : Walk) (t : State), exec (.replyReceived f) s = .next t →
      t = { ((s.afterReply f rep).taken x e p).withJob x (e.accepted .transfer) (job w) with
            accesses := t.accesses, nextAccess := t.nextAccess } → running w t := by
    intro w t hst ht
    have htab : t.table = (s.afterReply f rep).table.set x (some e') := by rw [ht]; exact htable w
    have hot := State.exch_of_table htab
    refine ⟨hst, hot.1, fun u hu => (hot.2 u hu).trans (s.exch_afterReply f rep u),
      State.station_accepted (by rw [ht]; rfl), by rw [ht]; rfl, by rw [ht]; rfl, by rw [ht]; rfl⟩
  have hacs : (s.afterReply f rep).accesses = s.accesses ∧ (s.afterReply f rep).nextAccess = s.nextAccess := by
    rw [s.afterReply_rest f rep]; exact ⟨rfl, rfl⟩
  refine ⟨fun hgl hc h1 h2 => ?_, fun hgl ha => ?_, fun hbad => ?_⟩
  · rw [State.startJob_inline hxt hg hgl ⟨hc, h1, h2⟩] at hstep
    exact ⟨_, hrun _ _ hstep rfl, hacs.1, hacs.2⟩
  · rw [State.startJob_page hxt hg hgl ha] at hstep
    refine ⟨_, hrun _ _ hstep rfl, ?_, ?_⟩
    · show (s.afterReply f rep).accesses ++ [{ id := (s.afterReply f rep).nextAccess, .. }] = _
      rw [hacs.1, hacs.2]
    · show (s.afterReply f rep).nextAccess + 1 = _
      rw [hacs.2]
  · intro a
    have hrep := State.startJob_malformed hxt hg rfl
      (hbad.imp (fun hh => ⟨hh.1, fun hgood => by
        obtain ⟨h1, h2, h3⟩ := hgood
        rcases hh.2 with hh | hh | hh
        · rw [h1] at hh; cases hh
        all_goals omega⟩) id) dir b e.count.toNat
    have hhalt := hrep.1 (by unfold Exchange.readFinished; exact Bool.and_false _)
    refine ⟨_, hstep, ?_⟩
    have hbase : ({ ((s.afterReply f rep).taken x e p).withJob x (e.accepted .transfer)
          (Job.first x dir b e.count.toNat (Walk.start g)) with job := none } : State)
        = { a with
            table := a.table.set x (some e'),
            stations := if e.state = .resuming then
                a.stations.set e.station { a.station e.station with saturation := none }
              else a.stations,
            payload := some p, job := none } := by
      have htab := htable (Walk.start g)
      unfold State.withJob State.taken at htab ⊢
      dsimp only at htab ⊢
      rw [htab]
    rw [hbase] at hhalt
    exact hhalt

end Sys2Proof.Machine
end

section
/-! A failed attempt (R72, R73): the command that makes it fail, and what the owner of the request meets. -/

namespace Sys2Proof.Machine

/-! ## The commands of a failed attempt -/

/-- R31, R33, R71, R76: whichever way an attempt fails, the request is resent or exhausted from the state it names. -/
theorem State.AttemptFails.exec {s m : State} {r : Request} {c : Instr} {k : FailKind} (h : s.AttemptFails r c k m)
    (hl : s.live = true) (hc : s.current = some r) (hd : r.detached = false) :
    exec c s = .next (m.retryOrExhaust r k) := by
  have hnd : ¬ r.detached = true := by rw [hd]; decide
  cases h with
  | window n hcl hp hm =>
    have ho : s.openWindow = some r := by unfold State.openWindow; rw [hc, hcl]; simp [hl, hp]
    show Host.Outcome.next _ = _
    rw [ho]; dsimp only
    unfold State.windowOver
    rw [if_neg hnd, show s.quietGap.markedOwner r = none from hm]
    rfl
  | badReply f hcl hp hk hi hb =>
    rw [exec_replyReceived hl (State.awaited_eq hc hk hp hcl), hb]
    unfold State.takeReply; dsimp only; rw [if_neg hi]
    rfl
  | otherReply f rep hcl hp hk hi hg hne =>
    have hmatch : ¬ r.matches rep = true := by
      unfold Request.matches; simp only [Bool.and_eq_true, beq_iff_eq, not_and_or]; exact hne
    rw [exec_replyReceived hl (State.awaited_eq hc hk hp hcl), hg]
    unfold State.takeReply; dsimp only
    rw [if_neg (fun hh => hi.elim (fun h1 => h1 hh.1) (fun h1 => h1 hh.2)), if_neg hmatch, State.handCount_hear]
    rfl
  | token _ hs hcl hp hk hi =>
    obtain ⟨⟨f, tok⟩, htok⟩ := Option.isSome_iff_exists.1 hs
    rw [exec_token htok]
    unfold State.tokenReceived
    rw [if_pos hl, State.awaited_eq hc hk hp hcl]; dsimp only
    unfold State.takeReply; dsimp only; rw [if_neg hi]
    rfl
  | badProfile f hcl hb =>
    show Host.Outcome.next (s.profileStep f) = _
    unfold State.profileStep State.profileInterval
    rw [hc, hcl]; dsimp only; rw [if_pos hl]
    unfold State.takeProfile; dsimp only; rw [hb]
    rfl
  | discarded f k hcl =>
    show Host.Outcome.next (s.profileStep f) = _
    unfold State.profileStep State.profileInterval
    rw [hc, hcl]; dsimp only; rw [if_pos hl]
    rfl

/-- The failure itself reaches CL, the lane-low count and the notices-waiting counts alone. -/
theorem State.AttemptFails.rest {s m : State} {r : Request} {c : Instr} {k : FailKind} (h : s.AttemptFails r c k m) :
    m = { s with stations := m.stations, cl := m.cl, laneLow := m.laneLow } ∧
      ∀ u, m.station u = { s.station u with notices := (m.station u).notices } := by
  cases h with
  | otherReply f rep =>
    refine ⟨?_, s.handCount_station rep⟩
    rw [s.handCount_stations rep]
  | _ => exact ⟨rfl, fun _ => rfl⟩

/-! ## What the owner meets -/

/-- R72: below the retry limit the request is to be sent again. -/
theorem State.retryOrExhaust_again {m : State} {r : Request} (hd : r.detached = false)
    (hn : r.attemptsFailed < m.retryLimit) (k : FailKind) :
    m.retryOrExhaust r k
      = ({ m with current := some { r with attemptsFailed := r.attemptsFailed + 1, lastFailure := some k,
                                           phase := .toSend, abandoned := false } }).countRetry r
          (r.attemptsFailed + 1) := by
  unfold State.retryOrExhaust; rw [if_neg (by rw [hd]; decide), if_pos hn]

/-- R73: at the retry limit the request is exhausted. -/
theorem State.retryOrExhaust_exhausted {m : State} {r : Request} (hd : r.detached = false)
    (hn : m.retryLimit ≤ r.attemptsFailed) (k : FailKind) : m.retryOrExhaust r k = m.exhausted r k := by
  unfold State.retryOrExhaust; rw [if_neg (by rw [hd]; decide), if_neg (Nat.not_lt.2 hn)]

/-- R62, R72: the retries-used field of the request's owner follows the attempts that have failed. -/
theorem State.countRetry_exchange {m : State} {r : Request} {x : Tag} {e : Exchange} (ho : r.owner = .exchange x)
    (hx : m.exch x = some e) (n : Nat) :
    m.countRetry r n = m.setExch x (some { e with retriesUsed := some n }) := by
  unfold State.countRetry; rw [ho]; exact State.modExch_of_some _ hx

theorem State.countRetry_identify {m : State} {r : Request} {st : StationId} (ho : r.owner = .autoIdentify st)
    (n : Nat) :
    m.countRetry r n = m.modStation st (fun b => { b with identifyRetries := some n }) := by
  unfold State.countRetry; rw [ho]

theorem State.countRetry_other {m : State} {r : Request}
    (ho : (∃ st, r.owner = .fetchNotice st) ∨ r.owner = .strayWithdraw)
    (n : Nat) : m.countRetry r n = m := by
  unfold State.countRetry; rcases ho with ⟨st, ho⟩ | ho <;> rw [ho]

/-- R16, R73: an exchange's own request, or its RESUME, ends it with the status of the last failure. -/
theorem State.exhausted_awaits {m : State} {r : Request} {x : Tag} {e : Exchange} (ho : r.owner = .exchange x)
    (hw : e.awaits r) (k : FailKind) :
    m.exhausted r k = ({ m with current := none } : State).endWith x (exhaustedStatus k) 0 := by
  unfold State.exhausted
  dsimp only; rw [ho]; dsimp only
  rcases hw with ⟨-, hk⟩ | ⟨-, hk, -⟩
  · rw [hk]; cases e.kind <;> rfl
  · rw [hk]

theorem State.exhausted_halt {m : State} {r : Request} {x : Tag} (ho : r.owner = .exchange x) (hk : r.kind = .halt)
    (k : FailKind) : m.exhausted r k = ({ m with current := none } : State).startLinkReset .haltFailed := by
  unfold State.exhausted; dsimp only; rw [ho]; dsimp only; rw [hk]

theorem State.exhausted_withdraw {m : State} {r : Request} {x : Tag} (ho : r.owner = .exchange x)
    (hk : r.kind = .withdraw) (k : FailKind) :
    m.exhausted r k = ({ m with current := none } : State).startLinkReset .withdrawFailed := by
  unfold State.exhausted; dsimp only; rw [ho]; dsimp only; rw [hk]

/-- R19, R55: a station that becomes FAULTED, in the words of the statements. -/
theorem State.faultStation_faulted (s : State) (st : StationId) (cause : StationCause) :
    StationFaulted s (s.faultStation st cause) st cause :=
  ⟨s.loseStation st, s.loseStation_lost st, rfl⟩

theorem State.identifyFailed_identifying {s : State} {st : StationId} (h : (s.station st).state = .identifying) :
    s.identifyFailed st = s.faultStation st .identifyFailed := by
  unfold State.identifyFailed; rw [if_pos h]

theorem State.noticeFailed_ready {s : State} {st : StationId} (h : (s.station st).state = .ready) :
    s.noticeFailed st = ({ s with reservation := false } : State).faultStation st .noticeFailed := by
  unfold State.noticeFailed State.isReady
  dsimp only
  rw [if_pos]
  exact beq_iff_eq.2 h

/-- Settles O41: the retry limit decides, and then the owner of the request. -/
theorem failedAttemptIsResentOrExhausted : Obligations.FailedAttemptIsResentOrExhausted := by
  intro s m c r k hl hc hd hf n again done
  have hexec := hf.exec hl hc hd
  obtain ⟨hrest, hstation⟩ := hf.rest
  have hexch : ∀ x, m.exch x = s.exch x := fun x => by rw [hrest]; rfl
  have hstate : ∀ st, (m.station st).state = (s.station st).state := fun st => by rw [hstation st]
  have hlink : m.linkReset = s.linkReset := by rw [hrest]
  have hstray : m.stray = s.stray := by rw [hrest]
  have hlimit : m.retryLimit = Cfg.retryLimit s.cfg := by rw [hrest]; rfl
  refine ⟨fun hn => ?_, fun hn => ?_⟩
  · rw [hexec, State.retryOrExhaust_again hd (by rw [hlimit]; exact hn)]
    refine ⟨fun x e ho hx => ?_, fun st ho => ?_, fun ho => ?_⟩
    · rw [State.countRetry_exchange (m := { m with current := some again }) ho ((hexch x).trans hx)]; rfl
    · rw [State.countRetry_identify ho]; rfl
    · exact congrArg Host.Outcome.next (State.countRetry_other ho _)
  · rw [hexec, State.retryOrExhaust_exhausted hd (by rw [hlimit]; exact hn)]
    refine ⟨fun x e ho hx hw => ?_, fun x ho hk hlr => ?_, fun x ho hk hlr => ?_, fun st ho hst => ?_,
      fun st ho hst => ?_, fun ho => ?_⟩
    · have hstatus : exhaustedStatus k = if k = .window then .replyTimeout else .replyCheck := by cases k <;> rfl
      rw [State.exhausted_awaits ho hw, ← hstatus]
      exact ⟨_, rfl, State.endWith_ended (s := done) ((hexch x).trans hx) _ _⟩
    · rw [State.exhausted_halt ho hk]
      exact ⟨_, rfl, State.startLinkReset_begun (s := done) (hlink.trans hlr) _⟩
    · rw [State.exhausted_withdraw ho hk]
      exact ⟨_, rfl, State.startLinkReset_begun (s := done) (hlink.trans hlr) _⟩
    · have he : m.exhausted r k = done.identifyFailed st := by unfold State.exhausted; dsimp only; rw [ho]
      rw [he, State.identifyFailed_identifying (s := done) ((hstate st).trans hst)]
      exact ⟨_, rfl, State.faultStation_faulted _ st _⟩
    · have he : m.exhausted r k = done.noticeFailed st := by unfold State.exhausted; dsimp only; rw [ho]
      rw [he, State.noticeFailed_ready (s := done) ((hstate st).trans hst)]
      exact ⟨_, rfl, State.faultStation_faulted _ st _⟩
    · unfold State.exhausted; dsimp only; rw [ho]; dsimp only; rw [hstray]

end Sys2Proof.Machine
end

section
/-! IDENTIFY and the profile (R12, R31, R50, R51, R56, R133). -/

namespace Sys2Proof.Machine

/-! ## The fields of a profile (R31, R51, R177, R180) -/

/-- The two halves of a byte that lies in a longer word. -/
theorem extractLsb'_high {w : Nat} (p : BitVec w) (k : Nat) :
    (p.extractLsb' (k + 4) 4).toNat = (p.extractLsb' k 8).toNat / 16 := by
  simp only [BitVec.extractLsb'_toNat, Nat.shiftRight_add]
  rw [Nat.shiftRight_eq_div_pow _ 4]
  omega

theorem extractLsb'_low {w : Nat} (p : BitVec w) (k : Nat) :
    (p.extractLsb' k 4).toNat = (p.extractLsb' k 8).toNat % 16 := by
  simp only [BitVec.extractLsb'_toNat]
  omega

/-- The bytes of a value that is put together from four. -/
theorem append_bytes (a b c d : Byte) :
    (a ++ b ++ c ++ d).extractLsb' 24 8 = a ∧ (a ++ b ++ c ++ d).extractLsb' 16 8 = b ∧
    (a ++ b ++ c ++ d).extractLsb' 8 8 = c ∧ (a ++ b ++ c ++ d).extractLsb' 0 8 = d := by
  refine ⟨?_, ?_, ?_, ?_⟩ <;> ext i hi <;> simp only [BitVec.getElem_extractLsb', BitVec.getLsbD_append]
  · simp [show ¬ 24 + i < 8 by omega, show ¬ 24 + i - 8 < 8 by omega, show ¬ 24 + i - 8 - 8 < 8 by omega,
      show 24 + i - 8 - 8 - 8 = i by omega, BitVec.getLsbD_eq_getElem hi]
  · simp [show ¬ 16 + i < 8 by omega, show ¬ 16 + i - 8 < 8 by omega, show 16 + i - 8 - 8 = i by omega, hi]
  · simp [show ¬ 8 + i < 8 by omega, show 8 + i - 8 = i by omega, hi]
  · simp [hi]

theorem Profile.maxLanes_eq (p : BitVec 128) : Profile.maxLanes p = (p.extractLsb' 112 8).toNat / 16 :=
  extractLsb'_high p 112

theorem Profile.depth_eq (p : BitVec 128) : Profile.depth p = (p.extractLsb' 112 8).toNat % 16 :=
  extractLsb'_low p 112

/-- R51, R177: a profile is acceptable when its fields lie in their ranges. -/
theorem Profile.acceptable_iff (p : BitVec 128) :
    Profile.acceptable p = true ↔
      (Profile.maxLanes p = 1 ∨ Profile.maxLanes p = 2 ∨ Profile.maxLanes p = 4) ∧
      (1 ≤ Profile.depth p ∧ Profile.depth p ≤ 4) ∧ (6 ≤ Profile.maxExp p ∧ Profile.maxExp p ≤ 11) ∧
      (Profile.writeProtected p).toNat ≤ 1 := by
  unfold Profile.acceptable
  simp only [Bool.and_eq_true, Bool.or_eq_true, beq_iff_eq, decide_eq_true_eq, and_assoc, or_assoc]

/-- R180: the value of STATION_READY, byte by byte. -/
theorem Profile.readyValue_bytes (p : BitVec 128) :
    (Profile.readyValue p).extractLsb' 24 8 = Profile.classCode p ∧
    ((Profile.readyValue p).extractLsb' 16 8).toNat = Profile.maxLanes p ∧
    (Profile.readyValue p).extractLsb' 8 8 = p.extractLsb' 104 8 ∧
    ((Profile.readyValue p).extractLsb' 0 8).toNat = Profile.depth p := by
  obtain ⟨h1, h2, h3, h4⟩ := append_bytes (Profile.classCode p) (BitVec.ofNat 8 (Profile.maxLanes p))
    (BitVec.ofNat 8 (Profile.maxExp p)) (BitVec.ofNat 8 (Profile.depth p))
  have hl : Profile.maxLanes p < 2 ^ 8 := Nat.lt_trans (p.extractLsb' 116 4).isLt (by decide)
  have hd : Profile.depth p < 2 ^ 8 := Nat.lt_trans (p.extractLsb' 112 4).isLt (by decide)
  unfold Profile.readyValue
  refine ⟨h1, ?_, h3.trans (by unfold Profile.maxExp; rw [BitVec.ofNat_toNat, BitVec.setWidth_eq]), ?_⟩
  · rw [h2, BitVec.toNat_ofNat, Nat.mod_eq_of_lt hl]
  · rw [h4, BitVec.toNat_ofNat, Nat.mod_eq_of_lt hd]

/-! ## The held count of a station (R45) -/

theorem ExState.held_iff (x : ExState) :
    x.held = true ↔ x = .deferred ∨ x = .reconnecting ∨ x = .resuming ∨ x = .withdrawing := by
  cases x <;> decide

/-- The exchange of a tag counts in a station's held count. -/
def State.holds (s : State) (st : StationId) (x : Tag) : Bool :=
  (s.exch x).any (fun e => e.station == st && e.state.held)

theorem State.heldCount_eq (s : State) (st : StationId) :
    s.heldCount st = ((List.finRange 16).filter (s.holds st)).length := by
  have hall : allTags = List.finRange 16 := by decide
  unfold State.heldCount
  rw [hall]
  congr 2
  funext x
  unfold State.holds
  cases s.exch x <;> rfl

/-- The held count depends on which exchanges are held alone. -/
theorem State.heldCount_congr {s t : State} {st : StationId} (h : ∀ x, t.holds st x = s.holds st x) :
    t.heldCount st = s.heldCount st := by
  rw [State.heldCount_eq, State.heldCount_eq, funext h]

/-- An exchange that is not held, and stays so, changes no held count. -/
theorem State.heldCount_of_set {s t : State} {x : Tag} {e d : Exchange} (hx : s.exch x = some e)
    (ht : t.table = s.table.set x (some d)) (he : e.state.held = false) (hd : d.state.held = false) (st : StationId) :
    t.heldCount st = s.heldCount st := by
  refine State.heldCount_congr fun y => ?_
  obtain ⟨h1, h2⟩ := State.exch_of_table ht
  unfold State.holds
  by_cases hy : y = x
  · subst hy; rw [h1, hx]; simp [he, hd]
  · rw [h2 y hy]

/-! ## What a profile does to a station (R50, R51, R56) -/

/-- R51, R56: the record of a station that a profile has brought into service. -/
def Station.inService (p : BitVec 128) (b : Station) : Station :=
  { b with
    state := .ready, profile := some p, settings := some (1, min 9 (Profile.maxExp p)), identifyRetries := none,
    saturation := none, latch := some (.ready (Profile.readyValue p)) }

theorem State.stationReady_eq (s : State) (st : StationId) (p : BitVec 128) :
    s.stationReady st p = { s with stations := s.stations.set st ((s.station st).inService p) } := rfl

theorem State.stationProfile_faulted {s : State} {st : StationId} (h : (s.station st).state = .faulted)
    (p : BitVec 128) :
    s.stationProfile st p = if Profile.acceptable p then s.stationReady st p else s := by
  unfold State.stationProfile; rw [h]

/-- R56: a READY station keeps its settings with a profile that is acceptable and consistent with them. -/
theorem State.stationProfile_kept {s : State} {st : StationId} (h : (s.station st).state = .ready) {l b : Nat}
    (hset : (s.station st).settings = some (l, b)) {p : BitVec 128} (ha : Profile.acceptable p = true)
    (hl : l ≤ Profile.maxLanes p) (hb : b ≤ Profile.maxExp p) (hc : s.heldCount st ≤ Profile.depth p) :
    s.stationProfile st p
      = { s with stations := s.stations.set st { s.station st with profile := some p } } := by
  have hcons : s.consistent st p = true := by unfold State.consistent; rw [hset]; simp [hl, hb, hc]
  unfold State.stationProfile
  rw [h]; dsimp only
  rw [if_pos (by rw [ha, hcons]; rfl)]
  rfl

/-- R56: any other profile makes a READY station FAULTED. -/
theorem State.stationProfile_refused {s : State} {st : StationId} (h : (s.station st).state = .ready) {l b : Nat}
    (hset : (s.station st).settings = some (l, b)) {p : BitVec 128}
    (hr : Profile.acceptable p = false ∨ Profile.maxLanes p < l ∨ Profile.maxExp p < b
      ∨ Profile.depth p < s.heldCount st) :
    s.stationProfile st p = s.faultStation st .profileInvalid := by
  have hcons : (Profile.acceptable p && s.consistent st p) = false := by
    unfold State.consistent; rw [hset]; dsimp only
    by_contra hh
    simp only [Bool.not_eq_false, Bool.and_eq_true, decide_eq_true_eq] at hh
    obtain ⟨h1, ⟨h2, h3⟩, h4⟩ := hh
    rcases hr with hr | hr | hr | hr
    · rw [h1] at hr; cases hr
    all_goals omega
  unfold State.stationProfile
  rw [h]; dsimp only
  rw [if_neg (by rw [hcons]; decide)]

/-! ## A reply to IDENTIFY (R31, R71, R76) -/

/-- R31, R71: a DONE to IDENTIFY opens the profile interval, to be judged if it matches. -/
theorem State.takeReply_identify {s : State} {r : Request} (hk : r.kind = .identify) {rep : Reply}
    (hd : rep.outcome = .done) :
    s.takeReply r (some rep) = { s.handCount rep with
      current := some { r with phase := .receiving },
      cl := .profile (if r.matches rep then .judge else .discard .window) } := by
  unfold State.takeReply; dsimp only; rw [if_pos ⟨hk, hd⟩]

/-- R31, R71: a bad check there opens a profile interval to be discarded. -/
theorem State.takeReply_identify_bad {s : State} {r : Request} (hk : r.kind = .identify) :
    s.takeReply r none
      = { s with current := some { r with phase := .receiving }, cl := .profile (.discard .check) } := by
  unfold State.takeReply; dsimp only; rw [if_pos hk]

/-! ## The profile is delivered (R12, R31, R71) -/

/-- R34, R37: the state in which a profile in frame `f` is delivered. -/
def State.afterProfile (s : State) (f : BitVec 144) : State :=
  { s with cl := .guardGap 0, current := none, laneLow := lowAfter s.laneLow 0 f }

theorem exec_profileReceived {s : State} {r : Request} {f : BitVec 144} {p : BitVec 128} (hl : s.live = true)
    (hc : s.current = some r) (hcl : s.cl = .profile .judge) (hp : parseProfile f = some p) :
    exec (.profileReceived f) s = .next ((s.hear 0 f).beginGap.deliverProfile r p) := by
  show Host.Outcome.next (s.profileStep f) = _
  unfold State.profileStep State.profileInterval
  rw [hc, hcl]; dsimp only; rw [if_pos hl]
  unfold State.takeProfile; dsimp only; rw [hp]

theorem State.deliverProfile_detached (s : State) (f : BitVec 144) {r : Request} (hd : r.detached = true)
    (p : BitVec 128) : (s.hear 0 f).beginGap.deliverProfile r p = s.afterProfile f := by
  unfold State.deliverProfile; dsimp only; rw [if_pos hd]; rfl

theorem State.deliverProfile_identify (s : State) (f : BitVec 144) {r : Request} {st : StationId}
    (hd : r.detached = false) (ho : r.owner = .autoIdentify st) (p : BitVec 128) :
    (s.hear 0 f).beginGap.deliverProfile r p = (s.afterProfile f).judgeProfile st p := by
  unfold State.deliverProfile; dsimp only; rw [if_neg (by rw [hd]; decide), ho]; rfl

theorem State.deliverProfile_exchange (s : State) (f : BitVec 144) {r : Request} {x : Tag}
    (hd : r.detached = false) (ho : r.owner = .exchange x) (p : BitVec 128) :
    (s.hear 0 f).beginGap.deliverProfile r p = (s.afterProfile f).identifyDone x p := by
  unfold State.deliverProfile; dsimp only; rw [if_neg (by rw [hd]; decide), ho]; rfl

/-- R50, R51: the profile of an automatic IDENTIFY. -/
theorem State.judgeProfile_identifying {s : State} {st : StationId} (h : (s.station st).state = .identifying)
    (p : BitVec 128) :
    s.judgeProfile st p = if Profile.acceptable p then s.stationReady st p else s.faultStation st .profileInvalid := by
  unfold State.judgeProfile; rw [if_pos h]

/-- R133: the profile of an exchange with a cancel mark goes to the station alone. -/
theorem State.identifyDone_marked {s : State} {x : Tag} {e : Exchange} (hx : s.exch x = some e)
    (hs : e.state = .issuing) (hm : e.cancelMark = true) (p : BitVec 128) :
    s.identifyDone x p = (s.complete x).stationProfile e.station p := by
  unfold State.identifyDone; rw [hx]; dsimp only; rw [if_pos hs, if_pos hm]

/-- R12: a profile job as its exchange's DONE queues it. -/
def ProfileJob.queued (x : Tag) (p : BitVec 128) (g : SegSource) : ProfileJob :=
  { tag := x, bytes := p, walk := Walk.start g, started := false, placed := 0, issued := 0, ended := 0 }

/-- R12: the exchange is COMPLETING, and its profile job at the tail of the profile queue. -/
def State.profileQueued (s : State) (x : Tag) (p : BitVec 128) (g : SegSource) : State :=
  { s.enterCompleting x with profiles := s.profiles ++ [ProfileJob.queued x p g] }

theorem State.identifyDone_queued {s : State} {x : Tag} {e : Exchange} {g : SegSource} (hx : s.exch x = some e)
    (hs : e.state = .issuing) (hm : e.cancelMark = false) (hg : e.seg = some g) (p : BitVec 128) :
    s.identifyDone x p = (s.profileQueued x p g).stationProfile e.station p := by
  have hprof : (s.enterCompleting x).profiles = s.profiles := by rw [State.enterCompleting_eq hx]
  unfold State.identifyDone; rw [hx]; dsimp only; rw [if_pos hs, if_neg (by rw [hm]; decide), hg]
  unfold State.profileQueued ProfileJob.queued
  dsimp only; rw [hprof]

/-- R12, R22: where nothing of the exchange is left on the lanes, its end by DONE is one update. -/
theorem State.profileQueued_eq {s : State} {x : Tag} {e : Exchange} (hx : s.exch x = some e) (hs : e.state = .issuing)
    (hc : s.current = none) (ha : s.setAside = none) (hp : ∀ q, s.payload = some q → q.owner ≠ x)
    (hj : ∀ j, s.job = some j → j.tag ≠ x) (p : BitVec 128) (g : SegSource) :
    s.profileQueued x p g =
      { s with
        table := s.table.set x (some { e with state := .completing, retriesUsed := none, deferral := none }),
        pendingQ := s.pendingQ.set e.station ((s.queueOf e.station).filter (· != x)),
        reconnect := s.reconnect.filter (· != x),
        stations := s.stations.set e.station
          { s.station e.station with
            pendingConfigs := (s.station e.station).pendingConfigs.filter (fun c => c.tag != x) },
        profiles := s.profiles ++ [ProfileJob.queued x p g] } := by
  have hpay : s.payload.any (fun q => q.owner == x) = false := by
    cases hq : s.payload with
    | none => rfl
    | some q => simpa using hp q hq
  have hjob : s.job.bind (fun j => if j.tag = x then none else some j) = s.job := by
    cases hq : s.job with
    | none => rfl
    | some j => simp [hj j hq]
  unfold State.profileQueued
  rw [State.enterCompleting_eq hx, hc, ha, hpay, hjob, hs]
  simp only [Bool.false_eq_true, if_false, false_and, Option.bind_none]
  rfl

end Sys2Proof.Machine
end

section
namespace Sys2Proof.Machine

/-- R31, R51, R177, R180: where the fields of a profile lie, and what they must be. -/
theorem Profile.fields (p : BitVec 128) :
    let byte (k : Nat) : Byte := p.extractLsb' (8 * (15 - k)) 8
    Profile.maxLanes p = (byte 1).toNat / 16 ∧ Profile.depth p = (byte 1).toNat % 16 ∧
    Profile.maxExp p = (byte 2).toNat ∧
    (Profile.acceptable p = true ↔
      ((byte 1).toNat / 16 = 1 ∨ (byte 1).toNat / 16 = 2 ∨ (byte 1).toNat / 16 = 4) ∧
      (1 ≤ (byte 1).toNat % 16 ∧ (byte 1).toNat % 16 ≤ 4) ∧ (6 ≤ (byte 2).toNat ∧ (byte 2).toNat ≤ 11) ∧
      (byte 3).toNat ≤ 1) ∧
    (Profile.readyValue p).extractLsb' 24 8 = byte 0 ∧
    ((Profile.readyValue p).extractLsb' 16 8).toNat = (byte 1).toNat / 16 ∧
    (Profile.readyValue p).extractLsb' 8 8 = byte 2 ∧
    ((Profile.readyValue p).extractLsb' 0 8).toNat = (byte 1).toNat % 16 := by
  intro byte
  obtain ⟨h1, h2, h3, h4⟩ := Profile.readyValue_bytes p
  have hl : Profile.maxLanes p = (byte 1).toNat / 16 := Profile.maxLanes_eq p
  have hd : Profile.depth p = (byte 1).toNat % 16 := Profile.depth_eq p
  have ha := Profile.acceptable_iff p
  rw [hl, hd] at ha
  exact ⟨hl, hd, rfl, ha, h1, h2.trans hl, h3, h4.trans hd⟩

/-- R45: the held count in the words of the statement. -/
theorem State.heldCount_counts (s : State) (st : StationId) :
    s.heldCount st = ((List.finRange 16).filter (fun x => match s.exch x with
      | some e => decide (e.station = st ∧ (e.state = .deferred ∨ e.state = .reconnecting ∨ e.state = .resuming
          ∨ e.state = .withdrawing))
      | none => false)).length := by
  rw [State.heldCount_eq]
  congr 2
  funext x
  unfold State.holds
  cases s.exch x with
  | none => rfl
  | some e => simp only [Option.any_some, ← ExState.held_iff, Bool.decide_and, Bool.decide_eq_true]; rfl

/-! ## The reply that opens the interval, and the outcome of an automatic IDENTIFY that opens none -/

/-- R31, R71, R76: what a reply to IDENTIFY opens. -/
theorem identifyReply_opens {s : State} {r : Request} (hl : s.live = true) (hc : s.current = some r)
    (hk : r.kind = .identify) (hp : r.phase = .awaiting ∨ r.phase = .receiving)
    (hcl : (∃ n, s.cl = .window n) ∨ s.cl = .receiving) :
    (∀ f rep, parseReply f = some rep → rep.outcome = .done →
      exec (.replyReceived f) s = .next
        { s.handCount rep with current := some { r with phase := .receiving },
                               cl := .profile (if r.matches rep then .judge else .discard .window),
                               laneLow := lowAfter s.laneLow 1 f }) ∧
    (∀ f, parseReply f = none →
      exec (.replyReceived f) s = .next
        { s with current := some { r with phase := .receiving }, cl := .profile (.discard .check),
                 laneLow := lowAfter s.laneLow 1 f }) ∧
    (∀ c, (tokenOf c).isSome = true →
      exec c s = .next
        { s with current := some { r with phase := .receiving }, cl := .profile (.discard .check), laneLow := 0 }) := by
  have haw := State.awaited_eq hc (by rw [hk]; decide) hp hcl
  refine ⟨fun f rep hg hd => ?_, fun f hb => ?_, fun c hs => ?_⟩
  · rw [exec_replyReceived hl haw, hg, State.takeReply_identify hk hd, State.handCount_hear]
  · rw [exec_replyReceived hl haw, hb, State.takeReply_identify_bad hk]; rfl
  · obtain ⟨⟨f, tok⟩, htok⟩ := Option.isSome_iff_exists.1 hs
    rw [exec_token htok]
    unfold State.tokenReceived
    rw [if_pos hl, haw]; dsimp only
    rw [State.takeReply_identify_bad hk]

/-- R50: any other outcome of an automatic IDENTIFY. -/
theorem State.Answered.autoIdentify {s : State} {f : BitVec 80} {r : Request} {rep : Reply} {st : StationId}
    (h : s.Answered f r rep) (ho : r.owner = .autoIdentify st) (hd : rep.outcome ≠ .done) :
    exec (.replyReceived f) s = .next ((s.afterReply f rep).identifyFailed st) := by
  rw [h.toMatched.deliver (.inr hd)]
  unfold State.deliver
  dsimp only
  rw [h.attached, if_neg (by decide), ho]
  rfl

/-! ## The profile of an exchange -/

/-- R22: the end of an exchange keeps the state and the settings of its station. -/
theorem Ended.station_kept {s t : State} {x : Tag} {e : Exchange} {st : Status} {v : Word} (h : Ended s t x e st v)
    (u : StationId) :
    (t.station u).state = (s.station u).state ∧ (t.station u).settings = (s.station u).settings := by
  rw [h.stations u]; split <;> exact ⟨rfl, rfl⟩

/-- R56: the four ways a profile meets the station of the exchange that asked for it. -/
theorem State.stationProfile_spec (m : State) (u : StationId) (p : BitVec 128) :
    ((m.station u).state = .faulted → Profile.acceptable p = true →
      m.stationProfile u p = { m with stations := m.stations.set u ((m.station u).inService p) }) ∧
    ((m.station u).state = .faulted → Profile.acceptable p = false → m.stationProfile u p = m) ∧
    (∀ l b, (m.station u).state = .ready → (m.station u).settings = some (l, b) →
      (Profile.acceptable p = true → l ≤ Profile.maxLanes p → b ≤ Profile.maxExp p →
        m.heldCount u ≤ Profile.depth p →
        m.stationProfile u p = { m with stations := m.stations.set u { m.station u with profile := some p } }) ∧
      (Profile.acceptable p = false ∨ Profile.maxLanes p < l ∨ Profile.maxExp p < b
          ∨ Profile.depth p < m.heldCount u →
        StationFaulted m (m.stationProfile u p) u .profileInvalid)) := by
  refine ⟨fun h ha => ?_, fun h ha => ?_, fun l b h hset => ⟨fun ha hl hb hc => ?_, fun hr => ?_⟩⟩
  · rw [State.stationProfile_faulted h, if_pos ha]; rfl
  · rw [State.stationProfile_faulted h, if_neg (by rw [ha]; decide)]
  · exact State.stationProfile_kept h hset ha hl hb hc
  · rw [State.stationProfile_refused h hset hr]; exact State.faultStation_faulted m u _

/-- Settles O43: the reply opens the interval, and the profile in it is judged for the station and the exchange. -/
theorem profileBringsAStationIntoService : Obligations.ProfileBringsAStationIntoService := by
  refine ⟨Profile.fields, State.heldCount_counts, fun s r hl hc hk => ⟨fun f rep h hd => ?_, fun f hcl hp => ?_,
    fun c hs hcl hp => (identifyReply_opens hl hc hk hp hcl).2.2 c hs, fun f rep st h ho hd => ?_,
    fun f p hcl hp => ?_⟩⟩
  · obtain ⟨hopen, -, -⟩ := identifyReply_opens hl hc hk h.phase h.lane
    rw [hopen f rep h.good hd, if_pos h.matches]
  · obtain ⟨hopen, hbad, -⟩ := identifyReply_opens hl hc hk hp hcl
    refine ⟨hbad f, fun rep hg hd hne => ?_⟩
    rw [hopen f rep hg hd, if_neg]
    unfold Request.matches; simp only [Bool.and_eq_true, beq_iff_eq, not_and_or]; exact hne
  · have hstep := h.autoIdentify ho hd
    have hstate : ((s.afterReply f rep).station st).state = (s.station st).state := by
      rw [s.station_afterReply f rep st]
    refine ⟨fun hst => ⟨_, hstep, ?_⟩, fun hst => ?_⟩
    · rw [State.identifyFailed_identifying (hstate.trans hst)]; exact State.faultStation_faulted _ _ _
    · rw [hstep]; unfold State.identifyFailed; rw [if_neg (by rw [hstate]; exact hst)]
  · intro g inService
    have hstep := exec_profileReceived hl hc hcl hp
    refine ⟨fun hd => ?_, fun st hd ho hst => ?_, fun x e st v hd ho hx hs hm hf => ?_,
      fun x e sg hd ho hx hs hm hg ha hpay hjob => ?_⟩
    · rw [hstep, State.deliverProfile_detached s f hd]; rfl
    · rw [hstep, State.deliverProfile_identify s f hd ho, State.judgeProfile_identifying (s := s.afterProfile f) hst]
      refine ⟨fun hacc => ?_, fun hacc => ?_⟩
      · rw [if_pos hacc]; rfl
      · rw [if_neg (by rw [hacc]; decide)]; exact ⟨_, rfl, State.faultStation_faulted _ _ _⟩
    · have hend := State.complete_ended (s := g) (e := e) hx (by rw [hf]; rfl) st v
      obtain ⟨hstate, hsettings⟩ := hend.station_kept e.station
      obtain ⟨hgood, hbad, hready⟩ := State.stationProfile_spec (g.complete x) e.station p
      refine ⟨g.complete x, _, hend, ?_, fun h1 h2 => hgood (hstate.trans h1) h2,
        fun h1 h2 => hbad (hstate.trans h1) h2, fun l b h1 h2 => hready l b (hstate.trans h1) (hsettings.trans h2)⟩
      rw [hstep, State.deliverProfile_exchange s f hd ho]
      exact congrArg Host.Outcome.next (State.identifyDone_marked (s := g) hx hs hm p)
    · intro u b after
      have hqueued : g.profileQueued x p sg = after (s.stations.set u b) :=
        State.profileQueued_eq (s := g) hx hs rfl ha hpay hjob p sg
      have hexec : exec (.profileReceived f) s = .next ((after (s.stations.set u b)).stationProfile u p) := by
        rw [hstep, State.deliverProfile_exchange s f hd ho, ← hqueued]
        exact congrArg Host.Outcome.next (State.identifyDone_queued (s := g) hx hs hm hg p)
      have hb : (after (s.stations.set u b)).station u = b := State.station_modStation_self s u (fun _ => b)
      have hheld : (after (s.stations.set u b)).heldCount u = s.heldCount u :=
        State.heldCount_of_set (s := s) hx rfl (by rw [hs]; rfl) rfl u
      have hafter : ∀ q, ({ after (s.stations.set u b) with stations := (s.stations.set u b).set u q } : State)
          = after (s.stations.set u q) := fun q => by rw [Vector.set_set]
      obtain ⟨hgood, hbad, hready⟩ := State.stationProfile_spec (after (s.stations.set u b)) u p
      rw [hb] at hgood hbad hready
      rw [hheld] at hready
      rw [hexec]
      refine ⟨fun h1 h2 => ?_, fun h1 h2 => ?_, fun l be h1 h2 h3 h4 h5 h6 => ?_, fun l be h1 h2 h3 => ?_⟩
      · rw [hgood h1 h2]; exact congrArg Host.Outcome.next (hafter _)
      · rw [hbad h1 h2]
      · rw [(hready l be h1 h2).1 h3 h4 h5 h6]; exact congrArg Host.Outcome.next (hafter _)
      · exact ⟨_, rfl, (hready l be h1 h2).2 h3⟩

end Sys2Proof.Machine
end

section
/-! Power-on (O4): the records of the part right after power-on, and the laws there. -/
namespace Sys2Proof.Machine

@[simp] theorem State.exch_reset (t : Tag) : State.reset.exch t = none := by revert t; decide

@[simp] theorem State.subRing_reset (r : RingId) : State.reset.subRing r = SubRing.reset := by revert r; decide

@[simp] theorem State.cring_reset (r : RingId) : State.reset.cring r = none := by revert r; decide

theorem State.clockOk_reset : State.reset.ClockOk := by unfold State.ClockOk; decide

theorem State.cringsOk_reset : State.reset.CRingsOk := fun r c h => by rw [State.cring_reset] at h; cases h

theorem State.indicesOk_reset : State.reset.IndicesOk := fun r c h => by rw [State.subRing_reset] at h; cases h

theorem State.countsOk_reset : State.reset.CountsOk := by
  refine ⟨fun r => ?_, fun _ => State.exch_reset⟩
  revert r; decide

theorem State.roomOk_reset : State.reset.RoomOk := by unfold State.RoomOk; decide

theorem State.stagingOk_reset : State.reset.StagingOk := fun _ => ⟨rfl, rfl⟩

/-- Settles O4: every table is the replicated empty record, every other register is its literal. -/
theorem powerOnCondition : Obligations.PowerOnCondition := by
  have tables : (∀ st, State.reset.queueOf st = []) ∧ (∀ st, State.reset.station st = Station.reset) ∧
      (∀ i, (State.reset.slot i).state = .free) ∧ (∀ r : RingId, State.reset.waiting[r] = []) ∧
      (∀ r : RingId, State.reset.ringLatch[r] = none) := by decide
  obtain ⟨queues, stations, slots, waiting, latches⟩ := tables
  unfold Obligations.PowerOnCondition
  simp only [queues, stations, slots, waiting, latches, State.exch_reset, State.subRing_reset, State.cring_reset,
    State.clockOk_reset, State.cringsOk_reset, State.indicesOk_reset, State.countsOk_reset, State.roomOk_reset,
    State.stagingOk_reset, implies_true, true_and, and_true]
  decide

end Sys2Proof.Machine
end

section
/-! The choice of the command lane engine (O31): when each candidate is absent, and which head of a pending queue the
round robin finds first. -/
namespace Sys2Proof.Machine

/-! ## The readings of the candidates -/

theorem State.isReady_iff (s : State) (st : StationId) : s.isReady st = true ↔ (s.station st).state = .ready := by
  unfold State.isReady; rw [beq_iff_eq]

theorem State.readyOrFaulted_iff (s : State) (st : StationId) :
    s.readyOrFaulted st = true ↔ (s.station st).state = .ready ∨ (s.station st).state = .faulted := by
  unfold State.readyOrFaulted; rw [Bool.or_eq_true, beq_iff_eq, beq_iff_eq]

theorem State.lanesFree_iff (s : State) : s.lanesFree = true ↔ s.payload = none := by
  unfold State.lanesFree; rw [Option.isNone_iff_eq_none]

theorem State.writeRunning_iff (s : State) : s.writeRunning = true ↔ s.WriteRuns := by
  unfold State.writeRunning State.WriteRuns
  cases s.payload with
  | none => simp
  | some p => simp

theorem State.cutPending_iff (s : State) : s.cutPending = true ↔ s.CutOff := by
  unfold State.cutPending State.CutOff
  cases s.payload with
  | none => simp
  | some p => simp

theorem State.quietStation_iff (s : State) (st : StationId) : s.quietStation st = true ↔
    ∀ y f, s.exch y = some f → f.station = st → f.state = .queued ∨ f.state = .completing := by
  unfold State.quietStation
  rw [List.all_eq_true]
  refine ⟨fun h y f hy hst => ?_, fun h y _ => ?_⟩
  · have hf := h y (allTags_mem y)
    rw [hy] at hf
    simp only [hst, beq_self_eq_true, Bool.true_and, Bool.not_eq_true'] at hf
    cases hstate : f.state with
    | queued => exact .inl rfl
    | completing => exact .inr rfl
    | issuing | deferred | reconnecting | resuming | transfer | halting | withdrawing =>
      rw [hstate] at hf; cases hf
  · cases hy : s.exch y with
    | none => rfl
    | some f =>
      by_cases hst : f.station = st
      · rcases h y f hy hst with hq | hc
        · simp [hq, ExState.onLink]
        · simp [hc, ExState.onLink]
      · simp [hst]

theorem State.queueHead_iff (s : State) (st : StationId) (x : Tag) (e : Exchange) :
    s.queueHead st = some (x, e) ↔ s.Heads st x e := by
  unfold State.queueHead State.Heads
  simp only [Option.bind_eq_some_iff, Option.map_eq_some_iff, Prod.mk.injEq]
  constructor
  · rintro ⟨y, hy, d, hd, rfl, rfl⟩; exact ⟨hy, hd⟩
  · rintro ⟨hy, hd⟩; exact ⟨x, hy, e, hd, rfl, rfl⟩

/-- R65, R66, R67: the readings of an eligible head. -/
theorem State.headDue_iff (s : State) (st : StationId) :
    s.HeadDue st ↔ ∃ x e, s.Heads st x e ∧ s.headEligible st e = true := by
  unfold State.HeadDue
  refine exists_congr fun x => exists_congr fun e => and_congr_right fun _ => ?_
  have hdepth : s.heldCount st < s.depthOf st ↔
      ∃ p, (s.station st).profile = some p ∧ s.heldCount st < Profile.depth p := by
    unfold State.depthOf; cases (s.station st).profile <;> simp
  unfold State.headEligible
  cases e.kind <;>
    simp [State.lanesFree_iff, State.isReady_iff, State.readyOrFaulted_iff, State.quietStation_iff, hdepth, and_assoc]

/-! ## The candidates that are absent (R64) -/

theorem State.haltCandidate_none {s : State} (h : ∀ x, ¬ s.HaltDue x) : s.haltCandidate = none := by
  unfold State.haltCandidate
  rw [Option.map_eq_none_iff, List.find?_eq_none]
  intro x _ hx
  cases he : s.exch x with
  | none => simp [he] at hx
  | some e =>
    rw [he] at hx
    simp only [Bool.and_eq_true, beq_iff_eq, Option.isNone_iff_eq_none, State.isReady_iff, Bool.not_eq_true',
      ← Bool.not_eq_true, State.cutPending_iff] at hx
    obtain ⟨⟨⟨hs, hr⟩, hst⟩, hc⟩ := hx
    exact h x ⟨e, he, hs, hr, hst, hc⟩

theorem State.withdrawCandidate_none {s : State} (h : ∀ x, ¬ s.WithdrawDue x) : s.withdrawCandidate = none := by
  unfold State.withdrawCandidate
  rw [Option.map_eq_none_iff, List.find?_eq_none]
  intro x _ hx
  cases he : s.exch x with
  | none => simp [he] at hx
  | some e =>
    rw [he] at hx
    simp only [Bool.and_eq_true, beq_iff_eq, Option.isNone_iff_eq_none, State.isReady_iff] at hx
    obtain ⟨⟨hs, hr⟩, hst⟩ := hx
    exact h x ⟨e, he, hs, hr, hst⟩

theorem State.resetCandidate_none {s : State} (h : ∀ st, ¬ s.ResetDue st) : s.resetCandidate = none := by
  unfold State.resetCandidate
  rw [List.findSome?_eq_none_iff]
  intro st _
  cases hq : s.queueHead st with
  | none => rfl
  | some y =>
    obtain ⟨x, e⟩ := y
    refine if_neg fun hk => h st ⟨x, e, (s.queueHead_iff st x e).1 hq, hk.1, (s.readyOrFaulted_iff st).1 hk.2⟩

theorem State.identifyCandidate_none {s : State} (h : ∀ st, (s.station st).state ≠ .identifying) :
    s.identifyCandidate = none := by
  unfold State.identifyCandidate
  rw [Option.map_eq_none_iff, List.find?_eq_none]
  exact fun st _ hst => h st (beq_iff_eq.1 hst)

theorem State.pollCandidate_none {s : State} (ha : s.attention = false) (hp : s.pollDue = false) :
    s.pollCandidate = none := by unfold State.pollCandidate; rw [ha, hp]; rfl

theorem State.fetchCandidate_none {s : State} (h : 8 ≤ s.eventQueue.length ∨ ∀ st, ¬ s.FetchDue st) :
    s.fetchCandidate = none := by
  unfold State.fetchCandidate
  split
  next hroom =>
    rw [Option.map_eq_none_iff, List.find?_eq_none]
    intro st _ hst
    rw [Bool.and_eq_true, State.isReady_iff, decide_eq_true_eq] at hst
    rcases h with hfull | hnone
    · omega
    · exact hnone st hst
  next => rfl

theorem State.resumeCandidate_none {s : State} (h : ∀ x e, ¬ s.ResumeDue x e) : s.resumeCandidate = none := by
  unfold State.resumeCandidate
  cases hr : s.reconnect.head? with
  | none => rfl
  | some x =>
    dsimp only
    cases he : s.exch x with
    | none => rfl
    | some e => exact if_neg fun hk => h x e ⟨hr, he, s.lanesFree_iff.1 hk.1, (s.isReady_iff _).1 hk.2⟩

/-! ## The first eligible head (R68) -/

/-- R68: the slots before a station in the round robin are the nearer ones. -/
theorem robin_split : ∀ ptr st : StationId, ∃ l₁ l₂, robin ptr = l₁ ++ st :: l₂ ∧
    ∀ u ∈ l₁, (u.val + 8 - ptr.val) % 8 < (st.val + 8 - ptr.val) % 8 := by
  have split : ∀ ptr st : StationId,
      robin ptr = (robin ptr).take ((st.val + 8 - ptr.val) % 8) ++
        st :: (robin ptr).drop ((st.val + 8 - ptr.val) % 8 + 1) ∧
      ∀ u ∈ (robin ptr).take ((st.val + 8 - ptr.val) % 8),
        (u.val + 8 - ptr.val) % 8 < (st.val + 8 - ptr.val) % 8 := by decide
  exact fun ptr st => ⟨_, _, split ptr st⟩

/-- The candidate of one pending queue. -/
def State.headCandidate (s : State) (st : StationId) : Option Candidate :=
  match s.queueHead st with
  | some (t, e) => if s.headEligible st e then some (.queue st t) else none
  | none => none

theorem State.queueCandidate_eq (s : State) : s.queueCandidate = (robin s.issuePtr).findSome? s.headCandidate := rfl

theorem State.headCandidate_some {s : State} {st : StationId} {x : Tag} {e : Exchange} (hd : s.HeadDue st)
    (hh : s.Heads st x e) : s.headCandidate st = some (.queue st x) := by
  obtain ⟨y, d, hh', hel⟩ := (s.headDue_iff st).1 hd
  obtain ⟨rfl⟩ := Option.some.inj (hh.1.symm.trans hh'.1)
  obtain ⟨rfl⟩ := Option.some.inj (hh.2.symm.trans hh'.2)
  unfold State.headCandidate
  rw [(s.queueHead_iff st x e).2 hh]
  exact if_pos hel

theorem State.headCandidate_none {s : State} {st : StationId} (h : ¬ s.HeadDue st) : s.headCandidate st = none := by
  unfold State.headCandidate
  cases hq : s.queueHead st with
  | none => rfl
  | some y =>
    obtain ⟨x, e⟩ := y
    exact if_neg fun hel => h ((s.headDue_iff st).2 ⟨x, e, (s.queueHead_iff st x e).1 hq, hel⟩)

theorem State.queueCandidate_some {s : State} {st : StationId} {x : Tag} {e : Exchange}
    (hf : FirstFrom s.issuePtr s.HeadDue st) (hh : s.Heads st x e) : s.queueCandidate = some (.queue st x) := by
  obtain ⟨l₁, l₂, hl, hbefore⟩ := robin_split s.issuePtr st
  rw [State.queueCandidate_eq, List.findSome?_eq_some_iff]
  exact ⟨l₁, st, l₂, hl, State.headCandidate_some hf.1 hh,
    fun u hu => State.headCandidate_none (hf.2 u (hbefore u hu))⟩

theorem State.queueCandidate_none {s : State} (h : ∀ st, ¬ s.HeadDue st) : s.queueCandidate = none := by
  rw [State.queueCandidate_eq, List.findSome?_eq_none_iff]
  exact fun st _ => State.headCandidate_none (h st)

/-! ## The choice -/

/-- R64: past everything of a higher priority the choice is that of the pending queues. -/
theorem State.PastResume.choose {s : State} (h : s.PastResume) : s.choose = (s, s.queueCandidate) := by
  have hstray : s.dropStray = s := by
    unfold State.dropStray
    rw [h.stray]
    exact congrArg (fun l => { s with stray := l }) h.stray.symm
  have hlater : s.laterCandidate = s.queueCandidate := by
    unfold State.laterCandidate
    rw [State.resetCandidate_none h.reset, State.identifyCandidate_none h.identify,
      State.pollCandidate_none h.attention h.poll, State.fetchCandidate_none h.fetch,
      State.resumeCandidate_none h.resume]
    rfl
  unfold State.choose
  rw [State.haltCandidate_none h.halt, if_neg (mt s.writeRunning_iff.1 h.write),
    State.withdrawCandidate_none h.withdraw]
  dsimp only
  rw [hstray, hlater]
  unfold State.strayCandidate
  rw [h.stray]
  rfl

/-- R64: where a choice is made, the chosen candidate is begun. -/
theorem State.Chooses.exec {s : State} (h : s.Chooses) : exec .chooseRequest s = .next s.chooseAndBegin := by
  have hmay : s.mayBegin = true := by
    unfold State.mayBegin State.laneOpen
    rw [h.live, h.linkReset]
    rcases h.lane with hl | hl <;> rw [hl] <;> rfl
  change Host.Outcome.next s.chooseStep = _
  unfold State.chooseStep
  rw [if_pos hmay, h.current, h.setAside]
  rfl

/-- Settles O31: past everything of a higher priority, the round robin from the issue pointer decides. -/
theorem queueHeadIsIssued : Obligations.QueueHeadIsIssued := by
  refine ⟨fun s h => ⟨fun st x e hf hh => ?_, fun hnone => ?_⟩, fun k => by cases k <;> rfl,
    fun e => ⟨by unfold Exchange.requestArgument; cases e.kind <;> rfl,
      by unfold Exchange.requestCount; cases e.kind <;> rfl⟩⟩
  · intro r
    have hpay : (e.kind.payload = true) = (e.kind = .readBlocks ∨ e.kind = .writeBlocks) := by
      cases e.kind <;> simp [ExKind.payload]
    rw [h.exec]
    unfold State.chooseAndBegin
    rw [h.choose, State.queueCandidate_some hf hh]
    simp only [State.beginCandidate, hh.2, State.issueHead, hpay]
    rfl
  · rw [h.exec]
    unfold State.chooseAndBegin
    rw [h.choose, State.queueCandidate_none hnone]

end Sys2Proof.Machine
end

section
/-! The data mover's reports (O57): what the completed, or faulted, data access of a job does, and that of a job which
has ended. -/
namespace Sys2Proof.Machine

/-! ## Reports (R104, R175) -/

theorem State.report_of_live {s : State} (hl : s.live = true) (id : Nat) : s.report id = s.access id := by
  unfold State.report; rw [if_pos hl]

theorem exec_dataWriteComplete {s : State} {a : Access} {x : Tag} (hl : s.live = true) (ha : s.access a.id = some a)
    (hp : a.purpose = .dataWrite x) :
    exec (.dataWriteComplete a.id) s
      = .next ((((s.endAccess a.id).addBytes x a.len).blockProgress x).accountEnd x) := by
  change execDataWriteComplete a.id s = _
  unfold execDataWriteComplete State.dataWritten
  rw [State.report_of_live hl, ha]; dsimp only; rw [hp]

theorem exec_dataWriteFault {s : State} {a : Access} {x : Tag} (hl : s.live = true) (ha : s.access a.id = some a)
    (hp : a.purpose = .dataWrite x) :
    exec (.dataWriteFault a.id) s = .next (((s.endAccess a.id).jobAccessFault x).accountEnd x) := by
  change execDataWriteFault a.id s = _
  unfold execDataWriteFault State.dataWriteFaulted
  rw [State.report_of_live hl, ha]; dsimp only; rw [hp]

theorem exec_dataReadComplete {s : State} {a : Access} {x : Tag} {block offset : Nat} {bytes : List Byte}
    (hl : s.live = true) (ha : s.access a.id = some a) (hp : a.purpose = .dataRead x block offset)
    (hb : bytes.length = a.len) :
    exec (.dataReadComplete a.id bytes) s
      = .next ((((s.endAccess a.id).fillSlot x block offset bytes).blockProgress x).accountEnd x) := by
  change execDataReadComplete a.id bytes s = _
  unfold execDataReadComplete State.dataReadDone
  rw [State.report_of_live hl, ha]; dsimp only; rw [hp]; dsimp only; rw [if_pos hb]

theorem exec_dataReadFault {s : State} {a : Access} {x : Tag} {block offset : Nat} (hl : s.live = true)
    (ha : s.access a.id = some a) (hp : a.purpose = .dataRead x block offset) :
    exec (.dataReadFault a.id) s = .next (((s.endAccess a.id).jobAccessFault x).accountEnd x) := by
  change execDataReadFault a.id s = _
  unfold execDataReadFault State.dataReadFaulted
  rw [State.report_of_live hl, ha]; dsimp only; rw [hp]

theorem exec_descriptorReadComplete {s : State} {a : Access} {x : Tag} (hl : s.live = true)
    (ha : s.access a.id = some a) (hp : a.purpose = .descriptor x) (data : BitVec 128) :
    exec (.descriptorReadComplete a.id data) s
      = .next (((s.endAccess a.id).jobDescriptor x (parseDescriptor data)).accountEnd x) := by
  change execDescriptorReadComplete a.id data s = _
  unfold execDescriptorReadComplete State.descriptorDone
  rw [State.report_of_live hl, ha]; dsimp only; rw [hp]

theorem exec_descriptorReadFault {s : State} {a : Access} {x : Tag} (hl : s.live = true)
    (ha : s.access a.id = some a) (hp : a.purpose = .descriptor x) :
    exec (.descriptorReadFault a.id) s = .next (((s.endAccess a.id).jobDescriptorFault x).accountEnd x) := by
  change execDescriptorReadFault a.id s = _
  unfold execDescriptorReadFault State.descriptorFaulted
  rw [State.report_of_live hl, ha]; dsimp only; rw [hp]

/-! ## The block in hand (R110, R111) -/

theorem State.addBytes_eq {s : State} {x : Tag} {e : Exchange} (hx : s.exch x = some e) (n : Nat) :
    s.addBytes x n
      = { s with table := s.table.set x (some { e with bytesMoved := some (e.bytesMoved.getD 0 + n) }) } :=
  State.modExch_of_some _ hx

theorem State.blockProgress_counts {s : State} {j : Job} {h : InHand} (hj : s.job = some j) (hh : j.inHand = some h)
    (hn : ¬ (j.blockSize ≤ h.placed ∧ h.ended + 1 = h.issued)) :
    s.blockProgress j.tag = { s with job := some { j with inHand := some { h with ended := h.ended + 1 } } } := by
  unfold State.blockProgress
  rw [hj]; dsimp only; rw [if_pos rfl, hh]; dsimp only; rw [if_neg hn]

theorem State.blockProgress_drains {s : State} {j : Job} {h : InHand} (hj : s.job = some j) (hh : j.inHand = some h)
    (hl : j.blockSize ≤ h.placed ∧ h.ended + 1 = h.issued) (hd : j.dir = .read) :
    s.blockProgress j.tag = s.slotDrained j { h with ended := h.ended + 1 } := by
  unfold State.blockProgress
  rw [hj]; dsimp only; rw [if_pos rfl, hh]; dsimp only; rw [if_pos hl, hd]

theorem State.blockProgress_loads {s : State} {j : Job} {h : InHand} (hj : s.job = some j) (hh : j.inHand = some h)
    (hl : j.blockSize ≤ h.placed ∧ h.ended + 1 = h.issued) (hd : j.dir = .write) :
    s.blockProgress j.tag = s.slotLoaded j { h with ended := h.ended + 1 } := by
  unfold State.blockProgress
  rw [hj]; dsimp only; rw [if_pos rfl, hh]; dsimp only; rw [if_pos hl, hd]

/-- R88, R93: the phase follows the slot at the position of the payload engine. -/
theorem State.settlePhase_eq {s : State} {p : Payload} (hp : s.payload = some p) :
    s.settlePhase = { s with payload := some { p with phase := p.settlePhase (s.slot p.pos).state } } := by
  unfold State.settlePhase; rw [hp]

/-- R88, R93: the phases in which the payload engine does not wait for a slot. -/
theorem State.settlePhase_kept {s : State} {p : Payload} (hp : s.payload = some p)
    (hk : ∀ i, p.settlePhase i = p.phase) : s.settlePhase = s := by
  rw [State.settlePhase_eq hp, hk, ← hp]

theorem Payload.settlePhase_pends {p : Payload} (h : p.phase = .grantPending ∨ p.phase = .paced) (i : SlotState) :
    p.settlePhase i = if p.repeatDue = true ∨ i = .free then .grantPending else .paced := by
  unfold Payload.settlePhase
  rcases h with h | h <;> rw [h]

theorem Payload.settlePhase_loads {p : Payload} (h : p.phase = .loadWait ∨ p.phase = .sendPending) (i : SlotState) :
    p.settlePhase i = if i = .ready ∨ p.resendDue = true then .sendPending else .loadWait := by
  unfold Payload.settlePhase
  rcases h with h | h <;> rw [h]

theorem Payload.settlePhase_under_way {p : Payload}
    (h : (p.phase = .awaitingBlock ∨ p.phase = .receiving ∨ p.phase = .finished)
      ∨ p.phase = .sending ∨ p.phase = .tokenWait ∨ p.phase = .hold) (i : SlotState) : p.settlePhase i = p.phase := by
  unfold Payload.settlePhase
  rcases h with (h | h | h) | h | h | h <;> rw [h]

/-- R110: the job goes on to its next block, and the slot of the block in hand is FREE. -/
def State.blockDrained (s : State) (j : Job) (h : InHand) : State :=
  ({ s with job := some { j with nextBlock := j.nextBlock + 1, inHand := none } }).setSlot h.slot .free

/-- R110: a block other than the last has drained. -/
theorem State.slotDrained_between {s : State} {j : Job} {h : InHand} (hk : j.nextBlock + 1 < j.count) :
    s.slotDrained j h = (s.blockDrained j h).settlePhase := by
  unfold State.slotDrained; dsimp only; rw [if_neg (by omega)]; rfl

/-- R92, R110: the last block has drained where the link side has finished. -/
theorem State.slotDrained_last {s : State} {j : Job} {h : InHand} {p : Payload} (hk : j.nextBlock + 1 = j.count)
    (hp : s.payload = some p) (ho : p.owner = j.tag) (hf : p.phase = .finished) :
    s.slotDrained j h = (s.blockDrained j h).endWith j.tag .success 0 := by
  let m : State := s.blockDrained j h
  have hm : m.payload = some p := hp
  have hkept : m.settlePhase = m :=
    State.settlePhase_kept hm (Payload.settlePhase_under_way (.inl (.inr (.inr hf))))
  have hdrained : m.readDrained j.tag = m.endWith j.tag .success 0 := by
    unfold State.readDrained; rw [hm]; exact if_pos ⟨ho, hf⟩
  unfold State.slotDrained
  dsimp only
  rw [if_pos hk]
  exact (congrArg (State.readDrained · j.tag) hkept).trans hdrained

/-- R104, R111: bytes that come for the slot of the block in hand. -/
theorem State.fillSlot_eq {s : State} {j : Job} {block : Nat} (hj : s.job = some j)
    (hl : (s.slot (stageOf block)).state = .loading) (hb : (s.slot (stageOf block)).block = block) (offset : Nat)
    (bytes : List Byte) :
    s.fillSlot j.tag block offset bytes = s.setSlot (stageOf block)
      { s.slot (stageOf block) with data := patch (s.slot (stageOf block)).data offset bytes } := by
  unfold State.fillSlot
  rw [hj]; dsimp only; rw [if_pos ⟨rfl, hl, hb⟩]

/-- R112: a faulted access of the job. -/
theorem State.jobAccessFault_reports {s : State} {j : Job} {e : Exchange} (hj : s.job = some j)
    (hx : s.exch j.tag = some e) (ht : e.state = .transfer) :
    ∃ t, (s.jobAccessFault j.tag).accountEnd j.tag = t ∧ MoverReports s t j.tag e .hostAccessFault := by
  have hf : s.jobAccessFault j.tag = s.moverFault j.tag .hostAccessFault := by
    unfold State.jobAccessFault; rw [hj]; exact if_pos rfl
  have hr := State.moverFault_reports hj hx ht .hostAccessFault
  exact ⟨_, rfl, by rw [hf, hr.accountEnd]; exact hr⟩

/-! ## An access of a job that has ended (R22, R112, R113) -/

/-- R22, R104: what the end of an access lets join. -/
theorem State.accountEnd_eq {s : State} {x : Tag} {e : Exchange} (hx : s.exch x = some e) :
    s.accountEnd x = { s with
      waiting := if e.state = .completing ∧ e.final.isSome = true then s.joinSource s.waiting (.exchange x)
        else s.waiting } := by
  unfold State.accountEnd State.join State.joinReady State.joinSource
  dsimp only
  rw [hx]
  by_cases hr : e.state = .completing ∧ e.final.isSome = true
  · rw [if_pos hr]
    dsimp only
    by_cases ho : s.outstanding x = 0
    · rw [if_pos (by simp [hr.1, hr.2, ho]), if_pos ho]
      dsimp only [Option.bind]
      cases s.cringOf e.ring with
      | none => rfl
      | some c => exact State.joinList_waiting s c _
    · rw [if_neg (by simp [ho]), if_neg ho]
  · rw [if_neg hr, if_neg]
    intro h; simp only [Bool.and_eq_true, beq_iff_eq] at h; exact hr h.1

section
variable {s : State} {x : Tag} (hn : ∀ j, s.job = some j → j.tag ≠ x)
include hn

theorem State.blockProgress_other : s.blockProgress x = s := by
  unfold State.blockProgress
  cases hj : s.job with
  | none => rfl
  | some j => exact if_neg (hn j hj)

theorem State.fillSlot_other (block offset : Nat) (bytes : List Byte) : s.fillSlot x block offset bytes = s := by
  unfold State.fillSlot
  cases hj : s.job with
  | none => rfl
  | some j => exact if_neg fun h => hn j hj h.1

theorem State.jobAccessFault_other : s.jobAccessFault x = s := by
  unfold State.jobAccessFault
  cases hj : s.job with
  | none => rfl
  | some j => exact if_neg (hn j hj)

theorem State.jobDescriptor_other (d : Descriptor) : s.jobDescriptor x d = s := by
  unfold State.jobDescriptor
  cases hj : s.job with
  | none => rfl
  | some j => exact if_neg (hn j hj)

theorem State.jobDescriptorFault_other : s.jobDescriptorFault x = s := by
  unfold State.jobDescriptorFault
  cases hj : s.job with
  | none => rfl
  | some j => exact if_neg (hn j hj)

end

/-- R175: in STOPPED a report of any host access is without effect. -/
theorem exec_report_of_stopped {s : State} {c : Instr} {id : Nat} (hst : s.device.state = .stopped)
    (hc : (∃ w, c = .fetchComplete id w) ∨ c = .fetchFault id ∨ (∃ d, c = .descriptorReadComplete id d)
      ∨ c = .descriptorReadFault id ∨ c = .dataWriteComplete id ∨ c = .dataWriteFault id
      ∨ (∃ bytes, c = .dataReadComplete id bytes) ∨ c = .dataReadFault id ∨ c = .profileWriteComplete id
      ∨ c = .profileWriteFault id ∨ c = .recordWriteComplete id ∨ c = .recordWriteFault id
      ∨ (∃ d, c = .configReadComplete id d) ∨ c = .configReadFault id) : exec c s = .next s := by
  have hlive : s.live = false := by unfold State.live; rw [hst]; rfl
  have hreport : s.report id = none := by unfold State.report; rw [hlive]; rfl
  have hfetch : s.fetchOf id = none := by unfold State.fetchOf; rw [hlive]; rfl
  have hrecord : s.recordOf id = none := by unfold State.recordOf; rw [hreport]
  have hpart : s.configPart id = none := by unfold State.configPart; rw [hst]; rfl
  rcases hc with ⟨w, rfl⟩ | rfl | ⟨d, rfl⟩ | rfl | rfl | rfl | ⟨b, rfl⟩ | rfl | rfl | rfl | rfl | rfl | ⟨d, rfl⟩ | rfl
  · change Host.Outcome.next (s.fetchDone id w) = _; unfold State.fetchDone; rw [hfetch]
  · change Host.Outcome.next (s.fetchFaulted id) = _; unfold State.fetchFaulted; rw [hfetch]
  · change execDescriptorReadComplete id d s = _; unfold execDescriptorReadComplete; rw [hreport]
  · change execDescriptorReadFault id s = _; unfold execDescriptorReadFault; rw [hreport]
  · change execDataWriteComplete id s = _; unfold execDataWriteComplete; rw [hreport]
  · change execDataWriteFault id s = _; unfold execDataWriteFault; rw [hreport]
  · change execDataReadComplete id b s = _; unfold execDataReadComplete; rw [hreport]
  · change execDataReadFault id s = _; unfold execDataReadFault; rw [hreport]
  · change execProfileWriteComplete id s = _; unfold execProfileWriteComplete; rw [hreport]
  · change execProfileWriteFault id s = _; unfold execProfileWriteFault; rw [hreport]
  · change Host.Outcome.next (s.recordDone id) = _; unfold State.recordDone; rw [hrecord]
  · change execRecordWriteFault id s = _; unfold execRecordWriteFault; rw [hrecord]
  · change Host.Outcome.next (s.configRead id d) = _; unfold State.configRead; rw [hpart]
  · change Host.Outcome.next (s.configFault id) = _; unfold State.configFault; rw [hpart]

/-! ## The obligation -/

/-- R92, R110: a completed data write of the job. -/
theorem dataWrite_drains {s : State} {a : Access} {j : Job} {h : InHand} {e : Exchange} {p : Payload}
    (hl : s.live = true) (ha : s.access a.id = some a) (hj : s.job = some j) (hh : j.inHand = some h)
    (hx : s.exch j.tag = some e) (ht : e.state = .transfer) (hp : s.payload = some p)
    (hw : a.purpose = .dataWrite j.tag) (hd : j.dir = .read) :
    let last := j.blockSize ≤ h.placed ∧ h.ended + 1 = h.issued
    let e' := { e with bytesMoved := some (e.bytesMoved.getD 0 + a.len) }
    let v := { s with accesses := s.accesses.filter (fun b => b.id != a.id), table := s.table.set j.tag (some e') }
    let w := { v with job := some { j with nextBlock := j.nextBlock + 1, inHand := none },
                      staging := s.staging.set h.slot { state := .free, block := 0, data := [] } }
    (¬ last → exec (.dataWriteComplete a.id) s
      = .next { v with job := some { j with inHand := some { h with ended := h.ended + 1 } } }) ∧
    (last → j.nextBlock + 1 < j.count →
      (p.phase = .grantPending ∨ p.phase = .paced →
        exec (.dataWriteComplete a.id) s = .next
          { w with
            payload := some
              { p with phase := if p.repeatDue = true ∨ h.slot = p.pos ∨ (s.slot p.pos).state = .free
                         then .grantPending else .paced } }) ∧
      (p.phase = .awaitingBlock ∨ p.phase = .receiving ∨ p.phase = .finished →
        exec (.dataWriteComplete a.id) s = .next w)) ∧
    (last → j.nextBlock + 1 = j.count → p.owner = j.tag → p.phase = .finished →
      ∃ t, exec (.dataWriteComplete a.id) s = .next t ∧ Ended w t j.tag e' .success 0) := by
  intro last e' v w
  have hv : (s.endAccess a.id).addBytes j.tag a.len = v := State.addBytes_eq (s := s.endAccess a.id) hx a.len
  have hexec : exec (.dataWriteComplete a.id) s = .next ((v.blockProgress j.tag).accountEnd j.tag) := by
    rw [exec_dataWriteComplete hl ha hw, hv]
  have hvx : v.exch j.tag = some e' := (s.endAccess a.id).exch_setExch_self j.tag (some e')
  have reaches : ∀ t : State, v.blockProgress j.tag = t → t.table = v.table →
      exec (.dataWriteComplete a.id) s = .next t := fun t hstep htab => by
    rw [hexec, hstep, State.accountEnd_of_not_completing (e := e') (by unfold State.exch; rw [htab]; exact hvx)
      (by change e.state ≠ _; rw [ht]; decide)]
  have hslot : ((w.slot p.pos).state = .free) ↔ (h.slot = p.pos ∨ (s.slot p.pos).state = .free) := by
    have := s.slot_setSlot h.slot p.pos .free
    change (((s.setSlot h.slot .free).slot p.pos).state = .free) ↔ _
    rw [this]
    split
    next hpos => simp [hpos, Slot.free]
    next hpos => simp [hpos]
  refine ⟨fun hn => ?_, fun hlast hk => ⟨fun hph => ?_, fun hph => ?_⟩, fun hlast hk ho hf => ?_⟩
  · exact reaches _ (State.blockProgress_counts (s := v) hj hh hn) rfl
  · refine reaches _ ?_ rfl
    rw [State.blockProgress_drains (s := v) hj hh hlast hd, State.slotDrained_between hk]
    refine (State.settlePhase_eq (s := w) hp).trans ?_
    simp only [Payload.settlePhase_pends hph, hslot]
  · refine reaches _ ?_ rfl
    rw [State.blockProgress_drains (s := v) hj hh hlast hd, State.slotDrained_between hk]
    exact State.settlePhase_kept (s := w) hp (Payload.settlePhase_under_way (.inl hph))
  · have hend := State.endWith_ended (s := w) (e := e') hvx .success 0
    refine ⟨_, ?_, hend⟩
    rw [hexec, State.blockProgress_drains (s := v) hj hh hlast hd, State.slotDrained_last (s := v) hk hp ho hf]
    exact congrArg Host.Outcome.next hend.accountEnd

/-- R93, R111: a completed data read of the job. -/
theorem dataRead_loads {s : State} {a : Access} {j : Job} {h : InHand} {e : Exchange} {p : Payload}
    (hl : s.live = true) (ha : s.access a.id = some a) (hj : s.job = some j) (hh : j.inHand = some h)
    (hx : s.exch j.tag = some e) (ht : e.state = .transfer) (hp : s.payload = some p) {offset : Nat}
    {bytes : List Byte} (hr : a.purpose = .dataRead j.tag j.nextBlock offset) (hd : j.dir = .write)
    (hb : bytes.length = a.len) :
    let last := j.blockSize ≤ h.placed ∧ h.ended + 1 = h.issued
    let u := { s with accesses := s.accesses.filter (fun b => b.id != a.id) }
    let i : StageId := stageOf j.nextBlock
    h.slot = i → (s.slot i).state = .loading → (s.slot i).block = j.nextBlock →
    let data := (s.slot i).data.take offset ++ bytes ++ (s.slot i).data.drop (offset + bytes.length)
    (¬ last → exec (.dataReadComplete a.id bytes) s = .next
      { u with staging := s.staging.set i { s.slot i with data := data },
               job := some { j with inHand := some { h with ended := h.ended + 1 } } }) ∧
    (last →
      let w := { u with staging := s.staging.set i { s.slot i with data := data, state := .ready },
                        job := some { j with nextBlock := j.nextBlock + 1, inHand := none } }
      (p.phase = .loadWait ∨ p.phase = .sendPending →
        exec (.dataReadComplete a.id bytes) s = .next
          { w with
            payload := some
              { p with phase := if i = p.pos ∨ (s.slot p.pos).state = .ready ∨ p.resendDue = true
                         then .sendPending else .loadWait } }) ∧
      (p.phase = .sending ∨ p.phase = .tokenWait ∨ p.phase = .hold →
        exec (.dataReadComplete a.id bytes) s = .next w)) := by
  intro last u i hi hload hblock data
  let v : State := u.setSlot i { s.slot i with data := data }
  have hv : (s.endAccess a.id).fillSlot j.tag j.nextBlock offset bytes = v :=
    State.fillSlot_eq (s := s.endAccess a.id) hj hload hblock offset bytes
  have hexec : exec (.dataReadComplete a.id bytes) s = .next ((v.blockProgress j.tag).accountEnd j.tag) := by
    rw [exec_dataReadComplete hl ha hr hb, hv]
  have reaches : ∀ t : State, v.blockProgress j.tag = t → t.table = s.table →
      exec (.dataReadComplete a.id bytes) s = .next t := fun t hstep htab => by
    rw [hexec, hstep, State.accountEnd_of_not_completing (e := e) (by unfold State.exch; rw [htab]; exact hx)
      (by rw [ht]; decide)]
  refine ⟨fun hn => ?_, fun hlast => ?_⟩
  · exact reaches _ (State.blockProgress_counts (s := v) hj hh hn) rfl
  · intro w
    have hloaded : v.slotLoaded j { h with ended := h.ended + 1 } = w.settlePhase := by
      unfold State.slotLoaded
      dsimp only
      rw [hi, show v.slot i = { s.slot i with data := data } from u.slot_setSlot_self i _]
      refine congrArg State.settlePhase ?_
      unfold State.setSlot
      exact congrArg (fun g => { w with staging := g }) (Vector.set_set ..)
    have hslot : ((w.slot p.pos).state = .ready) ↔ (i = p.pos ∨ (s.slot p.pos).state = .ready) := by
      change (((s.setSlot i { s.slot i with data := data, state := .ready }).slot p.pos).state = .ready) ↔ _
      rw [State.slot_setSlot]
      split
      next hpos => simp [hpos]
      next hpos => simp [hpos]
    refine ⟨fun hph => ?_, fun hph => ?_⟩
    · refine reaches _ ?_ rfl
      rw [State.blockProgress_loads (s := v) hj hh hlast hd, hloaded, State.settlePhase_eq (s := w) hp]
      simp only [Payload.settlePhase_loads hph, hslot, or_assoc]
    · refine reaches _ ?_ rfl
      rw [State.blockProgress_loads (s := v) hj hh hlast hd, hloaded,
        State.settlePhase_kept (s := w) hp (Payload.settlePhase_under_way (.inr hph))]

/-- R22, R112, R113: an access of an exchange whose payload job has ended. -/
theorem access_of_ended_job {s : State} {a : Access} {x : Tag} {e : Exchange} (hl : s.live = true)
    (ha : s.access a.id = some a) (hx : s.exch x = some e) (hn : ∀ j, s.job = some j → j.tag ≠ x) :
    let u := { s with accesses := s.accesses.filter (fun b => b.id != a.id) }
    let left (d : Exchange) : State :=
      { u with
        table := s.table.set x (some d),
        waiting := if e.state = .completing ∧ e.final.isSome = true then u.joinSource s.waiting (.exchange x)
          else s.waiting }
    (a.purpose = .dataWrite x →
      exec (.dataWriteComplete a.id) s = .next (left { e with bytesMoved := some (e.bytesMoved.getD 0 + a.len) }) ∧
      exec (.dataWriteFault a.id) s = .next (left e)) ∧
    (∀ block offset, a.purpose = .dataRead x block offset →
      (∀ bytes : List Byte, bytes.length = a.len → exec (.dataReadComplete a.id bytes) s = .next (left e)) ∧
      exec (.dataReadFault a.id) s = .next (left e)) ∧
    (a.purpose = .descriptor x →
      (∀ data, exec (.descriptorReadComplete a.id data) s = .next (left e)) ∧
      exec (.descriptorReadFault a.id) s = .next (left e)) := by
  intro u left
  have hux : (s.endAccess a.id).exch x = some e := hx
  have hun : ∀ j, (s.endAccess a.id).job = some j → j.tag ≠ x := hn
  have kept : (s.endAccess a.id).accountEnd x = left e := by
    rw [State.accountEnd_eq hux]
    exact congrArg (fun tab => ({ left e with table := tab } : State)) (State.table_set_same hx).symm
  have moved : ((s.endAccess a.id).addBytes x a.len).accountEnd x
      = left { e with bytesMoved := some (e.bytesMoved.getD 0 + a.len) } := by
    let d : Exchange := { e with bytesMoved := some (e.bytesMoved.getD 0 + a.len) }
    have hd : ((s.endAccess a.id).setExch x (some d)).exch x = some d := State.exch_setExch_self _ _ _
    have hjoin := State.joinSource_congr (s := u) (t := (s.endAccess a.id).setExch x (some d)) (x := x)
      (by rw [hd, show u.exch x = some e from hx]; rfl) rfl (fun _ => rfl) s.waiting
    rw [State.addBytes_eq hux]
    refine (State.accountEnd_eq hd).trans ?_
    change ({ left d with waiting := if e.state = .completing ∧ e.final.isSome = true then
      ((s.endAccess a.id).setExch x (some d)).joinSource s.waiting (.exchange x) else s.waiting } : State) = left d
    rw [hjoin]
  refine ⟨fun hp => ⟨?_, ?_⟩, fun block offset hp => ⟨fun bytes hb => ?_, ?_⟩, fun hp => ⟨fun data => ?_, ?_⟩⟩
  · rw [exec_dataWriteComplete hl ha hp, State.blockProgress_other, moved]
    rw [State.addBytes_eq hux]; exact hn
  · rw [exec_dataWriteFault hl ha hp, State.jobAccessFault_other hun, kept]
  · rw [exec_dataReadComplete hl ha hp hb, State.fillSlot_other hun, State.blockProgress_other hun, kept]
  · rw [exec_dataReadFault hl ha hp, State.jobAccessFault_other hun, kept]
  · rw [exec_descriptorReadComplete hl ha hp, State.jobDescriptor_other hun, kept]
  · rw [exec_descriptorReadFault hl ha hp, State.jobDescriptorFault_other hun, kept]

/-- Settles O57: the reports of the job's own accesses, of those of a job that has ended, and of any in STOPPED. -/
theorem dataAccessesFillAndDrainSlots : Obligations.DataAccessesFillAndDrainSlots := by
  refine ⟨fun s a j h e p hl ha hj hh hx ht hp => ?_, fun s a x e hl ha hx hn => access_of_ended_job hl ha hx hn,
    fun s c id hst hc => exec_report_of_stopped hst hc⟩
  have hreports := State.jobAccessFault_reports (s := s.endAccess a.id) hj hx ht
  refine ⟨fun hw hd => dataWrite_drains hl ha hj hh hx ht hp hw hd,
    fun offset bytes hr hd hb => dataRead_loads hl ha hj hh hx ht hp hr hd hb, fun hw => ?_,
    fun block offset hr hf => ?_⟩
  · obtain ⟨t, rfl, hrep⟩ := hreports
    have hexec := exec_dataWriteFault hl ha hw
    exact ⟨fun hf => ⟨_, hexec, hrep.1 hf⟩, fun hf => ⟨_, hexec, hrep.2 hf⟩⟩
  · obtain ⟨t, rfl, hrep⟩ := hreports
    exact ⟨_, exec_dataReadFault hl ha hr, hrep.1 hf⟩

end Sys2Proof.Machine
end

section
/-! The completion poster (O60): the fields a source gives, the record that is begun, and what follows its write. -/
namespace Sys2Proof.Machine

/-! ## The fields of a record (R150, R161, R180) -/

theorem Wr.kind_link {w : BitVec 512} (h : 1 ≤ Wr.kindByte w ∧ Wr.kindByte w ≤ 7) :
    ∃ k, Wr.kind w = some (.link k) := by
  unfold Wr.kind
  obtain ⟨h1, h7⟩ := h
  generalize Wr.kindByte w = n at h1 h7
  interval_cases n <;> exact ⟨_, rfl⟩

theorem Wr.kindByte_of_link {w : BitVec 512} {k : ExKind} (h : Wr.kind w = some (.link k)) :
    1 ≤ Wr.kindByte w ∧ Wr.kindByte w ≤ 7 := by
  unfold Wr.kind at h
  split at h <;> first | omega | cases h

/-- R150: a record names its station only for a link work request with a station byte in 1 to 8. -/
theorem immediateFields_station (r : RingId) (w : BitVec 512) (index : Nat) (st : Status) (v : Word) :
    (immediateFields r w index st v).station =
      if (1 ≤ Wr.kindByte w ∧ Wr.kindByte w ≤ 7) ∧ 1 ≤ Wr.stationByte w ∧ Wr.stationByte w ≤ 8
        then w.extractLsb' 32 8 else 0 := by
  unfold immediateFields slotOfNumber
  dsimp only
  by_cases hk : 1 ≤ Wr.kindByte w ∧ Wr.kindByte w ≤ 7
  · obtain ⟨k, hkind⟩ := Wr.kind_link hk
    rw [hkind]
    by_cases hs : 1 ≤ Wr.stationByte w ∧ Wr.stationByte w ≤ 8
    · rw [dif_pos hs, if_pos ⟨hk, hs⟩]
      change BitVec.ofNat 8 (Wr.stationByte w - 1 + 1) = _
      rw [Nat.sub_add_cancel hs.1]
      unfold Wr.stationByte leByte
      rw [BitVec.ofNat_toNat, BitVec.setWidth_eq]
    · rw [dif_neg hs, if_neg fun h => hs h.2]
  · rw [if_neg fun h => hk h.1]
    split
    next k st hkind hst => exact absurd (Wr.kindByte_of_link hkind) hk
    next => rfl

/-- R180: the value of RING_FAULT, ring and cause side by side. -/
theorem ringFault_value (q : RingId) :
    BitVec.ofNat 32 (256 * q.val) ||| ringCauseCode .badPost = BitVec.ofNat 32 (256 * q.val + 1) ∧
    BitVec.ofNat 32 (256 * q.val) ||| ringCauseCode .fetchFault = BitVec.ofNat 32 (256 * q.val + 2) := by
  revert q; decide

/-! ## A record is begun (R157) -/

theorem State.beginRecord_eq {s : State} {r : RingId} {c : CRing} {src : Source} {rest : List Source} {f : RecordFields}
    (hl : s.live = true) (hc : s.cring r = some c) (hw : c.writing = none) (hroom : c.unreleased < c.size)
    (hq : s.waiting[r] = src :: rest) (hf : s.sourceFields src = some f) :
    s.beginRecord r = s.issueRecord r c src f := by
  have hnext : s.nextSource r c = some src := by
    unfold State.nextSource
    rw [if_pos ⟨hl, by rw [hw]; rfl, hroom⟩, hq]; rfl
  unfold State.beginRecord
  rw [hc]; dsimp only; rw [hnext]; dsimp only; rw [hf]

/-! ## A record is written (R158, R163, R164) -/

theorem State.recordOf_eq {s : State} {a : Access} {r : RingId} {c : CRing} {src : Source} (hl : s.live = true)
    (ha : s.access a.id = some a) (hp : a.purpose = .record r) (hc : s.cring r = some c)
    (hw : c.writing = some src) : s.recordOf a.id = some (r, c, src) := by
  unfold State.recordOf
  rw [State.report_of_live hl, ha]; dsimp only; rw [hp]; dsimp only; rw [hc]; dsimp only [Option.bind]; rw [hw]; rfl

theorem State.moderate_eq (s : State) (r : RingId) (c : CRing) :
    s.moderate r c =
      { s with
        crings := s.crings.set r (some
          { c with modCount := if c.threshold ≤ c.modCount + 1 ∨ c.delay = 0 then 0 else c.modCount + 1,
                   delayTimer := if c.threshold ≤ c.modCount + 1 ∨ c.delay = 0 then none
                     else if c.modCount = 0 then some 0 else c.delayTimer }),
        vectors := s.vectors ++ if c.threshold ≤ c.modCount + 1 ∨ c.delay = 0 then [ringVector r] else [] } := by
  unfold State.moderate CRing.counted
  by_cases h : c.threshold ≤ c.modCount + 1 ∨ c.delay = 0
  · simp only [if_pos h]; rfl
  · simp only [if_neg h, List.append_nil]; rfl

theorem State.freeSource_exchange {s : State} {x : Tag} {e : Exchange} (hx : s.exch x = some e) :
    s.freeSource (.exchange x) = { s with
      table := s.table.set x none,
      subRings := s.subRings.set e.ring
        { s.subRing e.ring with outstanding := (s.subRing e.ring).outstanding - 1 } } := by
  unfold State.freeSource; dsimp only; rw [hx]; rfl

theorem State.freeSource_holding {s : State} {q : RingId} {w : BitVec 512} {i : Nat} {st : Status} {v : Word}
    (hq : (s.subRing q).holding = .completing w i st v) :
    s.freeSource (.holding q) = { s with
      subRings := s.subRings.set q
        { s.subRing q with holding := .empty, outstanding := (s.subRing q).outstanding - 1 } } := by
  unfold State.freeSource; dsimp only; rw [hq]; dsimp only
  unfold State.recordGone
  rw [State.modSubRing, State.subRing_modSubRing_self]
  exact congrArg (fun g => { s with subRings := g }) (Vector.set_set ..)

theorem State.freeSource_last {s : State} {ev : Event} (h : s.eventQueue = [ev]) :
    s.freeSource .event = { s with eventQueue := [] } := by
  unfold State.freeSource State.dequeueEvent; rw [h]; rfl

theorem State.freeSource_next {s : State} {ev ev' : Event} {l : List Event} {q : RingId}
    (h : s.eventQueue = ev :: ev' :: l) (hq : s.eventRing = some q) :
    s.freeSource .event = { s with eventQueue := ev' :: l, waiting := joinedAt s q .event } := by
  have hring : ({ s with eventQueue := ev' :: l } : State).eventRing = some q := hq
  unfold State.freeSource State.dequeueEvent
  rw [h]
  dsimp only [List.tail_cons, List.isEmpty_cons]
  rw [if_neg (by decide)]
  unfold State.join
  dsimp only
  rw [hring]
  exact State.joinList_waiting _ q .event

/-- R158, R164: the source leaves its list and is freed, and the ring goes on. -/
theorem exec_recordWriteComplete {s : State} {a : Access} {r : RingId} {c : CRing} {src : Source} (hl : s.live = true)
    (ha : s.access a.id = some a) (hp : a.purpose = .record r) (hc : s.cring r = some c) (hw : c.writing = some src) :
    exec (.recordWriteComplete a.id) s
      = .next ((((s.endAccess a.id).leaveList r src).freeSource src).moderate r c.written) := by
  change Host.Outcome.next (s.recordDone a.id) = _
  unfold State.recordDone
  rw [State.recordOf_eq hl ha hp hc hw]

/-- Settles O60: the record is begun with the fields its source gives, and its end frees the source. -/
theorem recordIsWrittenAndItsSourceFreed : Obligations.RecordIsWrittenAndItsSourceFreed := by
  refine fun s r c hl hc => ⟨fun src rest f hw hroom hq hf => ?_, fun x e st v hx hfin => ?_,
    fun q w index st v hq => ?_, fun ev l hev hne => ?_, by decide, fun a src ha hp hw => ?_⟩
  · change Host.Outcome.next (s.beginRecord r) = _
    rw [State.beginRecord_eq hl hc hw hroom hq hf]
    rfl
  · unfold State.sourceFields; dsimp only; rw [hx]; unfold Exchange.fields; rw [Option.map_some, hfin]; rfl
  · unfold State.sourceFields; dsimp only; rw [hq]; dsimp only
    rw [← immediateFields_station q w index st v]
    rfl
  · unfold State.sourceFields; dsimp only; rw [hev]
    cases ev with
    | stationFaulted st cause => cases cause <;> rfl
    | ringFault q cause =>
      obtain ⟨hpost, hfetch⟩ := ringFault_value q
      cases cause with
      | badPost => dsimp only; rw [← hpost]; rfl
      | fetchFault => dsimp only; rw [← hfetch]; rfl
    | linkReset cause => cases cause <;> rfl
    | stationReady st v | stationLeft st | stationAlert st code => rfl
  · have hexec := exec_recordWriteComplete hl ha hp hc hw
    intro announce u
    refine ⟨fun x e hs hx => ?_, fun q w i st v hs hq => ?_, fun ev hs hq => ?_, fun ev ev' l q hs hq hring => ?_, ?_⟩
    · subst hs
      rw [hexec, State.freeSource_exchange (s := (s.endAccess a.id).leaveList r _) hx, State.moderate_eq]
      rfl
    · subst hs
      rw [hexec, State.freeSource_holding (s := (s.endAccess a.id).leaveList r _) hq, State.moderate_eq]
      rfl
    · subst hs
      rw [hexec, State.freeSource_last (s := (s.endAccess a.id).leaveList r _) hq, State.moderate_eq]
      rfl
    · subst hs
      rw [hexec, State.freeSource_next (s := (s.endAccess a.id).leaveList r _) hq hring, State.moderate_eq]
      rfl
    · change execRecordWriteFault a.id s = _
      unfold execRecordWriteFault
      rw [State.recordOf_eq hl ha hp hc hw]
      rfl

end Sys2Proof.Machine
end

section
/-! Admission (O25, O27): the arbiter takes the held work request of the ring at the pointer, an exchange is placed in
the lowest FREE slot, and a CANCEL treats what it finds. -/
namespace Sys2Proof.Machine

/-! ## The arbiter (R151, R152) -/

/-- R152: what a choice spends: only pointer and credit change. -/
theorem State.spendCredit_spends (s : State) :
    ∃ p c, s.spendCredit = { s with arbPtr := p, arbCredit := c } ∧
      (2 ≤ s.arbCredit → p = s.arbPtr ∧ c = s.arbCredit - 1) ∧
      (∀ r g, s.arbCredit = 1 → (ringsAfter s.arbPtr).find? s.usedRing = some r → (s.subRing r).cfg = some g →
        p = r ∧ c = g.weight) := by
  unfold State.spendCredit
  by_cases hc : s.arbCredit - 1 = 0
  · rw [if_pos hc]
    cases hf : (ringsAfter s.arbPtr).find? s.usedRing with
    | none => exact ⟨s.arbPtr, 0, rfl, fun h => by omega, fun r g _ h => by cases h⟩
    | some q =>
      refine ⟨q, s.weightOf q, rfl, fun h => by omega, fun r g _ h hg => ?_⟩
      obtain rfl := Option.some.inj h
      exact ⟨rfl, by unfold State.weightOf; rw [hg]⟩
  · rw [if_neg hc]
    exact ⟨s.arbPtr, s.arbCredit - 1, rfl, fun _ => ⟨rfl, rfl⟩, fun r g h => by omega⟩

/-- R151, R152: an admissible work request of the ring at the pointer is taken, once its credit is spent. -/
theorem exec_admission {s : State} {w : BitVec 512} {index : Nat} (hl : s.live = true)
    (hh : (s.subRing s.arbPtr).holding = .waiting w index)
    (hf : w.getLsbD 8 = true → (s.subRing s.arbPtr).outstanding = 1)
    (hj : ∀ k st, s.judge w = .exchange k st → s.freeSlot.isSome = true) :
    exec .admission s = .next (s.spendCredit.takeHeld s.arbPtr w index) := by
  have hfence : (s.subRing s.arbPtr).fenceMet w = true := by
    unfold SubRing.fenceMet Wr.fence
    cases hw : w.getLsbD 8 with
    | false => rfl
    | true => rw [hf hw]; rfl
  have hadm : s.admissible s.arbPtr = true := by
    unfold State.admissible
    rw [hh]; dsimp only; rw [hl, hfence]
    cases hk : s.judge w with
    | exchange k st => exact hj k st hk
    | immediate st => rfl
    | cancel r id => rfl
  change Host.Outcome.next s.arbitrate = _
  unfold State.arbitrate State.admitPointed
  rw [if_pos hadm, hh]

/-- R151: the ring whose work request is taken has a new holding position, and a fenced one is ACTIVE again. -/
theorem State.subRing_taken (s : State) (r u : RingId) (h : Holding) :
    ((s.fencePassed r).modSubRing r (fun x => { x with holding := h })).subRing u =
      if u = r then { s.subRing u with
        holding := h, state := if (s.subRing u).state = .fenceWait then .active else (s.subRing u).state }
      else s.subRing u := by
  unfold State.fencePassed
  rw [State.subRing_modSubRing, State.subRing_modSubRing]
  by_cases hu : u = r
  · rw [if_pos hu, if_pos hu.symm, if_pos hu.symm]
  · rw [if_neg hu, if_neg (Ne.symm hu), if_neg (Ne.symm hu)]

/-! ## The lowest FREE slot (R4) -/

/-- The tags come in ascending order. -/
theorem allTags_split (x : Tag) : ∃ l₁ l₂, allTags = l₁ ++ x :: l₂ ∧ ∀ u ∈ l₁, u < x := by
  have split : ∀ x : Tag, allTags = allTags.take x.val ++ x :: allTags.drop (x.val + 1) ∧
      ∀ u ∈ allTags.take x.val, u < x := by decide
  exact ⟨_, _, split x⟩

theorem State.freeSlot_eq {s : State} {x : Tag} (hx : s.exch x = none) (hlow : ∀ u, u < x → s.exch u ≠ none) :
    s.freeSlot = some x := by
  obtain ⟨l₁, l₂, hl, hbelow⟩ := allTags_split x
  unfold State.freeSlot
  rw [List.find?_eq_some_iff_append]
  refine ⟨by rw [hx]; rfl, l₁, l₂, hl, fun u hu => ?_⟩
  have hu' := hlow u (hbelow u hu)
  cases he : s.exch u with
  | none => exact absurd he hu'
  | some e => rfl

theorem ExKind.hasSegments_iff (k : ExKind) :
    k.hasSegments = true ↔ k = .readBlocks ∨ k = .writeBlocks ∨ k = .identifyStation := by
  cases k <;> decide

/-- Settles O25: the request passes the arbiter, and its exchange is placed in the lowest FREE slot. -/
theorem admissionPlacesAnExchange : Obligations.AdmissionPlacesAnExchange := by
  intro s w index k st x hl hh hf hj hx hlow
  have hfree := State.freeSlot_eq hx hlow
  obtain ⟨p, c, hspend, hstay, hmove⟩ := s.spendCredit_spends
  let b : State := { s with arbPtr := p, arbCredit := c }
  have htake : b.takeHeld s.arbPtr w index = (b.fencePassed s.arbPtr).placeExchange x k st s.arbPtr index w := by
    have hjb : b.judge w = .exchange k st := hj
    have hfb : b.freeSlot = some x := hfree
    unfold State.takeHeld; rw [hjb]; dsimp only; rw [hfb]
  refine ⟨(b.fencePassed s.arbPtr).placeExchange x k st s.arbPtr index w, ?_, ?_, fun u hu => ?_, fun u => ?_,
    fun u => ?_, fun u => ?_, hstay, hmove, rfl⟩
  · rw [exec_admission hl hh hf (fun _ _ _ => by rw [hfree]; rfl), hspend, htake]
  · refine (s.exch_setExch_self x _).trans ?_
    unfold Exchange.ofWr
    simp only [ExKind.hasSegments_iff]
  · exact s.exch_setExch_ne _ (Ne.symm hu)
  · refine (s.queueOf_setQueue st u _).trans ?_
    by_cases hu : u = st
    · rw [if_pos hu, if_pos hu.symm, hu]; rfl
    · rw [if_neg hu, if_neg (Ne.symm hu)]
  · refine (s.station_modStation st u _).trans ?_
    unfold Station.addConfig
    by_cases hu : u = st
    · by_cases hk : k = .configureStation
      · rw [if_pos hu.symm, if_pos hk, if_pos ⟨hu, hk⟩]; rfl
      · rw [if_pos hu.symm, if_neg hk, if_neg fun h => hk h.2]
    · rw [if_neg (Ne.symm hu), if_neg fun h => hu h.1]
  · exact b.subRing_taken s.arbPtr u .empty

/-! ## A CANCEL (R130 to R132, R137) -/

theorem State.cancelFinds_eq (s : State) (r : RingId) (id : BitVec 16) :
    s.cancelFinds r id = allTags.filter (fun x => s.fateOf (cancelFate r id) x != .stays) := by
  have hmem := s.cancelFinds_mem r id
  unfold State.cancelFinds at hmem ⊢
  refine List.filter_congr fun x _ => Bool.eq_iff_iff.2 ?_
  have hx := hmem x
  rw [List.mem_filter, and_iff_right (allTags_mem x)] at hx
  rw [hx, bne_iff_ne]

theorem State.cancelMatches_eq (s : State) (r : RingId) (id : BitVec 16) :
    s.cancelMatches r id = allTags.filter (fun x => (s.exch x).any (fun e => e.ring == r && e.requestId == id)) := by
  unfold State.cancelMatches
  refine List.filter_congr fun x _ => ?_
  cases s.exch x <;> rfl

/-- R132: a CANCEL ends what is QUEUED, and a read whose link side has finished. -/
theorem cancelFate_ends {r : RingId} {id : BitVec 16} {x : Tag} {e : Exchange} (h : cancelFate r id x e = .ends) :
    e.state = .queued ∨ (e.state = .transfer ∧ e.readFinished = true) := by
  unfold cancelFate at h
  split at h
  · cases hs : e.state <;> rw [hs] at h <;> simp_all
  · cases h

/-- R22, R132: of what a CANCEL finds, only what it ends is in COMPLETING afterwards. -/
theorem afterCancel_state {r : RingId} {id : BitVec 16} {x : Tag} {e : Exchange}
    (hf : cancelFate r id x e ≠ .stays) :
    (afterCancel r id x e).ring = e.ring ∧ (afterCancel r id x e).final.isSome = true ∧
    ((afterCancel r id x e).state = .completing ↔ cancelFate r id x e = .ends) := by
  have hmarked : cancelFate r id x e = .marked → e.state ≠ .completing := by
    intro h hs; unfold cancelFate at h; rw [hs] at h; simp at h
  unfold afterCancel
  cases hk : cancelFate r id x e with
  | stays => exact absurd hk hf
  | marked => exact ⟨rfl, rfl, ⟨fun h => absurd h (hmarked hk), fun h => by cases h⟩⟩
  | ends => exact ⟨rfl, rfl, ⟨fun _ => rfl, fun _ => rfl⟩⟩
  | halts => exact ⟨rfl, rfl, ⟨fun h => (by cases h), fun h => (by cases h)⟩⟩
  | withdraws => exact ⟨rfl, rfl, ⟨fun h => (by cases h), fun h => (by cases h)⟩⟩

/-- R131, R132: what a CANCEL leaves of an exchange, by its state. -/
theorem afterCancel_eq (r : RingId) (id : BitVec 16) (x : Tag) (e : Exchange) :
    (¬ (e.ring = r ∧ e.requestId = id) → afterCancel r id x e = e) ∧
    (e.final ≠ none ∨ e.state = .halting ∨ e.state = .withdrawing ∨ e.state = .completing →
      afterCancel r id x e = e) ∧
    (e.ring = r → e.requestId = id → e.final = none →
      (e.state = .queued ∨ (e.state = .transfer ∧ e.readFinished = true) → afterCancel r id x e =
        { e with state := .completing, retriesUsed := none, deferral := none, cancelMark := true,
                 final := some (.cancelled, 0) }) ∧
      (e.state = .issuing ∨ e.state = .resuming → afterCancel r id x e =
        { e with cancelMark := true, final := some (.cancelled, 0) }) ∧
      (e.state = .deferred ∨ e.state = .reconnecting → afterCancel r id x e =
        { e with state := .withdrawing, deferral := none, cancelMark := true, final := some (.cancelled, 0) }) ∧
      (e.state = .transfer ∧ e.readFinished = false → afterCancel r id x e =
        { e with state := .halting, retriesUsed := none, cancelMark := true, final := some (.cancelled, 0) })) := by
  have stays := (cancel_once r id).stays x e
  refine ⟨fun h => stays ?_, fun h => stays ?_, fun h1 h2 h3 => ?_⟩
  · unfold cancelFate; rw [if_neg fun hm => h ⟨hm.1, hm.2.1⟩]
  · unfold cancelFate
    split
    next hm => rcases h with h | h | h | h
               · exact absurd hm.2.2 h
               all_goals rw [h]
    next => rfl
  · unfold afterCancel cancelFate
    rw [if_pos ⟨h1, h2, h3⟩]
    refine ⟨fun h => ?_, fun h => ?_, fun h => ?_, fun h => ?_⟩
    · rcases h with h | ⟨h, hr⟩
      · rw [h]
      · rw [h]; dsimp only; rw [if_pos hr]
    · rcases h with h | h <;> rw [h]
    · rcases h with h | h <;> rw [h]
    · obtain ⟨h, hr⟩ := h
      rw [h]; dsimp only; rw [if_neg (by rw [hr]; decide)]

/-- What a sweep reads, and what it writes, has no part in the submission rings; the waiting lists and the draws are not
its concern. -/
theorem Swept.rings {m n : State} {f : Tag → Exchange → Fate} (h : Swept m n f) (R : Vector SubRing 4)
    (W : Vector (List Source) 4) (D : Nat) :
    Swept { m with subRings := R } { n with subRings := R, waiting := W, freeDraws := D } f :=
  ⟨h.queues, h.reconnect, h.stations, h.current, h.setAside, h.released, h.halted, h.kept, h.lane, by
    have hr := h.rest
    generalize n.table = a1, n.pendingQ = a2, n.stations = a3, n.current = a4, n.setAside = a5, n.cl = a6,
      n.payload = a7, n.quiet = a8, n.staging = a9, n.job = a10, n.reconnect = a11, n.waiting = a12,
      n.freeDraws = a13 at hr
    rw [hr]⟩

theorem State.cancelFold_waiting (l : List Tag) (s : State) : (l.foldl State.cancelOne s).waiting = s.waiting := by
  induction l generalizing s with
  | nil => rfl
  | cons x l ih => exact (ih (s.cancelOne x)).trans (s.cancelOne_waiting x)

/-- The sources that a CANCEL makes ready: its own record, and the exchanges it ends. -/
def State.cancelJoins (s : State) (r : RingId) (id : BitVec 16) : Source → Bool
  | .exchange x => s.fateOf (cancelFate r id) x == .ends
  | .holding _ | .event => true

theorem State.cancelJoins_filter (s : State) (r : RingId) (id : BitVec 16) (q : RingId) :
    (((s.cancelFinds r id).map Source.exchange ++ [Source.holding q]).filter (s.cancelJoins r id)).Perm
      (Source.holding q :: (allTags.filter (fun x => s.fateOf (cancelFate r id) x == .ends)).map .exchange) := by
  have hends : (s.cancelFinds r id).filter (fun x => s.fateOf (cancelFate r id) x == .ends)
      = allTags.filter (fun x => s.fateOf (cancelFate r id) x == .ends) := by
    rw [State.cancelFinds_eq, List.filter_filter]
    refine List.filter_congr fun x _ => ?_
    cases s.fateOf (cancelFate r id) x <;> rfl
  rw [List.filter_append, List.filter_map, ← hends]
  exact List.perm_append_comm

/-- R132, R137, R150, R156: a CANCEL taken from ring `q`. -/
theorem State.takeCancel_takes (m : State) (q : RingId) (w : BitVec 512) (index : Nat) (r : RingId) (id : BitVec 16) :
    ∃ (n : State) (l : List Source), Sweeps True m n (cancelFate r id) (afterCancel r id) ∧
      l.Perm (.holding q :: (allTags.filter (fun x => m.fateOf (cancelFate r id) x == .ends)).map .exchange) ∧
      (let R := m.subRings.set q { m.subRing q with
        holding := .completing w index (cancelStatus (m.cancelFinds r id).length (m.cancelMatches r id).length)
          (BitVec.ofNat 32 (m.cancelFinds r id).length) }
       m.takeCancel q w index r id
        = { n with subRings := R, waiting := ({ m with subRings := R } : State).joined l,
                   freeDraws := m.freeDraws + 1 }) := by
  have hsweep := m.cancelFold_sweeps r id
  have hinner := Inner.cancelAll m (m.cancelFinds r id)
  have hwait := State.cancelFold_waiting (m.cancelFinds r id) m
  generalize hn : (m.cancelFinds r id).foldl State.cancelOne m = n at hsweep hinner hwait
  let st := cancelStatus (m.cancelFinds r id).length (m.cancelMatches r id).length
  let v := BitVec.ofNat 32 (m.cancelFinds r id).length
  let b : State := m.holdCompleting q w index st v
  let t : State := n.holdCompleting q w index st v
  have hrings : t.subRings = b.subRings := by
    change n.subRings.set q { n.subRings[q] with holding := _ } = m.subRings.set q { m.subRings[q] with holding := _ }
    rw [hinner.subRings]
  have hrest := hsweep.swept.rest
  have joins : ∀ src, (∀ x, src = .exchange x → m.fateOf (cancelFate r id) x = .ends) → b.Joins t src := by
    intro src hready
    refine ⟨?_, fun c => ?_, ?_, fun x hx => ?_⟩
    · change n.accesses = m.accesses; rw [hrest]
    · unfold State.cringOf State.subRing; rw [hrings]
    · change n.eventRing = m.eventRing; unfold State.eventRing State.cfg; rw [hinner.device]
    · have hends := hready x hx
      cases he : m.exch x with
      | none => rw [State.fateOf_none he] at hends; cases hends
      | some e =>
        rw [State.fateOf_some he] at hends
        obtain ⟨hring, hfinal, hstate⟩ :=
          afterCancel_state (r := r) (id := id) (x := x) (e := e) (by rw [hends]; decide)
        exact ⟨e, afterCancel r id x e, he, by
          change n.exch x = _; rw [hsweep.exch, he]; rfl, hring, hstate.2 hends, hfinal⟩
  obtain ⟨l, hperm, hjoin⟩ := State.joinTogether_perm (s := b) (t := t)
    (l := (m.cancelFinds r id).map Source.exchange ++ [.holding q]) (m.cancelJoins r id) (fun src hsrc => by
      refine ⟨fun hp => joins src fun x hx => ?_, fun hp => ?_⟩
      · subst hx; exact beq_iff_eq.1 hp
      · cases src with
        | holding c => cases hp
        | event => cases hp
        | exchange x =>
          have hx : x ∈ m.cancelFinds r id := by simpa using hsrc
          rw [State.cancelFinds_mem] at hx
          refine ⟨x, rfl, fun d hd hc => ?_⟩
          change n.exch x = some d at hd
          rw [hsweep.exch] at hd
          obtain ⟨e, he, rfl⟩ := Option.map_eq_some_iff.1 hd
          have hne : m.fateOf (cancelFate r id) x ≠ .ends := beq_eq_false_iff_ne.1 hp
          rw [State.fateOf_some he] at hx hne
          exact hne ((afterCancel_state hx).2.2.1 hc))
  refine ⟨n, l, hsweep, hperm.trans (m.cancelJoins_filter r id q), ?_⟩
  intro R
  have hcancel : m.takeCancel q w index r id
      = t.joinTogether ((m.cancelFinds r id).map Source.exchange ++ [.holding q]) := by
    unfold State.takeCancel; dsimp only; rw [hn]
  have hb : ({ m with subRings := R } : State) = b := rfl
  rw [hcancel, hjoin, hb]
  unfold State.joined
  rw [show b.waiting = t.waiting from hwait.symm, show m.freeDraws = t.freeDraws from hsweep.draws.symm,
    show R = t.subRings from hrings.symm]
  rfl

/-- Settles O27: the CANCEL passes the arbiter and its sweep is read exchange by exchange. -/
theorem cancelTreatsWhatItFinds : Obligations.CancelTreatsWhatItFinds := by
  intro s w index r id g hl hh hcfg hf hj
  obtain ⟨p, c, hspend, hstay, hmove⟩ := s.spendCredit_spends
  let b : State := { s with arbPtr := p, arbCredit := c }
  let m : State := b.fencePassed s.arbPtr
  have htake : b.takeHeld s.arbPtr w index = m.takeCancel s.arbPtr w index r id := by
    have hjb : b.judge w = .cancel r id := hj
    unfold State.takeHeld; rw [hjb]
  obtain ⟨n, l, hsweep, hperm, ht⟩ := m.takeCancel_takes s.arbPtr w index r id
  dsimp only at ht
  generalize hR : m.subRings.set s.arbPtr _ = R at ht
  have hexch : ∀ x, (m.takeCancel s.arbPtr w index r id).exch x = (s.exch x).map (afterCancel r id x) := fun x => by
    rw [ht]; exact hsweep.exch x
  have hrest := hsweep.swept.rest
  have hquiet : n.quiet = s.quiet := (hsweep.quiet trivial).2 fun q e _ _ => by
    by_cases hends : cancelFate r id q.owner e = .ends
    · refine .inr ?_
      rcases cancelFate_ends hends with h | ⟨h, hr⟩
      · exact ⟨fun h' => absurd (h.symm.trans h') (by decide), by rw [h]; decide⟩
      · exact ⟨fun _ => hr, by rw [h]; decide⟩
    · exact .inl hends
  have hptr : (m.takeCancel s.arbPtr w index r id).arbPtr = p ∧ (m.takeCancel s.arbPtr w index r id).arbCredit = c := by
    rw [ht]; exact ⟨congrArg State.arbPtr hrest, congrArg State.arbCredit hrest⟩
  refine ⟨m.takeCancel s.arbPtr w index r id, ?_, fun x hx => ?_, fun x e hx hne => ?_, fun x e hx _ hs => ?_,
    fun x e hx h1 h2 h3 => ?_, fun u => ?_, fun h => ?_, fun q k h1 h2 h3 => ?_, ?_⟩
  · rw [exec_admission hl hh hf (fun k st hk => by rw [hj] at hk; cases hk), hspend, htake]
  · rw [hexch, hx]; rfl
  · rw [hexch, hx, Option.map_some, (afterCancel_eq r id x e).1 hne]
  · rw [hexch, hx, Option.map_some, (afterCancel_eq r id x e).2.1 hs]
  · rw [hexch, hx, Option.map_some]
    obtain ⟨hends, hmarks, hwithdraws, hhalts⟩ := (afterCancel_eq r id x e).2.2 h1 h2 h3
    exact ⟨fun h => congrArg some (hends h), fun h => congrArg some (hmarks h),
      fun h => congrArg some (hwithdraws h), fun h => congrArg some (hhalts h)⟩
  · have hfinds : m.cancelFinds r id = allTags.filter (fun x => s.fateOf (cancelFate r id) x != .stays) :=
      s.cancelFinds_eq r id
    have hmatches : m.cancelMatches r id
        = allTags.filter (fun x => (s.exch x).any (fun e => e.ring == r && e.requestId == id)) :=
      s.cancelMatches_eq r id
    rw [← hfinds, ← hmatches, ht]
    change R[u] = _
    rw [← hR]
    exact b.subRing_taken s.arbPtr u _
  · rw [hptr.1, hptr.2]; exact hstay h
  · rw [hptr.1, hptr.2]; exact hmove q k h1 h2 h3
  · rw [hptr.1, hptr.2, ht]
    have hsw := hsweep.swept.rings R (({ m with subRings := R } : State).joined l) (m.freeDraws + 1)
    exact ⟨hsw, hquiet, rfl, l, hperm, rfl⟩

end Sys2Proof.Machine
end

section
/-! The profile short path (O58): how the head job ends, and what it does when it needs a descriptor. -/
namespace Sys2Proof.Machine

/-! ## The end of the head job (R22, R114) -/

section
variable {u : State} {x : Tag} {e : Exchange} {c : RingId} (hx : u.exch x = some e) (hs : e.state = .completing)
  (hc : u.cringOf e.ring = some c)
include hx hs hc

/-- R7, R22: the status is recorded, and the exchange joins once no host access of it is outstanding. -/
theorem State.recordCause_join (hf : e.final = none) (st : Status) :
    (u.recordCause x st 0).join (.exchange x) = { u with
      table := u.table.set x (some { e with final := some (st, 0) }),
      waiting := if u.outstanding x = 0 then joinedAt u c (.exchange x) else u.waiting } := by
  have hfinal : e.finalAfter st 0 = some (st, 0) := by unfold Exchange.finalAfter; rw [hf]; rfl
  have hexch : (u.setExch x (some { e with final := some (st, 0) })).exch x = some { e with final := some (st, 0) } :=
    State.exch_setExch_self _ _ _
  have hjoin := State.joinSource_congr (s := u) (t := u.setExch x (some { e with final := some (st, 0) })) (x := x)
    (by rw [hexch, hx]; rfl) rfl (fun _ => rfl) u.waiting
  rw [State.recordCause_eq hx, hfinal]
  refine (State.accountEnd_eq hexch).trans ?_
  rw [if_pos ⟨hs, rfl⟩]
  refine congrArg (fun w => ({ u.setExch x (some { e with final := some (st, 0) }) with waiting := w } : State))
    (hjoin.trans ?_)
  unfold State.joinSource
  dsimp only
  rw [hx]; dsimp only; rw [hc]

/-- R112, R114: a head job that ends by a fault. -/
theorem State.endProfileJob_fault (hf : e.final = none) {st : Status} (hst : st ≠ .success) :
    u.endProfileJob x st = u.profileEnded x e c st := by
  unfold State.endProfileJob
  dsimp only
  rw [if_neg hst]
  exact State.recordCause_join (u := { u with profiles := u.profiles.tail }) hx hs hc hf st

/-- R114: a head job whose 16 bytes are written. -/
theorem State.endProfileJob_success (hf : e.final = none) :
    u.endProfileJob x .success = u.profileEnded x { e with bytesMoved := some 16 } c .success := by
  let m : State := { u with profiles := u.profiles.tail }
  have hm : m.exch x = some e := hx
  have hd : (m.setExch x (some { e with bytesMoved := some 16 })).exch x = some { e with bytesMoved := some 16 } :=
    State.exch_setExch_self _ _ _
  unfold State.endProfileJob
  dsimp only
  rw [if_pos rfl, show State.modExch { u with profiles := u.profiles.tail } x _ = _ from State.modExch_of_some _ hm,
    State.recordCause_join hd hs hc hf]
  unfold State.setExch State.profileEnded
  dsimp only
  rw [table_set_set]
  rfl

omit hx in
/-- R22: an exchange whose profile job has ended has joined already if it can. -/
theorem State.accountEnd_profileEnded (st : Status) :
    (u.profileEnded x e c st).accountEnd x = u.profileEnded x e c st := by
  let t : State := u.profileEnded x e c st
  have ht : t.exch x = some { e with final := some (st, 0) } := u.exch_setExch_self x _
  have hct : t.cringOf e.ring = some c := hc
  refine (State.accountEnd_eq ht).trans ?_
  rw [if_pos ⟨hs, rfl⟩]
  refine congrArg (fun w => ({ t with waiting := w } : State)) (?_ : t.joinSource t.waiting (.exchange x) = t.waiting)
  unfold State.joinSource
  dsimp only
  rw [ht]; dsimp only; rw [hct]; dsimp only
  by_cases ho : u.outstanding x = 0
  · have hw : t.waiting = joinInto u.waiting c (.exchange x) := if_pos ho
    rw [if_pos (show t.outstanding x = 0 from ho), hw]
    exact joinInto_of_mem (joinInto_self _ _ _)
  · exact if_neg ho

end

/-- R22: an exchange without a status joins nothing. -/
theorem State.accountEnd_open {t : State} {x : Tag} {e : Exchange} (hx : t.exch x = some e) (hf : e.final = none) :
    t.accountEnd x = t := by
  rw [State.accountEnd_eq hx, if_neg]
  rw [hf]; exact fun h => absurd h.2 (by decide)

/-! ## The head job's record (R114) -/

/-- The record of a job that has placed `n` bytes more, in the accesses `l`, and reached walk `w`. -/
def ProfileJob.moved (j : ProfileJob) (w : Walk) (n : Nat) (l : List Access) : ProfileJob :=
  { j with started := true, walk := w, placed := j.placed + n, issued := j.issued + l.length }

/-- The record of a job that has reached walk `w`. -/
def ProfileJob.onto (j : ProfileJob) (w : Walk) : ProfileJob := { j with walk := w }

/-- R103, R114: the exchange whose cursor follows the walk. -/
def Exchange.atWalk (e : Exchange) (w : Walk) : Exchange := { e with cursor := some w.cursor }

theorem State.exch_profilePlaced (u : State) (j : ProfileJob) (e : Exchange) (w : Walk) (n : Nat) (l : List Access) :
    (u.profilePlaced j e w n l).exch j.tag = some (e.atWalk w) := u.exch_setExch_self j.tag _

theorem State.setProfileJob_placed {u : State} {j : ProfileJob} {e : Exchange} (hs : j.started = true)
    (hx : u.exch j.tag = some e) (w : Walk) : u.setProfileJob (j.onto w) = u.profilePlaced j e w 0 [] := by
  rw [State.setProfileJob_eq (j.onto w) hx]
  unfold State.profilePlaced
  rw [← hs, List.append_nil]
  rfl

/-- Two placements one after the other. -/
theorem State.profilePlaced_placed (u : State) (j : ProfileJob) (e : Exchange) (w w' : Walk) (n n' : Nat)
    (l l' : List Access) :
    (u.profilePlaced j e w n l).profilePlaced (j.moved w n l) (e.atWalk w) w' n' l'
      = u.profilePlaced j e w' (n + n') (l ++ l') := by
  unfold State.profilePlaced ProfileJob.moved Exchange.atWalk
  dsimp only
  rw [table_set_set, List.append_assoc, List.length_append]
  simp only [Nat.add_assoc, List.tail_cons]

/-! ## A descriptor is needed (R104, R107) -/

/-- R107: the head job `j`, of exchange `e` with the list `g`, has bytes left to place and no descriptor to place them
in. -/
structure State.WantsProfile (s : State) (j : ProfileJob) (e : Exchange) (g : SegSource) : Prop where
  head : ∃ rest, s.profiles = j :: rest
  started : j.started = true
  needed : j.walk.needed = false
  room : j.placed < 16
  spent : j.walk.left = 0
  exch : s.exch j.tag = some e
  seg : e.seg = some g

section
variable {s : State} {j : ProfileJob} {e : Exchange} {g : SegSource} (h : s.WantsProfile j e g)
include h

theorem State.WantsProfile.pump (fuel : Nat) :
    State.profilePump (fuel + 1) s = if (j.walk.need g).faults then s.profileNeed j (j.walk.need g)
      else State.profilePump fuel (s.profileNeed j (j.walk.need g)) := by
  obtain ⟨rest, hhead⟩ := h.head
  have hseg : s.segOf j.tag = some g := by unfold State.segOf; rw [h.exch]; exact h.seg
  rw [State.profilePump_step hhead h.started h.needed h.room, if_pos h.spent, hseg]

theorem State.WantsProfile.faults {st : Status} (hn : j.walk.need g = .fault st) (fuel : Nat) :
    State.profilePump (fuel + 1) s = s.endProfileJob j.tag st := by
  rw [h.pump, hn]; exact if_pos rfl

theorem State.WantsProfile.readies {w : Walk} (hn : j.walk.need g = .ready w) (fuel : Nat) :
    State.profilePump (fuel + 1) s = State.profilePump fuel (s.setProfileJob (j.onto w)) := by
  rw [h.pump, hn]; exact if_neg Bool.false_ne_true

theorem State.WantsProfile.reads {w : Walk} {addr : BitVec 64} (hn : j.walk.need g = .read w addr)
    (hw : w.needed = true) (fuel : Nat) :
    State.profilePump (fuel + 1) s
      = (s.profilePlaced j e w 0 []).issue (.profileDescriptor j.tag) addr 16 [] := by
  rw [h.pump, hn]
  refine (if_neg Bool.false_ne_true).trans ?_
  change State.profilePump fuel ((s.setProfileJob (j.onto w)).issue _ _ _ _) = _
  rw [State.setProfileJob_placed h.started h.exch]
  exact State.profilePump_idle (rest := s.profiles.tail) rfl (.inl hw) fuel

end

/-- R104, R114: a descriptor is taken into use. It holds what is left of the profile; or it ends before, and the job
wants the next one. -/
theorem State.profilePump_fills {u : State} {j : ProfileJob} {e : Exchange} {w : Walk} {d : Descriptor}
    {index fuel placed : Nat} (hs : j.started = true) (hx : u.exch j.tag = some e)
    (hw : w.cur = some { desc := d, index := index, offset := 0 }) (hn : w.needed = false) (hf : 17 ≤ fuel)
    (hp : j.placed = placed) :
    let n := min d.len (16 - placed)
    let w' : Walk := { w with cur := some { desc := d, index := index, offset := n } }
    ∃ l, PlacesBlock l u.nextAccess d.addr d.len (16 - placed) ∧ CarriesProfile j placed l ∧
      (16 - placed ≤ d.len → State.profilePump fuel (u.setProfileJob (j.onto w)) = u.profilePlaced j e w' n l) ∧
      (d.len < 16 - placed →
        (∃ k, fuel ≤ k + 17 ∧ State.profilePump fuel (u.setProfileJob (j.onto w))
          = State.profilePump (k + 1) (u.profilePlaced j e w' n l)) ∧
        ∀ g, e.seg = some g → (u.profilePlaced j e w' n l).WantsProfile (j.moved w' n l) (e.atWalk w') g) := by
  subst hp
  intro n w'
  obtain ⟨l, hlen, hpump, hplaces, hcarries⟩ :=
    State.profilePump_takes (fuel := fuel) (index := index) hs hx hw hn (by omega)
  refine ⟨l, hplaces, hcarries, fun hfull => ?_, fun hshort => ⟨⟨fuel - l.length - 1, ?_, ?_⟩, fun g hg => ?_⟩⟩
  · exact hpump.trans (State.profilePump_idle (j := j.moved w' n l) (rest := u.profiles.tail) rfl
      (.inr (by change 16 ≤ j.placed + n; omega)) _)
  · omega
  · exact hpump.trans (congrArg (State.profilePump · (u.profilePlaced j e w' n l)) (by omega))
  · refine ⟨⟨_, rfl⟩, rfl, hn, ?_, ?_, u.exch_profilePlaced j e w' n l, hg⟩
    · change j.placed + n < 16; omega
    · change d.len - n = 0; omega

end Sys2Proof.Machine
end

section
/-! The profile short path (O58): the commands that start the head job and report its accesses. -/
namespace Sys2Proof.Machine

/-! ## The walk of an inline list (R105, R108) -/

/-- The walk in which the second inline descriptor has been taken into use, and `n` of its bytes are placed. -/
def Walk.secondInline (d : Descriptor) (n : Nat) : Walk :=
  { pos := .inline 2, ended := true, cur := some { desc := d, index := 1, offset := n }, walked := 2,
    look := .empty, needed := false }

/-- R105: what comes after the first inline descriptor. -/
theorem Walk.firstInline_need (g : SegSource) (n : Nat) :
    (g.d0.last = true → (Walk.firstInline g.d0 n).need g = .fault .segmentShort) ∧
    (g.d0.last = false → ¬ g.d1.Good → (Walk.firstInline g.d0 n).need g = .fault .listMalformed) ∧
    (g.d0.last = false → g.d1.Good → (Walk.firstInline g.d0 n).need g = .ready (Walk.secondInline g.d1 0)) := by
  have hneed : g.d0.last = false → (Walk.firstInline g.d0 n).need g = (Walk.firstInline g.d0 n).takeInline 1 g.d1 :=
    fun h => if_neg (by change ¬ g.d0.last = true; rw [h]; decide)
  refine ⟨fun h => if_pos h, fun h hd => ?_, fun h hd => ?_⟩
  · rw [hneed h, Walk.takeInline_bad hd]
  · rw [hneed h, Walk.takeInline_good hd]
    unfold Walk.secondInline; simp [Walk.firstInline]

theorem Walk.secondInline_need (d : Descriptor) (n : Nat) (g : SegSource) :
    (Walk.secondInline d n).need g = .fault .segmentShort := if_pos rfl

/-- R106, R107: what comes after an entry of a page that was taken into use. -/
theorem Walk.inEntry_need (w : Walk) (page : BitVec 64) (entry : Nat) (d : Descriptor) (n : Nat) (g : SegSource) :
    (d.last = true → (w.inEntry page entry d n .empty).need g = .fault .segmentShort) ∧
    (d.last = false → 256 ≤ entry + 1 → (w.inEntry page entry d n .empty).need g = .fault .listMalformed) ∧
    (d.last = false → entry + 1 < 256 → (w.inEntry page entry d n .empty).need g
      = .read { w.inEntry page entry d n .empty with needed := true } (page + BitVec.ofNat 64 (16 * (entry + 1)))) := by
  have hne : d.last = false → ¬ (w.inEntry page entry d n .empty).ended = true := fun h => by
    change ¬ d.last = true; rw [h]; decide
  refine ⟨fun h => if_pos h, fun h hfull => ?_, fun h hroom => ?_⟩
  · exact (if_neg (hne h)).trans (if_pos hfull)
  · exact (if_neg (hne h)).trans ((if_neg (by omega)).trans (if_neg (by omega)))

theorem State.WantsProfile.ends {v : State} {j : ProfileJob} {e : Exchange} {g : SegSource} {c : RingId} {st : Status}
    (h : v.WantsProfile j e g) (hs : e.state = .completing) (hf : e.final = none) (hc : v.cringOf e.ring = some c)
    (hn : j.walk.need g = .fault st) (hst : st ≠ .success) (k : Nat) :
    State.profilePump (k + 1) v = v.profileEnded j.tag e c st := by
  rw [h.faults hn, State.endProfileJob_fault h.exch hs hc hf hst]

/-! ## The head job starts (R114) -/

/-- The state in which the head job `j` is marked as started. -/
def State.profileBegun (s : State) (j : ProfileJob) : State :=
  { s with profiles := { j with started := true } :: s.profiles.tail }

section
variable {s : State} {j : ProfileJob} {rest : List ProfileJob} {e : Exchange} {c : RingId} {g : SegSource}
  (hl : s.live = true) (hp : s.profiles = j :: rest) (hx : s.exch j.tag = some e) (hs : e.state = .completing)
  (hf : e.final = none) (hc : s.cringOf e.ring = some c) (hg : e.seg = some g) (hstart : j.started = false)
  (hwalk : j.walk = Walk.start g) (hplaced : j.placed = 0)

include hl hp hstart in
theorem exec_profileJobStart :
    exec .profileJobStart s = .next (State.profilePump (63 + 1) (s.profileBegun j)) := by
  change execProfileJobStart s = _
  unfold execProfileJobStart State.beginProfileJob
  rw [if_pos hl, hp]
  dsimp only
  rw [if_neg (by rw [hstart]; decide)]
  unfold State.profileBegun
  rw [hp]
  rfl

include hx hg hwalk hplaced in
theorem State.profileBegun_wants : (s.profileBegun j).WantsProfile { j with started := true } e g :=
  ⟨⟨_, rfl⟩, rfl, by rw [hwalk]; rfl, by rw [hplaced]; decide, by rw [hwalk]; rfl, hx, hg⟩

include hl hp hx hs hf hc hg hstart hwalk hplaced in
/-- R105, R106, R108: a malformed beginning of the list ends the job. -/
theorem profileJobStart_malformed
    (hbad : (g.list = false ∧ ¬ g.d0.Good) ∨ (g.list = true ∧ g.d0.addr.toNat % 16 ≠ 0)) :
    exec .profileJobStart s = .next (s.profileEnded j.tag e c .listMalformed) := by
  have hwants := State.profileBegun_wants hx hg hwalk hplaced
  rw [exec_profileJobStart hl hp hstart,
    hwants.ends hs hf hc (by rw [hwalk]; exact Walk.start_malformed hbad) (by decide)]
  rfl

include hl hp hx hg hstart hwalk hplaced in
/-- R106, R107: under LIST the job reads the first entry. -/
theorem profileJobStart_page (hlist : g.list = true) (haddr : g.d0.addr.toNat % 16 = 0) :
    exec .profileJobStart s = .next ((s.profilePlaced j e (Walk.firstPage g.d0.addr) 0 []).issue
      (.profileDescriptor j.tag) g.d0.addr 16 []) := by
  have hwants := State.profileBegun_wants hx hg hwalk hplaced
  rw [exec_profileJobStart hl hp hstart,
    hwants.reads (by rw [hwalk]; exact Walk.start_page hlist haddr) rfl]
  rfl

include hl hp hx hs hf hc hg hstart hwalk hplaced in
/-- R104, R105, R108, R114: the job walks an inline list. -/
theorem profileJobStart_inline (hlist : g.list = false) (hd : g.d0.Good) :
    ∃ l, PlacesBlock l s.nextAccess g.d0.addr g.d0.len 16 ∧ CarriesProfile j 0 l ∧
      let v := s.profilePlaced j e (Walk.firstInline g.d0 (min g.d0.len 16)) (min g.d0.len 16) l
      (16 ≤ g.d0.len → exec .profileJobStart s = .next v) ∧
      (g.d0.len < 16 → g.d0.last = true → exec .profileJobStart s
        = .next (v.profileEnded j.tag (e.atWalk (Walk.firstInline g.d0 g.d0.len)) c .segmentShort)) ∧
      (g.d0.len < 16 → g.d0.last = false → ¬ g.d1.Good → exec .profileJobStart s
        = .next (v.profileEnded j.tag (e.atWalk (Walk.firstInline g.d0 g.d0.len)) c .listMalformed)) ∧
      (g.d0.len < 16 → g.d0.last = false → g.d1.Good →
        let n := min g.d1.len (16 - g.d0.len)
        ∃ l', PlacesBlock l' (s.nextAccess + l.length) g.d1.addr g.d1.len (16 - g.d0.len) ∧
          CarriesProfile j g.d0.len l' ∧
          let v' := s.profilePlaced j e (Walk.secondInline g.d1 n) (g.d0.len + n) (l ++ l')
          (16 ≤ g.d0.len + g.d1.len → exec .profileJobStart s = .next v') ∧
          (g.d0.len + g.d1.len < 16 → exec .profileJobStart s
            = .next (v'.profileEnded j.tag (e.atWalk (Walk.secondInline g.d1 n)) c .segmentShort))) := by
  let b : State := s.profileBegun j
  let J : ProfileJob := { j with started := true }
  have hwants : b.WantsProfile J e g := State.profileBegun_wants hx hg hwalk hplaced
  have hexec : exec .profileJobStart s
      = .next (State.profilePump 63 (b.setProfileJob (J.onto (Walk.firstInline g.d0 0)))) := by
    rw [exec_profileJobStart hl hp hstart]
    exact congrArg _ (hwants.readies (by change j.walk.need g = _; rw [hwalk]; exact Walk.start_inline hlist hd) 63)
  obtain ⟨l, hplaces, hcarries, hfull, hshort⟩ := State.profilePump_fills (u := b) (j := J) (e := e)
    (w := Walk.firstInline g.d0 0) (d := g.d0) (index := 0) (fuel := 63) rfl hx rfl rfl (by decide) hplaced
  let w0 : Walk := Walk.firstInline g.d0 (min g.d0.len 16)
  let v : State := b.profilePlaced J e w0 (min g.d0.len 16) l
  obtain ⟨hlast, hbad, hgood⟩ := Walk.firstInline_need g (min g.d0.len 16)
  have ends : ∀ st, g.d0.len < 16 → w0.need g = .fault st → st ≠ .success → exec .profileJobStart s
      = .next (v.profileEnded j.tag (e.atWalk (Walk.firstInline g.d0 g.d0.len)) c st) := fun st h hn hst => by
    obtain ⟨⟨k, hk, hpump⟩, hnext⟩ := hshort h
    rw [hexec, hpump]
    refine congrArg _ (((hnext g hg).ends hs hf hc hn hst k).trans ?_)
    change v.profileEnded j.tag (e.atWalk w0) c st = _
    rw [show w0 = Walk.firstInline g.d0 g.d0.len by simp only [w0, Nat.min_eq_left h.le]]
  refine ⟨l, hplaces, hcarries, fun h => hexec.trans (congrArg _ (hfull h)),
    fun h h1 => ends _ h (hlast h1) (by decide), fun h h1 h2 => ends _ h (hbad h1 h2) (by decide), fun h h1 h2 => ?_⟩
  intro n
  have hmin : min g.d0.len 16 = g.d0.len := Nat.min_eq_left h.le
  obtain ⟨⟨k, hk, hpump⟩, hnext⟩ := hshort h
  have hexec' : exec .profileJobStart s = .next (State.profilePump k
      (v.setProfileJob ((J.moved w0 (min g.d0.len 16) l).onto (Walk.secondInline g.d1 0)))) := by
    rw [hexec, hpump]
    exact congrArg _ ((hnext g hg).readies (hgood h1 h2) k)
  have hmoved : (J.moved w0 (min g.d0.len 16) l).placed = g.d0.len := by
    change j.placed + min g.d0.len 16 = _; omega
  obtain ⟨l', hplaces', hcarries', hfull', hshort'⟩ := State.profilePump_fills (u := v)
    (j := J.moved w0 (min g.d0.len 16) l) (e := e.atWalk w0) (w := Walk.secondInline g.d1 0) (d := g.d1) (index := 1)
    (fuel := k) rfl (hnext g hg).exch rfl rfl (by omega) hmoved
  have hv' : v.profilePlaced (J.moved w0 (min g.d0.len 16) l) (e.atWalk w0) (Walk.secondInline g.d1 n) n l'
      = s.profilePlaced j e (Walk.secondInline g.d1 n) (g.d0.len + n) (l ++ l') := by
    refine (State.profilePlaced_placed b J e w0 _ (min g.d0.len 16) n l l').trans ?_
    rw [hmin]; rfl
  refine ⟨l', hplaces', hcarries', fun h3 => ?_, fun h3 => ?_⟩
  · rw [hexec', hfull' (by omega)]
    exact congrArg _ hv'
  · obtain ⟨⟨k', -, hpump'⟩, hnext'⟩ := hshort' (by omega)
    rw [hexec', hpump', ← hv']
    exact congrArg _ ((hnext' g hg).ends hs hf hc (Walk.secondInline_need _ _ _) (by decide) k')

end

/-! ## The reports of the head job's accesses (R104, R107, R114) -/

theorem exec_profileWriteComplete {s : State} {a : Access} {x : Tag} (hl : s.live = true)
    (ha : s.access a.id = some a) (hp : a.purpose = .profileWrite x) :
    exec (.profileWriteComplete a.id) s = .next (((s.endAccess a.id).profileProgress x).accountEnd x) := by
  change execProfileWriteComplete a.id s = _
  unfold execProfileWriteComplete State.profileWritten
  rw [State.report_of_live hl, ha]; dsimp only; rw [hp]

theorem exec_profileWriteFault {s : State} {a : Access} {x : Tag} (hl : s.live = true) (ha : s.access a.id = some a)
    (hp : a.purpose = .profileWrite x) :
    exec (.profileWriteFault a.id) s = .next (((s.endAccess a.id).profileFault x).accountEnd x) := by
  change execProfileWriteFault a.id s = _
  unfold execProfileWriteFault State.profileWriteFaulted
  rw [State.report_of_live hl, ha]; dsimp only; rw [hp]

theorem exec_profileDescriptorComplete {s : State} {a : Access} {x : Tag} (hl : s.live = true)
    (ha : s.access a.id = some a) (hp : a.purpose = .profileDescriptor x) (data : BitVec 128) :
    exec (.descriptorReadComplete a.id data) s
      = .next (((s.endAccess a.id).profileDescriptor x (parseDescriptor data)).accountEnd x) := by
  change execDescriptorReadComplete a.id data s = _
  unfold execDescriptorReadComplete State.descriptorDone
  rw [State.report_of_live hl, ha]; dsimp only; rw [hp]

theorem exec_profileDescriptorFault {s : State} {a : Access} {x : Tag} (hl : s.live = true)
    (ha : s.access a.id = some a) (hp : a.purpose = .profileDescriptor x) :
    exec (.descriptorReadFault a.id) s = .next (((s.endAccess a.id).profileFault x).accountEnd x) := by
  change execDescriptorReadFault a.id s = _
  unfold execDescriptorReadFault State.descriptorFaulted
  rw [State.report_of_live hl, ha]; dsimp only; rw [hp]

section
variable {u : State} {j : ProfileJob} {rest : List ProfileJob} (hp : u.profiles = j :: rest)
include hp

theorem State.profileProgress_counts (hs : j.started = true) (h : j.placed < 16 ∨ j.ended + 1 ≠ j.issued) :
    u.profileProgress j.tag = u.setProfileJob { j with ended := j.ended + 1 } := by
  unfold State.profileProgress
  rw [hp]; dsimp only; rw [if_pos ⟨rfl, hs⟩, if_neg (by omega)]

theorem State.profileProgress_ends (hs : j.started = true) (h : 16 ≤ j.placed ∧ j.ended + 1 = j.issued) :
    u.profileProgress j.tag = u.endProfileJob j.tag .success := by
  unfold State.profileProgress
  rw [hp]; dsimp only; rw [if_pos ⟨rfl, hs⟩, if_pos h]

theorem State.profileFault_ends (hs : j.started = true) :
    u.profileFault j.tag = u.endProfileJob j.tag .hostAccessFault := by
  unfold State.profileFault
  rw [hp]; dsimp only; rw [if_pos ⟨rfl, hs⟩]

theorem State.profileDescriptor_eq {page : BitVec 64} {entry : Nat} (hn : j.walk.needed = true)
    (hpos : j.walk.pos = .page page entry) (d : Descriptor) :
    let need := { j.walk with look := .empty, needed := false }.takeListed page entry d
    u.profileDescriptor j.tag d
      = if need.faults then u.profileNeed j need else State.profilePump 64 (u.profileNeed j need) := by
  unfold State.profileDescriptor
  rw [hp]; dsimp only; rw [if_pos ⟨rfl, hn⟩, hpos]; rfl

end

section
variable {u : State} {j : ProfileJob} {rest : List ProfileJob} {e : Exchange} {c : RingId} {page : BitVec 64}
  {entry : Nat} {d : Descriptor} (hp : u.profiles = j :: rest) (hstart : j.started = true)
  (hx : u.exch j.tag = some e) (hs : e.state = .completing) (hf : e.final = none)
  (hc : u.cringOf e.ring = some c) (hn : j.walk.needed = true) (hpos : j.walk.pos = .page page entry)
include hp hx hn hpos

include hs hf hc in
/-- R106, R108: a malformed entry ends the head job. -/
theorem State.profileDescriptor_malformed (hd : d.Malformed j.walk.walked) :
    u.profileDescriptor j.tag d = u.profileEnded j.tag e c .listMalformed := by
  rw [State.profileDescriptor_eq hp hn hpos,
    Walk.takeListed_malformed (w := { j.walk with look := .empty, needed := false }) hd]
  exact State.endProfileJob_fault hx hs hc hf (by decide)

include hstart in
/-- R106: a CHAIN entry leads the head job to the next page. -/
theorem State.profileDescriptor_leads (hd : d.Leads j.walk.walked) :
    u.profileDescriptor j.tag d
      = (u.profilePlaced j e { j.walk with pos := .page d.addr 0, walked := j.walk.walked + 1, look := .empty }
          0 []).issue (.profileDescriptor j.tag) d.addr 16 [] := by
  rw [State.profileDescriptor_eq hp hn hpos,
    Walk.takeListed_leads (w := { j.walk with look := .empty, needed := false }) hd]
  let w : Walk := { j.walk with pos := .page d.addr 0, walked := j.walk.walked + 1, look := .empty, needed := true }
  have hw : w = { j.walk with pos := .page d.addr 0, walked := j.walk.walked + 1, look := .empty } :=
    congrArg (fun b => ({ j.walk with pos := .page d.addr 0, walked := j.walk.walked + 1, look := .empty,
                                      needed := b } : Walk)) hn.symm
  refine (if_neg Bool.false_ne_true).trans ?_
  change State.profilePump 64 ((u.setProfileJob (j.onto w)).issue _ _ _ _) = _
  rw [State.setProfileJob_placed hstart hx, ← hw]
  exact State.profilePump_idle (rest := u.profiles.tail) rfl (.inl rfl) 64

include hstart hs hf hc in
/-- R104, R107, R108, R114: a data entry is taken into use; where it ends before the profile the next one is read. -/
theorem State.profileDescriptor_usable {g : SegSource} (hg : e.seg = some g) (hd : d.Usable j.walk.walked) :
    let left := 16 - j.placed
    let n := min d.len left
    let w := j.walk.inEntry page entry d n .empty
    ∃ l, PlacesBlock l u.nextAccess d.addr d.len left ∧ CarriesProfile j j.placed l ∧
      let v := u.profilePlaced j e w n l
      (left ≤ d.len → u.profileDescriptor j.tag d = v) ∧
      (d.len < left → d.last = true →
        u.profileDescriptor j.tag d = v.profileEnded j.tag (e.atWalk w) c .segmentShort) ∧
      (d.len < left → d.last = false → 256 ≤ entry + 1 →
        u.profileDescriptor j.tag d = v.profileEnded j.tag (e.atWalk w) c .listMalformed) ∧
      (d.len < left → d.last = false → entry + 1 < 256 →
        u.profileDescriptor j.tag d = (u.profilePlaced j e { w with needed := true } n l).issue
          (.profileDescriptor j.tag) (page + BitVec.ofNat 64 (16 * (entry + 1))) 16 []) := by
  intro left n w
  have htake : u.profileDescriptor j.tag d
      = State.profilePump 64 (u.setProfileJob (j.onto (j.walk.inEntry page entry d 0 .empty))) := by
    rw [State.profileDescriptor_eq hp hn hpos,
      Walk.takeListed_usable (w := { j.walk with look := .empty, needed := false }) hd]
    exact if_neg Bool.false_ne_true
  obtain ⟨l, hplaces, hcarries, hfull, hshort⟩ := State.profilePump_fills (u := u) (j := j) (e := e)
    (w := j.walk.inEntry page entry d 0 .empty) (d := d) (index := j.walk.walked) (fuel := 64) hstart hx rfl rfl
    (by decide) rfl
  obtain ⟨hlast, hend, hnext⟩ := Walk.inEntry_need j.walk page entry d n g
  refine ⟨l, hplaces, hcarries, fun h => htake.trans (hfull h), fun h h1 => ?_, fun h h1 h2 => ?_, fun h h1 h2 => ?_⟩
  all_goals
    obtain ⟨⟨k, -, hpump⟩, hwants⟩ := hshort h
    rw [htake, hpump]
  · exact (hwants g hg).ends hs hf hc (hlast h1) (by decide) k
  · exact (hwants g hg).ends hs hf hc (hend h1 h2) (by decide) k
  · refine ((hwants g hg).reads (hnext h1 h2) rfl k).trans ?_
    have hplaced : (u.profilePlaced j e w n l).profilePlaced (j.moved w n l) (e.atWalk w) { w with needed := true } 0 []
        = u.profilePlaced j e { w with needed := true } n l := by
      rw [State.profilePlaced_placed, List.append_nil]; rfl
    exact congrArg
      (fun m : State => m.issue (.profileDescriptor j.tag) (page + BitVec.ofNat 64 (16 * (entry + 1))) 16 []) hplaced

end

/-! ## An access of a job that has ended -/

section
variable {u : State} {x : Tag} (hn : ∀ j, u.profiles.head? = some j → j.tag ≠ x)
include hn

theorem State.profileProgress_other : u.profileProgress x = u := by
  unfold State.profileProgress
  cases hp : u.profiles with
  | nil => rfl
  | cons j rest => exact if_neg fun h => hn j (by rw [hp]; rfl) h.1

theorem State.profileFault_other : u.profileFault x = u := by
  unfold State.profileFault
  cases hp : u.profiles with
  | nil => rfl
  | cons j rest => exact if_neg fun h => hn j (by rw [hp]; rfl) h.1

theorem State.profileDescriptor_other (d : Descriptor) : u.profileDescriptor x d = u := by
  unfold State.profileDescriptor
  cases hp : u.profiles with
  | nil => rfl
  | cons j rest => exact if_neg fun h => hn j (by rw [hp]; rfl) h.1

end

/-- Settles O58: the start of the head job, the reports of its accesses, and those of a job that has ended. -/
theorem profileIsWrittenToItsSegments : Obligations.ProfileIsWrittenToItsSegments := by
  refine ⟨fun s j rest e c hl hp hx hs hf hc => ?_, fun s a x e hl ha hx hn => ?_⟩
  · intro moved good reads
    refine ⟨fun g hg hstart hwalk hplaced hissued => ?_, fun a ha hstart => ?_⟩
    · intro w0 w1
      have hmalformed := profileJobStart_malformed hl hp hx hs hf hc hg hstart hwalk hplaced
      exact ⟨fun hlist hbad => hmalformed (.inl ⟨hlist, hbad⟩),
        profileJobStart_inline hl hp hx hs hf hc hg hstart hwalk hplaced,
        profileJobStart_page hl hp hx hg hstart hwalk hplaced,
        fun hlist haddr => hmalformed (.inr ⟨hlist, haddr⟩)⟩
    · intro u
      have hpu : (s.endAccess a.id).profiles = j :: rest := hp
      have hxu : (s.endAccess a.id).exch j.tag = some e := hx
      have hcu : (s.endAccess a.id).cringOf e.ring = some c := hc
      have ended : ∀ {m : State} {d : Exchange} (st : Status), d.state = .completing → m.cringOf d.ring = some c →
          (m.profileEnded j.tag d c st).accountEnd j.tag = m.profileEnded j.tag d c st :=
        fun st h1 h2 => State.accountEnd_profileEnded h1 h2 st
      have runs : ∀ {m : State} (w : Walk), m.exch j.tag = some (e.atWalk w) → m.accountEnd j.tag = m :=
        fun w h => State.accountEnd_open h hf
      have faulted : ((s.endAccess a.id).profileFault j.tag).accountEnd j.tag
          = u.profileEnded j.tag e c .hostAccessFault := by
        rw [State.profileFault_ends hpu hstart, State.endProfileJob_fault hxu hs hcu hf (by decide), ended _ hs hcu]
        rfl
      refine ⟨fun hw h => ?_, fun hw h1 h2 => ?_, fun hw => ?_, fun hd => ?_,
        fun page entry data hd hn hpos hseg hroom => ?_⟩
      · rw [exec_profileWriteComplete hl ha hw, State.profileProgress_counts hpu hstart h,
          State.setProfileJob_eq { j with ended := j.ended + 1 } hxu, hpu]
        exact congrArg _ (runs j.walk (State.exch_setExch_self _ _ _))
      · rw [exec_profileWriteComplete hl ha hw, State.profileProgress_ends hpu hstart ⟨h1, h2⟩,
          State.endProfileJob_success hxu hs hcu hf]
        exact congrArg _ (ended .success hs hcu)
      · rw [exec_profileWriteFault hl ha hw, faulted]
      · rw [exec_profileDescriptorFault hl ha hd, faulted]
      · intro d
        have reaches : ∀ t : State, (s.endAccess a.id).profileDescriptor j.tag d = t → t.accountEnd j.tag = t →
            exec (.descriptorReadComplete a.id data) s = .next t := fun t h1 h2 => by
          rw [exec_profileDescriptorComplete hl ha hd]
          exact congrArg _ ((congrArg (State.accountEnd · j.tag) h1).trans h2)
        obtain ⟨g, hg⟩ := Option.ne_none_iff_exists'.1 hseg
        refine ⟨fun h => reaches _ (State.profileDescriptor_malformed hpu hxu hs hf hcu hn hpos h) (ended _ hs hcu),
          fun h => reaches _ (State.profileDescriptor_leads hpu hstart hxu hn hpos h)
            (runs _ (State.exch_profilePlaced _ j e _ 0 [])), fun h => ?_⟩
        intro left n w
        obtain ⟨l, hplaces, hcarries, hfull, hshort, hend, hnext⟩ :=
          State.profileDescriptor_usable hpu hstart hxu hs hf hcu hn hpos hg h
        refine ⟨l, hplaces, hcarries, fun h1 => reaches _ (hfull h1) (runs w (State.exch_profilePlaced _ j e _ _ _)),
          fun h1 h2 => reaches _ (hshort h1 h2) (ended _ hs hcu),
          fun h1 h2 h3 => reaches _ (hend h1 h2 h3) (ended _ hs hcu),
          fun h1 h2 h3 => reaches _ (hnext h1 h2 h3) (runs _ (State.exch_profilePlaced _ j e _ n l))⟩
  · have hnu : ∀ j, (s.endAccess a.id).profiles.head? = some j → j.tag ≠ x := hn
    have hleft := State.accountEnd_eq (s := s.endAccess a.id) hx
    intro u left
    refine ⟨fun hw => ⟨?_, ?_⟩, fun hd => ⟨fun data => ?_, ?_⟩⟩
    · rw [exec_profileWriteComplete hl ha hw, State.profileProgress_other hnu, hleft]; rfl
    · rw [exec_profileWriteFault hl ha hw, State.profileFault_other hnu, hleft]; rfl
    · rw [exec_profileDescriptorComplete hl ha hd, State.profileDescriptor_other hnu, hleft]; rfl
    · rw [exec_profileDescriptorFault hl ha hd, State.profileFault_other hnu, hleft]; rfl

end Sys2Proof.Machine
end

section
/-! The link clock and the configuration copy (O5): every command either leaves the device's state, LCK and the copy as they
are, or moves the device along one of the transitions of R168. -/
namespace Sys2Proof.Machine

/-! ## The law, by device state -/

/-- R25, R172: the clock is stopped and no configuration copy is kept. -/
def State.Unconfigured (s : State) : Prop := s.device.lck = none ∧ s.device.config = none

theorem State.ClockOk.of_unconfigured {s : State} (h : s.Unconfigured)
    (hs : s.device.state = .off ∨ s.device.state = .loading) : s.ClockOk := by
  obtain ⟨hlck, hcfg⟩ := h
  unfold State.ClockOk State.live
  rw [hlck, hcfg]
  rcases hs with hs | hs <;> rw [hs] <;> decide

theorem State.ClockOk.unconfigured {s : State} (h : s.ClockOk)
    (hs : s.device.state = .off ∨ s.device.state = .loading) : s.Unconfigured := by
  unfold State.ClockOk State.live at h
  obtain ⟨hlck, hcfg⟩ := h
  rcases hs with hs | hs <;> rw [hs] at hlck hcfg <;>
    exact ⟨Option.not_isSome_iff_eq_none.1 (by rw [hlck]; decide),
      Option.not_isSome_iff_eq_none.1 (by rw [hcfg]; decide)⟩

theorem State.ClockOk.of_live {s : State} (hs : s.device.state = .running ∨ s.device.state = .draining)
    (hlck : s.device.lck.isSome = true) (hcfg : s.device.config.isSome = true) : s.ClockOk := by
  unfold State.ClockOk State.live
  rw [hlck, hcfg]
  rcases hs with hs | hs <;> rw [hs] <;> decide

theorem State.ClockOk.configured {s : State} (h : s.ClockOk) (hl : s.live = true) :
    s.device.lck.isSome = true ∧ s.device.config.isSome = true := by
  obtain ⟨hlck, hcfg⟩ := h
  rw [hl] at hlck hcfg
  exact ⟨hlck, hcfg⟩

/-! ## What leaves the law alone -/

/-- The device's state, LCK and the configuration copy are the same in `s` and `t`. -/
structure SameClock (s t : State) : Prop where
  state : t.device.state = s.device.state
  lck : t.device.lck = s.device.lck
  config : t.device.config = s.device.config

theorem SameClock.of_device {s t : State} (h : t.device = s.device) : SameClock s t := by
  constructor <;> rw [h]

theorem SameClock.ok {s t : State} (h : SameClock s t) (hs : s.ClockOk) : t.ClockOk := by
  unfold State.ClockOk State.live at *
  rw [h.state, h.lck, h.config]
  exact hs

theorem SameClock.faultRing (s : State) (r : RingId) (c : RingCause) : SameClock s (s.faultRing r c) := by
  obtain ⟨-, -, -, -, hstate, hlck, hcfg⟩ := s.faultRing_outer r c
  exact ⟨hstate, hlck, hcfg⟩

/-! ## Admission, posting and the poster leave device control alone -/

theorem State.spendCredit_device (s : State) : s.spendCredit.device = s.device := by
  unfold State.spendCredit
  split
  · split <;> rfl
  · rfl

theorem State.takeHeld_device (s : State) (r : RingId) (w : BitVec 512) (index : Nat) :
    (s.takeHeld r w index).device = s.device := by
  unfold State.takeHeld
  split
  · split
    · rfl
    · rfl
  · exact (Inner.join _ _).device
  · refine (Inner.joinTogether _ _).device.trans ?_
    exact (Inner.cancelAll (s.fencePassed r) _).device

theorem State.admitPointed_device (s : State) : s.admitPointed.device = s.device := by
  unfold State.admitPointed
  split
  · exact (State.takeHeld_device _ _ _ _).trans s.spendCredit_device
  all_goals rfl

theorem State.arbitrate_device (s : State) : s.arbitrate.device = s.device := by
  unfold State.arbitrate
  split
  · exact s.admitPointed_device
  · split
    · rfl
    · split
      · exact State.admitPointed_device _
      · rfl

theorem State.moveLatch_device (s : State) : s.moveLatch.device = s.device := by
  have hfirst : ∀ e t, s.firstLatch = some (e, t) → t.device = s.device := by
    unfold State.firstLatch
    intro e t h
    split at h
    · cases h; rfl
    · split at h
      · cases h; rfl
      · split at h
        · cases h; rfl
        · cases h
  unfold State.moveLatch
  split
  next e t h => exact (pushEvent_frame t e).2.2.1.trans (hfirst e t h)
  next => rfl

theorem State.beginRecord_device (s : State) (r : RingId) : (s.beginRecord r).device = s.device := by
  unfold State.beginRecord
  split
  · split
    · split <;> rfl
    · rfl
  · rfl

theorem State.freeSource_device (s : State) (src : Source) : (s.freeSource src).device = s.device := by
  unfold State.freeSource
  split
  · split <;> rfl
  · split <;> rfl
  · exact s.dequeueEvent_frame.2.2.2.1

theorem State.recordDone_device (s : State) (id : Nat) : (s.recordDone id).device = s.device := by
  unfold State.recordDone
  split
  · exact (State.moderate_outer _ _ _).2.1.trans (State.freeSource_device _ _)
  · rfl

theorem State.beginFetch_device (s : State) (r : RingId) : (s.beginFetch r).device = s.device := by
  unfold State.beginFetch; split <;> rfl

theorem State.fetchDone_device (s : State) (id : Nat) (w : BitVec 512) : (s.fetchDone id w).device = s.device := by
  unfold State.fetchDone; split <;> rfl

theorem SameClock.fetchFaulted (s : State) (id : Nat) : SameClock s (s.fetchFaulted id) := by
  unfold State.fetchFaulted
  split
  next r _ _ =>
    have h := SameClock.faultRing ((s.endAccess id).modSubRing r (fun x => { x with holding := .empty })) r .fetchFault
    exact ⟨h.state, h.lck, h.config⟩
  next => exact .of_device rfl

theorem SameClock.takePost (s : State) (v : Word) : SameClock s (s.takePost v) := by
  unfold State.takePost
  split
  · split
    · split
      · exact ⟨rfl, rfl, rfl⟩
      · exact .faultRing _ _ _
    · exact ⟨rfl, rfl, rfl⟩
  · exact ⟨rfl, rfl, rfl⟩

theorem SameClock.takeRelease (s : State) (v : Word) : SameClock s (s.takeRelease v) := by
  unfold State.takeRelease
  split
  · split
    · dsimp only
      split <;> exact ⟨rfl, rfl, rfl⟩
    · exact ⟨rfl, rfl, rfl⟩
  · exact .of_device rfl

/-! ## Device control (R168, R170, R173, R175, R176) -/

/-- R170, R173: loading ends in OFF, which keeps no copy. -/
theorem State.endLoading_clockOk {s : State} (h : s.Unconfigured) (r : CommandResult) : (s.endLoading r).ClockOk :=
  .of_unconfigured (s := s.endLoading r) h (.inl rfl)

theorem State.takeEnable_clockOk {s : State} (h : s.ClockOk) : s.takeEnable.ClockOk := by
  unfold State.takeEnable
  split
  next hoff =>
    have hun := h.unconfigured (.inl hoff)
    unfold State.beginLoading
    dsimp only
    split
    · exact .of_unconfigured hun (.inr rfl)
    · exact State.endLoading_clockOk (by exact hun) _
  next => exact SameClock.ok ⟨rfl, rfl, rfl⟩ h

theorem State.takeDisable_clockOk {s : State} (h : s.ClockOk) : s.takeDisable.ClockOk := by
  unfold State.takeDisable
  split
  next hst => exact State.endLoading_clockOk (h.unconfigured (.inr hst)) _
  next hst =>
    obtain ⟨hlck, hcfg⟩ := h.configured (by unfold State.live; rw [hst]; rfl)
    exact .of_live (.inr rfl) hlck hcfg
  all_goals exact SameClock.ok ⟨rfl, rfl, rfl⟩ h

theorem State.takeLinkReset_clockOk {s : State} (h : s.ClockOk) : s.takeLinkReset.ClockOk := by
  unfold State.takeLinkReset
  split
  · exact (SameClock.of_device (Inner.startLinkReset (s.setResult .ok) _).device).ok
      (SameClock.ok (t := s.setResult .ok) ⟨rfl, rfl, rfl⟩ h)
  · exact SameClock.ok ⟨rfl, rfl, rfl⟩ h

/-- R176: a function reset leaves the device in OFF. -/
theorem State.functionReset_clockOk (s : State) : s.functionReset.ClockOk := .of_unconfigured ⟨rfl, rfl⟩ (.inl rfl)

theorem State.powerOn_clockOk (s : State) : s.powerOn.ClockOk := .of_unconfigured ⟨rfl, rfl⟩ (.inl rfl)

theorem State.writeCommand_clockOk {s : State} (h : s.ClockOk) (code : Word) : (s.writeCommand code).ClockOk := by
  unfold State.writeCommand
  split
  · exact State.takeEnable_clockOk h
  · exact State.takeDisable_clockOk h
  · exact State.takeLinkReset_clockOk h
  · exact s.functionReset_clockOk
  · exact SameClock.ok ⟨rfl, rfl, rfl⟩ h

theorem State.writeRegister_clockOk {s : State} (h : s.ClockOk) (offset bytes : Nat) (v : Word) :
    (s.writeRegister offset bytes v).ClockOk := by
  have hbase : s.ClockOk → (s.writeBaseLow v).ClockOk ∧ (s.writeBaseHigh v).ClockOk := fun h => by
    unfold State.writeBaseLow State.writeBaseHigh
    constructor <;> split <;> exact SameClock.ok ⟨rfl, rfl, rfl⟩ h
  unfold State.writeRegister
  split
  · exact h
  · split
    · unfold State.writeWord
      split
      · exact (hbase h).1
      · exact (hbase h).2
      · exact State.writeCommand_clockOk h v
      · exact h
      · exact (SameClock.takePost s v).ok h
      · exact (SameClock.takeRelease s v).ok h
    · exact h

theorem State.setArbiter_device (s : State) : s.setArbiter.device = s.device := by
  unfold State.setArbiter; split <;> rfl

/-- R171, R172: the device enters RUNNING with its copy, and LCK at the copy's rate code. -/
theorem State.enterRunning_device (s : State) (c : BitVec 2048) :
    (s.enterRunning c).device =
      { s.abandonLoad.device with result := .ok, state := .running, config := some c,
                                  lck := some (BitVec.ofNat 8 (Cfg.rateCode c)) } := by
  unfold State.enterRunning
  refine (Inner.startLinkReset _ .startUp).device.trans ((State.setArbiter_device _).trans ?_)
  exact (Inner.foldl _ (fun a st => Inner.modStation a st Station.watched) allStations _).device

/-- R170: a report of a load's read comes in LOADING alone. -/
theorem State.configPart_loading {s : State} {id : Nat} {part : Fin 4} (h : s.configPart id = some part) :
    s.device.state = .loading := by
  unfold State.configPart at h
  split at h
  · assumption
  · cases h

theorem State.configRead_clockOk {s : State} (h : s.ClockOk) (id : Nat) (data : BitVec 512) :
    (s.configRead id data).ClockOk := by
  unfold State.configRead
  split
  next part hpart =>
    have hload := State.configPart_loading hpart
    have hun := h.unconfigured (.inr hload)
    dsimp only
    split
    · unfold State.judgeConfig
      split
      next block _ _ =>
        have hdev := (s.keepPart id part data).enterRunning_device block
        exact .of_live (.inl (by rw [hdev])) (by rw [hdev]; rfl) (by rw [hdev]; rfl)
      · exact State.endLoading_clockOk (s := s.keepPart id part data) hun _
    · exact .of_unconfigured (s := s.keepPart id part data) hun (.inr hload)
  next => exact h

theorem State.configFault_clockOk {s : State} (h : s.ClockOk) (id : Nat) : (s.configFault id).ClockOk := by
  unfold State.configFault
  split
  next part hpart => exact State.endLoading_clockOk (h.unconfigured (.inr (State.configPart_loading hpart))) _
  next => exact h

theorem State.endDrain_clockOk (s : State) : s.endDrain.ClockOk := .of_unconfigured ⟨rfl, rfl⟩ (.inl rfl)

/-- R159: a record is being written while the blocks work alone. -/
theorem State.recordOf_live {s : State} {id : Nat} {x : RingId × CRing × Source} (h : s.recordOf id = some x) :
    s.live = true := by
  unfold State.recordOf State.report at h
  by_contra hl
  rw [if_neg hl] at h
  cases h

/-- R25, R172, R175: STOPPED stops LCK and keeps the copy. -/
theorem State.enterStopped_clockOk {s : State} (hl : s.live = true) (h : s.ClockOk) : s.enterStopped.ClockOk :=
  ⟨rfl, (h.configured hl).2⟩

/-! ## The law -/

/-- A command outside the link side keeps the law. -/
theorem exec_deviceSide (c : Instr) (s : State) (hc : linkSide c = false) (h : s.ClockOk) :
    ∃ t, exec c s = .next t ∧ t.ClockOk := by
  cases c <;> first | (cases hc; done) | skip
  case powerOn => exact ⟨_, rfl, s.powerOn_clockOk⟩
  case hostLinkResetInput => exact ⟨_, rfl, s.powerOn_clockOk⟩
  case endpointFunctionReset => exact ⟨_, rfl, s.functionReset_clockOk⟩
  case enable => exact ⟨_, rfl, State.takeEnable_clockOk h⟩
  case disable => exact ⟨_, rfl, State.takeDisable_clockOk h⟩
  case linkReset => exact ⟨_, rfl, State.takeLinkReset_clockOk h⟩
  case functionReset => exact ⟨_, rfl, s.functionReset_clockOk⟩
  case undefinedCommand code => exact ⟨_, rfl, State.writeCommand_clockOk h code⟩
  case registerWrite offset bytes v => exact ⟨_, rfl, State.writeRegister_clockOk h offset bytes v⟩
  case post v => exact ⟨_, rfl, (SameClock.takePost s v).ok h⟩
  case release v => exact ⟨_, rfl, (SameClock.takeRelease s v).ok h⟩
  case configReadComplete id data => exact ⟨_, rfl, State.configRead_clockOk h id data⟩
  case configReadFault id => exact ⟨_, rfl, State.configFault_clockOk h id⟩
  case drainComplete =>
    refine ⟨_, rfl, ?_⟩; split
    · exact s.endDrain_clockOk
    · exact h
  case fetchStart r =>
    refine ⟨_, rfl, ?_⟩; split
    · exact (SameClock.of_device (s.beginFetch_device r)).ok h
    · exact h
  case fetchComplete id w => exact ⟨_, rfl, (SameClock.of_device (s.fetchDone_device id w)).ok h⟩
  case fetchFault id => exact ⟨_, rfl, (SameClock.fetchFaulted s id).ok h⟩
  case admission => exact ⟨_, rfl, (SameClock.of_device s.arbitrate_device).ok h⟩
  case latchToQueue =>
    refine ⟨_, rfl, ?_⟩; split
    · exact (SameClock.of_device s.moveLatch_device).ok h
    · exact h
  case recordWriteBegin r => exact ⟨_, rfl, (SameClock.of_device (s.beginRecord_device r)).ok h⟩
  case recordWriteComplete id => exact ⟨_, rfl, (SameClock.of_device (s.recordDone_device id)).ok h⟩
  case recordWriteFault id =>
    refine ⟨_, rfl, ?_⟩; split
    next x hx =>
      have hl : s.live = true := State.recordOf_live hx
      exact State.enterStopped_clockOk (s := s.endAccess id) hl h
    next => exact h
  case moderationDelayExpiry r =>
    refine ⟨_, rfl, ?_⟩; split
    · exact SameClock.ok ⟨rfl, rfl, rfl⟩ h
    · exact h

/-- Every command keeps the law. -/
theorem exec_clockOk (c : Instr) (s : State) (h : s.ClockOk) : ∃ t, exec c s = .next t ∧ t.ClockOk := by
  cases hc : linkSide c with
  | false => exact exec_deviceSide c s hc h
  | true =>
    obtain ⟨t, ht, hin⟩ := exec_linkSide c s hc
    exact ⟨t, ht, (SameClock.of_device hin.device).ok h⟩

/-- Settles O5: a step is one command, whose device transition keeps the law, or one period, which leaves the device
alone. -/
theorem stepKeepsClockAndConfigurationLaw : Obligations.StepKeepsClockAndConfigurationLaw := by
  intro s t h hs
  unfold step at hs
  split at hs
  next c rest hq =>
    obtain ⟨u, hu, hok⟩ := exec_clockOk c { s with pending := rest } h
    cases hu.symm.trans hs
    exact hok
  next =>
    cases hs
    exact (SameClock.of_device s.tick_frame.device).ok h

end Sys2Proof.Machine
end

section
/-! A link reset (O47): how it begins, that a second one is absorbed, and how it ends. -/
namespace Sys2Proof.Machine

/-- R174: LINK_RESET in RUNNING and DRAINING. -/
theorem exec_linkReset {s : State} (hl : s.live = true) :
    exec .linkReset s = .next ((s.setResult .ok).startLinkReset .hostCommand) := by
  change Host.Outcome.next s.takeLinkReset = _
  unfold State.takeLinkReset; rw [if_pos hl]

/-- R79: a stuck lane. -/
theorem exec_laneStuck {s : State} (hl : s.live = true) : exec .laneStuck s = .next (s.startLinkReset .laneStuck) := by
  change Host.Outcome.next _ = _
  cases hr : s.linkReset with
  | none => rw [hl]; rfl
  | some cause => rw [State.startLinkReset_absorbed (by rw [hr]; simp)]; simp

/-- R48, R81: what the end of a link reset leaves. -/
theorem State.endLinkReset_spec (s : State) :
    (∀ u, s.endLinkReset.station u =
      if (s.station u).state = .settling then { s.station u with settle := some 5000000 } else s.station u) ∧
    s.endLinkReset = { s with
      stations := s.endLinkReset.stations, cl := .guardGap 0, linkReset := none, laneLow := 0, pollTimer := s.fullPoll } :=
  ⟨State.station_foldAll Station.settleAgain { s.beginGap with linkReset := none, pollTimer := s.fullPoll, laneLow := 0 },
    State.foldAll_stations Station.settleAgain allStations _⟩

/-- Settles O47: the cause begins a link reset once, and the end of its signalling settles the stations again. -/
theorem linkResetBeginsAndEnds : Obligations.LinkResetBeginsAndEnds := by
  refine ⟨fun x => by cases x <;> decide, fun s hl => ⟨fun hnone => ⟨?_, ?_⟩, fun cause hsome => ⟨?_, ?_, ?_⟩⟩⟩
  · exact ⟨_, exec_linkReset hl, State.startLinkReset_begun (s := s.setResult .ok) hnone _⟩
  · exact ⟨_, exec_laneStuck hl, State.startLinkReset_begun hnone _⟩
  · rw [exec_linkReset hl, State.startLinkReset_absorbed (s := s.setResult .ok) (by simp [hsome])]; rfl
  · rw [exec_laneStuck hl, State.startLinkReset_absorbed (by rw [hsome]; simp)]
  · refine ⟨s.endLinkReset, ?_, s.endLinkReset_spec⟩
    change Host.Outcome.next _ = _
    rw [hl, hsome]; rfl

end Sys2Proof.Machine
end

section
/-! CL between frames: a frame sent or abandoned and start marks (O34), the end of a guard gap and attention (O46). -/
namespace Sys2Proof.Machine

/-! ## Readings of CL and of the payload record -/

/-- A change of the payload engine's record writes that record alone. -/
theorem State.modPayload_eq (s : State) (f : Payload → Payload) :
    s.modPayload f = { s with payload := s.payload.map f } := by
  unfold State.modPayload
  split
  next p hp => rw [hp]; rfl
  next hp => rw [hp, Option.map_none, ← hp]

theorem State.gapOver_eq (s : State) :
    s.gapOver = { s with payload := s.payload.map (fun p => { p with gapDue := false }) } := s.modPayload_eq _

theorem Payload.holding_iff (p : Payload) :
    p.holding = true ↔ p.phase = .hold ∨ (p.phase = .halted ∧ p.tail = .hold) := by
  unfold Payload.holding
  simp only [Bool.or_eq_true, Bool.and_eq_true, beq_iff_eq]

/-- R34, R98: what follows a guard gap that has run out. -/
theorem State.endGap_eq (s : State) :
    s.endGap =
      if s.payload.any (·.reopen) then
        { s with payload := s.payload.map (fun p => { p with gapDue := false, reopen := false }), cl := .tokenWindow 0,
                 laneLow := 0 }
      else
        { s with payload := s.payload.map (fun p => { p with gapDue := false }), laneLow := 0,
                 cl := if s.holdInForce then .hold else .idle } := by
  unfold State.endGap State.reopenDue State.holdInForce
  simp only [State.gapOver_eq, State.modPayload_eq]
  cases hp : s.payload with
  | none => rfl
  | some p => rfl

theorem exec_guardGapEnd {s : State} {n : Nat} (hl : s.live = true) (hc : s.cl = .guardGap n) :
    exec .guardGapEnd s = .next s.endGap := by
  change Host.Outcome.next _ = _
  rw [hl, hc]; rfl

/-! ## Frames and start marks (R27, R33, R34, R70, R75) -/

theorem State.sendingRequest_eq {s : State} {r : Request} (hl : s.live = true) (hlr : s.linkReset = none)
    (hc : s.current = some r) (hp : r.phase = .sending) : s.sendingRequest = some r := by
  unfold State.sendingRequest; rw [hc]; dsimp only; rw [hl, hlr, hp]; rfl

theorem exec_replyStartMark {s : State} (hl : s.live = true) (early : Bool) :
    exec (.replyStartMark early) s = .next (s.startMark early) := by
  change Host.Outcome.next _ = _
  rw [if_pos hl]

/-- Settles O34: the request whose frame is on CL, and then the condition of CL, decide. -/
theorem frameIsSentAbandonedOrOpened : Obligations.FrameIsSentAbandonedOrOpened := by
  refine ⟨fun s r hl hlr hc hp => ?_, fun s early hl => ?_⟩
  · have hsend := State.sendingRequest_eq hl hlr hc hp
    constructor <;> change Host.Outcome.next _ = _ <;> rw [hsend] <;> rfl
  · rw [exec_replyStartMark hl]
    unfold State.startMark
    refine ⟨fun n r hcl hc => ?_, fun n hcl => ?_, fun hcl hh => ?_⟩
    · rw [hcl, hc]; rfl
    · rw [hcl]; rfl
    · rcases hcl with hcl | ⟨n, hcl⟩ <;> rw [hcl] <;> dsimp only <;> rw [if_pos hh]

/-! ## Attention and the return high (R34, R35, R37) -/

/-- R34, R35: with no HOLD, a low on idle CL, in a guard gap, or going on, is judged as attention. -/
theorem State.attentionHeard_eq {s : State} (hl : s.live = true) (hh : s.holdInForce = false)
    (hc : s.cl = .idle ∨ s.cl = .low ∨ ∃ n, s.cl = .guardGap n) : s.attentionHeard = true := by
  unfold State.attentionHeard
  rw [hl, hh]
  rcases hc with hc | hc | ⟨n, hc⟩ <;> rw [hc] <;> rfl

theorem exec_attention {s : State} (h : s.attentionHeard = true) : exec .attention s = .next s.hearAttention := by
  change Host.Outcome.next _ = _
  rw [if_pos h]

theorem exec_clReturnHigh {s : State} (h : s.attentionHeard = true) : exec .clReturnHigh s = .next s.laneHigh := by
  change Host.Outcome.next _ = _
  rw [if_pos h]

/-- Outside a guard gap a low ends none. -/
theorem State.lowEndsGap_other {s : State} (h : s.cl.isGap = false) : s.lowEndsGap = s := by
  unfold State.lowEndsGap; rw [h]; rfl

theorem State.lowEndsGap_gap {s : State} {n : Nat} (h : s.cl = .guardGap n) :
    s.lowEndsGap = { s with payload := s.payload.map (fun p => { p with gapDue := false }) } := by
  unfold State.lowEndsGap; rw [if_pos (by rw [h]; rfl)]; exact s.gapOver_eq

/-- Settles O46: the payload decides what follows a gap, and HOLD whether a low is judged as attention. -/
theorem laneReturnsToIdle : Obligations.LaneReturnsToIdle := by
  refine fun s hl => ⟨fun n hcl => ?_, fun hh => ⟨fun hcl => ?_, fun hcl => ?_, fun n hcl => ?_⟩, fun hh => ?_⟩
  · rw [exec_guardGapEnd hl hcl, State.endGap_eq]
    refine ⟨fun hp => ?_, fun p hp hr => ?_, fun p hp hr => ?_⟩
    · unfold State.holdInForce; rw [hp]; rfl
    · rw [hp, Option.any_some, if_pos hr]; rfl
    · rw [hp, Option.any_some, if_neg (by rw [hr]; decide)]
      unfold State.holdInForce
      rw [hp]; dsimp only
      simp only [Payload.holding_iff]; rfl
  · have hheard := State.attentionHeard_eq hl hh (.inl hcl)
    have hkeep : s.lowEndsGap = s := State.lowEndsGap_other (by rw [hcl]; rfl)
    rw [exec_attention hheard, exec_clReturnHigh hheard]
    unfold State.hearAttention State.laneHigh State.attentionLow
    rw [hkeep, hcl]
    exact ⟨rfl, rfl⟩
  · have hheard := State.attentionHeard_eq hl hh (.inr (.inl hcl))
    have hkeep : s.lowEndsGap = s := State.lowEndsGap_other (by rw [hcl]; rfl)
    rw [exec_attention hheard, exec_clReturnHigh hheard]
    unfold State.hearAttention State.laneHigh State.attentionLow
    rw [hkeep, if_pos hcl, ← hcl]
    exact ⟨rfl, rfl⟩
  · have hheard := State.attentionHeard_eq hl hh (.inr (.inr ⟨n, hcl⟩))
    rw [exec_attention hheard, exec_clReturnHigh hheard]
    unfold State.hearAttention State.laneHigh State.attentionLow
    rw [State.lowEndsGap_gap hcl, hcl]
    exact ⟨rfl, rfl⟩
  · have hheard : s.attentionHeard = false := by unfold State.attentionHeard; rw [hh, hl]; rfl
    constructor <;> change Host.Outcome.next _ = _ <;> rw [hheard] <;> rfl

end Sys2Proof.Machine
end

section
/-! The result of a POLL and the lane-low count (O45): runs of lows in received levels, and the sweep over the stations. -/
namespace Sys2Proof.Machine

/-! ## Runs of lows in received levels (R26, R37) -/

/-- The numbers from 0 on of which `p` holds, up to the first of which it does not. -/
theorem takeWhile_range_length {p : Nat → Bool} {n k : Nat} (hk : k < n) (hp : ∀ i, i < k → p i = true)
    (hn : p k = false) : ((List.range n).takeWhile p).length = k := by
  obtain ⟨m, rfl⟩ : ∃ m, n = k + (m + 1) := ⟨n - k - 1, by omega⟩
  rw [List.range_add, List.range_succ_eq_map, List.map_cons,
    List.takeWhile_append_of_pos (fun i hi => hp i (List.mem_range.1 hi)), List.takeWhile_cons_of_neg (by simp [hn]),
    List.append_nil, List.length_range]

theorem takeWhile_range_all {p : Nat → Bool} {n : Nat} (hp : ∀ i, i < n → p i = true) :
    ((List.range n).takeWhile p).length = n := by
  rw [List.takeWhile_eq_self_iff.2 (fun i hi => hp i (List.mem_range.1 hi)), List.length_range]

theorem lowHead_of_first {w : Nat} {f : BitVec w} {k : Nat} (hk : k < w) (hh : f.getMsbD k = true)
    (hl : ∀ i, i < k → f.getMsbD i = false) : lowHead f = k :=
  takeWhile_range_length hk (fun i hi => by rw [hl i hi]; rfl) (by rw [hh]; rfl)

theorem lowTail_of_last {w : Nat} {f : BitVec w} {k : Nat} (hh : f.getLsbD k = true)
    (hl : ∀ i, i < k → f.getLsbD i = false) : lowTail f = k :=
  takeWhile_range_length (BitVec.lt_of_getLsbD hh) (fun i hi => by rw [hl i hi]; rfl) (by rw [hh]; rfl)

theorem lowTail_of_low {w : Nat} {f : BitVec w} (h : ∀ k, k < w → f.getLsbD k = false) : lowTail f = w :=
  takeWhile_range_all (fun i hi => by rw [h i hi]; rfl)

theorem lowHead_of_low {w : Nat} {f : BitVec w} (h : ∀ k, k < w → f.getLsbD k = false) : lowHead f = w :=
  takeWhile_range_all (fun i hi => by
    rw [BitVec.getMsbD, decide_eq_true hi, Bool.true_and, h _ (by omega)]; rfl)

/-- R37: a run of lows that passes 4096 stays at 4097. -/
theorem lowAfter_stuck {w : Nat} {before lead : Nat} {f : BitVec w} (h : 4096 < before + lead + lowHead f) :
    lowAfter before lead f = 4097 := by
  unfold lowAfter; rw [if_pos ((lowPasses_iff before lead f).2 h)]; rfl

theorem lowAfter_heard {w : Nat} {before lead : Nat} {f : BitVec w} (h : before + lead + lowHead f ≤ 4096) :
    lowAfter before lead f = if lowTail f = w then before + lead + w else lowTail f := by
  unfold lowAfter; rw [if_neg (mt (lowPasses_iff before lead f).1 (Nat.not_lt.2 h))]

/-- R37: levels that are all low go on with the count. -/
theorem lowAfter_of_low {w : Nat} {f : BitVec w} (h : ∀ k, k < w → f.getLsbD k = false) (before lead : Nat) :
    lowAfter before lead f = min 4097 (before + lead + w) := by
  have hhead := lowHead_of_low h
  by_cases hs : 4096 < before + lead + w
  · rw [lowAfter_stuck (by rw [hhead]; exact hs)]; omega
  · rw [lowAfter_heard (by rw [hhead]; omega), if_pos (lowTail_of_low h)]; omega

/-! ## The levels after a POLL frame (R36) -/

theorem pollPeriods_getMsbD (levels : PollLevels) {k : Nat} (hk : k < 9) :
    (pollPeriods levels).getMsbD k = !if 8 - k < 8 then levels.slots.reverse.getLsbD (8 - k)
      else (BitVec.ofBool levels.turnaround).getLsbD (8 - k - 8) := by
  unfold pollPeriods
  rw [BitVec.getMsbD_eq_getLsbD, decide_eq_true (by omega), Bool.true_and, show 9 - 1 - k = 8 - k by omega,
    BitVec.getLsbD_not, decide_eq_true (by omega), Bool.true_and, BitVec.getLsbD_append]

theorem pollPeriods_turnaround (levels : PollLevels) : (pollPeriods levels).getMsbD 0 = !levels.turnaround := by
  rw [pollPeriods_getMsbD levels (by decide), if_neg (by decide)]
  simp

theorem pollPeriods_slot (levels : PollLevels) {k : Nat} (hk : k < 8) :
    (pollPeriods levels).getMsbD (k + 1) = !levels.slots.getLsbD k := by
  rw [pollPeriods_getMsbD levels (by omega), if_pos (by omega), BitVec.getLsbD_reverse, BitVec.getMsbD_eq_getLsbD,
    decide_eq_true (by omega), Bool.true_and, show 8 - 1 - (8 - (k + 1)) = k by omega]

/-! ## The counts of the stations (R58) -/

/-- R58: a station record after a POLL result; EMPTY keeps no count. -/
def Station.polled (low : Bool) (r : Station) : Station :=
  if r.state = .empty then r else { r with notices := if low then max r.notices 1 else 0 }

theorem pollStation_eq (slots : BitVec 8) (s : State) (st : StationId) :
    pollStation slots s st = s ∧ (s.station st).polled (slots.getLsbD st.val) = s.station st ∨
      pollStation slots s st = s.modStation st (Station.polled (slots.getLsbD st.val)) := by
  unfold pollStation State.setNotices Station.polled
  by_cases h : (s.station st).state = .empty
  · exact .inl ⟨if_pos h, if_pos h⟩
  · refine .inr ?_
    rw [if_neg h]
    exact congrArg (fun r => ({ s with stations := s.stations.set st r } : State)) (if_neg h).symm

/-- R58: a POLL result reaches every station record, and nothing else. -/
theorem State.pollFold (slots : BitVec 8) (s : State) :
    let t := allStations.foldl (pollStation slots) s
    (∀ u, t.station u = (s.station u).polled (slots.getLsbD u.val)) ∧ t = { s with stations := t.stations } := by
  obtain ⟨hsame, hstation, hpending⟩ := stations_fold (pollStation slots) s (fun u => Station.polled (slots.getLsbD u.val))
    (fun _ _ => false) .presenceStable (fun m u _ => (pollStation_eq slots m u).elim
      (fun ⟨hkept, hsame⟩ => .inl ⟨hkept, hsame, rfl⟩) (fun hwritten => .inr (.inr ⟨hwritten, rfl⟩)))
  refine ⟨hstation, ?_⟩
  unfold SameButStations at hsame
  rw [hpending] at hsame
  simpa using hsame

/-- R36, R37, R75: what the result of a POLL leaves. -/
theorem State.pollDone_spec (s : State) (levels : PollLevels) :
    (∀ u, (s.pollDone levels).station u = (s.station u).polled (levels.slots.getLsbD u.val)) ∧
    s.pollDone levels = { s with
      stations := (s.pollDone levels).stations, cl := .guardGap 0, current := s.setAside, setAside := none,
      laneLow := lowAfter s.laneLow 0 (pollPeriods levels) } := by
  obtain ⟨hstation, hrest⟩ := State.pollFold levels.slots (s.hear 0 (pollPeriods levels))
  unfold State.pollDone
  generalize allStations.foldl (pollStation levels.slots) (s.hear 0 (pollPeriods levels)) = m at hstation hrest ⊢
  refine ⟨hstation, ?_⟩
  rw [hrest]; rfl

/-- Settles O45: the rules of the count, then the sweep of the result over the stations. -/
theorem pollResultWritesEveryCount : Obligations.PollResultWritesEveryCount := by
  refine ⟨fun w before lead f => ⟨fun h => ⟨lowHead_of_low h, lowAfter_of_low h before lead⟩,
      fun k hk hh hl => lowHead_of_first hk hh hl, lowAfter_stuck, fun k hheard hh hl => ?_⟩,
    fun s levels hl hcl => ?_⟩
  · have htail := lowTail_of_last hh hl
    have hk := BitVec.lt_of_getLsbD hh
    rw [lowAfter_heard hheard, htail, if_neg (by omega)]
  · obtain ⟨hstation, hrest⟩ := s.pollDone_spec levels
    refine ⟨s.pollDone levels, ?_, hstation, hrest, pollPeriods_turnaround levels, fun k hk => pollPeriods_slot levels hk⟩
    have hpoll : s.polling = true := by unfold State.polling; rw [hl, hcl]; rfl
    change Host.Outcome.next _ = _
    rw [if_pos hpoll]

end Sys2Proof.Machine
end

section
/-! The payload lanes (O50, O51, O52): grants and read blocks, and how a write block is begun and ends. -/
namespace Sys2Proof.Machine

/-! ## The payload that runs -/

theorem State.running_eq {s : State} {p : Payload} (hl : s.live = true) (hp : s.payload = some p) :
    s.running = some p := by
  unfold State.running; rw [if_pos hl, hp]

section
variable {s : State} {p : Payload} (hl : s.live = true) (hp : s.payload = some p)
include hl hp

theorem exec_nextGrant : exec .nextGrant s = .next (if s.mayGrant p then s.grantNext p else s) := by
  change Host.Outcome.next _ = _
  rw [State.running_eq hl hp]

theorem exec_repeatGrant : exec .repeatGrant s = .next (if s.mayRepeat p then s.grantRepeat p else s) := by
  change Host.Outcome.next _ = _
  rw [State.running_eq hl hp]

theorem exec_readBlockStartMark : exec .readBlockStartMark s = .next (s.blockStarts p) := by
  change Host.Outcome.next _ = _
  rw [State.running_eq hl hp]

theorem exec_dataTimeout (hph : p.phase = .awaitingBlock) :
    exec .dataTimeout s = .next (s.haltWith p.owner .dataTimeout) := by
  change Host.Outcome.next _ = _
  rw [State.running_eq hl hp]; dsimp only; rw [if_pos hph]

theorem exec_writeBlockBegin : exec .writeBlockBegin s = .next (if s.maySend p then s.sendBlock p else s) := by
  change Host.Outcome.next _ = _
  rw [State.running_eq hl hp]

theorem exec_writeBlockEnd : exec .writeBlockEnd s = .next (s.blockSent p) := by
  change Host.Outcome.next _ = _
  rw [State.running_eq hl hp]

theorem exec_holdTimeout (hph : p.phase = .hold) :
    exec .holdTimeout s = .next (s.haltWith p.owner .holdTimeout) := by
  change Host.Outcome.next _ = _
  rw [State.running_eq hl hp]; dsimp only; rw [if_pos hph]

end

/-! ## Grants (R39, R88, R89, R91) -/

theorem State.mayGrant_iff (s : State) (p : Payload) : s.mayGrant p = true ↔
    p.phase = .grantPending ∧ p.repeatDue = false ∧ (s.slot p.pos).state = .free ∧ p.gapDue = false ∧ p.wait = 0
      ∧ s.quiet = none := by
  unfold State.mayGrant
  simp only [Bool.and_eq_true, beq_iff_eq, Bool.not_eq_true', Option.isNone_iff_eq_none, and_assoc]

theorem State.mayRepeat_iff (s : State) (p : Payload) : s.mayRepeat p = true ↔
    p.phase = .grantPending ∧ p.repeatDue = true ∧ p.wait = 0 ∧ s.quiet = none := by
  unfold State.mayRepeat
  simp only [Bool.and_eq_true, beq_iff_eq, Option.isNone_iff_eq_none, and_assoc]

theorem Payload.takesMark_eq {p : Payload} {n : Nat} (h : p.dataTimer = some n) : p.takesMark = decide (4 ≤ n) := by
  unfold Payload.takesMark; rw [h]; rfl

/-- Settles O50: the conditions of each grant, then the phase in which a low on PL0 is a start mark. -/
theorem grantsOpenAReadBlock : Obligations.GrantsOpenAReadBlock := by
  intro s p hl hp
  refine ⟨fun hph hr hslot hg hw hq => ?_, fun hno => ?_, fun hph hr hw hq => ?_, fun hno => ?_,
    fun n hph ht => ⟨fun hn => ?_, fun hn => ?_⟩, fun hph ht => ⟨fun hw => ?_, fun hw => ?_⟩, fun e hph hx => ?_⟩
  · rw [exec_nextGrant hl hp, if_pos ((s.mayGrant_iff p).2 ⟨hph, hr, hslot, hg, hw, hq⟩)]; rfl
  · rw [exec_nextGrant hl hp, if_neg]
    rw [State.mayGrant_iff]
    rintro ⟨hph, -, hslot, hg, hw, hq⟩
    rcases hno with hno | hno | hno | hno | hno
    · exact hno hslot
    · rw [hg] at hno; cases hno
    · exact hno hw
    · exact hno hq
    · exact hno hph
  · rw [exec_repeatGrant hl hp, if_pos ((s.mayRepeat_iff p).2 ⟨hph, hr, hw, hq⟩)]; rfl
  · rw [exec_repeatGrant hl hp, if_neg]
    rw [State.mayRepeat_iff]
    rintro ⟨hph, hr, hw, hq⟩
    rcases hno with hno | hno | hno | hno
    · rw [hr] at hno; cases hno
    · exact hno hw
    · exact hno hq
    · exact hno hph
  · rw [exec_readBlockStartMark hl hp]
    unfold State.blockStarts
    rw [hph]; dsimp only; rw [if_pos (by rw [Payload.takesMark_eq ht]; exact decide_eq_true hn)]
  · rw [exec_readBlockStartMark hl hp]
    unfold State.blockStarts
    rw [hph]; dsimp only; rw [if_neg (by rw [Payload.takesMark_eq ht, decide_eq_true_eq]; omega)]
  · rw [exec_readBlockStartMark hl hp]
    unfold State.blockStarts
    rw [hph]; dsimp only; rw [if_pos ⟨ht, hw⟩]
  · rw [exec_readBlockStartMark hl hp]
    unfold State.blockStarts
    rw [hph]; dsimp only; rw [if_neg (fun h => hw h.2)]
  · exact ⟨_, exec_dataTimeout hl hp hph, State.haltWith_halted hx _⟩

/-! ## Read blocks (R38, R90, R91, R99) -/

theorem exec_readBlockReceived {s : State} (hl : s.live = true) (lanes : List (List Byte)) (check : Word) :
    exec (.readBlockReceived lanes check) s = .next (s.readBlock lanes check) := by
  change Host.Outcome.next _ = _
  rw [if_pos hl]

/-- R90: while its block arrives, the check code decides between a good block and a bad one. -/
theorem State.readBlock_receiving {s : State} {p : Payload} (hp : s.payload = some p) (hph : p.phase = .receiving)
    (lanes : List (List Byte)) (check : Word) :
    s.readBlock lanes check =
      if crc32 (gatherBlock p.laneWidth p.blockSize lanes) = check
      then s.goodReadBlock p (gatherBlock p.laneWidth p.blockSize lanes) else s.badReadBlock p := by
  unfold State.readBlock; rw [hp]; dsimp only; rw [hph]

/-- The slot after a position is another one. -/
theorem nextIndex_ne (i : StageId) : i ≠ nextIndex i := by revert i; decide

@[simp] theorem State.slot_setExch (s : State) (x : Tag) (e : Option Exchange) (i : StageId) :
    (s.setExch x e).slot i = s.slot i := rfl

/-- The phase of a record that is written follows the slot at its position. -/
theorem State.settlePhase_payload (s : State) (p : Payload) :
    ({ s with payload := some p } : State).settlePhase
      = { s with payload := some { p with phase := p.settlePhase (s.slot p.pos).state } } := rfl

/-- R90: a block of a good check fills its slot, and the next one is granted as its slot allows. -/
theorem State.goodReadBlock_eq {s : State} {p : Payload} {e : Exchange} {n : Nat} (hx : s.exch p.owner = some e)
    (hn : e.blocksDone = some n) (hr : p.repeatDue = false) (data : List Byte) :
    s.goodReadBlock p data =
      { s with
        staging := s.staging.set p.pos { s.slot p.pos with state := .full, data := data },
        table := s.table.set p.owner (some
          { e with blocksDone := some (n + 1),
                   linkFinished := if n + 1 = p.count then some true else e.linkFinished }),
        payload := some
          { p with linkPos := p.linkPos + 1, blockRetries := 0, pos := nextIndex p.pos, dataTimer := none, grant := none,
                   elapsed := 0, wait := 4,
                   phase := if n + 1 = p.count then .finished
                     else if (s.slot (nextIndex p.pos)).state = .free then .grantPending else .paced } } := by
  have hset : ∀ x : Slot, (s.setSlot p.pos x).exch p.owner = some e := fun _ => hx
  have hslot : ∀ x : Slot, (s.setSlot p.pos x).slot (nextIndex p.pos) = s.slot (nextIndex p.pos) := fun x => by
    rw [State.slot_setSlot, if_neg (nextIndex_ne p.pos)]
  unfold State.goodReadBlock
  rw [hx]
  dsimp only
  rw [hn, State.modExch_of_some _ (hset _), State.settlePhase_payload, State.slot_setExch, hslot]
  unfold Payload.settlePhase
  by_cases hlast : n + 1 = p.count
  · simp only [Option.getD_some, hlast, beq_self_eq_true, if_true]; rfl
  · have hmore : (n + 1 == p.count) = false := by simpa using hlast
    simp only [Option.getD_some, hmore, hlast, hr, Bool.false_eq_true, false_or, if_false]; rfl

/-- R91: a bad check is repeated while the retry limit allows. -/
theorem State.badReadBlock_again {s : State} {p : Payload} (h : p.blockRetries < Cfg.retryLimit s.cfg) :
    s.badReadBlock p =
      { s with
        staging := s.staging.set p.pos { s.slot p.pos with data := [] },
        payload := some { p with blockRetries := p.blockRetries + 1, phase := .grantPending, repeatDue := true,
                                 dataTimer := none, grant := none, elapsed := 0, wait := 4 } } := if_pos h

/-- R91: else it halts the exchange. -/
theorem State.badReadBlock_halts {s : State} {p : Payload} {e : Exchange} (hx : s.exch p.owner = some e)
    (h : Cfg.retryLimit s.cfg ≤ p.blockRetries) :
    Halted { s with payload := some { p with phase := .grantPending, grant := none, elapsed := 0 } } (s.badReadBlock p)
      p.owner e .payloadCheck := by
  unfold State.badReadBlock
  rw [if_neg (show ¬ p.blockRetries < s.retryLimit from Nat.not_lt.2 h)]
  exact State.haltWith_halted (s := { s with payload := some { p with phase := .grantPending, grant := none, elapsed := 0 } })
    hx .payloadCheck

/-- Settles O51: the phase, and then the check code, decide what becomes of the block. -/
theorem readBlockIsKeptOrRepeated : Obligations.ReadBlockIsKeptOrRepeated := by
  intro s p e n lanes check hl hp hx hn data pos
  have hdata : gatherBlock p.laneWidth p.blockSize lanes = data := gatherBlock_eq _ _ _
  have hblock := fun hph => hdata ▸ State.readBlock_receiving hp hph lanes check
  rw [exec_readBlockReceived hl]
  refine ⟨fun hph hgood hr => ?_, fun hph hbad hlim => ?_, fun hph hbad hlim => ?_, fun hph ht => ?_, fun hno => ?_⟩
  · rw [hblock hph, if_pos hgood, State.goodReadBlock_eq hx hn hr]; rfl
  · rw [hblock hph, if_neg hbad, State.badReadBlock_again hlim]
  · exact ⟨_, by rw [hblock hph, if_neg hbad], State.badReadBlock_halts hx hlim⟩
  · unfold State.readBlock
    rw [hp]; dsimp only; rw [hph]; dsimp only; rw [ht]
  · unfold State.readBlock
    rw [hp]; dsimp only
    rcases hno with hph | ⟨hph, ht⟩
    · rw [hph]
    · rw [hph]; dsimp only; rw [ht]

/-! ## Write blocks (R33, R38, R93, R97, R99) -/

theorem State.maySend_iff (s : State) (p : Payload) : s.maySend p = true ↔
    p.phase = .sendPending ∧ p.gapDue = false ∧ s.current = none ∧ s.quiet = none := by
  unfold State.maySend
  simp only [Bool.and_eq_true, beq_iff_eq, Bool.not_eq_true', Option.isNone_iff_eq_none, and_assoc]

/-- Settles O52: the conditions of a beginning, the lanes of the block, and what its end opens. -/
theorem writeBlockIsSent : Obligations.WriteBlockIsSent := by
  intro s p hl hp
  refine ⟨fun hph hg hc hq => ?_, fun hno => ?_, fun hph => ?_, fun hph ht => ?_, fun e hph hx => ?_⟩
  · refine ⟨dealBlock p.laneWidth (s.slot p.pos).data, ?_, dealBlock_length _ _, dealBlock_unused _ _,
      fun hw k hk => dealBlock_lane _ _ k (by omega) hk⟩
    rw [exec_writeBlockBegin hl hp, if_pos ((s.maySend_iff p).2 ⟨hph, hg, hc, hq⟩)]; rfl
  · rw [exec_writeBlockBegin hl hp, if_neg]
    rw [State.maySend_iff]
    rintro ⟨hph, hg, hc, hq⟩
    rcases hno with hno | hno | hno | hno
    · exact hno hph
    · rw [hg] at hno; cases hno
    · exact hno hc
    · exact hno hq
  · rw [exec_writeBlockEnd hl hp]
    unfold State.blockSent
    rw [hph]; rfl
  · rw [exec_writeBlockEnd hl hp]
    unfold State.blockSent
    rw [hph]; dsimp only; rw [if_pos ht]
  · exact ⟨_, exec_holdTimeout hl hp hph, State.haltWith_halted hx _⟩

end Sys2Proof.Machine
end

section
/-! The tokens of a write payload (O53, O54): what the payload engine makes of a frame in its phase. -/
namespace Sys2Proof.Machine

/-! ## Where a token frame is taken (R33, R34, R97) -/

theorem State.TakesToken.of_open {s : State} (h : (∃ k, s.cl = .tokenWindow k) ∨ s.cl = .tokenReceiving) :
    s.TakesToken := h.elim .inl (fun h => .inr (.inl h))

theorem State.TakesToken.of_held {s : State} {p : Payload} (hp : s.payload = some p)
    (hph : p.phase = .hold ∨ (p.phase = .halted ∧ p.tail = .hold))
    (h : s.cl = .hold ∨ s.cl = .tokenReceiving ∨ ∃ k, s.cl = .guardGap k) : s.TakesToken := by
  have hh : s.holdInForce = true := by unfold State.holdInForce; rw [hp]; exact p.holding_iff.2 hph
  rcases h with h | h | h
  · exact .inr (.inr ⟨hh, .inl h⟩)
  · exact .inr (.inl h)
  · exact .inr (.inr ⟨hh, .inr h⟩)

/-- A token command whose frame is taken and heard hands its token to the payload engine. -/
theorem exec_token_taken {s : State} (hl : s.live = true) (ht : s.TakesToken) {c : Instr} {f : BitVec 32} {tok : Token}
    (hc : tokenOf c = some (f, tok)) (hf : s.Hears f) : exec c s = .next ((s.afterToken f).takeToken tok) := by
  rw [exec_token hc, State.tokenReceived_taken hl ht hf]

/-! ## The phase decides (R76, R100) -/

section
variable {s : State} {p : Payload} (hp : s.payload = some p)
include hp

theorem State.takeToken_wait (h : p.phase = .tokenWait) (tok : Token) : s.takeToken tok = s.tokenInWait p tok := by
  unfold State.takeToken; rw [hp]; dsimp only; rw [h]

theorem State.takeToken_hold (h : p.phase = .hold) (tok : Token) : s.takeToken tok = s.tokenInHold p tok := by
  unfold State.takeToken; rw [hp]; dsimp only; rw [h]

theorem State.takeToken_halted (h : p.phase = .halted) (tok : Token) : s.takeToken tok = s.tokenInHalted p tok := by
  unfold State.takeToken; rw [hp]; dsimp only; rw [h]

end

/-- R100: a token that no payload awaits changes no account. -/
theorem State.takeToken_unawaited {s : State}
    (h : ∀ p, s.payload = some p → p.phase ≠ .tokenWait ∧ p.phase ≠ .hold ∧ p.phase ≠ .halted) (tok : Token) :
    s.takeToken tok = s := by
  unfold State.takeToken
  split
  · rfl
  next p hp =>
    obtain ⟨hwait, hhold, hhalt⟩ := h p hp
    split
    · contradiction
    · contradiction
    · contradiction
    all_goals rfl

/-! ## A kept block (R94, R97) -/

/-- R94: the exchange's account of a block that the station has kept. -/
def Exchange.kept (e : Exchange) (n m : Nat) : Exchange := { e with blocksDone := some n, bytesMoved := some m }

/-- R94: the payload engine's record once the block in flight is kept. -/
def Payload.kept (p : Payload) : Payload :=
  { p with linkPos := p.linkPos + 1, pos := nextIndex p.pos, blockRetries := 0, elapsed := 0, sendCheck := none,
           sendLanes := [] }

theorem State.keepBlock_eq {s : State} {p : Payload} {e : Exchange} {n m : Nat} (hx : s.exch p.owner = some e)
    (hn : e.blocksDone = some n) (hm : e.bytesMoved = some m) :
    s.keepBlock p = { s with
      staging := s.staging.set p.pos .free, table := s.table.set p.owner (some (e.kept (n + 1) (m + p.blockSize))),
      payload := some p.kept } := by
  have hset : (s.setSlot p.pos .free).exch p.owner = some e := hx
  unfold State.keepBlock
  dsimp only
  rw [State.modExch_of_some _ hset, hn, hm]
  rfl

theorem State.allKept_eq {s : State} {p : Payload} {e : Exchange} {n : Nat} (hx : s.exch p.owner = some e)
    (hn : e.blocksDone = some n) : s.allKept p = true ↔ n = p.count := by
  unfold State.allKept; rw [hx]; dsimp only; rw [hn]; exact beq_iff_eq

/-- R93, R94: the next block is sent as its slot allows. -/
theorem State.nextBlock_eq {s : State} {p : Payload} (hp : s.payload = some p) (hr : p.resendDue = false) :
    s.nextBlock = { s with
      payload := some
        { p with phase := if (s.slot p.pos).state = .ready then .sendPending else .loadWait, gapDue := true,
                 holdTimer := none } } := by
  have hphase : ({ p with phase := .loadWait, gapDue := true, holdTimer := none } : Payload).settlePhase
      (s.slot p.pos).state = if (s.slot p.pos).state = .ready then .sendPending else .loadWait := by
    unfold Payload.settlePhase; simp [hr]
  unfold State.nextBlock State.modPayload State.settlePhase
  rw [hp]
  exact congrArg (fun ph => ({ s with
    payload := some { p with phase := ph, gapDue := true, holdTimer := none } } : State)) hphase

/-- R94, R97: the link side of a write that ends normally ends its exchange. -/
theorem State.writeDone_ended {s : State} {x : Tag} {e : Exchange} (hx : s.exch x = some e) :
    Ended { s with table := s.table.set x (some { e with linkFinished := some true }) } (s.writeDone x) x
      { e with linkFinished := some true } .success 0 := by
  have h := State.endWith_ended (s.exch_setExch_self x (some { e with linkFinished := some true })) .success 0
  unfold State.writeDone
  rw [State.modExch_of_some _ hx]
  exact h

/-! ## A token of the payload's own station and tag (R94 to R98) -/

theorem State.tokenInWait_own (s : State) (p : Payload) (code : TokenCode) :
    s.tokenInWait p (.good (BitVec.ofNat 4 (p.station.val + 1)) code (BitVec.ofNat 4 p.owner.val)) =
      match code with
      | .taken => s.tokenKept p
      | .checkFail => s.tokenResend p
      | .fault => s.endWith p.owner .writeFault 0
      | .hold => s.tokenHeld p
      | .release | .undefined => s.haltWith p.owner .protocol := by
  unfold State.tokenInWait slotNumber tagBits
  exact (if_pos ⟨rfl, rfl⟩).trans (by cases code <;> rfl)

theorem State.tokenInHold_own (s : State) (p : Payload) (code : TokenCode) :
    s.tokenInHold p (.good (BitVec.ofNat 4 (p.station.val + 1)) code (BitVec.ofNat 4 p.owner.val)) =
      if code = .release then s.tokenReleased p else s.haltWith p.owner .protocol := by
  unfold State.tokenInHold slotNumber tagBits
  dsimp only
  rw [if_pos ⟨rfl, rfl⟩]
  cases code <;> rfl

section
variable {s : State} {p : Payload} {e : Exchange} {n m : Nat} (hx : s.exch p.owner = some e)
  (hn : e.blocksDone = some n) (hm : e.bytesMoved = some m)
include hx hn hm

/-- R94, R97: the state in which the station has kept the block. -/
theorem State.exch_keepBlock : (s.keepBlock p).exch p.owner = some (e.kept (n + 1) (m + p.blockSize)) := by
  rw [State.keepBlock_eq hx hn hm]
  exact s.exch_setExch_self p.owner _

theorem State.slot_keepBlock : (s.keepBlock p).slot (nextIndex p.pos) = s.slot (nextIndex p.pos) := by
  have hslot := s.slot_setSlot p.pos (nextIndex p.pos) .free
  rw [if_neg (nextIndex_ne p.pos)] at hslot
  rw [State.keepBlock_eq hx hn hm]
  exact hslot

/-- R94: TAKEN with blocks left. -/
theorem State.tokenKept_next (hr : p.resendDue = false) (hmore : n + 1 ≠ p.count) :
    s.tokenKept p = { s.keepBlock p with
      payload := some
        { p.kept with phase := if (s.slot (nextIndex p.pos)).state = .ready then .sendPending else .loadWait,
                      gapDue := true, holdTimer := none } } := by
  have hpay : (s.keepBlock p).payload = some p.kept := by rw [State.keepBlock_eq hx hn hm]
  have hleft : ¬ (s.keepBlock p).allKept p = true :=
    mt (State.allKept_eq (State.exch_keepBlock hx hn hm) rfl).1 hmore
  unfold State.tokenKept
  dsimp only
  rw [if_neg hleft, State.nextBlock_eq hpay hr]
  rw [show p.kept.pos = nextIndex p.pos from rfl, State.slot_keepBlock hx hn hm]

/-- R94: TAKEN of the last block. -/
theorem State.tokenKept_last (hlast : n + 1 = p.count) :
    Ended
      { s.keepBlock p with
        table := s.table.set p.owner
          (some { e.kept (n + 1) (m + p.blockSize) with linkFinished := some true }) }
      (s.tokenKept p) p.owner { e.kept (n + 1) (m + p.blockSize) with linkFinished := some true } .success 0 := by
  have hall : (s.keepBlock p).allKept p = true := (State.allKept_eq (State.exch_keepBlock hx hn hm) rfl).2 hlast
  have h := State.writeDone_ended (State.exch_keepBlock hx hn hm)
  have htable : (s.keepBlock p).table = s.table.set p.owner (some (e.kept (n + 1) (m + p.blockSize))) := by
    rw [State.keepBlock_eq hx hn hm]
  rw [htable, table_set_set] at h
  unfold State.tokenKept
  dsimp only
  rw [if_pos hall]
  exact h

/-- R97: HOLD keeps the block and starts the hold timer. -/
theorem State.tokenHeld_eq :
    s.tokenHeld p = { s.keepBlock p with payload := some { p.kept with phase := .hold, holdTimer := some 0 } } := by
  unfold State.tokenHeld State.modPayload
  rw [State.keepBlock_eq hx hn hm]

omit hm in
/-- R97: RELEASE in HOLD goes on with the next block, or ends the exchange with the last. -/
theorem State.tokenReleased_next (hp : s.payload = some p) (hr : p.resendDue = false) (hmore : n ≠ p.count) :
    s.tokenReleased p = { s with
      payload := some
        { p with phase := if (s.slot p.pos).state = .ready then .sendPending else .loadWait, gapDue := true,
                 holdTimer := none } } := by
  unfold State.tokenReleased
  rw [if_neg (mt (State.allKept_eq hx hn).1 hmore), State.nextBlock_eq hp hr]

omit hm in
theorem State.tokenReleased_last (hlast : n = p.count) :
    Ended { s with table := s.table.set p.owner (some { e with linkFinished := some true }) } (s.tokenReleased p) p.owner
      { e with linkFinished := some true } .success 0 := by
  unfold State.tokenReleased
  rw [if_pos ((State.allKept_eq hx hn).2 hlast)]
  exact State.writeDone_ended hx

end

/-- R95: CHECK_FAIL while the retry limit allows, and past it. -/
theorem State.tokenResend_again {s : State} {p : Payload} (h : p.blockRetries < Cfg.retryLimit s.cfg) :
    s.tokenResend p = { s with
      payload := some { p with blockRetries := p.blockRetries + 1, resendDue := true, gapDue := true,
                               phase := .sendPending } } := if_pos h

theorem State.tokenResend_halts {s : State} {p : Payload} (h : Cfg.retryLimit s.cfg ≤ p.blockRetries) :
    s.tokenResend p = s.haltWith p.owner .payloadCheck := if_neg (Nat.not_lt.2 h)

/-- Settles O53: the phase of the payload, and then the code of its token, decide. -/
theorem tokenSettlesTheBlock : Obligations.TokenSettlesTheBlock := by
  intro s p e n m hl hp hx hn hm hr st x a hears pos e' p' kept
  have hkeep : ∀ c, kept c = (a c).keepBlock p := fun c =>
    (State.keepBlock_eq (s := a c) hx hn hm).symm
  refine ⟨fun hph hcl => ?_, fun hph hcl => ?_⟩
  · have htake := State.TakesToken.of_open hcl
    have hwait : ∀ c f code, tokenOf c = some (f, .good st code x) → s.Hears f →
        exec c s = .next ((s.afterToken f).tokenInWait p (.good st code x)) := fun c f code hc hf => by
      rw [exec_token_taken hl htake hc hf]
      exact congrArg Host.Outcome.next (State.takeToken_wait (s := s.afterToken f) hp hph _)
    refine ⟨fun hf hmore => ?_, fun hf hlast => ?_, fun hf hlim => ?_, fun hf hlim => ?_, fun hf => ?_, fun hf => ?_,
      fun hf => ?_, fun f hf hc => ?_⟩
    · rw [hwait _ _ _ rfl hf, State.tokenInWait_own, hkeep]
      exact congrArg Host.Outcome.next (State.tokenKept_next (s := a .taken) hx hn hm hr hmore)
    · rw [hwait _ _ _ rfl hf, State.tokenInWait_own, hkeep]
      exact ⟨_, rfl, State.tokenKept_last (s := a .taken) hx hn hm hlast⟩
    · rw [hwait _ _ _ rfl hf, State.tokenInWait_own]
      exact congrArg Host.Outcome.next (State.tokenResend_again (s := a .checkFail) hlim)
    · rw [hwait _ _ _ rfl hf, State.tokenInWait_own]
      refine ⟨_, rfl, ?_⟩
      rw [show (s.afterToken (tokenFrame st .checkFail x)).tokenResend p = _ from
        State.tokenResend_halts (s := a .checkFail) hlim]
      exact State.haltWith_halted (s := a .checkFail) hx _
    · rw [hwait _ _ _ rfl hf, State.tokenInWait_own]
      exact ⟨_, rfl, State.endWith_ended (s := a .fault) hx _ _⟩
    · rw [hwait _ _ _ rfl hf, State.tokenInWait_own, hkeep]
      exact congrArg Host.Outcome.next (State.tokenHeld_eq (s := a .hold) hx hn hm)
    · rw [hwait _ _ _ rfl hf, State.tokenInWait_own]
      exact ⟨_, rfl, State.haltWith_halted (s := a .release) hx _⟩
    · rw [hwait (.tokenBadCheck f) f .undefined (congrArg (fun tok => some (f, tok)) hc) hf, State.tokenInWait_own]
      exact ⟨_, rfl, State.haltWith_halted (s := s.afterToken f) hx _⟩
  · have htake := State.TakesToken.of_held hp (.inl hph) hcl
    have hhold : ∀ c f code, tokenOf c = some (f, .good st code x) → s.Hears f →
        exec c s = .next (if code = .release then (s.afterToken f).tokenReleased p
          else (s.afterToken f).haltWith p.owner .protocol) := fun c f code hc hf => by
      rw [exec_token_taken hl htake hc hf, State.takeToken_hold (s := s.afterToken f) hp hph,
        State.tokenInHold_own]
    refine ⟨fun hf hmore => ?_, fun hf hlast => ?_, fun c f code hc hne hf => ?_⟩
    · rw [hhold _ _ _ rfl hf, if_pos rfl]
      exact congrArg Host.Outcome.next (State.tokenReleased_next (s := a .release) hx hn hp hr hmore)
    · rw [hhold _ _ _ rfl hf, if_pos rfl]
      exact ⟨_, rfl, State.tokenReleased_last (s := a .release) hx hn hlast⟩
    · rw [hhold c f code hc hf, if_neg hne]
      exact ⟨_, rfl, State.haltWith_halted (s := s.afterToken f) hx _⟩

/-! ## The token window opens again, or the exchange halts (R76, R79) -/

/-- R76, R79: the final status of a write whose token was lost once more than the retry limit allows. -/
def FailKind.lostStatus : FailKind → Status
  | .window => .replyTimeout
  | .check => .replyCheck

theorem State.tokenAgain_again {s : State} {p : Payload} (h : p.tokenWaits < Cfg.retryLimit s.cfg) (kind : FailKind) :
    s.tokenAgain p kind false =
        { s with payload := some { p with tokenWaits := p.tokenWaits + 1, reopen := true } } ∧
      s.tokenAgain p kind true =
        { s with payload := some { p with tokenWaits := p.tokenWaits + 1, reopen := false }, cl := .tokenWindow 0 } :=
  ⟨if_pos h, if_pos h⟩

theorem State.tokenAgain_halts {s : State} {p : Payload} {e : Exchange} (hx : s.exch p.owner = some e)
    (h : Cfg.retryLimit s.cfg ≤ p.tokenWaits) (kind : FailKind) (expired : Bool) :
    Halted s (s.tokenAgain p kind expired) p.owner e kind.lostStatus := by
  have heq : s.tokenAgain p kind expired = s.haltWith p.owner kind.lostStatus := by
    cases kind <;> exact if_neg (Nat.not_lt.2 h)
  rw [heq]
  exact State.haltWith_halted hx _

/-- R98: the token is of another station or tag than the payload's. -/
def Payload.Foreign (p : Payload) (tok : Token) : Prop :=
  ∃ st code x, tok = .good st code x ∧
    (st ≠ BitVec.ofNat 4 (p.station.val + 1) ∨ x ≠ BitVec.ofNat 4 p.owner.val)

theorem Payload.Foreign.ne_bad {p : Payload} {tok : Token} (h : p.Foreign tok) : tok ≠ .bad := by
  obtain ⟨st, code, x, rfl, -⟩ := h
  exact Token.noConfusion

/-- R76, R98: a token of another station or tag counts as one that did not come. -/
theorem State.tokenInWait_foreign {p : Payload} {tok : Token} (h : p.Foreign tok) (s : State) :
    s.tokenInWait p tok = s.tokenAgain p .window false := by
  obtain ⟨st, code, x, rfl, hne⟩ := h
  exact if_neg (not_and_or.2 hne)

/-- R97, R98: in HOLD it is discarded. -/
theorem State.tokenInHold_foreign {p : Payload} {tok : Token} (h : p.Foreign tok) (s : State) :
    s.tokenInHold p tok = s := by
  obtain ⟨st, code, x, rfl, hne⟩ := h
  exact if_neg (not_and_or.2 hne)

/-- R76, R98: a token that is lost to the payload that awaits it. -/
theorem State.tokenInWait_lost {p : Payload} {tok : Token} (h : tok = .bad ∨ p.Foreign tok) (s : State) :
    s.tokenInWait p tok = s.tokenAgain p (if tok = .bad then .check else .window) false := by
  rcases h with rfl | h
  · rfl
  · rw [if_neg h.ne_bad, State.tokenInWait_foreign h]

/-- R76: a token window that runs out is taken up by the payload engine. -/
theorem exec_tokenWindowExpired {s : State} {k : Nat} (hl : s.live = true) (hcl : s.cl = .tokenWindow k) :
    exec .tokenWindowExpired s = .next s.tokenWindowOver := by
  change Host.Outcome.next (if s.live && s.cl.isTokenWindow then _ else s) = _
  rw [hl, hcl]
  rfl

theorem State.tokenWindowOver_wait {s : State} {p : Payload} (hp : s.payload = some p) (h : p.phase = .tokenWait) :
    s.tokenWindowOver = s.quietGap.tokenAgain p .window true := by
  unfold State.tokenWindowOver; rw [hp]; dsimp only; rw [h]

theorem State.tokenWindowOver_unawaited {s : State} (h : ∀ p, s.payload = some p → p.phase ≠ .tokenWait) :
    s.tokenWindowOver = s.quietGap := by
  unfold State.tokenWindowOver
  split
  next p hp =>
    split
    · exact absurd ‹_› (h p hp)
    all_goals rfl
  next => rfl

/-- Settles O54: a lost token opens the window again or halts the exchange, and one not awaited ends its window. -/
theorem lostTokenIsAwaitedAgain : Obligations.LostTokenIsAwaitedAgain := by
  refine ⟨fun s p e hl hp hx => ⟨fun c f tok hc hf => ⟨fun hph hopen hlost => ?_, fun hph hheld hbad => ?_,
    fun hph hheld hother => ?_, fun hph htake => ?_⟩, fun k hph hcl => ?_⟩,
    fun s hl => ⟨fun c f tok hc hopen hf hnone => ?_, fun k hcl hnone => ?_, fun c f tok hc ht hf hr => ?_⟩⟩
  · rw [exec_token_taken hl (.of_open hopen) hc hf, State.takeToken_wait (s := s.afterToken f) hp hph,
      State.tokenInWait_lost hlost]
    refine ⟨fun hlim => ?_, fun hlim => ⟨_, rfl, ?_⟩⟩
    · exact congrArg Host.Outcome.next (State.tokenAgain_again (s := s.afterToken f) hlim _).1
    · have h := State.tokenAgain_halts (s := s.afterToken f) hx hlim (if tok = .bad then .check else .window) false
      rwa [apply_ite FailKind.lostStatus] at h
  · rw [exec_token_taken hl (.of_held hp (.inl hph) hheld) hc hf, State.takeToken_hold (s := s.afterToken f) hp hph, hbad]
    rfl
  · rw [exec_token_taken hl (.of_held hp (.inl hph) hheld) hc hf, State.takeToken_hold (s := s.afterToken f) hp hph,
      State.tokenInHold_foreign hother]
  · have ht : s.TakesToken := htake.elim .of_open (fun h => .of_held hp (.inr ⟨hph, h.1⟩) h.2)
    rw [exec_token_taken hl ht hc hf, State.takeToken_halted (s := s.afterToken f) hp hph]
    exact ⟨fun htail hbad => congrArg Host.Outcome.next (if_pos ⟨htail, hbad⟩),
      fun h => congrArg Host.Outcome.next (if_neg (not_and_or.2 h))⟩
  · rw [exec_tokenWindowExpired hl hcl, State.tokenWindowOver_wait hp hph]
    exact ⟨fun hlim => congrArg Host.Outcome.next (State.tokenAgain_again (s := s.quietGap) hlim _).2,
      fun hlim => ⟨_, rfl, State.tokenAgain_halts (s := s.quietGap) hx hlim .window true⟩⟩
  · rw [exec_token_taken hl (.of_open hopen) hc hf, State.takeToken_unawaited (s := s.afterToken f) hnone]
  · rw [exec_tokenWindowExpired hl hcl, State.tokenWindowOver_unawaited fun p hp hph => ?_]
    · rfl
    rcases hnone with hnone | ⟨q, hq, hhalt⟩
    · exact (hnone p hp).1 hph
    · cases hp.symm.trans hq
      cases hph.symm.trans hhalt
  · exact ⟨_, exec_token hc s, by
      rw [State.tokenReceived_stuck hl ht hf]
      exact State.startLinkReset_begun hr _⟩

end Sys2Proof.Machine
end

section
/-! The notice of a FETCH_NOTICE and the reply to a stray WITHDRAW (O44). -/
namespace Sys2Proof.Machine

/-! ## The notice a value carries (R178) -/

/-- R178: a value is its type in the highest byte, two bytes between, and its content in the lowest. -/
theorem word_toNat (v : Word) :
    v.toNat = 16777216 * (v.extractLsb' 24 8).toNat + 256 * (v.extractLsb' 8 16).toNat + (v.extractLsb' 0 8).toNat := by
  have hlt := v.isLt
  simp only [BitVec.extractLsb'_toNat, Nat.shiftRight_eq_div_pow]
  omega

/-- R178: a value is determined by its type, its middle and its content. -/
theorem word_fields {v : Word} {type mid content : Nat} (h : v.toNat = 16777216 * type + 256 * mid + content)
    (hmid : mid < 65536) (hcontent : content < 256) :
    (v.extractLsb' 24 8).toNat = type ∧ (v.extractLsb' 8 16).toNat = mid ∧ (v.extractLsb' 0 8).toNat = content := by
  have hsplit := word_toNat v
  have hm := (v.extractLsb' 8 16).isLt
  have hc := (v.extractLsb' 0 8).isLt
  omega

theorem noticeOfValue_ready (x : Tag) : noticeOfValue (BitVec.ofNat 32 (0x01000000 + x.val)) = .ready x := by
  revert x; decide

theorem readyValue_toNat (x : Tag) :
    (BitVec.ofNat 32 (0x01000000 + x.val)).toNat = 16777216 * 1 + 256 * 0 + x.val := by
  have := x.isLt
  rw [BitVec.toNat_ofNat]
  omega

theorem alertValue_toNat (code : Byte) : (0x02000000#32 + code.setWidth 32).toNat = 16777216 * 2 + 256 * 0 + code.toNat := by
  have := code.isLt
  simp only [BitVec.toNat_add, BitVec.toNat_ofNat, BitVec.toNat_setWidth]
  omega

/-- R178: a value of type 2 carries the code of an alert. -/
theorem noticeOfValue_of_type_two {v : Word} {code : Byte} (htype : (v.extractLsb' 24 8).toNat = 2)
    (hmid : (v.extractLsb' 8 16).toNat = 0) (hcontent : (v.extractLsb' 0 8).toNat = code.toNat) (h : code ≠ 0) :
    noticeOfValue v = .alert code := by
  have hpos : code.toNat ≠ 0 := fun h0 => h (BitVec.eq_of_toNat_eq h0)
  have hmid0 : v.extractLsb' 8 16 = 0#16 := BitVec.eq_of_toNat_eq hmid
  have hcode : v.extractLsb' 0 8 = code := BitVec.eq_of_toNat_eq hcontent
  unfold noticeOfValue
  simp only [hmid0, htype, hcode]
  rw [if_neg (not_not.2 rfl), if_neg (fun hh => absurd hh.1 (by decide)), dif_neg (fun hh => absurd hh.1 (by decide)),
    if_pos ⟨trivial, Nat.one_le_iff_ne_zero.2 hpos⟩]

theorem noticeOfValue_alert {code : Byte} (h : code ≠ 0) :
    noticeOfValue (0x02000000#32 + code.setWidth 32) = .alert code := by
  obtain ⟨htype, hmid, hcontent⟩ := word_fields (alertValue_toNat code) (by decide) code.isLt
  exact noticeOfValue_of_type_two htype hmid hcontent h

/-- R178: any other value is not defined. -/
theorem noticeOfValue_undefined {v : Word} (hnone : v ≠ 0)
    (hready : ∀ x : Tag, v ≠ BitVec.ofNat 32 (0x01000000 + x.val))
    (halert : ∀ code : Byte, code ≠ 0 → v ≠ 0x02000000#32 + code.setWidth 32) : noticeOfValue v = .undefined := by
  have hsplit := word_toNat v
  unfold noticeOfValue
  dsimp only
  split
  · rfl
  next hmid =>
    have hmid0 : (v.extractLsb' 8 16).toNat = 0 := by rw [not_not.1 hmid]; rfl
    rw [hmid0] at hsplit
    split
    next h =>
      have hzero : v.toNat = (0 : Word).toNat := by
        rw [h.1, h.2] at hsplit; exact hsplit
      exact absurd (BitVec.eq_of_toNat_eq hzero) hnone
    split
    next h =>
      have hvalue := readyValue_toNat ⟨(v.extractLsb' 0 8).toNat, h.2⟩
      rw [h.1] at hsplit
      exact absurd (BitVec.eq_of_toNat_eq (hsplit.trans hvalue.symm)) (hready _)
    split
    next h =>
      have hcode : v.extractLsb' 0 8 ≠ 0 := fun h0 => absurd h.2 (by rw [h0]; decide)
      have hvalue := alertValue_toNat (v.extractLsb' 0 8)
      rw [h.1] at hsplit
      exact absurd (BitVec.eq_of_toNat_eq (hsplit.trans hvalue.symm)) (halert _ hcode)
    rfl

/-! ## A READY is matched (R122) -/

/-- R55, R122: a READY that meets no DEFERRED exchange awaiting it makes a stray pair. -/
theorem State.matchReady_stray {s : State} {st : StationId} {x : Tag}
    (h : ∀ e, s.exch x = some e → e.station ≠ st ∨ e.state = .queued ∨ e.state = .issuing ∨ e.state = .transfer
      ∨ e.state = .halting ∨ e.state = .completing ∨ (e.state = .deferred ∧ e.cancelMark = true)) :
    s.matchReady st x = { s with stray := if (st, x) ∈ s.stray then s.stray else s.stray ++ [(st, x)] } := by
  have hadd : s.addStray st x =
      { s with stray := if (st, x) ∈ s.stray then s.stray else s.stray ++ [(st, x)] } := by
    unfold State.addStray; split <;> rfl
  rw [← hadd]
  unfold State.matchReady
  split
  next e he =>
    split
    next hst =>
      rcases h e he with hne | hs | hs | hs | hs | hs | ⟨hs, hm⟩
      · exact absurd hst hne
      all_goals rw [hs]
      simp [hm]
    next => rfl
  next => rfl

/-- R122: a READY is without effect for an exchange past DEFERRED. -/
theorem State.matchReady_past {s : State} {x : Tag} {e : Exchange} (hx : s.exch x = some e)
    (h : e.state = .reconnecting ∨ e.state = .resuming ∨ e.state = .withdrawing) :
    s.matchReady e.station x = s := by
  unfold State.matchReady
  rw [hx]
  dsimp only
  rw [if_pos rfl]
  rcases h with h | h | h <;> rw [h]

/-- R57, R122: a READY takes a DEFERRED exchange to the end of the reconnect queue. -/
theorem State.matchReady_deferred {s : State} {x : Tag} {e : Exchange} (hx : s.exch x = some e)
    (hs : e.state = .deferred) (hm : e.cancelMark = false) :
    s.matchReady e.station x = { s with
      table := s.table.set x (some { e with state := .reconnecting, deferral := none }),
      stations := s.stations.set e.station { s.station e.station with saturation := none },
      reconnect := s.reconnect ++ [x] } := by
  have hmove : s.moveTo x .reconnecting =
      { s with table := s.table.set x (some { e with state := .reconnecting }),
               stations := s.stations.set e.station { s.station e.station with saturation := none } } := by
    unfold State.moveTo; rw [hx]; dsimp only; rw [hs]; rfl
  have hmoved : (s.moveTo x .reconnecting).exch x = some { e with state := .reconnecting } := by
    rw [hmove]; exact s.exch_setExch_self x _
  unfold State.matchReady
  rw [hx]
  dsimp only
  rw [if_pos rfl, hs]
  dsimp only
  rw [if_neg (by rw [hm]; decide), State.modExch_of_some _ hmoved, hmove]
  simp only [State.setExch, Vector.set_set]

/-! ## An ALERT enters the event queue (R119, R128, R163) -/

/-- R156, R163: the waiting lists once the event queue is a source of the event ring. -/
def State.eventJoined (s : State) : Vector (List Source) 4 :=
  match s.eventRing with
  | some c => joinedAt s c .event
  | none => s.waiting

theorem State.join_event (s : State) : s.join .event = { s with waiting := s.eventJoined } := by
  unfold State.join State.eventJoined
  cases s.eventRing with
  | none => rfl
  | some c => exact State.joinList_waiting s c .event

theorem State.pushEvent_eq (s : State) (ev : Event) :
    s.pushEvent ev = { s with eventQueue := s.eventQueue ++ [ev],
                              waiting := if s.eventQueue = [] then s.eventJoined else s.waiting } := by
  unfold State.pushEvent
  dsimp only
  by_cases hq : s.eventQueue = []
  · rw [if_pos hq, if_pos (List.isEmpty_iff.2 hq), State.join_event]
    rfl
  · rw [if_neg hq, if_neg (mt List.isEmpty_iff.1 hq)]

theorem State.takeAlert_eq {s : State} (h : s.reservation = true) (st : StationId) (code : Byte) :
    s.takeAlert st code = { s with
      eventQueue := s.eventQueue ++ [.stationAlert st code], reservation := false,
      waiting := if s.eventQueue = [] then s.eventJoined else s.waiting } := by
  unfold State.takeAlert
  rw [if_pos h, State.pushEvent_eq]
  rfl

/-! ## The outcome of a FETCH_NOTICE (R120, R121) -/

/-- What a delivered reply keeps of the reconnect, stray and event queues. -/
theorem State.afterReply_keeps (s : State) (f : BitVec 80) (rep : Reply) :
    (s.afterReply f rep).table = s.table ∧ (s.afterReply f rep).reconnect = s.reconnect ∧
      (s.afterReply f rep).stray = s.stray ∧ (s.afterReply f rep).reservation = s.reservation ∧
      (s.afterReply f rep).eventQueue = s.eventQueue ∧
      (if (s.afterReply f rep).eventQueue = [] then (s.afterReply f rep).eventJoined
        else (s.afterReply f rep).waiting) = if s.eventQueue = [] then s.eventJoined else s.waiting := by
  rw [s.afterReply_rest f rep]
  exact ⟨rfl, rfl, rfl, rfl, rfl, rfl⟩

/-- R120: a matched reply to FETCH_NOTICE hands its outcome to the fetch. -/
theorem State.Answered.fetchNotice {s : State} {f : BitVec 80} {r : Request} {rep : Reply} {st : StationId}
    (h : s.Answered f r rep) (ho : r.owner = .fetchNotice st) (hk : r.kind = .fetchNotice) :
    exec (.replyReceived f) s = .next ((s.afterReply f rep).fetchAnswered st rep.outcome rep.value) := by
  rw [h.toMatched.deliver (.inl (by rw [hk]; decide))]
  unfold State.deliver
  dsimp only
  rw [h.attached, if_neg (by decide), ho]
  rfl

/-- R124: any matched reply to the WITHDRAW of a stray pair removes the pair. -/
theorem State.Answered.strayWithdraw {s : State} {f : BitVec 80} {r : Request} {rep : Reply}
    (h : s.Answered f r rep) (ho : r.owner = .strayWithdraw) (hk : r.kind = .withdraw) :
    exec (.replyReceived f) s =
      .next { s.afterReply f rep with stray := (s.afterReply f rep).stray.tail } := by
  rw [h.toMatched.deliver (.inl (by rw [hk]; decide))]
  unfold State.deliver
  dsimp only
  rw [h.attached, if_neg (by decide), ho]
  rfl

section
variable {v : Word} (a : State) (st : StationId)

theorem State.fetchAnswered_none (h : noticeOfValue v = .none) :
    a.fetchAnswered st .done v = { a with reservation := false } := by
  unfold State.fetchAnswered; dsimp only; rw [h]

theorem State.fetchAnswered_ready {x : Tag} (h : noticeOfValue v = .ready x) :
    a.fetchAnswered st .done v = ({ a with reservation := false } : State).matchReady st x := by
  unfold State.fetchAnswered; dsimp only; rw [h]

theorem State.fetchAnswered_alert {code : Byte} (h : noticeOfValue v = .alert code) :
    a.fetchAnswered st .done v = a.takeAlert st code := by
  unfold State.fetchAnswered; dsimp only; rw [h]

end

/-- R121: an outcome but DONE, and a notice that is not defined, fail. -/
theorem State.fetchAnswered_failed {o : ReplyOutcome} {v : Word} (h : o ≠ .done ∨ noticeOfValue v = .undefined)
    (a : State) (st : StationId) : a.fetchAnswered st o v = a.noticeFailed st := by
  unfold State.fetchAnswered
  split
  · rw [h.resolve_left (not_not.2 rfl)]
  all_goals rfl

/-- Settles O44: the notice decides what the fetch does, and a stray pair goes with its reply. -/
theorem noticeIsTakenFromItsReply : Obligations.NoticeIsTakenFromItsReply := by
  refine ⟨fun s f r rep st h ho hk => ?_, fun s f r rep h ho hk => ?_⟩
  · intro a b next
    have hexec : exec (.replyReceived f) s = .next (a.fetchAnswered st rep.outcome rep.value) := h.fetchNotice ho hk
    obtain ⟨htable, hrec, hstray, hres', hq, hwait⟩ := s.afterReply_keeps f rep
    have hexch : ∀ x, b.exch x = s.exch x := s.exch_afterReply f rep
    have hstray : b.stray = s.stray := hstray
    refine ⟨fun hd hv => ?_, fun x hd hv => ?_, fun code hd hv hcode hres => ?_, fun hready hfail => ?_⟩
    · rw [hd, State.fetchAnswered_none a st (by rw [hv]; rfl)] at hexec
      exact hexec
    · rw [hd, State.fetchAnswered_ready a st (by rw [hv]; exact noticeOfValue_ready x)] at hexec
      intro stray
      have hmiss : (∀ e, b.exch x = some e → e.station ≠ st ∨ e.state = .queued ∨ e.state = .issuing
          ∨ e.state = .transfer ∨ e.state = .halting ∨ e.state = .completing
          ∨ (e.state = .deferred ∧ e.cancelMark = true)) → stray := fun hm => by
        have heq := State.matchReady_stray hm
        rw [hstray] at heq
        exact hexec.trans (congrArg Host.Outcome.next heq)
      refine ⟨fun hx => hmiss fun e he => ?_, fun e hx => ⟨fun hm => hmiss fun g hg => ?_, fun hst hs => ?_,
        fun hst hs hm => ?_⟩⟩
      · rw [hexch, hx] at he; cases he
      · rw [hexch, hx] at hg; cases hg; exact hm
      · subst hst
        exact hexec.trans (congrArg Host.Outcome.next (State.matchReady_past ((hexch x).trans hx) hs))
      · subst hst
        refine hexec.trans (congrArg Host.Outcome.next ?_)
        rw [← htable, ← hrec]
        exact State.matchReady_deferred ((hexch x).trans hx) hs hm
    · have hares : a.reservation = true := hres'.trans hres
      rw [hd, State.fetchAnswered_alert a st (by rw [hv]; exact noticeOfValue_alert hcode)] at hexec
      refine ⟨_, hexec, ?_⟩
      rw [State.takeAlert_eq hares]
      exact ⟨congrArg (· ++ [Event.stationAlert st code]) hq, rfl, hwait, rfl⟩
    · rw [State.fetchAnswered_failed (hfail.imp_right fun ⟨hv, hr, hal⟩ => noticeOfValue_undefined hv hr hal)] at hexec
      have hst : (a.station st).state = .ready := by
        rw [show a.station st = _ from s.station_afterReply f rep st]; exact hready
      rw [State.noticeFailed_ready hst] at hexec
      exact ⟨_, hexec, State.faultStation_faulted b st _⟩
  · obtain ⟨-, -, hstray, -⟩ := s.afterReply_keeps f rep
    rw [h.strayWithdraw ho hk, hstray]

end Sys2Proof.Machine
end

section
/-! One period of the link clock (O2): the parts of a tick, each with its timers and its commands, put together. -/
namespace Sys2Proof.Machine

/-! ## The payload engine's counters -/

/-- R79, R88, R89, R91, R97: the payload engine's record after one more period. -/
def State.tickedPayload (s : State) (p : Payload) : Payload :=
  { p with dataTimer := p.dataTimer.map (countUp (s.due .dataTimeout) 1),
           holdTimer := p.holdTimer.map (countUp (s.due .holdTimeout) 1),
           elapsed := (match p.onLanes with
             | some .write => countUp (s.due .writeBlockEnd) 1 p.elapsed
             | some .read => min p.blockLength (p.elapsed + 1)
             | none => p.elapsed),
           wait := if p.gapDue then p.wait else p.wait - 1 }

/-- The data timer alone does not bring the end of the hold. -/
theorem State.due_holdTimeout_of_dataTimer (s : State) (g : Option Nat → Option Nat) (q : List Instr) :
    ({ s with payload := s.payload.map (fun p => { p with dataTimer := g p.dataTimer }), pending := q } : State).due
      .holdTimeout = s.due .holdTimeout := by
  unfold State.due State.cfg
  dsimp only
  cases s.payload <;> rfl

/-- Neither do the data timer and the hold timer bring the end of a block. -/
theorem State.due_writeBlockEnd_of_timers (s : State) (g h : Option Nat → Option Nat) (q : List Instr) :
    ({ s with
      payload := s.payload.map (fun p => { p with dataTimer := g p.dataTimer, holdTimer := h p.holdTimer }),
      pending := q } : State).due .writeBlockEnd = s.due .writeBlockEnd := by
  unfold State.due
  dsimp only
  cases s.payload <;> rfl

theorem State.tickPayload_eq (s : State) :
    s.tickData.tickHold.tickBlock.tickWait = { s with
      payload := s.payload.map s.tickedPayload,
      pending := s.pending ++ [.dataTimeout, .holdTimeout, .writeBlockEnd].filter s.due } := by
  have hhold : s.tickData.tickHold = { s with
      payload := s.payload.map (fun p =>
        { p with dataTimer := p.dataTimer.map (countUp (s.due .dataTimeout) 1),
                 holdTimer := p.holdTimer.map (countUp (s.due .holdTimeout) 1) }),
      pending := s.pending ++ [.dataTimeout, .holdTimeout].filter s.due } := by
    rw [State.tickData_eq, State.tickHold_eq]
    dsimp only
    have hdue := s.due_holdTimeout_of_dataTimer (Option.map (countUp (s.due .dataTimeout) 1))
    rw [hdue, Option.map_map, List.append_assoc,
      show [Instr.dataTimeout, .holdTimeout] = [Instr.dataTimeout] ++ [.holdTimeout] from rfl, List.filter_append]
    simp only [List.filter_cons, List.filter_nil, hdue]
    rfl
  rw [hhold, State.tickBlock_eq, State.tickWait_eq]
  dsimp only
  have hdue := s.due_writeBlockEnd_of_timers (Option.map (countUp (s.due .dataTimeout) 1))
    (Option.map (countUp (s.due .holdTimeout) 1))
  rw [Option.map_map, Option.map_map, hdue, List.append_assoc,
    show [Instr.dataTimeout, .holdTimeout, .writeBlockEnd] = [Instr.dataTimeout, .holdTimeout] ++ [.writeBlockEnd] from rfl,
    List.filter_append [Instr.dataTimeout, .holdTimeout]]
  simp only [List.filter_cons, List.filter_nil, hdue]
  rfl

/-! ## CL, the payload, the quiet interval and the poll timer -/

/-- The commands of CL, of the payload engine, of the quiet interval and of the poll timer. -/
def linkCommands : List Instr :=
  [.frameSent, .replyWindowExpired, .guardGapEnd, .tokenWindowExpired, .linkResetEnd, .laneStuck, .dataTimeout,
   .holdTimeout, .writeBlockEnd, .quietIntervalEnd, .pollTimerExpiry]

/-- The state after a period of CL, the payload, the quiet interval and the poll timer. -/
def State.linked (s : State) : State :=
  { s with
    cl := s.nextCl, laneLow := s.tickLow, payload := s.payload.map s.tickedPayload,
    quiet := s.quiet.map (countDown (s.due .quietIntervalEnd) 1),
    pollTimer := s.pollTimer.map (countDown (s.due .pollTimerExpiry) s.linkPeriod),
    pending := s.pending ++ linkCommands.filter s.due }

theorem State.tickLink_eq (s : State) :
    s.tickLane.tickData.tickHold.tickBlock.tickWait.tickQuiet.tickPoll s.linkPeriod = s.linked := by
  have hlist : linkCommands = [Instr.frameSent, .replyWindowExpired, .guardGapEnd, .tokenWindowExpired, .linkResetEnd,
    .laneStuck] ++ [.dataTimeout, .holdTimeout, .writeBlockEnd] ++ [.quietIntervalEnd] ++ [.pollTimerExpiry] := rfl
  unfold State.linked
  rw [hlist, List.filter_append, List.filter_append, List.filter_append, ← List.append_assoc, ← List.append_assoc,
    ← List.append_assoc, State.tickLane_eq, State.tickPayload_eq, State.tickQuiet_eq]
  exact State.tickPoll_eq { s with
    cl := s.nextCl, laneLow := s.tickLow, payload := s.payload.map s.tickedPayload,
    quiet := s.quiet.map (countDown (s.due .quietIntervalEnd) 1),
    pending := s.pending ++ [Instr.frameSent, .replyWindowExpired, .guardGapEnd, .tokenWindowExpired, .linkResetEnd,
      .laneStuck].filter s.due ++ [Instr.dataTimeout, .holdTimeout, .writeBlockEnd].filter s.due ++
      [Instr.quietIntervalEnd].filter s.due }

/-! ## The timers kept in ns -/

theorem SameButStations.linkPeriod {s t : State} (h : SameButStations s t) : t.linkPeriod = s.linkPeriod := by
  unfold SameButStations at h; rw [h]; rfl

/-- The three timers of a station after a period. -/
def State.tickedStation (s : State) (u : StationId) : Station :=
  (((s.station u).debounced s.linkPeriod (s.due (.presenceStable u))).settled s.linkPeriod s.linkReset.isNone
    (s.due (.settleTimerExpiry u))).saturated s.linkPeriod (s.due (.saturationTimerExpiry u))

theorem filter_map_due_congr {α : Type} {c : α → Instr} {d d' : Instr → Bool} (h : ∀ a, d (c a) = d' (c a)) (l : List α) :
    (l.map c).filter d = (l.map c).filter d' :=
  List.filter_congr fun i hi => by obtain ⟨a, -, rfl⟩ := List.mem_map.1 hi; exact h a

theorem State.stationTimers_fold (s : State) (hl : s.live = true) :
    let t := allStations.foldl (State.tickSaturation s.linkPeriod)
      (allStations.foldl (State.tickSettle s.linkPeriod) (allStations.foldl (State.tickDebounce s.linkPeriod) s))
    SameButStations s t ∧ (∀ u, t.station u = s.tickedStation u) ∧
      t.pending = s.pending ++ (allStations.map Instr.presenceStable ++ allStations.map Instr.settleTimerExpiry
        ++ allStations.map Instr.saturationTimerExpiry).filter s.due := by
  obtain ⟨same1, st1, pend1⟩ := s.debounce_fold
  generalize allStations.foldl (State.tickDebounce s.linkPeriod) s = s1 at *
  have hp1 := same1.linkPeriod
  have hr1 : s1.linkReset = s.linkReset := by unfold SameButStations at same1; rw [same1]
  have hl1 : s1.live = true := by unfold SameButStations at same1; rw [same1]; exact hl
  obtain ⟨same2, st2, pend2⟩ := s1.settle_fold hl1
  rw [hp1] at same2 st2 pend2
  generalize allStations.foldl (State.tickSettle s.linkPeriod) s1 = s2 at *
  have hp2 := same2.linkPeriod.trans hp1
  obtain ⟨same3, st3, pend3⟩ := s2.saturation_fold
  rw [hp2] at same3 st3 pend3
  generalize allStations.foldl (State.tickSaturation s.linkPeriod) s2 = s3 at *
  have hsettle : ∀ u, s1.due (.settleTimerExpiry u) = s.due (.settleTimerExpiry u) := fun u => by
    simp only [State.due, st1, hp1, hr1]; rfl
  have hsat : ∀ u, s2.due (.saturationTimerExpiry u) = s.due (.saturationTimerExpiry u) := fun u => by
    simp only [State.due, st2, st1, hp2]; rfl
  refine ⟨(same1.trans same2).trans same3, fun u => ?_, ?_⟩
  · rw [st3, st2, st1, hsettle, hsat, hr1]; rfl
  · rw [pend3, pend2, pend1, List.filter_append, List.filter_append, List.append_assoc, List.append_assoc,
      List.append_assoc,
      filter_map_due_congr hsettle, filter_map_due_congr hsat]

theorem SameButStations.exch {s t : State} (h : SameButStations s t) (x : Tag) : t.exch x = s.exch x := by
  unfold SameButStations at h; rw [h]; rfl

theorem SameButTable.station {s t : State} (h : SameButTable s t) (u : StationId) : t.station u = s.station u := by
  unfold SameButTable at h; rw [h]; rfl

theorem SameButTable.linkPeriod {s t : State} (h : SameButTable s t) : t.linkPeriod = s.linkPeriod := by
  unfold SameButTable at h; rw [h]; rfl

/-- The commands of the timers kept in ns, the poll timer apart. -/
def nsCommands : List Instr :=
  allStations.map .presenceStable ++ allStations.map .settleTimerExpiry ++ allStations.map .saturationTimerExpiry
    ++ allTags.map .deferralTimerExpiry ++ allRings.map .moderationDelayExpiry

/-- The timers kept in ns, the poll timer apart, move on by `ns`. -/
def State.nsTimers (s : State) (ns : Nat) : State :=
  allRings.foldl (State.tickDelay ns) (allTags.foldl (State.tickDeferral ns) (allStations.foldl (State.tickSaturation ns)
    (allStations.foldl (State.tickSettle ns) (allStations.foldl (State.tickDebounce ns) s))))

theorem State.tickTimers_eq (s : State) (ns : Nat) : s.tickTimers ns = (s.tickPoll ns).nsTimers ns := rfl

theorem State.nsTimers_fold (s : State) (hl : s.live = true) :
    let t := s.nsTimers s.linkPeriod
    t = { s with stations := t.stations, table := t.table, crings := t.crings, pending := t.pending } ∧
      (∀ u, t.station u = s.tickedStation u) ∧
      (∀ x, t.exch x = (s.exch x).map (Exchange.deferred s.linkPeriod (s.due (.deferralTimerExpiry x)))) ∧
      (∀ r, t.cring r = (s.cring r).map (CRing.delayed s.linkPeriod (s.due (.moderationDelayExpiry r)))) ∧
      t.pending = s.pending ++ nsCommands.filter s.due := by
  unfold State.nsTimers
  obtain ⟨same3, st3, pend3⟩ := s.stationTimers_fold hl
  generalize allStations.foldl (State.tickSaturation s.linkPeriod)
    (allStations.foldl (State.tickSettle s.linkPeriod) (allStations.foldl (State.tickDebounce s.linkPeriod) s)) = s3 at *
  have hp3 := same3.linkPeriod
  obtain ⟨same4, ex4, pend4⟩ := s3.deferral_fold
  rw [hp3] at same4 ex4 pend4
  generalize allTags.foldl (State.tickDeferral s.linkPeriod) s3 = s4 at *
  have hp4 := same4.linkPeriod.trans hp3
  obtain ⟨same5, cr5, pend5⟩ := s4.delay_fold
  rw [hp4] at same5 cr5 pend5
  generalize allRings.foldl (State.tickDelay s.linkPeriod) s4 = s5 at *
  have hc4 : ∀ r, s4.cring r = s.cring r := fun r => by
    unfold SameButStations at same3; unfold SameButTable at same4; rw [same4, same3]; rfl
  have hdefer : ∀ x, s3.due (.deferralTimerExpiry x) = s.due (.deferralTimerExpiry x) := fun x => by
    simp only [State.due, hp3, same3.exch]
  have hdelay : ∀ r, s4.due (.moderationDelayExpiry r) = s.due (.moderationDelayExpiry r) := fun r => by
    simp only [State.due, hp4, hc4]
  refine ⟨?_, fun u => ?_, fun x => ?_, fun r => ?_, ?_⟩
  · unfold SameButStations at same3
    unfold SameButTable at same4
    unfold SameButCRings at same5
    rw [same5, same4, same3]
  · rw [← st3, ← same4.station]
    unfold SameButCRings at same5; rw [same5]; rfl
  · rw [← hdefer, ← same3.exch, ← ex4]
    unfold SameButCRings at same5; rw [same5]; rfl
  · rw [cr5, hdelay, hc4]
  · unfold nsCommands
    rw [pend5, pend4, pend3, List.filter_append _ (allRings.map _), List.filter_append _ (allTags.map _),
      filter_map_due_congr hdefer, filter_map_due_congr hdelay]
    simp only [List.append_assoc]

/-! ## The period -/

theorem State.live_iff (s : State) : s.live = true ↔ s.device.state = .running ∨ s.device.state = .draining := by
  unfold State.live
  rw [Bool.or_eq_true, beq_iff_eq, beq_iff_eq]

theorem timedCommands_eq : linkCommands ++ nsCommands = timedCommands := rfl

/-- The first part of a period brings no command of the second. -/
theorem State.due_linked (s : State) (i : Instr) (hi : i ∈ nsCommands) : s.linked.due i = s.due i := by
  unfold nsCommands at hi
  simp only [List.mem_append, List.mem_map] at hi
  rcases hi with (((⟨u, -, rfl⟩ | ⟨u, -, rfl⟩) | ⟨u, -, rfl⟩) | ⟨x, -, rfl⟩) | ⟨r, -, rfl⟩ <;> rfl

/-- R37: the lane-low count after a period, by what is on CL. -/
theorem State.tickLow_eq (s : State) :
    s.tickLow = match s.cl with
      | .low => min 4097 (s.laneLow + 1)
      | .receiving | .profile _ | .pollSlots | .tokenReceiving => s.laneLow
      | .guardGap n => if n < (if s.holdInForce then 1 else 2) then s.laneLow
        else if 4097 ≤ s.laneLow then s.laneLow else 0
      | .tokenWindow 0 => s.laneLow
      | _ => if 4097 ≤ s.laneLow then s.laneLow else 0 := by
  unfold State.tickLow
  cases s.cl with
  | tokenWindow n => cases n <;> rfl
  | _ => rfl

/-- R25: the link period that each rate code gives. -/
theorem State.linkPeriod_of_rate {s : State} {rate : Byte} (h : s.device.lck = some rate) :
    s.linkPeriod = 160 / 2 ^ rate.toNat := by
  unfold State.linkPeriod; rw [h]

/-- R47, R48, R54, R57: a station's timers after a period, each with the command it waits for. -/
theorem State.tickedStation_eq (s : State) (u : StationId) :
    s.tickedStation u = { s.station u with
      debounce := (s.station u).debounce.map (fun n =>
        if 10000000 ≤ n then n else countUp (s.due (.presenceStable u)) s.linkPeriod n),
      settle :=
        if ((s.station u).state = .settling ∧ s.linkReset = none) ∨ (s.station u).state = .resetting
        then (s.station u).settle.map (countDown (s.due (.settleTimerExpiry u)) s.linkPeriod)
        else (s.station u).settle,
      saturation := (s.station u).saturation.map (countUp (s.due (.saturationTimerExpiry u)) s.linkPeriod) } := by
  unfold State.tickedStation Station.saturated Station.settled Station.debounced
  simp only [Option.isNone_iff_eq_none]

/-- Settles O2: the parts of a tick one after the other, and the lists of their commands joined. -/
theorem emptyQueueIsOneLinkPeriod : Obligations.EmptyQueueIsOneLinkPeriod := by
  refine ⟨fun s => ⟨s.live_iff, State.linkPeriod_of_rate, State.linkPeriod_of_rate, State.linkPeriod_of_rate,
    State.linkPeriod_of_rate⟩, fun p => rfl, fun s hempty => ?_⟩
  have hstep : step s = .next s.tick := by unfold step; rw [hempty]
  refine ⟨fun hl => ?_, fun hl => ?_⟩
  · rw [hstep]; unfold State.tick; rw [if_neg (by rw [hl]; decide)]
  · refine ⟨s.tick, hstep, ?_⟩
    have htick : s.tick = s.linked.nsTimers s.linkPeriod := by
      unfold State.tick; rw [if_pos hl, State.tickTimers_eq, State.tickLink_eq]
    obtain ⟨same, st, ex, cr, pend⟩ := s.linked.nsTimers_fold hl
    rw [show s.linked.linkPeriod = s.linkPeriod from rfl, ← htick] at same st ex cr pend
    generalize s.tick = t at *
    have hcl : t.cl = s.nextCl := congrArg State.cl same
    have hlow : t.laneLow = s.tickLow := congrArg State.laneLow same
    have hpayload : t.payload = s.payload.map s.tickedPayload := congrArg State.payload same
    have hquiet : t.quiet = s.quiet.map (countDown (s.due .quietIntervalEnd) 1) := congrArg State.quiet same
    have hpoll : t.pollTimer = s.pollTimer.map (countDown (s.due .pollTimerExpiry) s.linkPeriod) :=
      congrArg State.pollTimer same
    refine ⟨?_, hcl, ?_, hpayload, hquiet, hpoll, fun u => (st u).trans (s.tickedStation_eq u), ex, cr, ?_⟩
    · rw [pend]
      unfold State.linked
      rw [hempty, List.nil_append, ← timedCommands_eq, List.filter_append]
      exact congrArg _ (List.filter_congr s.due_linked)
    · rw [hlow]; exact s.tickLow_eq
    · rw [hcl, hlow, hpayload, hquiet, hpoll]; exact same

end Sys2Proof.Machine
end

section
/-! The choice of the command lane engine (O30): the candidate of highest priority, and how its frame is begun. -/
namespace Sys2Proof.Machine

/-! ## The lowest and the first of a list -/

theorem allStations_split (st : StationId) : ∃ l₁ l₂, allStations = l₁ ++ st :: l₂ ∧ ∀ u ∈ l₁, u < st := by
  have split : ∀ st : StationId, allStations = allStations.take st.val ++ st :: allStations.drop (st.val + 1) ∧
      ∀ u ∈ allStations.take st.val, u < st := by decide
  exact ⟨_, _, split st⟩

/-- The first of an ascending list that a test picks is the lowest of which it tells. -/
theorem find?_lowest {n : Nat} {l : List (Fin n)} {i : Fin n} (hl : ∃ l₁ l₂, l = l₁ ++ i :: l₂ ∧ ∀ u ∈ l₁, u < i)
    {P : Fin n → Prop} {p : Fin n → Bool} (hp : ∀ j, p j = true ↔ P j) (h : Lowest P i) : l.find? p = some i := by
  obtain ⟨l₁, l₂, heq, hbelow⟩ := hl
  rw [List.find?_eq_some_iff_append]
  exact ⟨(hp i).2 h.1, l₁, l₂, heq, fun u hu =>
    Bool.not_eq_true' _ ▸ Bool.eq_false_iff.2 (mt (hp u).1 (h.2 u (hbelow u hu)))⟩

theorem State.Heads.unique {s : State} {st : StationId} {x y : Tag} {e d : Exchange} (h : s.Heads st x e)
    (h' : s.Heads st y d) : x = y ∧ e = d := by
  obtain rfl := Option.some.inj (h.1.symm.trans h'.1)
  exact ⟨rfl, Option.some.inj (h.2.symm.trans h'.2)⟩

/-! ## The candidates that are there (R64, R66, R68) -/

theorem State.withdrawCandidate_some {s : State} {x : Tag} (h : Lowest s.WithdrawDue x) :
    s.withdrawCandidate = some (.withdraw x) := by
  unfold State.withdrawCandidate
  refine congrArg (Option.map Candidate.withdraw) (find?_lowest (allTags_split x) (fun y => ?_) h)
  unfold State.WithdrawDue
  cases s.exch y with
  | none => simp
  | some e => simp [State.isReady_iff, and_assoc]

/-- The candidate of priority 3 of one station. -/
def State.resetAt (s : State) (st : StationId) : Option Candidate :=
  match s.queueHead st with
  | some (t, e) => if e.kind = .resetStation ∧ s.readyOrFaulted st then some (.reset st t) else none
  | none => none

theorem State.resetCandidate_eq (s : State) : s.resetCandidate = allStations.findSome? s.resetAt := rfl

theorem State.resetAt_some {s : State} {st : StationId} {x : Tag} {e : Exchange} (hh : s.Heads st x e)
    (hd : s.ResetDue st) : s.resetAt st = some (.reset st x) := by
  obtain ⟨y, d, hy, hk, hst⟩ := hd
  obtain ⟨rfl, rfl⟩ := hh.unique hy
  unfold State.resetAt
  rw [(s.queueHead_iff st x e).2 hh]
  exact if_pos ⟨hk, (s.readyOrFaulted_iff st).2 hst⟩

theorem State.resetAt_none {s : State} {st : StationId} (hd : ¬ s.ResetDue st) : s.resetAt st = none := by
  unfold State.resetAt
  cases hq : s.queueHead st with
  | none => rfl
  | some y =>
    obtain ⟨x, e⟩ := y
    exact if_neg fun hk => hd ⟨x, e, (s.queueHead_iff st x e).1 hq, hk.1, (s.readyOrFaulted_iff st).1 hk.2⟩

theorem State.resetCandidate_some {s : State} {st : StationId} {x : Tag} {e : Exchange} (h : Lowest s.ResetDue st)
    (hh : s.Heads st x e) : s.resetCandidate = some (.reset st x) := by
  obtain ⟨l₁, l₂, hl, hbelow⟩ := allStations_split st
  rw [State.resetCandidate_eq, List.findSome?_eq_some_iff]
  exact ⟨l₁, st, l₂, hl, State.resetAt_some hh h.1, fun u hu => State.resetAt_none (h.2 u (hbelow u hu))⟩

theorem State.identifyCandidate_some {s : State} {st : StationId}
    (h : Lowest (fun u => (s.station u).state = .identifying) st) : s.identifyCandidate = some (.autoIdentify st) :=
  congrArg (Option.map Candidate.autoIdentify) (find?_lowest (allStations_split st) (fun _ => beq_iff_eq) h)

theorem State.pollCandidate_some {s : State} (h : s.attention = true ∨ s.pollDue = true) :
    s.pollCandidate = some .poll := if_pos (Bool.or_eq_true _ _ ▸ h)

theorem State.fetchCandidate_some {s : State} {st : StationId} (hroom : s.eventQueue.length < 8) (hstray : s.stray = [])
    (h : FirstFrom s.fetchPtr s.FetchDue st) : s.fetchCandidate = some (.fetch st) := by
  have hdue : ∀ u, (s.isReady u && decide (0 < (s.station u).notices)) = true ↔ s.FetchDue u := fun u => by
    rw [Bool.and_eq_true, State.isReady_iff, decide_eq_true_eq]; rfl
  obtain ⟨l₁, l₂, hl, hbefore⟩ := robin_split s.fetchPtr st
  unfold State.fetchCandidate
  rw [if_pos ⟨hroom, by rw [hstray]; decide⟩]
  refine congrArg (Option.map Candidate.fetch) (List.find?_eq_some_iff_append.2
    ⟨(hdue st).2 h.1, l₁, l₂, hl, fun u hu => ?_⟩)
  rw [Bool.not_eq_true', Bool.eq_false_iff]
  exact mt (hdue u).1 (h.2 u (hbefore u hu))

theorem State.resumeCandidate_some {s : State} {x : Tag} {e : Exchange} (h : s.ResumeDue x e) :
    s.resumeCandidate = some (.resume x) := by
  obtain ⟨hhead, hx, hfree, hready⟩ := h
  unfold State.resumeCandidate
  rw [hhead]
  dsimp only
  rw [hx]
  exact if_pos ⟨s.lanesFree_iff.2 hfree, (s.isReady_iff _).2 hready⟩

/-! ## The choice by priority (R64, R65, R69) -/

/-- R65: no HALT is due and no write payload runs, so that the WITHDRAW candidates are looked at. -/
structure State.PastHalt (s : State) : Prop where
  chooses : s.Chooses
  halt : ∀ x, ¬ s.HaltDue x
  write : ¬ s.WriteRuns

theorem State.PastHalt.choose_withdraw {s : State} (h : s.PastHalt) {x : Tag} (hx : Lowest s.WithdrawDue x) :
    s.choose = (s, some (.withdraw x)) := by
  unfold State.choose
  rw [State.haltCandidate_none h.halt, State.withdrawCandidate_some hx]
  exact if_neg (mt s.writeRunning_iff.1 h.write)

theorem State.PastHalt.choose_later {s : State} (h : s.PastHalt) (hw : ∀ x, ¬ s.WithdrawDue x) :
    s.choose = (s.dropStray, s.dropStray.strayCandidate.or s.dropStray.laterCandidate) := by
  unfold State.choose
  rw [State.haltCandidate_none h.halt, State.withdrawCandidate_none hw]
  exact if_neg (mt s.writeRunning_iff.1 h.write)

/-- R69: a stray pair of a READY station stays at the head. -/
theorem State.dropStray_ready {s : State} {st : StationId} {x : Tag} {l : List (StationId × Tag)}
    (hs : s.stray = (st, x) :: l) (hst : (s.station st).state = .ready) : s.dropStray = s := by
  have hkeep : (!s.isReady st) = false := by rw [(s.isReady_iff st).2 hst]; rfl
  unfold State.dropStray
  rw [hs, List.dropWhile_cons, if_neg (by rw [hkeep]; decide), ← hs]

/-- R69: one of any other station is dropped. -/
theorem State.dropStray_other {s : State} {st : StationId} {x : Tag} {l : List (StationId × Tag)}
    (hs : s.stray = (st, x) :: l) (hst : (s.station st).state ≠ .ready) :
    s.dropStray = ({ s with stray := l } : State).dropStray := by
  have hdrop : (!s.isReady st) = true := by
    rw [Bool.not_eq_true', Bool.eq_false_iff]; exact mt (s.isReady_iff st).1 hst
  unfold State.dropStray
  rw [hs, List.dropWhile_cons, if_pos hdrop]
  rfl

theorem State.PastWithdraw.choose {s : State} (h : s.PastWithdraw) : s.choose = (s, s.laterCandidate) := by
  have hstray : s.dropStray = s := by
    unfold State.dropStray
    rw [h.stray]
    exact congrArg (fun l => { s with stray := l }) h.stray.symm
  rw [State.PastHalt.choose_later ⟨h.toChooses, h.halt, h.write⟩ h.withdraw, hstray]
  unfold State.strayCandidate
  rw [h.stray]
  rfl

theorem State.PastPoll.laterCandidate {s : State} (h : s.PastPoll) :
    s.laterCandidate = s.fetchCandidate.or (s.resumeCandidate.or s.queueCandidate) := by
  unfold State.laterCandidate
  rw [State.resetCandidate_none h.reset, State.identifyCandidate_none h.identify, State.pollCandidate_none h.attention h.poll]
  rfl

theorem exec_chooseRequest {s t : State} {c : Candidate} (h : s.Chooses) (hc : s.choose = (t, some c)) :
    exec .chooseRequest s = .next (t.beginCandidate c) := by
  rw [h.exec]
  unfold State.chooseAndBegin
  rw [hc]

/-! ## What is begun (R70, R77, R124) -/

theorem State.beginFor_eq {s : State} {x : Tag} {e : Exchange} (hx : s.exch x = some e) (kind : RequestKind) :
    s.beginFor x kind =
      ({ s with table := s.table.set x (some { e with retriesUsed := some 0 }) } : State).beginFrame
        (Request.new kind (slotNumber e.station) x 0 0 (.exchange x)) := by
  unfold State.beginFor; rw [hx]; rfl

theorem State.beginReset_eq {s : State} {st : StationId} {x : Tag} {e : Exchange} (hx : s.exch x = some e)
    (hk : e.kind = .resetStation) :
    s.beginCandidate (.reset st x) =
      ({ s with pendingQ := s.pendingQ.set st (s.queueOf st).tail,
                table := s.table.set x (some { e with state := .issuing, retriesUsed := some 0 }) } : State).beginFrame
        (Request.new .reset (slotNumber e.station) x 0 0 (.exchange x)) := by
  have hreq : Request.ofExchange x e = Request.new .reset (slotNumber e.station) x 0 0 (.exchange x) := by
    unfold Request.ofExchange Exchange.requestArgument Exchange.requestCount; rw [hk]; rfl
  unfold State.beginCandidate
  dsimp only
  rw [hx]
  unfold State.issueHead
  dsimp only
  rw [hreq, hk]
  rfl

/-- R57, R124: leaving RECONNECTING clears the saturated flag. -/
theorem State.beginResume_eq {s : State} {x : Tag} {e : Exchange} (hx : s.exch x = some e)
    (hs : e.state = .reconnecting) :
    s.beginResume x =
      ({ s with
        reconnect := s.reconnect.tail,
        table := s.table.set x (some { e with state := .resuming, retriesUsed := some 0 }),
        stations := s.stations.set e.station { s.station e.station with saturation := none } } : State).beginFrame
        (Request.new .resume (slotNumber e.station) x 0 0 (.exchange x)) := by
  have hmove : ({ s with reconnect := s.reconnect.tail } : State).moveTo x .resuming =
      { s with reconnect := s.reconnect.tail, table := s.table.set x (some { e with state := .resuming }),
               stations := s.stations.set e.station { s.station e.station with saturation := none } } := by
    unfold State.moveTo
    rw [show ({ s with reconnect := s.reconnect.tail } : State).exch x = some e from hx]
    dsimp only
    rw [hs]
    rfl
  have hmoved : (({ s with reconnect := s.reconnect.tail } : State).moveTo x .resuming).exch x =
      some { e with state := .resuming } := by
    rw [hmove]; exact s.exch_setExch_self x _
  unfold State.beginResume
  rw [hx]
  dsimp only
  rw [State.modExch_of_some _ hmoved, hmove]
  simp only [State.setExch, Vector.set_set]

/-- Settles O30: each candidate in its turn, and the frame that is begun for it. -/
theorem choiceFollowsPriority : Obligations.ChoiceFollowsPriority := by
  intro s number begins
  refine ⟨fun hch hhalt hwrite => ?_, fun h => ?_, fun h => ?_⟩
  · have hpast : s.PastHalt := ⟨hch, hhalt, hwrite⟩
    refine ⟨fun x e hlow hx => ?_, fun st x l hw hs => ⟨fun hst => ?_, fun hst => ?_⟩⟩
    · exact (exec_chooseRequest hch (hpast.choose_withdraw hlow)).trans (congrArg Host.Outcome.next (State.beginFor_eq hx _))
    · have hc := hpast.choose_later hw
      rw [State.dropStray_ready hs hst, show s.strayCandidate = some (.stray st x) by
        unfold State.strayCandidate; rw [hs]; rfl] at hc
      exact exec_chooseRequest hch hc
    · have hch' : ({ s with stray := l } : State).Chooses :=
        ⟨hch.live, hch.linkReset, hch.lane, hch.current, hch.setAside⟩
      have hpast' : ({ s with stray := l } : State).PastHalt := ⟨hch', hhalt, hwrite⟩
      rw [hch.exec, hch'.exec]
      unfold State.chooseAndBegin
      rw [hpast.choose_later hw, hpast'.choose_later hw, State.dropStray_other hs hst]
  · have begin : ∀ c, s.laterCandidate = some c → exec .chooseRequest s = .next (s.beginCandidate c) := fun c hc =>
      exec_chooseRequest h.toChooses (h.choose.trans (by rw [hc]))
    refine ⟨fun st x e hlow hh => ?_, fun hreset st hlow => ?_, fun hreset hident hpoll => ?_⟩
    · obtain ⟨y, d, hy, hk, -⟩ := hlow.1
      obtain ⟨rfl, rfl⟩ := hh.unique hy
      refine (begin (.reset st x) ?_).trans (congrArg Host.Outcome.next (State.beginReset_eq hh.2 hk))
      unfold State.laterCandidate
      rw [State.resetCandidate_some hlow hh]
      rfl
    · refine begin (.autoIdentify st) ?_
      unfold State.laterCandidate
      rw [State.resetCandidate_none hreset, State.identifyCandidate_some hlow]
      rfl
    · refine begin .poll ?_
      unfold State.laterCandidate
      rw [State.resetCandidate_none hreset, State.identifyCandidate_none hident, State.pollCandidate_some hpoll]
      rfl
  · have begin : ∀ c, s.laterCandidate = some c → exec .chooseRequest s = .next (s.beginCandidate c) := fun c hc =>
      exec_chooseRequest h.toChooses (h.toPastWithdraw.choose.trans (by rw [hc]))
    refine ⟨fun st hroom hfirst => ?_, fun x e hfetch hdue hs => ?_⟩
    · refine begin (.fetch st) ?_
      rw [h.laterCandidate, State.fetchCandidate_some hroom h.stray hfirst]
      rfl
    · refine (begin (.resume x) ?_).trans (congrArg Host.Outcome.next (State.beginResume_eq hdue.2.1 hs))
      rw [h.laterCandidate, State.fetchCandidate_none hfetch, State.resumeCandidate_some hdue]
      rfl

end Sys2Proof.Machine
end

section
/-! Frames and their check codes (O32): the fields of a request frame, and what a reply, a profile and a token are read as. -/
namespace Sys2Proof.Machine

/-! ## Fields of a frame -/

/-- A field of a field. -/
theorem extractLsb'_extractLsb' {w : Nat} (x : BitVec w) {start len start' len' : Nat} (h : start' + len' ≤ len) :
    (x.extractLsb' start len).extractLsb' start' len' = x.extractLsb' (start + start') len' := by
  refine BitVec.eq_of_getLsbD_eq fun i hi => ?_
  simp only [BitVec.getLsbD_extractLsb', hi, show start' + i < len by omega, decide_true, Bool.true_and, Nat.add_assoc]

/-- A field of what stands above `lo`. -/
theorem extractLsb'_above {v w : Nat} (hi : BitVec v) (lo : BitVec w) (start len : Nat) :
    (hi ++ lo).extractLsb' (start + w) len = hi.extractLsb' start len := by
  rw [BitVec.extractLsb'_append_eq_of_le (Nat.le_add_left _ _), Nat.add_sub_cancel]

/-- The fields of eight bytes put together as R177 says. -/
theorem extractLsb'_requestBody (flag : BitVec 1) (zero : BitVec 3) (station kind tag : BitVec 4) (argument : BitVec 32)
    (count : BitVec 16) :
    let body := flag ++ zero ++ station ++ kind ++ tag ++ argument ++ count
    body.extractLsb' 63 1 = flag ∧ body.extractLsb' 60 3 = zero ∧ body.extractLsb' 56 4 = station ∧
      body.extractLsb' 52 4 = kind ∧ body.extractLsb' 48 4 = tag ∧ body.extractLsb' 16 32 = argument ∧
      body.extractLsb' 0 16 = count := by
  intro body
  have above48 : ∀ start len, body.extractLsb' (start + 48) len =
      (flag ++ zero ++ station ++ kind ++ tag).extractLsb' start len := fun start len =>
    (extractLsb'_above _ count (start + 32) len).trans (extractLsb'_above _ argument start len)
  have above56 : ∀ start len, body.extractLsb' (start + 56) len = (flag ++ zero ++ station).extractLsb' start len :=
    fun start len => (above48 (start + 8) len).trans
      ((extractLsb'_above _ tag (start + 4) len).trans (extractLsb'_above _ kind start len))
  have above60 : ∀ start len, body.extractLsb' (start + 60) len = (flag ++ zero).extractLsb' start len :=
    fun start len => (above56 (start + 4) len).trans (extractLsb'_above _ station start len)
  exact ⟨(above60 3 1).trans BitVec.extractLsb'_append_eq_left, (above60 0 3).trans BitVec.extractLsb'_append_eq_right,
    (above56 0 4).trans BitVec.extractLsb'_append_eq_right,
    (above48 4 4).trans ((extractLsb'_above _ tag 0 4).trans BitVec.extractLsb'_append_eq_right),
    (above48 0 4).trans BitVec.extractLsb'_append_eq_right,
    (extractLsb'_above _ count 0 32).trans BitVec.extractLsb'_append_eq_right, BitVec.extractLsb'_append_eq_right⟩

theorem beBytes_eq {w : Nat} (n k : Nat) (x : BitVec w) :
    beBytes (n + 1) k x = (List.range k).map (fun i => x.extractLsb' (8 * (n - i)) 8) := rfl

/-! ## Request frames (R62, R177, R182) -/

theorem Request.extractLsb'_frame (r : Request) (start len : Nat) :
    r.frame.extractLsb' (start + 16) len = r.frameBody.extractLsb' start len :=
  extractLsb'_above r.frameBody _ start len

/-- R182: the check code of a request covers the bytes before it. -/
theorem Request.frame_check (r : Request) :
    r.frame.extractLsb' 0 16 = crc16 ((List.range 8).map (fun k => r.frame.extractLsb' (8 * (9 - k)) 8)) := by
  refine (BitVec.extractLsb'_append_eq_right (a := r.frameBody)).trans (congrArg crc16 ?_)
  rw [beBytes_eq]
  refine List.map_congr_left fun k hk => ?_
  have hk := List.mem_range.1 hk
  rw [show 8 * (9 - k) = 8 * (7 - k) + 16 by omega, r.extractLsb'_frame]

theorem Request.retryFlag_frame (r : Request) : r.frame.getLsbD 79 = (r.attemptsFailed != 0) := by
  obtain ⟨hflag, -⟩ := extractLsb'_requestBody (BitVec.ofBool r.retryFlag) 0#3 r.station (requestCode r.kind)
    (tagBits r.tag) r.argument r.count
  have hbit : (r.frame.extractLsb' (63 + 16) 1).getLsbD 0 = r.frame.getLsbD 79 := by
    rw [BitVec.getLsbD_extractLsb']; rfl
  rw [← hbit, r.extractLsb'_frame]
  exact (congrArg (BitVec.getLsbD · 0) hflag).trans (BitVec.getLsbD_ofBool _ _)

/-! ## Replies (R30, R177, R178) -/

theorem outcomeOfCode_eq (code : BitVec 4) (reason : Byte) :
    outcomeOfCode code reason = match code.toNat with
      | 1 => .done | 2 => .accepted | 3 => .deferred
      | 4 => (match reason.toNat with
        | 1 => .rejected .badAddress | 2 => .rejected .badCount | 3 => .rejected .notHeld
        | 4 => .rejected .unsupported | 5 => .rejected .protected_ | 6 => .rejected .stationError | _ => .undefined)
      | 5 => .busy | _ => .undefined := by
  unfold outcomeOfCode reasonOfCode
  generalize code.toNat = n
  generalize reason.toNat = k
  rcases n with _ | _ | _ | _ | _ | _ | n
  case succ.succ.succ.succ.zero => rcases k with _ | _ | _ | _ | _ | _ | _ | k <;> rfl
  all_goals rfl

/-- R30, R177: four bytes of a reply side by side are its value. -/
theorem reply_value (f : BitVec 80) :
    f.extractLsb' 56 8 ++ f.extractLsb' 48 8 ++ f.extractLsb' 40 8 ++ f.extractLsb' 32 8 = f.extractLsb' 32 32 := by
  rw [BitVec.extractLsb'_append_extractLsb'_eq_extractLsb' (show 56 = 48 + 8 from rfl),
    BitVec.extractLsb'_append_extractLsb'_eq_extractLsb' (show 48 = 40 + 8 from rfl),
    BitVec.extractLsb'_append_extractLsb'_eq_extractLsb' (show 40 = 32 + 8 from rfl)]

theorem noticesOfByte_of_le {b : Byte} (h : b.toNat ≤ 15) : noticesOfByte b = b.toNat := if_pos h

theorem noticesOfByte_le (b : Byte) : noticesOfByte b ≤ 15 := by
  unfold noticesOfByte
  split
  · assumption
  · exact Nat.le_of_lt_succ (Config.overCount b).isLt

theorem parseReply_bad {f : BitVec 80} (h : crc16 (beBytes 10 8 f) ≠ f.extractLsb' 0 16) : parseReply f = none := if_neg h

theorem parseReply_good {f : BitVec 80} (h : crc16 (beBytes 10 8 f) = f.extractLsb' 0 16) :
    parseReply f = some
      { alertPending := f.getLsbD 79, station := f.extractLsb' 72 4,
        outcome := outcomeOfCode (f.extractLsb' 68 4) (f.extractLsb' 24 8), tag := f.extractLsb' 64 4,
        value := f.extractLsb' 32 32, notices := noticesOfByte (f.extractLsb' 16 8) } := if_pos h

/-! ## The count handed over (R30, R58) -/

theorem slotOfNumber_none {n : Nat} (h : n = 0 ∨ 8 < n) : slotOfNumber n = none := dif_neg (by omega)

theorem slotOfNumber_some {n : Nat} {st : StationId} (h : n = st.val + 1) : slotOfNumber n = some st := by
  subst h
  exact dif_pos ⟨Nat.le_add_left _ _, st.isLt⟩

/-! ## The check values (R182) -/

theorem crc16_check : crc16 [0x31, 0x32, 0x33, 0x34, 0x35, 0x36, 0x37, 0x38, 0x39] = 0x29B1#16 := by decide +kernel

theorem crc32_check : crc32 [0x31, 0x32, 0x33, 0x34, 0x35, 0x36, 0x37, 0x38, 0x39] = 0xFC891918#32 := by decide +kernel

/-- Settles O32: each frame by its fields, and the two codes by their check values. -/
theorem requestFrameLayoutAndCheckCodes : Obligations.RequestFrameLayoutAndCheckCodes := by
  refine ⟨fun r => ?_, rfl, fun f => ?_, rfl, fun s rep => ⟨fun h => ?_, fun st h => ?_⟩, fun f => rfl, fun f => rfl,
    fun station tag code => ?_, crc16_check, crc32_check⟩
  · obtain ⟨-, hzero, hstation, hkind, htag, harg, hcount⟩ := extractLsb'_requestBody (BitVec.ofBool r.retryFlag) 0#3
      r.station (requestCode r.kind) (tagBits r.tag) r.argument r.count
    exact ⟨r.retryFlag_frame, (r.extractLsb'_frame 60 3).trans hzero, (r.extractLsb'_frame 56 4).trans hstation,
      (r.extractLsb'_frame 52 4).trans hkind, (r.extractLsb'_frame 48 4).trans htag,
      (r.extractLsb'_frame 16 32).trans harg, (r.extractLsb'_frame 0 16).trans hcount, r.frame_check⟩
  · intro byte good
    refine ⟨fun h => parseReply_bad h, fun h => ⟨_, parseReply_good h, ?_, ?_, ?_, ?_, ?_, ?_, noticesOfByte_le _⟩⟩
    · exact ((BitVec.getLsbD_extractLsb' 72 8 f 7).trans (Bool.true_and _)).symm
    · exact (extractLsb'_extractLsb' f (start := 72) (show 0 + 4 ≤ 8 by decide)).symm
    · have houtcome : (byte 1).extractLsb' 4 4 = f.extractLsb' 68 4 :=
        extractLsb'_extractLsb' f (start := 64) (show 4 + 4 ≤ 8 by decide)
      rw [houtcome]
      exact outcomeOfCode_eq _ _
    · exact (extractLsb'_extractLsb' f (start := 64) (show 0 + 4 ≤ 8 by decide)).symm
    · exact (reply_value f).symm
    · exact fun hn => noticesOfByte_of_le hn
  · unfold State.handCount; rw [slotOfNumber_none h]
  · unfold State.handCount; rw [slotOfNumber_some h]
    rfl
  · cases code <;> rfl

end Sys2Proof.Machine
end

section
/-! The three steps of admission (O24): the fields of a work request, what its kind codes name, and the judgement. -/
namespace Sys2Proof.Machine

/-! ## The fields of a work request (R148, R179) -/

/-- R179: a descriptor that lies from byte `k` of a work request on. -/
theorem parseDescriptor_extractLsb' (w : BitVec 512) (k : Nat) :
    parseDescriptor (w.extractLsb' (8 * k) 128) =
      { addr := w.extractLsb' (8 * k) 64, len := (w.extractLsb' (8 * (k + 8)) 32).toNat,
        last := w.getLsbD (8 * (k + 12)), chain := w.getLsbD (8 * (k + 12) + 1) } := by
  have bit : ∀ i, i < 128 → (w.extractLsb' (8 * k) 128).getLsbD i = w.getLsbD (8 * k + i) := fun i hi => by
    rw [BitVec.getLsbD_extractLsb', decide_eq_true hi, Bool.true_and]
  unfold parseDescriptor
  rw [extractLsb'_extractLsb' w (by decide), extractLsb'_extractLsb' w (by decide), bit 96 (by decide),
    bit 97 (by decide), Nat.mul_add, Nat.mul_add]
  rfl

theorem Wr.d0_eq (w : BitVec 512) :
    Wr.d0 w = { addr := w.extractLsb' (8 * 32) 64, len := (w.extractLsb' (8 * 40) 32).toNat,
                last := w.getLsbD (8 * 44), chain := w.getLsbD (8 * 44 + 1) } :=
  parseDescriptor_extractLsb' w 32

theorem Wr.d1_eq (w : BitVec 512) :
    Wr.d1 w = { addr := w.extractLsb' (8 * 48) 64, len := (w.extractLsb' (8 * 56) 32).toNat,
                last := w.getLsbD (8 * 60), chain := w.getLsbD (8 * 60 + 1) } :=
  parseDescriptor_extractLsb' w 48

/-- R148: the second descriptor counts unless the first is LAST. -/
theorem Wr.inlineTotal_eq (w : BitVec 512) :
    Wr.inlineTotal w = if (Wr.d0 w).last = true then (Wr.d0 w).len else (Wr.d0 w).len + (Wr.d1 w).len := by
  unfold Wr.inlineTotal; split <;> rfl

theorem Wr.kind_none {w : BitVec 512} (h : Wr.kindByte w = 0 ∨ 9 < Wr.kindByte w) : Wr.kind w = none := by
  unfold Wr.kind
  rcases h with h | h
  · rw [h]; rfl
  · obtain ⟨n, hn⟩ := Nat.exists_eq_add_of_le' h
    rw [hn]; rfl

/-! ## The pending block exponent (R52) -/

theorem Station.pendingExp_configured {b : Station} {l : List PendingConfig} {c : PendingConfig}
    (h : b.pendingConfigs = l ++ [c]) : b.pendingExp = c.blockExp := by
  unfold Station.pendingExp; rw [h, List.getLast?_concat]

theorem Station.pendingExp_current {b : Station} {l e : Nat} (h : b.pendingConfigs = [])
    (hs : b.settings = some (l, e)) : b.pendingExp = e := by
  unfold Station.pendingExp; rw [h, hs]; rfl

/-! ## The judgement (R147, R148, R149) -/

/-- R148: what the first step asks of a link work request that names a slot. -/
def State.FirstStep (s : State) (k : ExKind) (w : BitVec 512) : Prop :=
  match k with
  | .readBlocks | .writeBlocks => 1 ≤ (Wr.count w).toNat ∧ (Wr.count w).toNat ≤ 4096
  | .control => (Wr.count w).toNat ≤ 255
  | .configureStation => (Wr.lanes w = 1 ∨ Wr.lanes w = 2 ∨ Wr.lanes w = 4) ∧ Wr.lanes w ≤ Cfg.laneLimit s.cfg
      ∧ 6 ≤ Wr.blockExp w ∧ Wr.blockExp w ≤ 11
  | .identifyStation => Wr.list w = true ∨ 16 ≤ Wr.inlineTotal w
  | .query | .resetStation => True

theorem State.linkWellFormed_iff {s : State} {k : ExKind} {w : BitVec 512} {st : StationId}
    (h : slotOfNumber (Wr.stationByte w) = some st) : s.linkWellFormed k w = true ↔ s.FirstStep k w := by
  unfold State.linkWellFormed State.FirstStep
  rw [h, Option.isSome_some, Bool.true_and]
  cases k with
  | readBlocks | writeBlocks | control => exact decide_eq_true_iff
  | configureStation =>
    simp only [Bool.and_eq_true, Bool.or_eq_true, beq_iff_eq, decide_eq_true_eq, or_assoc, and_assoc]
  | identifyStation => rw [Bool.or_eq_true, decide_eq_true_eq]
  | query | resetStation => exact iff_of_true rfl trivial

/-- R149: the states in which a station takes a kind. -/
def State.SecondStep (s : State) (k : ExKind) (st : StationId) : Prop :=
  (s.station st).state = .ready
    ∨ ((k = .identifyStation ∨ k = .resetStation) ∧ (s.station st).state = .faulted)

theorem State.stationTakes_iff (s : State) (k : ExKind) (st : StationId) :
    s.stationTakes k st = true ↔ s.SecondStep k st := by
  unfold State.stationTakes State.SecondStep
  cases k with
  | readBlocks | writeBlocks | query | control | configureStation =>
    simp only [State.isReady_iff, reduceCtorEq, or_self, false_and, or_false]
  | identifyStation | resetStation =>
    simp only [State.readyOrFaulted_iff, reduceCtorEq, or_true, true_or, true_and]

/-- R149: what the third step asks against the station record. -/
def State.ThirdStep (s : State) (k : ExKind) (st : StationId) (w : BitVec 512) : Prop :=
  match k with
  | .configureStation => ∃ p, (s.station st).profile = some p ∧ Wr.lanes w ≤ Profile.maxLanes p
      ∧ Wr.blockExp w ≤ Profile.maxExp p
  | .readBlocks | .writeBlocks =>
    Wr.list w = true ∨ Wr.inlineTotal w = (Wr.count w).toNat * 2 ^ (s.station st).pendingExp
  | .query | .control | .identifyStation | .resetStation => True

theorem State.stationAgrees_iff (s : State) (k : ExKind) (st : StationId) (w : BitVec 512) :
    s.stationAgrees k st w = true ↔ s.ThirdStep k st w := by
  unfold State.stationAgrees State.ThirdStep
  cases k with
  | configureStation =>
    cases hp : (s.station st).profile with
    | none => simp
    | some p => simp
  | readBlocks | writeBlocks => rw [Bool.or_eq_true, beq_iff_eq]
  | query | control | identifyStation | resetStation => exact iff_of_true rfl trivial

theorem State.judge_none {s : State} {w : BitVec 512} (h : Wr.kind w = none) :
    s.judge w = .immediate .malformed := by
  unfold State.judge; rw [h]

theorem State.judge_nop {s : State} {w : BitVec 512} (h : Wr.kind w = some .nop) :
    s.judge w = .immediate .success := by
  unfold State.judge; rw [h]

theorem State.judge_cancel {s : State} {w : BitVec 512} {r : RingId} (h : Wr.kind w = some .cancel)
    (hr : ringOfNumber (Wr.targetRing w) = some r) : s.judge w = .cancel r (Wr.targetId w) := by
  unfold State.judge; rw [h]; dsimp only; rw [hr]

theorem State.judge_noRing {s : State} {w : BitVec 512} (h : Wr.kind w = some .cancel)
    (hr : ringOfNumber (Wr.targetRing w) = none) : s.judge w = .immediate .malformed := by
  unfold State.judge; rw [h]; dsimp only; rw [hr]

theorem State.judge_noSlot {s : State} {w : BitVec 512} {k : ExKind} (h : Wr.kind w = some (.link k))
    (hslot : slotOfNumber (Wr.stationByte w) = none) : s.judge w = .immediate .malformed := by
  unfold State.judge; rw [h]; dsimp only; rw [hslot]; exact ite_self _

open Classical in
/-- R148, R149: the three steps in their order. -/
theorem State.judge_link {s : State} {w : BitVec 512} {k : ExKind} {st : StationId} (h : Wr.kind w = some (.link k))
    (hslot : slotOfNumber (Wr.stationByte w) = some st) :
    s.judge w =
      if s.FirstStep k w then
        if s.SecondStep k st then
          if s.ThirdStep k st w then .exchange k st else .immediate .malformed
        else .immediate .stationAbsent
      else .immediate .malformed := by
  unfold State.judge
  rw [h]; dsimp only; rw [hslot]
  simp only [State.linkWellFormed_iff hslot, State.stationTakes_iff, State.stationAgrees_iff]

/-- Settles O24: the fields where R179 puts them, and the judgement by kind, station byte and the three steps. -/
theorem admissionChecksInThreeSteps : Obligations.AdmissionChecksInThreeSteps := by
  refine ⟨fun w => ?_,
    fun b => ⟨fun c l h => b.pendingExp_configured h, fun l e h hs => b.pendingExp_current h hs⟩,
    fun s w => ⟨fun h => s.judge_none (Wr.kind_none h), fun h => ?_, fun h hr => ?_, fun r h hr => ?_,
      fun k hk => ⟨fun h => s.judge_noSlot hk (slotOfNumber_none h), fun st hst => ?_⟩⟩⟩
  · intro field
    rw [Wr.inlineTotal_eq, Wr.d0_eq, Wr.d1_eq]
    exact ⟨rfl, rfl, rfl, rfl, rfl, rfl, rfl, rfl, rfl, rfl, rfl, rfl, rfl, rfl, rfl, rfl, rfl, rfl, rfl, rfl, rfl⟩
  · exact s.judge_nop (by unfold Wr.kind; rw [h]; rfl)
  · exact s.judge_noRing (by unfold Wr.kind; rw [h]; rfl) (dif_neg (by omega))
  · exact s.judge_cancel (by unfold Wr.kind; rw [h]; rfl) (by rw [hr]; exact dif_pos r.isLt)
  · have hjudge := s.judge_link hk (slotOfNumber_some hst)
    exact ⟨fun h1 => hjudge.trans (if_neg h1), fun h1 h2 => hjudge.trans ((if_pos h1).trans (if_neg h2)),
      fun h1 h2 h3 => hjudge.trans ((if_pos h1).trans ((if_pos h2).trans (if_neg h3))),
      fun h1 h2 h3 => hjudge.trans ((if_pos h1).trans ((if_pos h2).trans (if_pos h3)))⟩

end Sys2Proof.Machine
end

section
/-! Presence and the timers (O48, O49): a stable level settles a station or takes it away, with the requests addressed
to it, and what each timer brings when it runs out. -/
namespace Sys2Proof.Machine

/-! ## The requests addressed to a station that leaves (R49, R74, R119, R127) -/

theorem Request.isFor_iff (st : StationId) (r : Request) :
    r.isFor st = true ↔ r.station = BitVec.ofNat 4 (st.val + 1) ∧ r.detached = false := by
  unfold Request.isFor slotNumber
  rw [Bool.and_eq_true, beq_iff_eq, Bool.not_eq_true']

theorem Request.isFetch_iff (r : Request) : r.isFetch = true ↔ ∃ u, r.owner = .fetchNotice u := by
  unfold Request.isFetch
  cases r.owner <;> simp

/-- A request on the command lane, current or set aside, that is addressed to station `st` and of which `p` tells. -/
def State.OnLane (s : State) (st : StationId) (p : Owner → Prop) : Prop :=
  ∃ r, (s.current = some r ∨ s.setAside = some r) ∧
    (r.station = BitVec.ofNat 4 (st.val + 1) ∧ r.detached = false) ∧ p r.owner

theorem State.onLane_iff (s : State) (st : StationId) {p : Request → Bool} {q : Owner → Prop}
    (h : ∀ r, p r = true ↔ q r.owner) :
    (s.current.toList ++ s.setAside.toList).any (fun r => r.isFor st && p r) = true ↔ s.OnLane st q := by
  simp only [State.OnLane, List.any_eq_true, List.mem_append, Option.mem_toList, Bool.and_eq_true,
    Request.isFor_iff, h]

/-- R74: a request that is not to be detached stays as it is, and an empty place stays empty. -/
theorem bind_unpicked {o : Option Request} {p : Request → Bool} {g : Request → Option Request}
    (h : ∀ r, o = some r → p r = false) : (o.bind fun r => if p r then g r else some r) = o := by
  cases o with
  | none => rfl
  | some r => simp [h r rfl]

section
variable (s : State) (st : StationId)

theorem State.detachStation_current_for {r : Request} (h : s.current = some r) (hr : r.isFor st = true) :
    (s.detachStation st).current = r.afterDetach := by
  change s.current.bind _ = _
  rw [h, Option.bind_some, if_pos hr, Request.detach_eq]

theorem State.detachStation_current_other (h : ∀ r, s.current = some r → r.isFor st = false) :
    (s.detachStation st).current = s.current := bind_unpicked h

theorem State.detachStation_setAside_for {r : Request} (h : s.setAside = some r) (hr : r.isFor st = true) :
    (s.detachStation st).setAside = none := by
  change s.setAside.bind _ = _
  rw [h, Option.bind_some, if_pos hr]

theorem State.detachStation_setAside_other (h : ∀ r, s.setAside = some r → r.isFor st = false) :
    (s.detachStation st).setAside = s.setAside := bind_unpicked h

open Classical in
/-- R119: the fetch reservation goes with a detached FETCH_NOTICE. -/
theorem State.detachStation_reservation : (s.detachStation st).reservation =
    if s.OnLane st (fun o => ∃ u, o = .fetchNotice u) then false else s.reservation := by
  simp only [← s.onLane_iff st (p := Request.isFetch) (q := fun o => ∃ u, o = .fetchNotice u) Request.isFetch_iff]
  rfl

open Classical in
/-- R127: the stray pair at the head goes with a detached stray WITHDRAW. -/
theorem State.detachStation_stray : (s.detachStation st).stray =
    if s.OnLane st (· = .strayWithdraw) then s.stray.tail else s.stray := by
  simp only [← s.onLane_iff st (p := fun r => r.owner == .strayWithdraw) (q := (· = .strayWithdraw))
    (fun r => beq_iff_eq)]
  rfl

end

/-! ## Presence (R47, R48, R49) -/

theorem Station.levelChanges_iff (b : Station) (present : Bool) :
    b.levelChanges present = true ↔ b.level = some (!present) := beq_iff_eq

/-- R47: a level that differs from the last one read. -/
theorem exec_presenceChange_new {s : State} {st : StationId} {b : Bool} (hl : s.live = true)
    (h : (s.station st).level = some (!b)) :
    exec (.presenceChange st b) s = .next (s.modStation st fun r => { r with level := some b, debounce := some 0 }) :=
  congrArg Host.Outcome.next (if_pos (by rw [hl, (Station.levelChanges_iff _ b).2 h]; rfl))

theorem exec_presenceChange_same {s : State} {st : StationId} {b : Bool} (h : (s.station st).level = some b) :
    exec (.presenceChange st b) s = .next s := by
  refine congrArg Host.Outcome.next (if_neg fun hc => ?_)
  have hnew := (Station.levelChanges_iff _ b).1 (Bool.and_eq_true _ _ ▸ hc).2
  rw [h] at hnew
  cases b <;> cases hnew

/-- R47: the debounce timer of station `st` has reached 10 ms. -/
def State.debounced (s : State) (st : StationId) : State :=
  { s with stations := s.stations.set st { s.station st with debounce := some 10000000 } }

theorem exec_presenceStable {s : State} {st : StationId} {d : Nat} (hl : s.live = true)
    (hd : (s.station st).debounce = some d) (h : d < 10000000) :
    exec (.presenceStable st) s = .next (s.stableLevel st) := by
  have hrun : (s.station st).debouncing = true := by
    unfold Station.debouncing; rw [hd]; exact decide_eq_true h
  exact congrArg Host.Outcome.next (if_pos (by rw [hl, hrun]; rfl))

/-- R48: an EMPTY station whose slot reads present. -/
theorem State.stableLevel_settles {s : State} {st : StationId} (hlevel : (s.station st).level = some true)
    (hstate : (s.station st).state = .empty) : s.stableLevel st = (s.debounced st).modStation st Station.settles := by
  unfold State.stableLevel; rw [hlevel, hstate]; rfl

/-- R47: a level that agrees with the state of the station. -/
theorem State.stableLevel_keeps {s : State} {st : StationId}
    (h : (s.station st).level = some true ∧ (s.station st).state ≠ .empty ∨
      (s.station st).level = some false ∧ (s.station st).state = .empty) : s.stableLevel st = s.debounced st := by
  unfold State.stableLevel
  rcases h with ⟨hlevel, hstate⟩ | ⟨hlevel, hstate⟩
  · rw [hlevel]
    cases hs : (s.station st).state with
    | empty => exact absurd hs hstate
    | settling | identifying | ready | resetting | faulted => rfl
  · rw [hlevel, hstate]; rfl

/-- R49: a station whose slot reads absent. -/
theorem State.stableLevel_leaves {s : State} {st : StationId} (hlevel : (s.station st).level = some false)
    (hstate : (s.station st).state ≠ .empty) : s.stableLevel st = (s.debounced st).stationLeaves st := by
  unfold State.stableLevel
  rw [hlevel]
  cases hs : (s.station st).state with
  | empty => exact absurd hs hstate
  | settling | identifying | ready | resetting | faulted => rfl

/-- What a stable level writes beside the debounce timer is one write of the station record with it. -/
theorem State.modStation_debounced (s : State) (st : StationId) (f : Station → Station) :
    (s.debounced st).modStation st f =
      { s with stations := s.stations.set st (f { s.station st with debounce := some 10000000 }) } := by
  have hst : (s.debounced st).station st = { s.station st with debounce := some 10000000 } :=
    s.station_modStation_self st (fun r => { r with debounce := some 10000000 })
  unfold State.modStation
  rw [hst]
  exact congrArg (fun v => ({ s with stations := v } : State)) (Vector.set_set ..)

/-- Settles O48: the level against the state of the station decides; a station that leaves loses its exchanges, then the
requests addressed to it. -/
theorem presenceDecidesAStation : Obligations.PresenceDecidesAStation := by
  refine fun s st hl => ⟨fun b h => exec_presenceChange_new hl h, fun b h => exec_presenceChange_same h,
    fun d hd h10 => ?_⟩
  have hexec := exec_presenceStable hl hd h10
  refine ⟨fun hlevel hstate => ?_, fun h => ?_, fun hlevel hstate => ?_⟩
  · rw [hexec, State.stableLevel_settles hlevel hstate, State.modStation_debounced]; rfl
  · rw [hexec, State.stableLevel_keeps h]; rfl
  · have hlost := (s.debounced st).loseStation_lost st
    rw [State.stableLevel_leaves hlevel hstate, State.stationLeaves] at hexec
    generalize (s.debounced st).loseStation st = m at hexec hlost
    have other : ∀ {r : Request}, ¬ (r.station = BitVec.ofNat 4 (st.val + 1) ∧ r.detached = false) →
        r.isFor st = false := fun {r} h => Bool.eq_false_iff.2 (mt (r.isFor_iff st).1 h)
    exact ⟨m, _, hexec, hlost, rfl,
      fun r h hr => m.detachStation_current_for st h ((r.isFor_iff st).2 hr),
      fun h => m.detachStation_current_other st fun r hr => other (h r hr),
      fun r h hr => m.detachStation_setAside_for st h ((r.isFor_iff st).2 hr),
      fun h => m.detachStation_setAside_other st fun r hr => other (h r hr),
      fun h => (m.detachStation_reservation st).trans (if_pos h),
      fun h => (m.detachStation_reservation st).trans (if_neg h),
      fun h => (m.detachStation_stray st).trans (if_pos h),
      fun h => (m.detachStation_stray st).trans (if_neg h), rfl⟩

/-! ## Timers that run out (R48, R54, R57, R78, R101, R118, R164) -/

section
variable {s : State} (hl : s.live = true)
include hl

theorem State.settleRuns_of {st : StationId} {n : Nat} (hn : (s.station st).settle = some n)
    (h : ((s.station st).state = .settling ∧ s.linkReset = none) ∨ (s.station st).state = .resetting) :
    s.settleRuns st = true := by
  unfold State.settleRuns
  rw [hl, hn]
  rcases h with ⟨hst, hr⟩ | hst
  · rw [hst, hr]; rfl
  · rw [hst]; rfl

theorem State.deferralRuns_of {x : Tag} {e : Exchange} (hx : s.exch x = some e) (he : e.state = .deferred) :
    s.deferralRuns x = true := by
  unfold State.deferralRuns; rw [hl, hx]; dsimp only; rw [he]; rfl

theorem State.delayRuns_of {r : RingId} {c : CRing} {n : Nat} (hc : s.cring r = some c) (hn : c.delayTimer = some n) :
    s.delayRuns r = some c := by
  unfold State.delayRuns; rw [hc]; dsimp only; rw [hl, hn]; rfl

end

/-- R118, R126: the deferral limit takes a DEFERRED exchange to WITHDRAWING, its cause recorded. -/
theorem State.deferralOver_eq {s : State} {x : Tag} {e : Exchange} (hx : s.exch x = some e) (he : e.state = .deferred) :
    (s.recordCause x .deferralTimeout 0).enterWithdrawing x = { s.clearSaturation e.station with
      table := s.table.set x (some { e with state := .withdrawing, deferral := none,
                                            final := e.finalAfter .deferralTimeout 0 }),
      reconnect := s.reconnect.filter (· != x) } := by
  rw [State.recordCause_eq hx]
  exact State.setExch_enterWithdrawing rfl (by rw [show _ = e.state from rfl, he]; rfl)

/-- Settles O49: each timer runs, and its report is one update. -/
theorem expiredTimersTakeEffect : Obligations.ExpiredTimersTakeEffect := by
  refine fun s hl => ⟨fun st n hn h => ?_, fun st n hn => ?_, fun x e hx he => ?_, fun n hn => ?_, fun n _ => ?_,
    fun r c n hc hn => ?_⟩
  · exact congrArg Host.Outcome.next (if_pos (State.settleRuns_of hl hn h))
  · exact congrArg Host.Outcome.next (if_pos (by rw [hl, hn]; rfl))
  · exact congrArg Host.Outcome.next ((if_pos (State.deferralRuns_of hl hx he)).trans (State.deferralOver_eq hx he))
  · exact congrArg Host.Outcome.next (if_pos (by rw [hl, hn]; rfl))
  · exact congrArg Host.Outcome.next (if_pos hl)
  · change Host.Outcome.next (match s.delayRuns r with | some c => _ | none => _) = _
    rw [State.delayRuns_of hl hc hn]
    rfl

end Sys2Proof.Machine
end

section
/-! The HALT of the command lane engine (O29), and the request that waits to be sent again (O33). -/
namespace Sys2Proof.Machine

/-! ## HALT, and a write payload (R64, R65, R66, R100) -/

theorem State.haltCandidate_some {s : State} {x : Tag} (h : Lowest s.HaltDue x) : s.haltCandidate = some (.halt x) := by
  unfold State.haltCandidate
  refine congrArg (Option.map Candidate.halt) (find?_lowest (allTags_split x) (fun y => ?_) h)
  unfold State.HaltDue
  cases s.exch y with
  | none => simp
  | some e => simp [State.isReady_iff, ← State.cutPending_iff, and_assoc]

/-- R64, R65: a HALT is chosen whether a write payload runs or not. -/
theorem State.choose_halt {s : State} {x : Tag} (h : Lowest s.HaltDue x) : s.choose = (s, some (.halt x)) := by
  unfold State.choose
  rw [State.haltCandidate_some h]

/-- R65: a write payload keeps every other candidate back. -/
theorem State.choose_write {s : State} (hhalt : ∀ x, ¬ s.HaltDue x) (hw : s.WriteRuns) : s.choose = (s, none) := by
  unfold State.choose
  rw [State.haltCandidate_none hhalt]
  exact if_pos (s.writeRunning_iff.2 hw)

/-- Settles O29: the HALT candidate is looked at before the write payload is. -/
theorem haltIsChosenFirst : Obligations.HaltIsChosenFirst := by
  refine fun s hch => ⟨fun x e hlow hx => ?_, fun hw hhalt => ?_⟩
  · exact (exec_chooseRequest hch (State.choose_halt hlow)).trans (congrArg Host.Outcome.next (State.beginFor_eq hx _))
  · rw [hch.exec]
    unfold State.chooseAndBegin
    rw [State.choose_write hhalt hw]

/-! ## A request begun again (R62, R70, R72, R75) -/

/-- R72, R75: where the lane takes a request, RESEND_REQUEST begins the one that waits. -/
theorem exec_resendRequest {s : State} {r : Request} (hl : s.live = true) (hlr : s.linkReset = none)
    (hcl : s.cl = .idle ∨ s.cl = .hold) (hc : s.current = some r) (hp : r.phase = .toSend) :
    exec .resendRequest s = .next (if r.abandoned then s.beginAbandoned r else s.beginFrame r) := by
  have hmay : s.mayBegin = true := by
    unfold State.mayBegin State.laneOpen
    rw [hl, hlr]
    rcases hcl with h | h <;> rw [h] <;> rfl
  change Host.Outcome.next s.resendStep = _
  unfold State.resendStep
  rw [if_pos hmay, hc]
  unfold State.beginCurrent
  exact congrArg Host.Outcome.next (if_pos hp)

section
variable {s : State} {r : Request}

theorem State.beginAbandoned_poll (hk : r.kind = .poll) : s.beginAbandoned r = s.beginPoll r := if_pos hk

theorem State.beginAbandoned_yields (hk : r.kind ≠ .poll) (ha : s.attention = true) (hw : ¬ s.WriteRuns) :
    s.beginAbandoned r = ({ s with setAside := some r } : State).beginPoll Request.poll :=
  (if_neg hk).trans (if_pos ⟨ha, mt s.writeRunning_iff.1 hw⟩)

theorem State.beginAbandoned_again (hk : r.kind ≠ .poll) (h : s.attention = false ∨ s.WriteRuns) :
    s.beginAbandoned r = s.beginFrame r := by
  refine (if_neg hk).trans (if_neg ?_)
  rintro ⟨ha, hnw⟩
  rcases h with hno | hw
  · rw [hno] at ha; cases ha
  · exact hnw (s.writeRunning_iff.2 hw)

end

/-- Settles O33: whether the request was abandoned decides, and then whether it is a POLL or yields to one. -/
theorem requestIsBegunAgain : Obligations.RequestIsBegunAgain := by
  intro s r hl hlr hcl hc hp r' polls
  have hexec := exec_resendRequest hl hlr hcl hc hp
  refine ⟨fun h => ?_, fun hab hk hatt hw => ?_, fun hab hk => ?_⟩
  · have hbegin : (if r.abandoned then s.beginAbandoned r else s.beginFrame r) = s.beginFrame r := by
      rcases h with hab | ⟨hk, hstay⟩
      · exact if_neg (Bool.eq_false_iff.1 hab)
      · rw [State.beginAbandoned_again hk hstay, ite_self]
    exact hexec.trans (congrArg Host.Outcome.next hbegin)
  · rw [hexec, if_pos hab, State.beginAbandoned_yields hk hatt hw]
    rfl
  · rw [hexec, if_pos hab, State.beginAbandoned_poll hk]
    rfl

end Sys2Proof.Machine
end

section
/-! The request that gets no other attempt (O42): that of a marked exchange, and a detached one. -/
namespace Sys2Proof.Machine

/-! ## An expired window (R33, R134) -/

theorem exec_replyWindowExpired {s : State} {r : Request} {n : Nat} (hl : s.live = true) (hc : s.current = some r)
    (hcl : s.cl = .window n) (hp : r.phase = .awaiting) :
    exec .replyWindowExpired s = .next (s.quietGap.windowOver r) := by
  have hopen : s.openWindow = some r := by unfold State.openWindow; rw [hc, hcl]; simp [hl, hp]
  change Host.Outcome.next (match s.openWindow with | some r => s.quietGap.windowOver r | none => s) = _
  rw [hopen]

theorem State.markedOwner_marked {s : State} {r : Request} {x : Tag} {e : Exchange} (ho : r.owner = .exchange x)
    (hx : s.exch x = some e) (hm : e.cancelMark = true) (hs : e.state = .issuing ∨ e.state = .resuming) :
    s.markedOwner r = some x := by
  unfold State.markedOwner
  rw [ho]; dsimp only
  rw [hx]
  exact if_pos ⟨hm, hs⟩

/-- R134: the window of a marked exchange's own request ends the exchange. -/
theorem State.windowOver_marked {s : State} {r : Request} {x : Tag} (hd : r.detached = false)
    (hm : s.markedOwner r = some x) : s.windowOver r = ({ s with current := none } : State).complete x := by
  unfold State.windowOver
  rw [if_neg (by rw [hd]; decide), hm]

/-! ## A detached request (R74) -/

section
variable {s : State} {r : Request} (hd : r.detached = true)
include hd

theorem State.retryOrExhaust_detached (k : FailKind) : s.retryOrExhaust r k = { s with current := none } := if_pos hd

theorem State.windowOver_detached : s.windowOver r = { s with current := none } := if_pos hd

theorem State.deliver_detached (o : ReplyOutcome) (v : Word) : s.deliver r o v = { s with current := none } := if_pos hd

end

/-- R31, R71: a reply with a bad check is a failed attempt, but to IDENTIFY. -/
theorem State.takeReply_bad {s : State} {r : Request} (hi : r.kind ≠ .identify) :
    s.takeReply r none = s.beginGap.retryOrExhaust r .check := if_neg hi

/-- R71: so is a good one of another station or tag, but for the DONE that opens a profile interval. -/
theorem State.takeReply_other {s : State} {r : Request} {rep : Reply} (hi : r.kind ≠ .identify ∨ rep.outcome ≠ .done)
    (hne : rep.station ≠ r.station ∨ rep.tag ≠ tagBits r.tag) :
    s.takeReply r (some rep) = (s.handCount rep).beginGap.retryOrExhaust r .window := by
  have hmatch : ¬ r.matches rep = true := by
    unfold Request.matches; simp only [Bool.and_eq_true, beq_iff_eq, not_and_or]; exact hne
  unfold State.takeReply
  dsimp only
  rw [if_neg (fun hh => hi.elim (fun h => h hh.1) (fun h => h hh.2)), if_neg hmatch]

theorem exec_profileReceived_interval {s : State} {r : Request} {use : ProfileUse} (hl : s.live = true)
    (hc : s.current = some r) (hcl : s.cl = .profile use) (f : BitVec 144) :
    exec (.profileReceived f) s = .next ((s.hear 0 f).takeProfile r use f) := by
  change Host.Outcome.next (s.profileStep f) = _
  unfold State.profileStep State.profileInterval
  rw [hc, hcl]
  exact congrArg Host.Outcome.next (if_pos hl)

/-- R72, R74: whichever way the attempt of a detached request fails, the request is absent and no owner is told. -/
theorem exec_detached_attempt {s m : State} {r : Request} {c : Instr} {k : FailKind}
    (h : s.AttemptFails r c k m) (hl : s.live = true) (hc : s.current = some r) (hd : r.detached = true) :
    exec c s = .next { m with current := none } := by
  cases h with
  | window n hcl hp _ =>
    rw [exec_replyWindowExpired hl hc hcl hp, State.windowOver_detached hd]
    rfl
  | badReply f hcl hp hk hi hb =>
    rw [exec_replyReceived hl (State.awaited_eq hc hk hp hcl), hb, State.takeReply_bad hi,
      State.retryOrExhaust_detached hd]
    rfl
  | otherReply f rep hcl hp hk hi hg hne =>
    rw [exec_replyReceived hl (State.awaited_eq hc hk hp hcl), hg, State.takeReply_other hi hne,
      State.retryOrExhaust_detached hd, State.handCount_hear]
    rfl
  | token _ hs hcl hp hk hi =>
    obtain ⟨⟨f, tok⟩, htok⟩ := Option.isSome_iff_exists.1 hs
    rw [exec_token htok]
    unfold State.tokenReceived
    rw [if_pos hl, State.awaited_eq hc hk hp hcl]
    dsimp only
    rw [State.takeReply_bad hi, State.retryOrExhaust_detached hd]
    rfl
  | badProfile f hcl hb =>
    rw [exec_profileReceived_interval hl hc hcl]
    unfold State.takeProfile
    rw [hb]
    exact congrArg Host.Outcome.next (State.retryOrExhaust_detached hd _)
  | discarded f k hcl =>
    rw [exec_profileReceived_interval hl hc hcl]
    exact congrArg Host.Outcome.next (State.retryOrExhaust_detached hd _)

/-- Settles O42: the mark ends the exchange with its recorded cause; a detached request leaves its attempt's state alone. -/
theorem markedOrDetachedRequestIsNotResent : Obligations.MarkedOrDetachedRequestIsNotResent := by
  refine fun s r hl hc => ⟨fun n x e st v hcl hp hd ho hx hm hs hf => ?_, fun c k m hd h => ?_, fun f rep hd h hi => ?_⟩
  · have hmark : s.quietGap.markedOwner r = some x := State.markedOwner_marked ho hx hm hs
    rw [exec_replyWindowExpired hl hc hcl hp, State.windowOver_marked hd hmark]
    exact ⟨_, rfl, State.complete_ended (s := { s.quietGap with current := none }) hx (by rw [hf]; rfl) st v⟩
  · exact exec_detached_attempt h hl hc hd
  · rw [h.deliver hi, State.deliver_detached hd]
    rfl

end Sys2Proof.Machine
end

section
/-! Staging without an owner (O10): outside the link side a command either leaves the payload lanes, the payload job and
the staging slots as they are, clears them with the rest of the part, or ends exchanges by the link side's operations. -/
namespace Sys2Proof.Machine

/-! ## What leaves the lanes alone -/

/-- The lanes' owner, the payload job and the staging slots are the same in `s` and `t`. -/
structure SameLanes (s t : State) : Prop where
  payload : t.payload = s.payload
  job : t.job = s.job
  staging : t.staging = s.staging

theorem SameLanes.trans {s t u : State} (a : SameLanes s t) (b : SameLanes t u) : SameLanes s u :=
  ⟨b.payload.trans a.payload, b.job.trans a.job, b.staging.trans a.staging⟩

theorem SameLanes.of_outer {s t : State} (h : Outer s t) : SameLanes s t := ⟨h.payload, h.job, h.staging⟩

theorem SameLanes.ok {s t : State} (h : SameLanes s t) (hs : s.StagingOk) : t.StagingOk := by
  unfold State.StagingOk at *
  rw [h.payload, h.job, h.staging]
  exact hs

theorem Ticked.stagingOk {s t : State} (h : Ticked s t) (hs : s.StagingOk) : t.StagingOk := by
  unfold State.StagingOk at *
  rw [h.owned, h.job, h.staging]
  exact hs

/-! ## Rings and the poster (R143 to R145, R157 to R164) -/

theorem SameLanes.faultRing (s : State) (r : RingId) (c : RingCause) : SameLanes s (s.faultRing r c) :=
  .of_outer (s.faultRing_outer r c).1

theorem SameLanes.takePost (s : State) (v : Word) : SameLanes s (s.takePost v) := by
  unfold State.takePost
  split
  · split
    · split
      · exact ⟨rfl, rfl, rfl⟩
      · exact .faultRing _ _ _
    · exact ⟨rfl, rfl, rfl⟩
  · exact ⟨rfl, rfl, rfl⟩

theorem SameLanes.takeRelease (s : State) (v : Word) : SameLanes s (s.takeRelease v) := by
  unfold State.takeRelease
  split
  · split
    · dsimp only
      split <;> exact ⟨rfl, rfl, rfl⟩
    · exact ⟨rfl, rfl, rfl⟩
  · exact ⟨rfl, rfl, rfl⟩

theorem SameLanes.beginFetch (s : State) (r : RingId) : SameLanes s (s.beginFetch r) := by
  unfold State.beginFetch; split <;> exact ⟨rfl, rfl, rfl⟩

theorem SameLanes.fetchDone (s : State) (id : Nat) (w : BitVec 512) : SameLanes s (s.fetchDone id w) := by
  unfold State.fetchDone; split <;> exact ⟨rfl, rfl, rfl⟩

theorem SameLanes.fetchFaulted (s : State) (id : Nat) : SameLanes s (s.fetchFaulted id) := by
  unfold State.fetchFaulted
  split
  next r _ _ =>
    have hend : SameLanes s ((s.endAccess id).modSubRing r (fun x => { x with holding := .empty })) := ⟨rfl, rfl, rfl⟩
    exact hend.trans (.faultRing _ _ _)
  next => exact ⟨rfl, rfl, rfl⟩

theorem SameLanes.pushEvent (s : State) (e : Event) : SameLanes s (s.pushEvent e) := by
  obtain ⟨-, -, -, -, -, -, -, -, hpayload, hjob, hstaging⟩ := pushEvent_frame s e
  exact ⟨hpayload, hjob, hstaging⟩

/-- R162: emptying a latch is all that happens to the state besides. -/
theorem SameLanes.firstLatch {s t : State} {e : Event} (h : s.firstLatch = some (e, t)) : SameLanes s t := by
  unfold State.firstLatch at h
  split at h
  · cases h; exact ⟨rfl, rfl, rfl⟩
  · split at h
    · cases h; exact ⟨rfl, rfl, rfl⟩
    · split at h
      · cases h; exact ⟨rfl, rfl, rfl⟩
      · cases h

theorem SameLanes.moveLatch (s : State) : SameLanes s s.moveLatch := by
  unfold State.moveLatch
  split
  next e t h => exact (SameLanes.firstLatch h).trans (.pushEvent t e)
  next => exact ⟨rfl, rfl, rfl⟩

theorem SameLanes.beginRecord (s : State) (r : RingId) : SameLanes s (s.beginRecord r) := by
  unfold State.beginRecord
  split
  · split
    · split <;> exact ⟨rfl, rfl, rfl⟩
    · exact ⟨rfl, rfl, rfl⟩
  · exact ⟨rfl, rfl, rfl⟩

theorem SameLanes.dequeueEvent (s : State) : SameLanes s s.dequeueEvent := by
  obtain ⟨-, -, -, -, -, -, hpayload, hjob, hstaging, -⟩ := s.dequeueEvent_frame
  exact ⟨hpayload, hjob, hstaging⟩

theorem SameLanes.freeSource (s : State) (src : Source) : SameLanes s (s.freeSource src) := by
  unfold State.freeSource
  split
  · split <;> exact ⟨rfl, rfl, rfl⟩
  · split <;> exact ⟨rfl, rfl, rfl⟩
  · exact .dequeueEvent s

theorem SameLanes.recordDone (s : State) (id : Nat) : SameLanes s (s.recordDone id) := by
  unfold State.recordDone
  split
  next r c src _ =>
    have hleave : SameLanes s ((s.endAccess id).leaveList r src) := ⟨rfl, rfl, rfl⟩
    exact (hleave.trans (.freeSource _ src)).trans (.of_outer (State.moderate_outer _ r c.written).1)
  next => exact ⟨rfl, rfl, rfl⟩

/-! ## Admission and cancellation (R131, R132, R150, R152) -/

theorem SameLanes.spendCredit (s : State) : SameLanes s s.spendCredit := by
  unfold State.spendCredit
  split
  · split <;> exact ⟨rfl, rfl, rfl⟩
  · exact ⟨rfl, rfl, rfl⟩

/-- R131, R132: a CANCEL may end the owner of the lanes, whose lanes are then released or its payload halted. -/
theorem State.takeCancel_stagingOk {s : State} (h : s.StagingOk) (r : RingId) (w : BitVec 512) (index : Nat)
    (ring : RingId) (id : BitVec 16) : (s.takeCancel r w index ring id).StagingOk := by
  have hall := (Inner.cancelAll s (s.cancelFinds ring id)).staging h
  unfold State.takeCancel
  exact (Inner.joinTogether _ _).staging (SameLanes.ok ⟨rfl, rfl, rfl⟩ hall)

theorem State.takeHeld_stagingOk {s : State} (h : s.StagingOk) (r : RingId) (w : BitVec 512) (index : Nat) :
    (s.takeHeld r w index).StagingOk := by
  have hfence : (s.fencePassed r).StagingOk := SameLanes.ok ⟨rfl, rfl, rfl⟩ h
  unfold State.takeHeld
  split
  · split
    · exact SameLanes.ok ⟨rfl, rfl, rfl⟩ h
    · exact h
  · exact (Inner.join _ _).staging (SameLanes.ok ⟨rfl, rfl, rfl⟩ hfence)
  · exact State.takeCancel_stagingOk hfence r w index _ _

theorem State.admitPointed_stagingOk {s : State} (h : s.StagingOk) : s.admitPointed.StagingOk := by
  unfold State.admitPointed
  split
  · exact State.takeHeld_stagingOk ((SameLanes.spendCredit s).ok h) _ _ _
  all_goals exact h

theorem State.arbitrate_stagingOk {s : State} (h : s.StagingOk) : s.arbitrate.StagingOk := by
  unfold State.arbitrate
  split
  · exact State.admitPointed_stagingOk h
  · split
    · exact h
    · split
      · exact State.admitPointed_stagingOk (SameLanes.ok ⟨rfl, rfl, rfl⟩ h)
      · exact h

/-! ## Device control (R170 to R176) -/

/-- R82, R85, R176: a cleared part has FREE slots and no job. -/
theorem State.clearBlocks_stagingOk (s : State) : s.clearBlocks.StagingOk :=
  SameLanes.ok ⟨rfl, rfl, rfl⟩ State.stagingOk_reset

theorem State.functionReset_stagingOk (s : State) : s.functionReset.StagingOk :=
  SameLanes.ok ⟨rfl, rfl, rfl⟩ s.clearBlocks_stagingOk

theorem State.powerOn_stagingOk (s : State) : s.powerOn.StagingOk :=
  SameLanes.ok ⟨rfl, rfl, rfl⟩ s.clearBlocks_stagingOk

theorem State.endDrain_stagingOk (s : State) : s.endDrain.StagingOk :=
  SameLanes.ok ⟨rfl, rfl, rfl⟩ (State.clearBlocks_stagingOk (allRings.foldl State.flushVector s))

theorem SameLanes.takeEnable (s : State) : SameLanes s s.takeEnable := by
  unfold State.takeEnable State.beginLoading
  dsimp only
  split
  · split <;> exact ⟨rfl, rfl, rfl⟩
  · exact ⟨rfl, rfl, rfl⟩

theorem SameLanes.takeDisable (s : State) : SameLanes s s.takeDisable := by
  unfold State.takeDisable; split <;> exact ⟨rfl, rfl, rfl⟩

theorem State.takeLinkReset_stagingOk {s : State} (h : s.StagingOk) : s.takeLinkReset.StagingOk := by
  unfold State.takeLinkReset
  split
  · exact (Inner.startLinkReset (s.setResult .ok) _).staging (SameLanes.ok ⟨rfl, rfl, rfl⟩ h)
  · exact SameLanes.ok ⟨rfl, rfl, rfl⟩ h

theorem State.writeCommand_stagingOk {s : State} (h : s.StagingOk) (code : Word) : (s.writeCommand code).StagingOk := by
  unfold State.writeCommand
  split
  · exact (SameLanes.takeEnable s).ok h
  · exact (SameLanes.takeDisable s).ok h
  · exact State.takeLinkReset_stagingOk h
  · exact s.functionReset_stagingOk
  · exact SameLanes.ok ⟨rfl, rfl, rfl⟩ h

theorem State.writeWord_stagingOk {s : State} (h : s.StagingOk) (v : Word) (word : RegWord) :
    (s.writeWord v word).StagingOk := by
  cases word with
  | configBaseLow =>
    change (s.writeBaseLow v).StagingOk
    unfold State.writeBaseLow; split <;> exact SameLanes.ok ⟨rfl, rfl, rfl⟩ h
  | configBaseHigh =>
    change (s.writeBaseHigh v).StagingOk
    unfold State.writeBaseHigh; split <;> exact SameLanes.ok ⟨rfl, rfl, rfl⟩ h
  | command => exact State.writeCommand_stagingOk h v
  | status => exact h
  | post => exact (SameLanes.takePost s v).ok h
  | release => exact (SameLanes.takeRelease s v).ok h

theorem State.writeRegister_stagingOk {s : State} (h : s.StagingOk) (offset bytes : Nat) (v : Word) :
    (s.writeRegister offset bytes v).StagingOk := by
  unfold State.writeRegister
  split
  · exact h
  · split
    · exact State.writeWord_stagingOk h v _
    · exact h

theorem SameLanes.setArbiter (s : State) : SameLanes s s.setArbiter := by
  unfold State.setArbiter; split <;> exact ⟨rfl, rfl, rfl⟩

/-- R47, R80, R172: the stations are watched, the arbiter is set, and the start-up link reset releases the lanes. -/
theorem State.enterRunning_stagingOk {s : State} (h : s.StagingOk) (c : BitVec 2048) : (s.enterRunning c).StagingOk := by
  unfold State.enterRunning
  refine SameLanes.ok ⟨rfl, rfl, rfl⟩ ((Inner.startLinkReset _ .startUp).staging ((SameLanes.setArbiter _).ok ?_))
  refine (Inner.foldl _ (fun a st => Inner.modStation a st Station.watched) allStations _).staging ?_
  exact SameLanes.ok ⟨rfl, rfl, rfl⟩ h

theorem State.configRead_stagingOk {s : State} (h : s.StagingOk) (id : Nat) (data : BitVec 512) :
    (s.configRead id data).StagingOk := by
  unfold State.configRead
  split
  next part _ =>
    have hkeep : (s.keepPart id part data).StagingOk := SameLanes.ok ⟨rfl, rfl, rfl⟩ h
    dsimp only
    split
    · unfold State.judgeConfig
      split
      · exact State.enterRunning_stagingOk hkeep _
      · exact SameLanes.ok ⟨rfl, rfl, rfl⟩ hkeep
    · exact hkeep
  next => exact h

theorem SameLanes.configFault (s : State) (id : Nat) : SameLanes s (s.configFault id) := by
  unfold State.configFault; split <;> exact ⟨rfl, rfl, rfl⟩

/-! ## The law -/

/-- A command outside the link side keeps the law. -/
theorem exec_deviceSide_stagingOk (c : Instr) (s : State) (hc : linkSide c = false) (h : s.StagingOk) :
    ∃ t, exec c s = .next t ∧ t.StagingOk := by
  cases c <;> first | (cases hc; done) | skip
  case powerOn => exact ⟨_, rfl, s.powerOn_stagingOk⟩
  case hostLinkResetInput => exact ⟨_, rfl, s.powerOn_stagingOk⟩
  case endpointFunctionReset => exact ⟨_, rfl, s.functionReset_stagingOk⟩
  case enable => exact ⟨_, rfl, (SameLanes.takeEnable s).ok h⟩
  case disable => exact ⟨_, rfl, (SameLanes.takeDisable s).ok h⟩
  case linkReset => exact ⟨_, rfl, State.takeLinkReset_stagingOk h⟩
  case functionReset => exact ⟨_, rfl, s.functionReset_stagingOk⟩
  case undefinedCommand code => exact ⟨_, rfl, State.writeCommand_stagingOk h code⟩
  case registerWrite offset bytes v => exact ⟨_, rfl, State.writeRegister_stagingOk h offset bytes v⟩
  case post v => exact ⟨_, rfl, (SameLanes.takePost s v).ok h⟩
  case release v => exact ⟨_, rfl, (SameLanes.takeRelease s v).ok h⟩
  case configReadComplete id data => exact ⟨_, rfl, State.configRead_stagingOk h id data⟩
  case configReadFault id => exact ⟨_, rfl, (SameLanes.configFault s id).ok h⟩
  case drainComplete =>
    refine ⟨_, rfl, ?_⟩; split
    · exact s.endDrain_stagingOk
    · exact h
  case fetchStart r =>
    refine ⟨_, rfl, ?_⟩; split
    · exact (SameLanes.beginFetch s r).ok h
    · exact h
  case fetchComplete id w => exact ⟨_, rfl, (SameLanes.fetchDone s id w).ok h⟩
  case fetchFault id => exact ⟨_, rfl, (SameLanes.fetchFaulted s id).ok h⟩
  case admission => exact ⟨_, rfl, State.arbitrate_stagingOk h⟩
  case latchToQueue =>
    refine ⟨_, rfl, ?_⟩; split
    · exact (SameLanes.moveLatch s).ok h
    · exact h
  case recordWriteBegin r => exact ⟨_, rfl, (SameLanes.beginRecord s r).ok h⟩
  case recordWriteComplete id => exact ⟨_, rfl, (SameLanes.recordDone s id).ok h⟩
  case recordWriteFault id =>
    refine ⟨_, rfl, ?_⟩; split <;> exact SameLanes.ok ⟨rfl, rfl, rfl⟩ h
  case moderationDelayExpiry r =>
    refine ⟨_, rfl, ?_⟩; split <;> exact SameLanes.ok ⟨rfl, rfl, rfl⟩ h

theorem exec_stagingOk (c : Instr) (s : State) (h : s.StagingOk) : ∃ t, exec c s = .next t ∧ t.StagingOk := by
  cases hc : linkSide c with
  | false => exact exec_deviceSide_stagingOk c s hc h
  | true =>
    obtain ⟨t, ht, hin⟩ := exec_linkSide c s hc
    exact ⟨t, ht, hin.staging h⟩

/-- Settles O10: a step is one command, which keeps the law, or one period, which changes no owner, job or slot. -/
theorem stepKeepsStagingFreeWithoutOwner : Obligations.StepKeepsStagingFreeWithoutOwner := by
  intro s t h hs
  unfold step at hs
  split at hs
  next c rest _ =>
    obtain ⟨u, hu, hok⟩ := exec_stagingOk c { s with pending := rest } h
    cases hu.symm.trans hs
    exact hok
  next =>
    cases hs
    exact s.tick_frame.stagingOk h

end Sys2Proof.Machine
end

section
/-! The block in hand of the payload job (O55): how it is taken, placed as far as the current descriptor reaches, and
gone on with in the descriptor that follows. -/
namespace Sys2Proof.Machine

/-! ## The walk that needs its next descriptor (R105 to R108) -/

section
variable {w : Walk} {g : SegSource} {page : BitVec 64} {entry : Nat}

theorem Walk.need_ended (h : w.ended = true) : w.need g = .fault .segmentShort := if_pos h

theorem Walk.need_second (h : w.ended = false) (hp : w.pos = .inline 1) : w.need g = w.takeInline 1 g.d1 := by
  unfold Walk.need
  rw [if_neg (by rw [h]; decide), hp]
  rfl

theorem Walk.need_pageEnd (h : w.ended = false) (hp : w.pos = .page page entry) (he : 256 ≤ entry) :
    w.need g = .fault .listMalformed := by
  unfold Walk.need
  rw [if_neg (by rw [h]; decide), hp]
  exact if_pos he

variable (h : w.ended = false) (hp : w.pos = .page page entry) (he : entry < 256)
include h hp he

theorem Walk.need_held {d : Descriptor} (hl : w.look = .held d) :
    w.need g = { w with look := .empty }.takeListed page entry d := by
  unfold Walk.need
  rw [if_neg (by rw [h]; decide), hp]
  dsimp only
  rw [if_neg (by omega), hl]

theorem Walk.need_malformed {d : Descriptor} (hl : w.look = .held d) (hd : d.Malformed w.walked) :
    w.need g = .fault .listMalformed :=
  (Walk.need_held h hp he hl).trans (Walk.takeListed_malformed (w := { w with look := .empty }) hd page entry)

theorem Walk.need_leads {d : Descriptor} (hl : w.look = .held d) (hd : d.Leads w.walked) :
    w.need g = .read { w with pos := .page d.addr 0, walked := w.walked + 1, look := .empty, needed := true } d.addr :=
  (Walk.need_held h hp he hl).trans (Walk.takeListed_leads (w := { w with look := .empty }) hd page entry)

theorem Walk.need_usable {d : Descriptor} (hl : w.look = .held d) (hd : d.Usable w.walked) :
    w.need g = .ready (w.inEntry page entry d 0 .empty) :=
  (Walk.need_held h hp he hl).trans (Walk.takeListed_usable (w := { w with look := .empty }) hd page entry)

theorem Walk.need_reading (hl : w.look = .reading) : w.need g = .wait { w with needed := true } := by
  unfold Walk.need
  rw [if_neg (by rw [h]; decide), hp]
  dsimp only
  rw [if_neg (by omega), hl]

theorem Walk.need_faulted (hl : w.look = .faulted) : w.need g = .fault .hostAccessFault := by
  unfold Walk.need
  rw [if_neg (by rw [h]; decide), hp]
  dsimp only
  rw [if_neg (by omega), hl]

theorem Walk.need_unread (hl : w.look = .empty) (h0 : 1 ≤ entry) :
    w.need g = .read { w with needed := true } (page + BitVec.ofNat 64 (16 * entry)) := by
  unfold Walk.need
  rw [if_neg (by rw [h]; decide), hp]
  dsimp only
  rw [if_neg (by omega), hl]
  exact if_neg (by omega)

end

/-! ## A block that has been taken (R103, R110, R111) -/

/-- R103: the block in hand in the slot of the next block, `placed` of its bytes placed by the accesses `l`. -/
def Job.hand (j : Job) (placed : Nat) (l : List Access) : InHand :=
  { slot := stageOf j.nextBlock, placed := placed, issued := l.length, ended := 0 }

/-- R103: the job whose walk is `w`, with its next block in hand. -/
def Job.holding (j : Job) (w : Walk) (placed : Nat) (l : List Access) : Job :=
  { j with walk := w, inHand := some (j.hand placed l) }

/-- R104, R110, R111: the state in which the next block of `j` has been taken in `slot`, and `placed` of its bytes are
placed by the accesses `l`; the walk has become `w`, and the exchange `e`. -/
def State.blockTaken (s : State) (j : Job) (e : Exchange) (slot : Slot) (w : Walk) (placed : Nat) (l : List Access) :
    State :=
  { s with
    staging := s.staging.set (stageOf j.nextBlock) slot,
    job := some (j.holding w placed l),
    table := s.table.set j.tag (some e),
    accesses := s.accesses ++ l, nextAccess := s.nextAccess + l.length }

/-- R104: the exchange once `n` bytes more are placed in the current descriptor `c`: the cursor moves with the first. -/
def Exchange.placedIn (e : Exchange) (c : CurDesc) (n : Nat) : Exchange :=
  { e with cursor := if n = 0 then e.cursor else some { index := c.index, offset := c.offset + n } }

theorem Exchange.placedIn_eq (e : Exchange) (c : CurDesc) {n : Nat} (h : n ≠ 0) {w : Walk}
    (hc : w.cur = some { c with offset := c.offset + n }) : e.placedIn c n = e.atWalk w := by
  unfold Exchange.placedIn Exchange.atWalk Walk.cursor
  rw [if_neg h, hc]

section
variable (s : State) (j : Job) (e : Exchange) (slot : Slot) (w : Walk) (placed : Nat) (l : List Access)

theorem State.exch_blockTaken : (s.blockTaken j e slot w placed l).exch j.tag = some e :=
  s.exch_setExch_self j.tag (some e)

theorem State.slot_blockTaken : (s.blockTaken j e slot w placed l).slot (stageOf j.nextBlock) = slot :=
  s.slot_setSlot_self (stageOf j.nextBlock) slot

/-- The walk goes on, and the cursor with it. -/
theorem State.setWalk_blockTaken (w' : Walk) :
    (s.blockTaken j e slot w placed l).setWalk (j.holding w placed l) w'
      = s.blockTaken j (e.atWalk w') slot w' placed l := by
  rw [State.setWalk_eq (j := j.holding w placed l) (s.exch_blockTaken j e slot w placed l)]
  unfold State.blockTaken Job.holding
  dsimp only
  rw [table_set_set]
  rfl

/-- The accesses of two placements one after the other. -/
theorem State.placing_blockTaken (c : CurDesc) (n : Nat) (l' : List Access) :
    (s.blockTaken j e slot w placed l).placing (j.holding w placed l) (j.hand placed l) c e n l'
      = s.blockTaken j (e.placedIn c n) slot { w with cur := some { c with offset := c.offset + n } } (placed + n)
          (l ++ l') := by
  unfold State.placing State.blockTaken Job.holding Job.hand
  dsimp only
  rw [table_set_set, List.append_assoc, List.length_append, Nat.add_assoc s.nextAccess]
  rfl

variable {s j e slot w placed l}

/-- The commands take the block, and the mover goes on from there. -/
theorem State.blockTaken_start (hx : s.exch j.tag = some e) :
    s.blockTaken j e slot j.walk 0 []
      = { s.setSlot (stageOf j.nextBlock) slot with
          job := some { j with inHand := some (InHand.start (stageOf j.nextBlock)) } } := by
  unfold State.blockTaken State.setSlot
  rw [State.table_set_same hx, List.append_nil]
  rfl

theorem exec_drainBlockStart (hl : s.live = true) (hj : s.job = some j) (hx : s.exch j.tag = some e)
    (hn : j.inHand = none) (hk : j.nextBlock < j.count) (hd : j.dir = .read)
    (hs : (s.slot (stageOf j.nextBlock)).state = .full) (hb : (s.slot (stageOf j.nextBlock)).block = j.nextBlock) :
    exec .drainBlockStart s = .next (State.pump 4096
      (s.blockTaken j e { s.slot (stageOf j.nextBlock) with state := .draining } j.walk 0 [])) := by
  have hm : s.mayDrain j = true := by
    unfold State.mayDrain; rw [hd, hn, hs, hb]; simp [hk]
  change execDrainBlockStart s = _
  unfold execDrainBlockStart State.activeJob
  rw [if_pos hl, hj]; dsimp only; rw [if_pos hm, State.blockTaken_start hx]
  rfl

theorem exec_loadBlockStart (hl : s.live = true) (hj : s.job = some j) (hx : s.exch j.tag = some e)
    (hn : j.inHand = none) (hk : j.nextBlock < j.count) (hd : j.dir = .write)
    (hs : (s.slot (stageOf j.nextBlock)).state = .free) :
    exec .loadBlockStart s = .next (State.pump 4096
      (s.blockTaken j e { state := .loading, block := j.nextBlock, data := List.replicate j.blockSize 0#8 } j.walk 0
        [])) := by
  have hm : s.mayLoad j = true := by
    unfold State.mayLoad; rw [hd, hn, hs]; simp [hk]
  change execLoadBlockStart s = _
  unfold execLoadBlockStart State.activeJob
  rw [if_pos hl, hj]; dsimp only; rw [if_pos hm, State.blockTaken_start hx]
  rfl

/-- R104, R110, R111: the block taken is placed as far as the current descriptor reaches. -/
theorem State.blockTaken_places {c : CurDesc} {fuel : Nat} (hn : w.needed = false) (hc : w.cur = some c)
    (hf : j.blockSize - placed ≤ fuel) (hd : j.dir = .read → slot.data.length = j.blockSize) :
    let n := min (c.desc.len - c.offset) (j.blockSize - placed)
    ∃ l', l'.length ≤ n ∧
      State.pump fuel (s.blockTaken j e slot w placed l) = State.pump (fuel - l'.length)
        (s.blockTaken j (e.placedIn c n) slot { w with cur := some { c with offset := c.offset + n } } (placed + n)
          (l ++ l')) ∧
      PlacesBlock l' (s.nextAccess + l.length) (c.desc.addr + BitVec.ofNat 64 c.offset) (c.desc.len - c.offset)
        (j.blockSize - placed) ∧
      CarriesBlock j slot.data placed l' := by
  intro n
  have hslot := s.slot_blockTaken j e slot w placed l
  obtain ⟨l', hlen, hpump, hplaces, hcarries⟩ := State.pump_places n fuel (s.blockTaken j e slot w placed l)
    (j.holding w placed l) (j.hand placed l) c e rfl rfl hn hc (s.exch_blockTaken j e slot w placed l) rfl (by omega)
    (fun h => (congrArg (fun x : Slot => x.data.length) hslot).trans (hd h))
  refine ⟨l', hlen, by rw [hpump, State.placing_blockTaken], hplaces, ?_⟩
  have hc' : CarriesBlock j ((s.blockTaken j e slot w placed l).slot (stageOf j.nextBlock)).data placed l' := hcarries
  rw [hslot] at hc'
  exact hc'

/-- A block of which every byte is placed. -/
theorem State.pump_blockTaken_full (h : j.blockSize ≤ placed) (fuel : Nat) :
    State.pump fuel (s.blockTaken j e slot w placed l) = s.blockTaken j e slot w placed l :=
  State.pump_placed (j := j.holding w placed l) rfl rfl h fuel

end

/-! ## The current descriptor ends before the block (R107, R108, R112) -/

/-- R107: the block in hand of the job `j`, of exchange `e` with the list `g`, has bytes left to place after `placed`,
and the current descriptor of the walk `w` has none. -/
structure Job.WantsNext (j : Job) (e : Exchange) (g : SegSource) (w : Walk) (placed : Nat) : Prop where
  seg : e.seg = some g
  state : e.state = .transfer
  left : placed < j.blockSize
  needed : w.needed = false
  spent : w.left = 0

section
variable {s : State} {j : Job} {e : Exchange} {slot : Slot} {w : Walk} {placed : Nat} {l : List Access} {g : SegSource}
  (h : j.WantsNext e g w placed)
include h

/-- R107: the mover needs the next descriptor. -/
theorem Job.WantsNext.needs (fuel : Nat) :
    State.pump (fuel + 1) (s.blockTaken j e slot w placed l)
      = State.pump fuel ((s.blockTaken j e slot w placed l).jobNeed (j.holding w placed l) (w.need g)) := by
  have hseg : (s.blockTaken j e slot w placed l).segOf j.tag = some g := by
    unfold State.segOf; rw [State.exch_blockTaken]; exact h.seg
  rw [State.pump_step (j := j.holding w placed l) (h := j.hand placed l) rfl rfl h.needed,
    if_neg (show ¬ (j.holding w placed l).blockSize ≤ (j.hand placed l).placed from Nat.not_le.2 h.left),
    if_pos (show (j.holding w placed l).walk.left = 0 from h.spent)]
  unfold State.needDescriptor
  rw [show (j.holding w placed l).tag = j.tag from rfl, hseg]
  rfl

theorem Job.WantsNext.faults {st : Status} (hw : w.need g = .fault st) (fuel : Nat) :
    MoverReports (s.blockTaken j e slot w placed l) (State.pump (fuel + 1) (s.blockTaken j e slot w placed l)) j.tag e
      st := by
  have hr := State.moverFault_reports (s := s.blockTaken j e slot w placed l) (j := j.holding w placed l) rfl
    (s.exch_blockTaken j e slot w placed l) h.state st
  rw [h.needs, hw]
  change MoverReports _ (State.pump fuel (State.moverFault _ (j.holding w placed l).tag st)) _ _ _
  rw [State.pump_none hr.job]
  exact hr

theorem Job.WantsNext.waits {w' : Walk} (hw : w.need g = .wait w') (hn' : w'.needed = true) (fuel : Nat) :
    State.pump (fuel + 1) (s.blockTaken j e slot w placed l) = s.blockTaken j (e.atWalk w') slot w' placed l := by
  rw [h.needs, hw]
  change State.pump fuel (State.setWalk _ (j.holding w placed l) w') = _
  rw [State.setWalk_blockTaken]
  exact State.pump_idle (j := j.holding w' placed l) rfl (.inl hn') fuel

theorem Job.WantsNext.reads {w' : Walk} {addr : BitVec 64} (hw : w.need g = .read w' addr) (hn' : w'.needed = true)
    (fuel : Nat) :
    State.pump (fuel + 1) (s.blockTaken j e slot w placed l)
      = (s.blockTaken j (e.atWalk w') slot w' placed l).issue (.descriptor j.tag) addr 16 [] := by
  rw [h.needs, hw]
  change State.pump fuel ((State.setWalk _ (j.holding w placed l) w').issue _ _ _ _) = _
  rw [State.setWalk_blockTaken]
  exact State.pump_idle (j := j.holding w' placed l) rfl (.inl hn') fuel

/-- R105: an inline descriptor is taken into use. -/
theorem Job.WantsNext.readies {w' : Walk} {k : Nat} (hw : w.need g = .ready w') (hi : w'.pos = .inline k)
    (fuel : Nat) :
    State.pump (fuel + 1) (s.blockTaken j e slot w placed l)
      = State.pump fuel (s.blockTaken j (e.atWalk w') slot w' placed l) := by
  have hl : w'.lookAddr = none := by unfold Walk.lookAddr; rw [hi]
  rw [h.needs, hw]
  change State.pump fuel (State.lookAhead _ (j.holding w placed l) w') = _
  unfold State.lookAhead
  rw [hl]
  exact congrArg _ (State.setWalk_blockTaken s j e slot w placed l w')

/-- R104, R107, R108, R110 to R112: an entry of a page is taken into use. -/
theorem Job.WantsNext.entry {page : BitVec 64} {entry : Nat} {d : Descriptor}
    (hd : d.Usable w.walked) (hw : w.need g = .ready (w.inEntry page entry d 0 .empty)) {fuel : Nat}
    (hf : j.blockSize < fuel + placed) (hlen : j.dir = .read → slot.data.length = j.blockSize) :
    EntryTaken (s.blockTaken j e slot w placed l) (State.pump (fuel + 1) (s.blockTaken j e slot w placed l))
      (j.holding w placed l) e (j.hand placed l) page entry d := by
  rw [h.needs, hw]
  exact State.pump_entry (j := j.holding w placed l) rfl (s.exch_blockTaken j e slot w placed l) h.seg h.state hd h.left
    hf (fun hr => (congrArg (fun x : Slot => x.data.length) (s.slot_blockTaken j e slot w placed l)).trans (hlen hr))

/-- R104, R105, R108, R112: the second inline descriptor takes what is left of the block; the list ends with it. -/
theorem Job.WantsNext.second (he : w.ended = false) (hpos : w.pos = .inline 1) (hd : g.d1.Good) {fuel : Nat}
    (hf : j.blockSize < fuel + placed)
    (hlen : j.dir = .read → slot.data.length = j.blockSize) :
    let rest := j.blockSize - placed
    let second (n : Nat) : Walk :=
      { pos := .inline 2, ended := true, cur := some { desc := g.d1, index := w.walked, offset := n },
        walked := w.walked + 1, look := w.look, needed := false }
    ∃ l', CarriesBlock j slot.data placed l' ∧ PlacesBlock l' (s.nextAccess + l.length) g.d1.addr g.d1.len rest ∧
      (rest ≤ g.d1.len → State.pump (fuel + 1) (s.blockTaken j e slot w placed l)
        = s.blockTaken j (e.atWalk (second rest)) slot (second rest) j.blockSize (l ++ l')) ∧
      (g.d1.len < rest → MoverReports
        (s.blockTaken j (e.atWalk (second g.d1.len)) slot (second g.d1.len) (placed + g.d1.len) (l ++ l'))
        (State.pump (fuel + 1) (s.blockTaken j e slot w placed l)) j.tag (e.atWalk (second g.d1.len))
        .segmentShort) := by
  intro rest second
  have hd1 : 1 ≤ g.d1.len := hd.2.1
  have hleft := h.left
  have hneed : w.need g = .ready (second 0) := by
    rw [Walk.need_second he hpos, Walk.takeInline_good hd]
    simp [second]
  obtain ⟨l', hl', hpump, hplaces, hcarries⟩ := State.blockTaken_places (s := s) (j := j) (e := e.atWalk (second 0))
    (slot := slot) (w := second 0) (placed := placed) (l := l) (fuel := fuel) rfl rfl (by omega) hlen
  have hstep := (h.readies hneed rfl fuel).trans hpump
  refine ⟨l', hcarries, by simpa using hplaces, fun hfit => ?_, fun hshort => ?_⟩
  · have hmin : min (g.d1.len - 0) (j.blockSize - placed) = rest := by omega
    rw [hstep, hmin, State.pump_blockTaken_full (by omega),
      Exchange.placedIn_eq (w := second rest) _ _ (by omega) (by simp [second]), Nat.zero_add,
      show placed + rest = j.blockSize by omega]
    rfl
  · have hmin : min (g.d1.len - 0) (j.blockSize - placed) = g.d1.len := by omega
    obtain ⟨k, hk⟩ : ∃ k, fuel - l'.length = k + 1 := ⟨fuel - l'.length - 1, by omega⟩
    rw [hstep, hmin, Exchange.placedIn_eq (w := second g.d1.len) _ _ (by omega) (by simp [second]), Nat.zero_add, hk]
    have hwants : j.WantsNext (e.atWalk (second g.d1.len)) g (second g.d1.len) (placed + g.d1.len) :=
      ⟨h.seg, h.state, by omega, rfl, Nat.sub_self _⟩
    exact hwants.faults (Walk.need_ended rfl) k

end

/-! ## The two ways in which the current descriptor meets the block -/

section
variable {s : State} {j : Job} {e : Exchange} {slot : Slot} {c : CurDesc} (hn : j.walk.needed = false)
  (hc : j.walk.cur = some c) (h1 : 1 ≤ j.blockSize) (h2 : j.blockSize ≤ 2048) (ho : c.offset ≤ c.desc.len)
  (hlen : j.dir = .read → slot.data.length = j.blockSize)
include hn hc h2 hlen

include h1 in
/-- R104, R110, R111: the current descriptor holds the block. -/
theorem State.takes_fitting (hfit : c.offset + j.blockSize ≤ c.desc.len) :
    let w : Walk := { j.walk with cur := some { c with offset := c.offset + j.blockSize } }
    ∃ l, State.pump 4096 (s.blockTaken j e slot j.walk 0 []) = s.blockTaken j (e.atWalk w) slot w j.blockSize l ∧
      CarriesBlock j slot.data 0 l ∧
      PlacesBlock l s.nextAccess (c.desc.addr + BitVec.ofNat 64 c.offset) (c.desc.len - c.offset) j.blockSize := by
  intro w
  obtain ⟨l, hl, hpump, hplaces, hcarries⟩ := State.blockTaken_places (s := s) (e := e) (placed := 0) (l := [])
    (fuel := 4096) hn hc (by omega) hlen
  have hmin : min (c.desc.len - c.offset) (j.blockSize - 0) = j.blockSize := by omega
  refine ⟨l, ?_, hcarries, hplaces⟩
  rw [hpump, hmin, Nat.zero_add, State.pump_blockTaken_full (Nat.le_refl _),
    Exchange.placedIn_eq (w := w) _ _ (by omega) rfl]
  rfl

include ho in
/-- R107: the current descriptor ends before the block: the mover comes to its end. -/
theorem State.takes_ending (hend : c.desc.len - c.offset < j.blockSize) :
    let room := c.desc.len - c.offset
    let full : Walk := { j.walk with cur := some { c with offset := c.desc.len } }
    ∃ l k, CarriesBlock j slot.data 0 l ∧
      PlacesBlock l s.nextAccess (c.desc.addr + BitVec.ofNat 64 c.offset) room j.blockSize ∧
      j.blockSize < k + room ∧
      State.pump 4096 (s.blockTaken j e slot j.walk 0 []) = State.pump (k + 1)
        (s.blockTaken j (if room = 0 then e else e.atWalk full) slot full room l) := by
  intro room full
  obtain ⟨l, hl, hpump, hplaces, hcarries⟩ := State.blockTaken_places (s := s) (e := e) (placed := 0) (l := [])
    (fuel := 4096) hn hc (by omega) hlen
  have hmin : min (c.desc.len - c.offset) (j.blockSize - 0) = room := by omega
  have he : e.placedIn c room = if room = 0 then e else e.atWalk full := by
    split
    · next h => unfold Exchange.placedIn; rw [if_pos h]
    · next h => exact Exchange.placedIn_eq e c h (by simp only [full, room, Nat.add_sub_cancel' ho])
  refine ⟨l, 4095 - l.length, hcarries, hplaces, by omega, ?_⟩
  rw [hpump, hmin, Nat.zero_add, he, show 4096 - l.length = 4095 - l.length + 1 by omega,
    show c.offset + room = c.desc.len by omega]
  rfl

end

/-! ## The obligation -/

/-- Settles O55: the block fits the current descriptor; or the mover comes to its end, and the walk says what
follows. -/
theorem moverTakesABlock : Obligations.MoverTakesABlock := by
  intro s j e g c hl hj hx hg ht hi hk hn hc h1 h2 ho i addr room rest hand moved taken reads at_ second takes
  have htakes : ∀ com slot, exec com s = .next (State.pump 4096 (s.blockTaken j e slot j.walk 0 [])) →
      (j.dir = .read → slot.data.length = j.blockSize) → takes com slot := by
    intro com slot hexec hlen
    refine ⟨fun hfit => ?_, fun hend => ?_⟩
    · obtain ⟨l, hpump, hcarries, hplaces⟩ := State.takes_fitting (s := s) (e := e) hn hc h1 h2 hlen hfit
      exact ⟨l, by rw [hexec, hpump]; rfl, hcarries, hplaces⟩
    · obtain ⟨l, k, hcarries, hplaces, hfuel, hpump⟩ :=
        State.takes_ending (s := s) (e := e) hn hc h2 ho hlen hend
      refine ⟨l, hcarries, hplaces, ?_⟩
      intro full e' out reports
      have hexec' : exec com s = .next (State.pump (k + 1) (s.blockTaken j e' slot full room l)) :=
        hexec.trans (congrArg _ hpump)
      -- The exchange, whether or not its cursor has moved.
      have hcursor : ∀ w : Walk, e'.atWalk w = moved w := fun w => by simp only [e']; split <;> rfl
      have hwants : j.WantsNext e' g full room :=
        ⟨by simp only [e']; split <;> exact hg, by simp only [e']; split <;> exact ht, hend, hn, Nat.sub_self _⟩
      have hfault : ∀ st, full.need g = .fault st → reports st := fun st hst =>
        ⟨_, hexec', hwants.faults (s := s) (slot := slot) (l := l) hst k⟩
      refine ⟨fun he => hfault _ (Walk.need_ended he), fun he hpos => ⟨fun hbad => ?_, fun hc1 hl1 hl2 => ?_⟩,
        fun page entry he hpos => ?_⟩
      · refine hfault _ ((Walk.need_second (w := full) he hpos).trans (Walk.takeInline_bad ?_ 1))
        rintro ⟨hc1, hl1, hl2⟩
        rcases hbad with hb | hb | hb
        · rw [hc1] at hb; cases hb
        all_goals omega
      · obtain ⟨l', hcarries', hplaces', hfull, hshort⟩ :=
          hwants.second (s := s) (slot := slot) (l := l) he hpos ⟨hc1, hl1, hl2⟩ hfuel hlen
        refine ⟨l', hcarries', hplaces', fun h => ?_, fun h => ⟨_, hexec', ?_⟩⟩
        · rw [hexec', hfull h, hcursor]; rfl
        · have hr := hshort h
          rw [hcursor] at hr
          exact hr
      · have hpos : full.pos = .page page entry := hpos
        refine ⟨fun hout => hfault _ (Walk.need_pageEnd he hpos hout),
          fun hin hlook => hfault _ (Walk.need_faulted he hpos hin hlook), fun hin hlook => ?_,
          fun h0 hin hlook => ?_, fun d hin hlook => ⟨fun hd => ?_, fun hd => ?_, fun hd => ⟨_, hexec', ?_⟩⟩⟩
        · rw [hexec', hwants.waits (Walk.need_reading he hpos hin hlook) rfl, hcursor]
          rfl
        · rw [hexec', hwants.reads (Walk.need_unread he hpos hin hlook h0) rfl, hcursor]
          rfl
        · exact hfault _ (Walk.need_malformed he hpos hin hlook hd)
        · rw [hexec', hwants.reads (Walk.need_leads (w := full) he hpos hin hlook hd) rfl, hcursor]
          rfl
        · have hentry : EntryTaken { taken slot room full l with table := s.table.set j.tag (some e') }
              (State.pump (k + 1) (s.blockTaken j e' slot full room l)) j e' (hand room l.length) page entry d :=
            hwants.entry hd (Walk.need_usable (w := full) he hpos hin hlook hd) hfuel hlen
          exact hentry.of_base (u := taken slot room full l) (fun q => by simp only [e']; split <;> rfl)
            fun q => (table_set_set _ _ _ _).trans (table_set_set _ _ _ _).symm
  exact ⟨fun hd hs hb hlen => htakes _ _ (exec_drainBlockStart hl hj hx hi hk hd hs hb) fun _ => hlen,
    fun hd hs => htakes _ _ (exec_loadBlockStart hl hj hx hi hk hd hs) fun h => by rw [hd] at h; cases h⟩

end Sys2Proof.Machine
end

section
/-! The reports of a payload job's descriptor reads (O56): a descriptor read ahead is held, and a needed one is
judged. -/
namespace Sys2Proof.Machine

/-! ## The report of a descriptor read (R107) -/

section
variable {s : State} {j : Job} (hj : s.job = some j)
include hj

section
variable {page : BitVec 64} {entry : Nat} (hpos : j.walk.pos = .page page entry)
include hpos

theorem State.jobDescriptor_ahead (hn : j.walk.needed = false) (hl : j.walk.look = .reading) (d : Descriptor) :
    s.jobDescriptor j.tag d = s.setWalk j { j.walk with look := .held d } := by
  unfold State.jobDescriptor
  rw [hj]; dsimp only; rw [if_pos rfl, hpos]; dsimp only; rw [if_neg (by rw [hn]; decide), if_pos hl]

theorem State.jobDescriptor_needed (hn : j.walk.needed = true) (d : Descriptor) :
    s.jobDescriptor j.tag d = State.pump 4096
      (s.jobNeed j ({ j.walk with look := .empty, needed := false }.takeListed page entry d)) := by
  unfold State.jobDescriptor
  rw [hj]; dsimp only; rw [if_pos rfl, hpos]; dsimp only; rw [if_pos hn]; rfl

/-- R106, R108, R112: a needed entry that is malformed. -/
theorem State.jobDescriptor_malformed {e : Exchange} (hn : j.walk.needed = true) (hx : s.exch j.tag = some e)
    (ht : e.state = .transfer) {d : Descriptor} (hd : d.Malformed j.walk.walked) :
    MoverReports s (s.jobDescriptor j.tag d) j.tag e .listMalformed := by
  have hr := State.moverFault_reports hj hx ht .listMalformed
  rw [State.jobDescriptor_needed hj hpos hn,
    Walk.takeListed_malformed (w := { j.walk with look := .empty, needed := false }) hd]
  change MoverReports s (State.pump 4096 (s.moverFault j.tag .listMalformed)) _ _ _
  rw [State.pump_none hr.job]
  exact hr

/-- R106: a needed CHAIN entry leads to its page, of which the first entry is read; the walk still waits. -/
theorem State.jobDescriptor_leads (hn : j.walk.needed = true) {d : Descriptor} (hd : d.Leads j.walk.walked) :
    s.jobDescriptor j.tag d
      = (s.setWalk j { j.walk with pos := .page d.addr 0, walked := j.walk.walked + 1, look := .empty }).issue
          (.descriptor j.tag) d.addr 16 [] := by
  let w : Walk := { j.walk with pos := .page d.addr 0, walked := j.walk.walked + 1, look := .empty, needed := true }
  have hw : w = { j.walk with pos := .page d.addr 0, walked := j.walk.walked + 1, look := .empty } :=
    congrArg (fun b => ({ j.walk with pos := .page d.addr 0, walked := j.walk.walked + 1, look := .empty,
                                      needed := b } : Walk)) hn.symm
  have hjob : (s.setWalk j w).job = some { j with walk := w } := by
    unfold State.setWalk State.syncCursor State.modExch
    split <;> rfl
  rw [State.jobDescriptor_needed hj hpos hn,
    Walk.takeListed_leads (w := { j.walk with look := .empty, needed := false }) hd, ← hw]
  exact State.pump_idle (s := (s.setWalk j w).issue (.descriptor j.tag) d.addr 16 []) hjob (.inl rfl) 4096

/-- R106, R107: a needed data entry becomes current. -/
theorem State.jobDescriptor_usable (hn : j.walk.needed = true) {d : Descriptor} (hd : d.Usable j.walk.walked) :
    s.jobDescriptor j.tag d
      = State.pump 4096 (s.jobNeed j (.ready (j.walk.inEntry page entry d 0 .empty))) := by
  rw [State.jobDescriptor_needed hj hpos hn,
    Walk.takeListed_usable (w := { j.walk with look := .empty, needed := false }) hd]
  rfl

end

theorem State.jobDescriptorFault_ahead (hn : j.walk.needed = false) (hl : j.walk.look = .reading) :
    s.jobDescriptorFault j.tag = s.setWalk j { j.walk with look := .faulted } := by
  unfold State.jobDescriptorFault
  rw [hj]; dsimp only; rw [if_pos rfl, if_neg (by rw [hn]; decide), if_pos hl]

theorem State.jobDescriptorFault_needed (hn : j.walk.needed = true) :
    s.jobDescriptorFault j.tag = s.moverFault j.tag .hostAccessFault := by
  unfold State.jobDescriptorFault
  rw [hj]; dsimp only; rw [if_pos rfl, if_pos hn]

end

/-- R22: an exchange in TRANSFER of which the cursor has moved joins nothing. -/
theorem State.accountEnd_of_cursor {u t : State} {x : Tag} {e : Exchange} (ht : e.state = .transfer) {c : Cursor}
    (htab : t.table = u.table.set x (some { e with cursor := some c })) : t.accountEnd x = t :=
  State.accountEnd_of_not_completing (State.exch_of_table htab).1 (by change e.state ≠ _; rw [ht]; decide)

/-- R22: where an entry has been taken into use, the exchange is in TRANSFER still, or the report of the mover has let
it join. -/
theorem EntryTaken.accountEnd {u t : State} {j : Job} {e : Exchange} {h : InHand} {page : BitVec 64} {entry : Nat}
    {d : Descriptor} (ht : e.state = .transfer) (he : EntryTaken u t j e h page entry d) : t.accountEnd j.tag = t := by
  obtain ⟨l, -, -, he⟩ := he
  dsimp only at he
  split at he
  · exact State.accountEnd_of_cursor (u := u) ht (by rw [he])
  · split at he
    · exact he.accountEnd
    · split at he
      · exact State.accountEnd_of_cursor (u := u) ht (by rw [he])
      · exact he.accountEnd

/-! ## The obligation -/

/-- Settles O56: what the report of a read does to the job, in an exchange that stays in TRANSFER or is reported. -/
theorem descriptorReadIsJudgedWhenNeeded : Obligations.DescriptorReadIsJudgedWhenNeeded := by
  intro s a j e page entry data hl ha hp hj hx ht hpos d u walks
  have hju : u.job = some j := hj
  have hxu : u.exch j.tag = some e := hx
  have completes : ∀ t : State, u.jobDescriptor j.tag d = t → t.accountEnd j.tag = t →
      exec (.descriptorReadComplete a.id data) s = .next t := fun t h1 h2 =>
    (exec_descriptorReadComplete hl ha hp data).trans
      (congrArg _ ((congrArg (State.accountEnd · j.tag) h1).trans h2))
  have faults : ∀ t : State, u.jobDescriptorFault j.tag = t → t.accountEnd j.tag = t →
      exec (.descriptorReadFault a.id) s = .next t := fun t h1 h2 =>
    (exec_descriptorReadFault hl ha hp).trans (congrArg _ ((congrArg (State.accountEnd · j.tag) h1).trans h2))
  have moves : ∀ (t : State) (c : Cursor), t.table = s.table.set j.tag (some { e with cursor := some c }) →
      t.accountEnd j.tag = t := fun _ _ htab => State.accountEnd_of_cursor ht htab
  have hwalk : ∀ w : Walk, u.setWalk j w = walks w w.cursor := State.setWalk_eq hxu
  refine ⟨fun hn hlook => ⟨?_, ?_⟩, fun hn => ⟨?_, fun hd => ?_, fun hd => ?_, fun hd => ?_⟩⟩
  · exact completes _ ((State.jobDescriptor_ahead hju hpos hn hlook d).trans (hwalk _)) (moves _ _ rfl)
  · exact faults _ ((State.jobDescriptorFault_ahead hju hn hlook).trans (hwalk _)) (moves _ _ rfl)
  · have hr := State.moverFault_reports hju hxu ht .hostAccessFault
    exact ⟨_, faults _ (State.jobDescriptorFault_needed hju hn) hr.accountEnd, hr⟩
  · have hr := State.jobDescriptor_malformed hju hpos hn hxu ht hd
    exact ⟨_, completes _ rfl hr.accountEnd, hr⟩
  · exact completes _ ((State.jobDescriptor_leads hju hpos hn hd).trans
      (congrArg (fun m : State => m.issue (.descriptor j.tag) d.addr 16 []) (hwalk _))) (moves _ _ rfl)
  · intro ahead look v
    have hstep := State.jobDescriptor_usable hju hpos hn hd
    refine ⟨fun hh => completes _ (hstep.trans ?_) (moves _ _ rfl), fun h hh hseg hplaced hsize hlen => ?_⟩
    · rw [State.jobNeed_inEntry hxu]
      exact State.pump_idle (j := { j with walk := j.walk.inEntry page entry d 0 look }) rfl (.inr hh) 4096
    · obtain ⟨g, hg⟩ := Option.ne_none_iff_exists'.1 hseg
      have htaken := State.pump_entry (s := u) (page := page) (entry := entry) (fuel := 4096) hh hxu hg ht hd hplaced
        (by omega) hlen
      exact ⟨_, completes _ hstep (htaken.accountEnd ht), htaken⟩

end Sys2Proof.Machine
end

section
/-! The room of the event queue (O9): a record enters the queue by LATCH_TO_QUEUE alone outside the link side, and only
while a place is neither taken nor held; a written record leaves it, and a reset empties it. -/
namespace Sys2Proof.Machine

/-! ## Records that enter and leave the queue (R158, R162, R163) -/

/-- R162: a free place is one that neither a record nor the reservation takes. -/
theorem State.one_le_eventRoom_iff (s : State) :
    1 ≤ s.eventRoom ↔ s.eventQueue.length + s.reservation.toNat + 1 ≤ 8 := by
  unfold State.eventRoom; omega

theorem State.pushEvent_roomOk {s : State} (h : 1 ≤ s.eventRoom) (e : Event) : (s.pushEvent e).RoomOk := by
  have hroom := s.one_le_eventRoom_iff.1 h
  obtain ⟨hqueue, hres, -⟩ := pushEvent_frame s e
  unfold State.RoomOk
  rw [hqueue, hres, List.length_append, List.length_singleton]
  omega

/-- R162: emptying a latch leaves the queue and the place held. -/
theorem State.firstLatch_eventRoom {s t : State} {e : Event} (h : s.firstLatch = some (e, t)) :
    t.eventRoom = s.eventRoom := by
  unfold State.firstLatch at h
  split at h
  · cases h; rfl
  · split at h
    · cases h; rfl
    · split at h
      · cases h; rfl
      · cases h

theorem State.moveLatch_roomOk {s : State} (h : 1 ≤ s.eventRoom) : s.moveLatch.RoomOk := by
  unfold State.moveLatch
  split
  next e t hlatch => exact State.pushEvent_roomOk (State.firstLatch_eventRoom hlatch ▸ h) e
  next =>
    have hroom := s.one_le_eventRoom_iff.1 h
    unfold State.RoomOk; omega

theorem State.dequeueEvent_roomOk {s : State} (h : s.RoomOk) : s.dequeueEvent.RoomOk := by
  obtain ⟨-, -, -, -, hres, hqueue, -⟩ := s.dequeueEvent_frame
  unfold State.RoomOk at *
  rw [hqueue, hres, List.length_tail]
  omega

theorem State.freeSource_roomOk {s : State} (h : s.RoomOk) (src : Source) : (s.freeSource src).RoomOk := by
  unfold State.freeSource
  split
  · split <;> exact h
  · split <;> exact h
  · exact State.dequeueEvent_roomOk h

/-- R164: moderation leaves the queue and the place held. -/
theorem State.moderate_roomOk {s : State} (h : s.RoomOk) (r : RingId) (c : CRing) : (s.moderate r c).RoomOk := by
  obtain ⟨hout, -, -, hqueue, -⟩ := s.moderate_outer r c
  unfold State.RoomOk at *
  rw [hqueue, hout.reservation]
  exact h

theorem State.recordDone_roomOk {s : State} (h : s.RoomOk) (id : Nat) : (s.recordDone id).RoomOk := by
  unfold State.recordDone
  split
  next r c src _ =>
    exact State.moderate_roomOk (State.freeSource_roomOk (s := (s.endAccess id).leaveList r src) h src) r c.written
  next => exact h

theorem State.beginRecord_roomOk {s : State} (h : s.RoomOk) (r : RingId) : (s.beginRecord r).RoomOk := by
  unfold State.beginRecord
  split
  · split
    · split <;> exact h
    · exact h
  · exact h

/-! ## Rings (R143 to R145, R160) -/

/-- R145: a ring that faults fills its latch, not the queue. -/
theorem State.faultRing_roomOk {s : State} (h : s.RoomOk) (r : RingId) (c : RingCause) : (s.faultRing r c).RoomOk := by
  obtain ⟨hout, -, hqueue, -⟩ := s.faultRing_outer r c
  unfold State.RoomOk at *
  rw [hqueue, hout.reservation]
  exact h

theorem State.takePost_roomOk {s : State} (h : s.RoomOk) (v : Word) : (s.takePost v).RoomOk := by
  unfold State.takePost
  split
  · split
    · split
      · exact h
      · exact State.faultRing_roomOk h _ _
    · exact h
  · exact h

theorem State.takeRelease_roomOk {s : State} (h : s.RoomOk) (v : Word) : (s.takeRelease v).RoomOk := by
  unfold State.takeRelease
  split
  · split
    · dsimp only
      split <;> exact h
    · exact h
  · exact h

theorem State.beginFetch_roomOk {s : State} (h : s.RoomOk) (r : RingId) : (s.beginFetch r).RoomOk := by
  unfold State.beginFetch; split <;> exact h

theorem State.fetchDone_roomOk {s : State} (h : s.RoomOk) (id : Nat) (w : BitVec 512) : (s.fetchDone id w).RoomOk := by
  unfold State.fetchDone; split <;> exact h

theorem State.fetchFaulted_roomOk {s : State} (h : s.RoomOk) (id : Nat) : (s.fetchFaulted id).RoomOk := by
  unfold State.fetchFaulted
  split
  next r _ _ =>
    exact State.faultRing_roomOk (s := (s.endAccess id).modSubRing r (fun x => { x with holding := .empty })) h _ _
  next => exact h

/-! ## Admission and cancellation (R131, R132, R150, R152) -/

theorem State.spendCredit_roomOk {s : State} (h : s.RoomOk) : s.spendCredit.RoomOk := by
  unfold State.spendCredit
  split
  · split <;> exact h
  · exact h

theorem State.takeCancel_roomOk {s : State} (h : s.RoomOk) (r : RingId) (w : BitVec 512) (index : Nat)
    (ring : RingId) (id : BitVec 16) : (s.takeCancel r w index ring id).RoomOk := by
  have hall : ((s.cancelFinds ring id).foldl State.cancelOne s).RoomOk := (Inner.cancelAll s _).room h
  unfold State.takeCancel
  exact (Inner.joinTogether _ _).room hall

theorem State.takeHeld_roomOk {s : State} (h : s.RoomOk) (r : RingId) (w : BitVec 512) (index : Nat) :
    (s.takeHeld r w index).RoomOk := by
  unfold State.takeHeld
  split
  · split <;> exact h
  · exact (Inner.join _ _).room h
  · exact State.takeCancel_roomOk (s := s.fencePassed r) h r w index _ _

theorem State.admitPointed_roomOk {s : State} (h : s.RoomOk) : s.admitPointed.RoomOk := by
  unfold State.admitPointed
  split
  · exact State.takeHeld_roomOk (State.spendCredit_roomOk h) _ _ _
  all_goals exact h

theorem State.arbitrate_roomOk {s : State} (h : s.RoomOk) : s.arbitrate.RoomOk := by
  unfold State.arbitrate
  split
  · exact State.admitPointed_roomOk h
  · split
    · exact h
    · split
      next r _ => exact State.admitPointed_roomOk (s := s.pointAt r) h
      next => exact h

/-! ## Device control (R170 to R176) -/

/-- R163, R176: a cleared part has an empty queue and holds no place. -/
theorem State.clearBlocks_roomOk (s : State) : s.clearBlocks.RoomOk := State.roomOk_reset

theorem State.functionReset_roomOk (s : State) : s.functionReset.RoomOk := s.clearBlocks_roomOk

theorem State.powerOn_roomOk (s : State) : s.powerOn.RoomOk := s.clearBlocks_roomOk

theorem State.endDrain_roomOk (s : State) : s.endDrain.RoomOk :=
  State.clearBlocks_roomOk (allRings.foldl State.flushVector s)

theorem State.takeEnable_roomOk {s : State} (h : s.RoomOk) : s.takeEnable.RoomOk := by
  unfold State.takeEnable State.beginLoading
  dsimp only
  split
  · split <;> exact h
  · exact h

theorem State.takeDisable_roomOk {s : State} (h : s.RoomOk) : s.takeDisable.RoomOk := by
  unfold State.takeDisable; split <;> exact h

theorem State.takeLinkReset_roomOk {s : State} (h : s.RoomOk) : s.takeLinkReset.RoomOk := by
  unfold State.takeLinkReset
  split
  · exact (Inner.startLinkReset (s.setResult .ok) _).room h
  · exact h

theorem State.writeCommand_roomOk {s : State} (h : s.RoomOk) (code : Word) : (s.writeCommand code).RoomOk := by
  unfold State.writeCommand
  split
  · exact State.takeEnable_roomOk h
  · exact State.takeDisable_roomOk h
  · exact State.takeLinkReset_roomOk h
  · exact s.functionReset_roomOk
  · exact h

theorem State.writeWord_roomOk {s : State} (h : s.RoomOk) (v : Word) (word : RegWord) : (s.writeWord v word).RoomOk := by
  cases word with
  | configBaseLow =>
    change (s.writeBaseLow v).RoomOk
    unfold State.writeBaseLow; split <;> exact h
  | configBaseHigh =>
    change (s.writeBaseHigh v).RoomOk
    unfold State.writeBaseHigh; split <;> exact h
  | command => exact State.writeCommand_roomOk h v
  | status => exact h
  | post => exact State.takePost_roomOk h v
  | release => exact State.takeRelease_roomOk h v

theorem State.writeRegister_roomOk {s : State} (h : s.RoomOk) (offset bytes : Nat) (v : Word) :
    (s.writeRegister offset bytes v).RoomOk := by
  unfold State.writeRegister
  split
  · exact h
  · split
    · exact State.writeWord_roomOk h v _
    · exact h

theorem State.setArbiter_roomOk {s : State} (h : s.RoomOk) : s.setArbiter.RoomOk := by
  unfold State.setArbiter; split <;> exact h

/-- R80, R172: the start-up link reset gives up the place held. -/
theorem State.enterRunning_roomOk {s : State} (h : s.RoomOk) (c : BitVec 2048) : (s.enterRunning c).RoomOk := by
  unfold State.enterRunning
  refine (Inner.startLinkReset _ .startUp).room (State.setArbiter_roomOk ?_)
  exact (Inner.foldl _ (fun a st => Inner.modStation a st Station.watched) allStations _).room h

theorem State.configRead_roomOk {s : State} (h : s.RoomOk) (id : Nat) (data : BitVec 512) :
    (s.configRead id data).RoomOk := by
  unfold State.configRead
  split
  next part _ =>
    dsimp only
    split
    · unfold State.judgeConfig
      split
      · exact State.enterRunning_roomOk (s := s.keepPart id part data) h _
      · exact h
    · exact h
  next => exact h

theorem State.configFault_roomOk {s : State} (h : s.RoomOk) (id : Nat) : (s.configFault id).RoomOk := by
  unfold State.configFault; split <;> exact h

/-! ## The law -/

/-- A command outside the link side keeps the law. -/
theorem exec_deviceSide_roomOk (c : Instr) (s : State) (hc : linkSide c = false) (h : s.RoomOk) :
    ∃ t, exec c s = .next t ∧ t.RoomOk := by
  cases c <;> cases hc
  case powerOn => exact ⟨_, rfl, s.powerOn_roomOk⟩
  case hostLinkResetInput => exact ⟨_, rfl, s.powerOn_roomOk⟩
  case endpointFunctionReset => exact ⟨_, rfl, s.functionReset_roomOk⟩
  case enable => exact ⟨_, rfl, State.takeEnable_roomOk h⟩
  case disable => exact ⟨_, rfl, State.takeDisable_roomOk h⟩
  case linkReset => exact ⟨_, rfl, State.takeLinkReset_roomOk h⟩
  case functionReset => exact ⟨_, rfl, s.functionReset_roomOk⟩
  case undefinedCommand code => exact ⟨_, rfl, State.writeCommand_roomOk h code⟩
  case registerWrite offset bytes v => exact ⟨_, rfl, State.writeRegister_roomOk h offset bytes v⟩
  case post v => exact ⟨_, rfl, State.takePost_roomOk h v⟩
  case release v => exact ⟨_, rfl, State.takeRelease_roomOk h v⟩
  case configReadComplete id data => exact ⟨_, rfl, State.configRead_roomOk h id data⟩
  case configReadFault id => exact ⟨_, rfl, State.configFault_roomOk h id⟩
  case drainComplete =>
    refine ⟨_, rfl, ?_⟩; split
    · exact s.endDrain_roomOk
    · exact h
  case fetchStart r =>
    refine ⟨_, rfl, ?_⟩; split
    · exact State.beginFetch_roomOk h r
    · exact h
  case fetchComplete id w => exact ⟨_, rfl, State.fetchDone_roomOk h id w⟩
  case fetchFault id => exact ⟨_, rfl, State.fetchFaulted_roomOk h id⟩
  case admission => exact ⟨_, rfl, State.arbitrate_roomOk h⟩
  case latchToQueue =>
    refine ⟨_, rfl, ?_⟩; split
    next hroom =>
      obtain ⟨-, hfree⟩ := Bool.and_eq_true_iff.1 hroom
      exact State.moveLatch_roomOk (of_decide_eq_true hfree)
    next => exact h
  case recordWriteBegin r => exact ⟨_, rfl, State.beginRecord_roomOk h r⟩
  case recordWriteComplete id => exact ⟨_, rfl, State.recordDone_roomOk h id⟩
  case recordWriteFault id =>
    refine ⟨_, rfl, ?_⟩; split <;> exact h
  case moderationDelayExpiry r =>
    refine ⟨_, rfl, ?_⟩; split <;> exact h

theorem exec_roomOk (c : Instr) (s : State) (h : s.RoomOk) : ∃ t, exec c s = .next t ∧ t.RoomOk := by
  cases hc : linkSide c with
  | false => exact exec_deviceSide_roomOk c s hc h
  | true =>
    obtain ⟨t, ht, hin⟩ := exec_linkSide c s hc
    exact ⟨t, ht, hin.room h⟩

theorem Ticked.roomOk {s t : State} (h : Ticked s t) (hs : s.RoomOk) : t.RoomOk := by
  unfold State.RoomOk at *
  rw [h.eventQueue, h.reservation]
  exact hs

/-- Settles O9: a step is one command, which keeps the law, or one period, which leaves the queue and the place held. -/
theorem stepKeepsEventQueueRoom : Obligations.StepKeepsEventQueueRoom := by
  intro s t h hs
  unfold step at hs
  split at hs
  next c rest _ =>
    obtain ⟨u, hu, hok⟩ := exec_roomOk c { s with pending := rest } h
    cases hu.symm.trans hs
    exact hok
  next =>
    cases hs
    exact s.tick_frame.roomOk h

end Sys2Proof.Machine
end

section
/-! A valid configuration block (O18): the part takes its records from the block, and the start-up link reset begins. -/
namespace Sys2Proof.Machine

/-! ## The block's checks (R171) -/

theorem allRings_mem (r : RingId) : r ∈ allRings := by revert r; decide

theorem Cfg.used_lt {c : BitVec 2048} {n : Nat} (h : Cfg.usedCring c n = true) : n < 4 := by
  unfold Cfg.usedCring at h
  split at h
  next r hr =>
    have hn : r.val = n := beq_iff_eq.1 (List.find?_some (p := fun r : RingId => r.val == n) hr)
    exact hn ▸ r.isLt
  next => cases h

theorem Cfg.valid_subRings {c : BitVec 2048} (h : Cfg.valid c = true) :
    (∀ r, Cfg.subExp c r ≠ 0 → Cfg.subCring c r < 4) ∧ ∃ r, Cfg.subExp c r ≠ 0 := by
  unfold Cfg.valid at h
  simp only [Bool.and_eq_true, List.all_eq_true, List.any_eq_true] at h
  obtain ⟨⟨⟨hsub, -⟩, r, -, hused⟩, -⟩ := h
  refine ⟨fun r hr => ?_, r, bne_iff_ne.1 hused⟩
  have hok := hsub r (allRings_mem r)
  unfold Cfg.subOk at hok
  rw [beq_eq_false_iff_ne.2 hr, Bool.false_or, Bool.and_eq_true] at hok
  exact Cfg.used_lt hok.2

/-! ## The records that the block gives (R141, R155) -/

theorem SubRing.configured_used {c : BitVec 2048} {r : RingId} (h : Cfg.subExp c r ≠ 0) :
    SubRing.configured c r = { SubRing.reset with
      state := .active,
      cfg := some { base := Cfg.subBase c r, size := 2 ^ Cfg.subExp c r, weight := Cfg.subWeight c r,
                    cring := ⟨Cfg.subCring c r % 4, Nat.mod_lt _ (by decide)⟩ } } := if_neg h

theorem SubRing.configured_isSome (c : BitVec 2048) (r : RingId) :
    (SubRing.configured c r).cfg.isSome = true ↔ Cfg.subExp c r ≠ 0 := by
  by_cases h : Cfg.subExp c r = 0
  · unfold SubRing.configured; rw [if_pos h]; exact ⟨fun h => (by cases h), fun hn => absurd h hn⟩
  · rw [SubRing.configured_used h]; exact ⟨fun _ => h, fun _ => rfl⟩

/-- R141: the submission rings of a block, by ring. -/
theorem subRing_of_configured {s : State} {c : BitVec 2048}
    (h : s.subRings
      = #v[SubRing.configured c 0, SubRing.configured c 1, SubRing.configured c 2, SubRing.configured c 3])
    (r : RingId) : s.subRing r = SubRing.configured c r := by
  unfold State.subRing
  rw [h]
  fin_cases r <;> rfl

/-- R155: the completion rings of a block, by ring. -/
theorem cring_of_configured {s : State} {c : BitVec 2048}
    (h : s.crings = #v[CRing.configured c 0, CRing.configured c 1, CRing.configured c 2, CRing.configured c 3])
    (r : RingId) : s.cring r = CRing.configured c r := by
  unfold State.cring
  rw [h]
  fin_cases r <;> rfl

/-! ## Entering RUNNING (R47, R152, R171, R172) -/

/-- R171, R172: the part with its configuration, before the start-up link reset begins. -/
def State.configuredBy (s : State) (c : BitVec 2048) : State :=
  let s1 := (s.abandonLoad.setResult .ok).setDeviceState .running
  let s2 :=
    { s1 with
      device := { s1.device with config := some c, lck := some (BitVec.ofNat 8 (Cfg.rateCode c)) },
      subRings := #v[SubRing.configured c 0, SubRing.configured c 1, SubRing.configured c 2, SubRing.configured c 3],
      crings := #v[CRing.configured c 0, CRing.configured c 1, CRing.configured c 2, CRing.configured c 3] }
  (allStations.foldl (fun (a : State) st => a.modStation st Station.watched) s2).setArbiter

theorem State.enterRunning_eq (s : State) (c : BitVec 2048) :
    s.enterRunning c = ((s.configuredBy c).startLinkReset .startUp).sendDeviceVector := by
  unfold State.enterRunning State.configuredBy; rfl

theorem State.stations_foldAll (f : Station → Station) (s : State) :
    (allStations.foldl (fun a st => a.modStation st f) s).stations = s.stations.map f := by
  refine Vector.ext fun i hi => ?_
  rw [Vector.getElem_map]
  exact s.station_foldAll f ⟨i, hi⟩

theorem State.setArbiter_eq (s : State) :
    s.setArbiter = { s with arbPtr := s.setArbiter.arbPtr, arbCredit := s.setArbiter.arbCredit } := by
  unfold State.setArbiter; split <;> rfl

theorem State.configuredBy_eq (s : State) (c : BitVec 2048) :
    s.configuredBy c =
      { s with
        device := { s.abandonLoad.device with result := .ok, state := .running, config := some c,
                                              lck := some (BitVec.ofNat 8 (Cfg.rateCode c)) },
        subRings := #v[SubRing.configured c 0, SubRing.configured c 1, SubRing.configured c 2, SubRing.configured c 3],
        crings := #v[CRing.configured c 0, CRing.configured c 1, CRing.configured c 2, CRing.configured c 3],
        arbPtr := (s.configuredBy c).arbPtr, arbCredit := (s.configuredBy c).arbCredit,
        accesses := s.abandonLoad.accesses, stations := s.stations.map Station.watched } := by
  generalize hp : (s.configuredBy c).arbPtr = p, hq : (s.configuredBy c).arbCredit = q
  unfold State.configuredBy at hp hq ⊢
  rw [State.setArbiter_eq, hp, hq, State.foldAll_stations, State.stations_foldAll]; rfl

theorem allRings_split (r : RingId) : ∃ l₁ l₂, allRings = l₁ ++ r :: l₂ ∧ ∀ u ∈ l₁, u < r := by
  have split : ∀ r : RingId, allRings = allRings.take r.val ++ r :: allRings.drop (r.val + 1) ∧
      ∀ u ∈ allRings.take r.val, u < r := by decide
  exact ⟨_, _, split r⟩

/-- R152: the arbiter begins at the lowest used ring, with that ring's weight. -/
theorem State.setArbiter_lowest {s : State} {c : BitVec 2048} (hring : ∀ r, s.subRing r = SubRing.configured c r)
    (h : ∃ r, Cfg.subExp c r ≠ 0) :
    ∃ r, s.setArbiter.arbPtr = r ∧ Cfg.subExp c r ≠ 0 ∧ (∀ u, u < r → Cfg.subExp c u = 0) ∧
      s.setArbiter.arbCredit = Cfg.subWeight c r := by
  obtain ⟨r, hr, hlow⟩ := wellFounded_lt.has_min {r : RingId | Cfg.subExp c r ≠ 0} h
  have hbelow : ∀ u, u < r → Cfg.subExp c u = 0 := fun u hu => not_not.1 fun hne => hlow u hne hu
  have hused : ∀ u, s.usedRing u = true ↔ Cfg.subExp c u ≠ 0 := fun u => by
    unfold State.usedRing; rw [hring]; exact SubRing.configured_isSome c u
  have hfind : allRings.find? s.usedRing = some r :=
    find?_lowest (allRings_split r) hused ⟨hr, fun u hu => not_not.2 (hbelow u hu)⟩
  have hpoint : s.setArbiter = s.pointAt r := by unfold State.setArbiter; rw [hfind]
  refine ⟨r, by rw [hpoint]; rfl, hr, hbelow, ?_⟩
  rw [hpoint]
  change s.weightOf r = _
  unfold State.weightOf
  rw [hring, SubRing.configured_used hr]

theorem State.configuredBy_arbiter {c : BitVec 2048} (h : ∃ r, Cfg.subExp c r ≠ 0) (s : State) :
    ∃ r, (s.configuredBy c).arbPtr = r ∧ Cfg.subExp c r ≠ 0 ∧ (∀ u, u < r → Cfg.subExp c u = 0) ∧
      (s.configuredBy c).arbCredit = Cfg.subWeight c r :=
  State.setArbiter_lowest (subRing_of_configured (by rw [State.foldAll_stations])) h

/-! ## The start-up link reset (R80) -/

/-- A link reset reads no interrupt message. -/
theorem LinkResetBegun.withVectors {s t : State} {cause : LinkCause} (h : LinkResetBegun s t cause)
    (v : List VectorId) : LinkResetBegun { s with vectors := v } { t with vectors := v } cause :=
  ⟨h.engine, h.latch, h.exchanges, h.stations, h.queues, h.lanes, h.notices, h.waiting,
    congrArg (fun x : State => { x with vectors := v }) h.rest⟩

/-- R80: a link reset leaves device control and the rings. -/
theorem LinkResetBegun.leaves {s t : State} {cause : LinkCause} (h : LinkResetBegun s t cause) :
    t.device = s.device ∧ t.subRings = s.subRings ∧ t.crings = s.crings ∧ t.arbPtr = s.arbPtr ∧
    t.arbCredit = s.arbCredit ∧ t.vectors = s.vectors ∧ t.eventQueue = s.eventQueue ∧ t.ringLatch = s.ringLatch := by
  rw [h.rest]
  exact ⟨rfl, rfl, rfl, rfl, rfl, rfl, rfl, rfl⟩

/-- R47, R59: a link reset leaves the presence inputs. -/
theorem LinkResetBegun.presence {s t : State} {cause : LinkCause} (h : LinkResetBegun s t cause) (u : StationId) :
    (t.station u).level = (s.station u).level ∧ (t.station u).debounce = (s.station u).debounce := by
  rw [h.stations u]
  dsimp only
  split <;> exact ⟨rfl, rfl⟩

/-- R171: the last of the four reads brings the block to judgement. -/
theorem exec_configReadComplete_valid {s : State} {a : Access} {part : Fin 4} {data : BitVec 512} {c : BitVec 2048}
    (hload : s.device.state = .loading) (ha : s.access a.id = some a) (hp : a.purpose = .configRead part)
    (hblock : ({ s.device with load := s.device.load.set part (some data) } : Device).loadedBlock = some c)
    (hvalid : Cfg.valid c = true) :
    exec (.configReadComplete a.id data) s = .next ((s.keepPart a.id part data).enterRunning c) := by
  have hpart : s.configPart a.id = some part := by
    unfold State.configPart
    rw [if_pos hload, ha]; dsimp only; rw [hp]
  have hloaded : (s.keepPart a.id part data).device.loadedBlock = some c := hblock
  change Host.Outcome.next (s.configRead a.id data) = _
  unfold State.configRead
  rw [hpart]; dsimp only; rw [hloaded]; dsimp only
  unfold State.judgeConfig
  rw [if_pos hvalid]

/-- Settles O18: the part is configured by the block, and the link reset that follows leaves what it configured. -/
theorem validBlockStartsRunning : Obligations.ValidBlockStartsRunning := by
  intro s a part data c hload ha hp hreset hblock hvalid
  let k : State := s.keepPart a.id part data
  let m : State := k.configuredBy c
  let n : State := m.startLinkReset .startUp
  let t : State := n.sendDeviceVector
  have hm : m = _ := k.configuredBy_eq c
  have hbegun : LinkResetBegun m n .startUp := State.startLinkReset_begun (by rw [hm]; exact hreset) _
  obtain ⟨hdev, hsub, hcomp, hptr, hcredit, hsent, hqueue, hlatch⟩ := hbegun.leaves
  obtain ⟨hreset, hcl, -⟩ := hbegun.engine
  change t.device = m.device at hdev
  change t.subRings = m.subRings at hsub
  change t.crings = m.crings at hcomp
  change t.arbPtr = m.arbPtr at hptr
  change t.arbCredit = m.arbCredit at hcredit
  have hring : ∀ r, t.subRing r = SubRing.configured c r := subRing_of_configured (by rw [hsub, hm])
  have hcring : ∀ r, t.cring r = CRing.configured c r := cring_of_configured (by rw [hcomp, hm])
  have hwatched : ∀ u, m.station u = (k.station u).watched := fun u => by
    rw [hm]; unfold State.station; exact Vector.getElem_map ..
  have hstart : ({ m with vectors := t.vectors } : State) =
      { s with
        device := m.device, vectors := t.vectors, subRings := m.subRings, crings := m.crings, arbPtr := m.arbPtr,
        arbCredit := m.arbCredit,
        accesses := (s.accesses.filter (fun b => b.id != a.id)).filter (fun b => !b.isConfigRead),
        stations := s.stations.map (fun r => { r with level := some false, debounce := some 0 }) } := by
    rw [hm]; rfl
  obtain ⟨hcrings, hsome⟩ := Cfg.valid_subRings hvalid
  refine ⟨t, ?_, ?_, ?_, fun r hr => ?_, fun r hr => ?_, fun r hr => ?_, fun r hr => ?_, fun u => ?_, ?_,
    hreset, hbegun.latch.trans (by rw [if_pos rfl, hm]; rfl), hcl, hqueue.trans (by rw [hm]; rfl),
    hlatch.trans (by rw [hm]; rfl), ?_⟩
  · rw [exec_configReadComplete_valid hload ha hp hblock hvalid, State.enterRunning_eq]
  · rw [hdev, hm]; rfl
  · change n.vectors ++ [4] = _; rw [hsent, hm]; rfl
  · rw [hring]; exact if_pos hr
  · rw [hring, SubRing.configured_used hr]
    exact ⟨rfl, rfl, rfl, rfl, rfl, _, rfl, rfl, rfl, rfl, Nat.mod_eq_of_lt (hcrings r hr)⟩
  · rw [hcring]; exact if_pos hr
  · rw [hcring]; exact if_neg hr
  · obtain ⟨hlevel, hdebounce⟩ := hbegun.presence u
    rw [hwatched] at hlevel hdebounce
    exact ⟨hlevel, hdebounce⟩
  · rw [hptr, hcredit]; exact k.configuredBy_arbiter hsome
  · rw [hdev, hsub, hcomp, hptr, hcredit]
    have hfrom := hbegun.withVectors t.vectors
    rw [hstart] at hfrom
    exact hfrom

end Sys2Proof.Machine
end

section
/-! POST and fetching (O20, O22, O23): a POST is judged by ring and device state, a fetch reads the next entry, and its
report is taken by the ring that waits for it. -/
namespace Sys2Proof.Machine

/-! ## POST (R143, R145) -/

theorem ringField_eq {v : Word} {r : RingId} (h : (v.extractLsb' 16 2).toNat = r.val) : ringField v = r := Fin.ext h

theorem SubRing.postSize_none {x : SubRing} (h : x.state = .unused ∨ x.state = .faulted) : x.postSize = none := by
  unfold SubRing.postSize
  rcases h with h | h <;> rw [h]

theorem SubRing.postSize_some {x : SubRing} {g : RingConfig} (h : x.state = .active ∨ x.state = .fenceWait)
    (hg : x.cfg = some g) : x.postSize = some g.size := by
  unfold SubRing.postSize
  rcases h with h | h <;> rw [h, hg] <;> rfl

/-- R145: a ring that is not FAULTED yet. -/
theorem State.faultRing_eq {s : State} {r : RingId} (h : (s.subRing r).state ≠ .faulted) (c : RingCause) :
    s.faultRing r c =
      { s with
        device := { s.device with ringFault := s.device.ringFault.set r true },
        subRings := s.subRings.set r { s.subRing r with state := .faulted, cause := some c },
        ringLatch := s.ringLatch.set r (some c) } := by
  unfold State.faultRing
  rw [if_neg h]; rfl

/-- Settles O20: the ring field names the ring, whose state and size decide. -/
theorem postTakenByRingAndDeviceState : Obligations.PostTakenByRingAndDeviceState := by
  intro s v r hr index
  have hexec : exec (.post v) s = .next (s.takePost v) := rfl
  rw [hexec]
  unfold State.takePost
  rw [ringField_eq hr]
  refine ⟨fun hout => ?_, fun g hl hst hg => ?_⟩
  · rcases hout with hdead | hst
    · rw [hdead]; rfl
    · cases hl : s.live with
      | false => rfl
      | true => rw [SubRing.postSize_none hst]; rfl
  · rw [if_pos hl, SubRing.postSize_some hst hg]
    dsimp only
    refine ⟨fun hin => ?_, fun hpast => ?_⟩
    · rw [if_pos (show indexField v < g.size from hin)]; rfl
    · have hne : (s.subRing r).state ≠ .faulted := by rcases hst with h | h <;> rw [h] <;> decide
      rw [if_neg (Nat.not_lt.2 (show g.size ≤ indexField v from hpast)), State.faultRing_eq hne]

/-! ## Fetching (R144, R145, R151) -/

/-- Settles O22: the conditions of a fetch hold, and the address is that of the entry at the fetch index. -/
theorem fetchReadsTheNextEntry : Obligations.FetchReadsTheNextEntry := by
  intro s r g hrun hact hcfg hempty hposted
  have hmay : s.mayFetch r = true := by
    unfold State.mayFetch
    rw [hrun, hact, hempty, bne_iff_ne.2 hposted]; rfl
  change Host.Outcome.next (if s.mayFetch r then s.beginFetch r else s) = _
  rw [if_pos hmay]
  unfold State.beginFetch
  rw [hcfg]; rfl

theorem State.fetchOf_eq {s : State} {a : Access} {r : RingId} {index : Nat} (hl : s.live = true)
    (ha : s.access a.id = some a) (hp : a.purpose = .fetch r) (hh : (s.subRing r).holding = .fetching index) :
    s.fetchOf a.id = some (r, index) := by
  unfold State.fetchOf
  rw [if_pos hl, ha]; dsimp only; rw [hp]; dsimp only; rw [hh]

/-- R144, R151: the fetch index wraps, and an unmet fence is seen in the outstanding count before the fetch. -/
theorem SubRing.fetched_eq {x : SubRing} {g : RingConfig} (hg : x.cfg = some g) (w : BitVec 512) (index : Nat) :
    x.fetched w index =
      { x with
        holding := .waiting w index, fetchIdx := (index + 1) % g.size, outstanding := x.outstanding + 1,
        state := if x.state = .active ∧ w.getLsbD 8 = true ∧ 0 < x.outstanding then .fenceWait else x.state } := by
  unfold SubRing.fetched Wr.fence
  rw [hg]

/-- A ring record that is written twice keeps what was written last. -/
theorem State.subRings_set_modSubRing (s : State) (r : RingId) (f : SubRing → SubRing) (y : SubRing) :
    (s.modSubRing r f).subRings.set r y = s.subRings.set r y := Vector.set_set ..

/-- Settles O23: the report is that of the ring's outstanding fetch. -/
theorem fetchEndsInAHeldRequestOrARingFault : Obligations.FetchEndsInAHeldRequestOrARingFault := by
  intro s a r g index w hl ha hp hh hg
  have hof := State.fetchOf_eq hl ha hp hh
  let m : State := (s.endAccess a.id).modSubRing r (fun x => { x with holding := .empty })
  have hring : m.subRing r = { s.subRing r with holding := .empty } := State.subRing_modSubRing_self _ r _
  have hfault : exec (.fetchFault a.id) s = .next (m.faultRing r .fetchFault) := by
    change Host.Outcome.next (s.fetchFaulted a.id) = _
    unfold State.fetchFaulted; rw [hof]
  refine ⟨?_, fun hst => ?_, fun hst => ?_⟩
  · change Host.Outcome.next (s.fetchDone a.id w) = _
    unfold State.fetchDone
    rw [hof]
    change Host.Outcome.next { s with
      accesses := s.accesses.filter (fun b => b.id != a.id),
      subRings := s.subRings.set r ((s.subRing r).fetched w index) } = _
    rw [SubRing.fetched_eq hg]
  · rw [hfault, State.faultRing_eq (s := m) (by rw [hring]; exact hst), hring]
    dsimp only
    rw [State.subRings_set_modSubRing]
    rfl
  · rw [hfault]
    unfold State.faultRing
    rw [if_pos (by rw [hring]; exact hst)]
    rfl

end Sys2Proof.Machine
end

section
/-! The arbiter and the work requests that complete at once (O26, O28). -/
namespace Sys2Proof.Machine

/-! ## Completion at admission (R150) -/

theorem State.join_holding {s : State} {r c : RingId} (h : s.cringOf r = some c) :
    s.join (.holding r) = { s with waiting := joinedAt s c (.holding r) } := by
  unfold State.join
  dsimp only
  rw [h]
  exact s.joinList_waiting c _

/-- R150: a work request that completes at admission stays in its holding position and joins. -/
theorem State.takeHeld_immediate {s : State} {r : RingId} {w : BitVec 512} {st : Status} {g : RingConfig}
    (hj : s.judge w = .immediate st) (hg : (s.subRing r).cfg = some g) (index : Nat) :
    s.takeHeld r w index =
      { (s.fencePassed r).holdCompleting r w index st 0 with waiting := joinedAt s g.cring (.holding r) } := by
  have hcring : ((s.fencePassed r).holdCompleting r w index st 0).cringOf r = some g.cring := by
    unfold State.cringOf State.holdCompleting State.fencePassed
    rw [State.subRing_modSubRing_self, State.subRing_modSubRing_self]
    change (s.subRing r).cfg.map _ = _
    rw [hg]; rfl
  unfold State.takeHeld
  rw [hj]
  exact State.join_holding hcring

/-- Settles O26: the request passes the arbiter, and its ring's waiting list takes it. -/
theorem admissionCompletesAtOnce : Obligations.AdmissionCompletesAtOnce := by
  intro s w index st g hl hh hg hf hj
  obtain ⟨p, c, hspend, hstay, hmove⟩ := s.spendCredit_spends
  let b : State := { s with arbPtr := p, arbCredit := c }
  have hexec : exec .admission s = .next (b.takeHeld s.arbPtr w index) := by
    rw [exec_admission hl hh hf (fun k x h => by rw [hj] at h; cases h), hspend]
  rw [State.takeHeld_immediate (s := b) (r := s.arbPtr) hj hg] at hexec
  exact ⟨_, hexec, fun u => b.subRing_taken s.arbPtr u _, rfl, hstay, hmove, rfl⟩

/-! ## Admissible work requests (R151, R152) -/

theorem SubRing.fenceMet_iff (x : SubRing) (w : BitVec 512) :
    x.fenceMet w = true ↔ (w.getLsbD 8 = true → x.outstanding = 1) := by
  unfold SubRing.fenceMet Wr.fence
  cases w.getLsbD 8 <;> simp

theorem State.freeSlot_isSome_iff (s : State) : s.freeSlot.isSome = true ↔ ∃ x, s.exch x = none := by
  unfold State.freeSlot
  rw [List.find?_isSome]
  exact ⟨fun ⟨x, _, hx⟩ => ⟨x, Option.isNone_iff_eq_none.1 hx⟩,
    fun ⟨x, hx⟩ => ⟨x, allTags_mem x, Option.isNone_iff_eq_none.2 hx⟩⟩

theorem Holding.isFetching_iff (h : Holding) : h.isFetching = true ↔ ∃ index, h = .fetching index := by
  cases h with
  | fetching index => exact ⟨fun _ => ⟨index, rfl⟩, fun _ => rfl⟩
  | empty | waiting _ _ | completing _ _ _ _ => exact ⟨fun h => (by cases h), fun ⟨_, h⟩ => (by cases h)⟩

theorem State.admissible_iff (s : State) (r : RingId) :
    s.admissible r = true ↔ ∃ w index, (s.subRing r).holding = .waiting w index ∧
      (s.device.state = .running ∨ s.device.state = .draining) ∧
      (w.getLsbD 8 = true → (s.subRing r).outstanding = 1) ∧
      (∀ k st, s.judge w = .exchange k st → ∃ x, s.exch x = none) := by
  unfold State.admissible
  cases (s.subRing r).holding with
  | waiting w index =>
    dsimp only
    rw [Bool.and_eq_true, Bool.and_eq_true, s.live_iff, SubRing.fenceMet_iff, and_assoc]
    constructor
    · rintro ⟨hl, hf, hslot⟩
      refine ⟨w, index, rfl, hl, hf, fun k st hj => ?_⟩
      rw [hj] at hslot
      exact s.freeSlot_isSome_iff.1 hslot
    · rintro ⟨w', index', hw, hl, hf, hslot⟩
      cases hw
      refine ⟨hl, hf, ?_⟩
      cases hj : s.judge w with
      | exchange k st => exact s.freeSlot_isSome_iff.2 (hslot k st hj)
      | immediate _ | cancel _ _ => rfl
  | empty | fetching _ | completing _ _ _ _ => exact ⟨fun h => (by cases h), fun ⟨_, _, h, _⟩ => (by cases h)⟩

/-! ## The arbiter (R152) -/

/-- R152: the arbiter waits for a fetch under its pointer. -/
theorem State.arbitrate_waits {s : State} (hno : s.admissible s.arbPtr = false)
    (hf : (s.subRing s.arbPtr).holding.isFetching = true) : s.arbitrate = s := by
  unfold State.arbitrate
  rw [hno, hf]; rfl

/-- R152: with no fetch under its pointer, the arbiter moves to the next ring with an admissible work request. -/
theorem State.arbitrate_moves {s : State} {r : RingId} (hno : s.admissible s.arbPtr = false)
    (hf : (s.subRing s.arbPtr).holding.isFetching = false)
    (hfind : (ringsAfter s.arbPtr).find? (fun u => s.usedRing u && s.admissible u) = some r) :
    s.arbitrate = (s.pointAt r).admitPointed := by
  unfold State.arbitrate
  rw [hno, hf, hfind]; rfl

/-- R152: without an admissible work request the arbiter does nothing. -/
theorem State.arbitrate_idle {s : State} (hno : s.admissible s.arbPtr = false)
    (hnone : ∀ r, (s.usedRing r && s.admissible r) = false) : s.arbitrate = s := by
  have hfind : (ringsAfter s.arbPtr).find? (fun u => s.usedRing u && s.admissible u) = none :=
    List.find?_eq_none.2 fun r _ => by rw [hnone r]; decide
  cases hf : (s.subRing s.arbPtr).holding.isFetching with
  | true => exact State.arbitrate_waits hno hf
  | false => unfold State.arbitrate; rw [hno, hf, hfind]; rfl

theorem State.pointAt_eq {s : State} {r : RingId} {g : RingConfig} (h : (s.subRing r).cfg = some g) :
    s.pointAt r = { s with arbPtr := r, arbCredit := g.weight } := by
  unfold State.pointAt State.weightOf; rw [h]

/-- Settles O28: the arbiter waits, finds nothing, or moves to the ring it finds and admits there. -/
theorem arbiterMovesInRingOrder : Obligations.ArbiterMovesInRingOrder := by
  refine ⟨fun s r => ⟨Option.isSome_iff_ne_none, Holding.isFetching_iff _, s.admissible_iff r⟩,
    by decide, by decide, by decide, by decide,
    fun s hno => ⟨fun hf => ?_, fun hnone => ?_, fun r g hf hfind hg => ?_⟩⟩
  · exact congrArg Host.Outcome.next (State.arbitrate_waits hno hf)
  · exact congrArg Host.Outcome.next (State.arbitrate_idle hno hnone)
  · obtain ⟨-, hadm⟩ := Bool.and_eq_true_iff.1
      (List.find?_some (p := fun u => s.usedRing u && s.admissible u) hfind)
    let b : State := { s with arbPtr := r, arbCredit := g.weight }
    have hb : b.arbitrate = b.admitPointed := by
      unfold State.arbitrate
      rw [if_pos (show b.admissible b.arbPtr = true from hadm)]
    change Host.Outcome.next s.arbitrate = .next b.arbitrate
    rw [hb, State.arbitrate_moves hno hf hfind, State.pointAt_eq hg]

end Sys2Proof.Machine
end

section
/-! The submission rings (O7, O8): a command leaves the ring records and the origins of the exchanges alone, or clears
or configures all of them, or changes one ring record and with it at most one slot of that ring. -/
namespace Sys2Proof.Machine

/-! ## The slots of a ring (R146) -/

/-- R1: the device states in which every slot is FREE. -/
def State.Idle (s : State) : Prop := s.device.state = .off ∨ s.device.state = .loading

theorem State.not_idle_of_live {s : State} (h : s.live = true) : ¬ s.Idle := by
  unfold State.live at h
  rintro (hs | hs) <;> rw [hs] at h <;> cases h

theorem State.originIs_eq (s : State) (r : RingId) (x : Tag) :
    s.originIs r x = ((s.exch x).map (·.ring) == some r) := by
  unfold State.originIs
  cases s.exch x <;> rfl

theorem State.slotsOf_congr {s t : State} (h : ∀ x, (t.exch x).map (·.ring) = (s.exch x).map (·.ring))
    (r : RingId) : t.slotsOf r = s.slotsOf r := by
  unfold State.slotsOf
  refine congrArg List.length (List.filter_congr fun x _ => ?_)
  rw [State.originIs_eq, State.originIs_eq, h]

theorem State.slotsOf_free {s : State} (h : ∀ x, s.exch x = none) (r : RingId) : s.slotsOf r = 0 := by
  unfold State.slotsOf
  rw [List.length_eq_zero_iff, List.filter_eq_nil_iff]
  intro x _
  rw [State.originIs_eq, h]
  exact Bool.false_ne_true

/-- R146: an exchange in a slot that was FREE is one more slot of its origin. -/
theorem State.slotsOf_setExch_some {s : State} {x : Tag} (hx : s.exch x = none) (e : Exchange) (r : RingId) :
    (s.setExch x (some e)).slotsOf r = s.slotsOf r + if e.ring = r then 1 else 0 := by
  have hperm : allTags.Perm (x :: allTags.erase x) := List.perm_cons_erase (allTags_mem x)
  have hrest : ∀ u ∈ allTags.erase x, (s.setExch x (some e)).originIs r u = s.originIs r u := by
    intro u hu
    have hne : u ≠ x := ((List.Nodup.mem_erase_iff (by decide)).1 hu).1
    rw [State.originIs_eq, State.originIs_eq, State.exch_setExch_ne _ _ hne.symm]
  have hold : s.originIs r x = false := by rw [State.originIs_eq, hx]; rfl
  have hnew : (s.setExch x (some e)).originIs r x = (e.ring == r) := by
    rw [State.originIs_eq, State.exch_setExch_self]; rfl
  unfold State.slotsOf
  rw [(hperm.filter _).length_eq, (hperm.filter (s.originIs r)).length_eq, List.filter_cons, List.filter_cons, hold,
    hnew, List.filter_congr hrest]
  by_cases hr : e.ring = r <;> simp [hr]

/-- R23, R146: a slot that becomes FREE is one slot less of its origin. -/
theorem State.slotsOf_setExch_none {s : State} {x : Tag} {e : Exchange} (hx : s.exch x = some e) (r : RingId) :
    s.slotsOf r = (s.setExch x none).slotsOf r + if e.ring = r then 1 else 0 := by
  rw [← State.slotsOf_setExch_some (State.exch_setExch_self s x none) e r]
  refine (State.slotsOf_congr (fun u => ?_) r).symm
  rw [State.exch_setExch, State.exch_setExch]
  by_cases hu : x = u
  · subst hu; rw [if_pos rfl, hx]
  · rw [if_neg hu, if_neg hu]

/-! ## The two laws together -/

/-- R141, R146: what a command must do to keep the laws of the submission rings. -/
structure KeepsRings (s t : State) : Prop where
  indices : s.IndicesOk → t.IndicesOk
  counts : s.CountsOk → t.CountsOk

namespace KeepsRings

theorem refl (s : State) : KeepsRings s s := ⟨id, id⟩

theorem trans {s t u : State} (a : KeepsRings s t) (b : KeepsRings t u) : KeepsRings s u :=
  ⟨fun h => b.indices (a.indices h), fun h => b.counts (a.counts h)⟩

/-- Neither the ring records nor the origins of the exchanges change. -/
theorem of_same {s t : State} (hrings : t.subRings = s.subRings)
    (horigins : ∀ x, (t.exch x).map (·.ring) = (s.exch x).map (·.ring)) (hidle : t.Idle → s.Idle) :
    KeepsRings s t := by
  have hring : ∀ r, t.subRing r = s.subRing r := fun r => by unfold State.subRing; rw [hrings]
  refine ⟨fun h r => hring r ▸ h r, fun ⟨hcount, hfree⟩ => ⟨fun r => ?_, fun hi x => ?_⟩⟩
  · rw [hring, State.slotsOf_congr horigins]; exact hcount r
  · have hx := horigins x
    rw [hfree (hidle hi)] at hx
    exact Option.map_eq_none_iff.1 hx

theorem of_inner {s t : State} (h : Inner s t) : KeepsRings s t :=
  .of_same h.subRings h.origins (fun hi => by unfold State.Idle at *; rw [← h.device]; exact hi)

theorem of_ticked {s t : State} (h : Ticked s t) : KeepsRings s t :=
  .of_same h.subRings h.origins (fun hi => by unfold State.Idle at *; rw [← h.device]; exact hi)

/-- R141, R176: the ring records and the slots are as after power-on. -/
theorem of_cleared {s t : State} (hrings : t.subRings = State.reset.subRings) (htable : t.table = State.reset.table) :
    KeepsRings s t := by
  have hring : ∀ r, t.subRing r = SubRing.reset := fun r => by
    rw [← State.subRing_reset r]; unfold State.subRing; rw [hrings]
  have hfree : ∀ x, t.exch x = none := fun x => by rw [← State.exch_reset x]; unfold State.exch; rw [htable]
  refine ⟨fun _ r => ?_, fun _ => ⟨fun r => ?_, fun _ => hfree⟩⟩
  · rw [hring]; intro c hc; cases hc
  · rw [hring, State.slotsOf_free hfree]; rfl

/-- One ring record becomes `y`, and the slots of that ring alone may change. -/
theorem of_ring {s t : State} (r : RingId) (y : SubRing) (hrings : t.subRings = s.subRings.set r y)
    (hindices : (s.subRing r).Ok → y.Ok)
    (hcount : (s.subRing r).outstanding = s.slotsOf r + (s.subRing r).holding.occupied.toNat →
      y.outstanding = t.slotsOf r + y.holding.occupied.toNat)
    (hothers : ∀ u, u ≠ r → t.slotsOf u = s.slotsOf u)
    (hfree : t.Idle → (s.Idle → ∀ x, s.exch x = none) → ∀ x, t.exch x = none) : KeepsRings s t := by
  have hset : ∀ u, t.subRing u = if r = u then y else s.subRing u := fun u => by
    have hmod : t.subRing u = (s.modSubRing r (fun _ => y)).subRing u := by unfold State.subRing; rw [hrings]; rfl
    rw [hmod, State.subRing_modSubRing]
  refine ⟨fun h u => ?_, fun ⟨h, hs⟩ => ⟨fun u => ?_, fun hi => hfree hi hs⟩⟩
  · rw [hset]; split
    · exact hindices (h r)
    · exact h u
  · rw [hset]; split
    next hu => subst hu; exact hcount (h r)
    next hu => rw [hothers u (Ne.symm hu)]; exact h u

/-- One ring record changes and no slot does. -/
theorem modSubRing (s : State) (r : RingId) (f : SubRing → SubRing)
    (hindices : (s.subRing r).Ok → (f (s.subRing r)).Ok)
    (hcount : (f (s.subRing r)).outstanding + (s.subRing r).holding.occupied.toNat
      = (s.subRing r).outstanding + (f (s.subRing r)).holding.occupied.toNat) : KeepsRings s (s.modSubRing r f) :=
  .of_ring r (f (s.subRing r)) rfl hindices
    (fun h => by
      have hslots : (s.modSubRing r f).slotsOf r = s.slotsOf r := rfl
      omega)
    (fun _ _ => rfl) (fun hi hs => hs hi)

/-! ## POST and fetching (R143 to R145) -/

theorem faultRing (s : State) (r : RingId) (c : RingCause) : KeepsRings s (s.faultRing r c) := by
  unfold State.faultRing
  split
  · exact .refl s
  · exact (KeepsRings.modSubRing s r _ id rfl).trans (.of_same rfl (fun _ => rfl) id)

/-- R143: the index of a POST that is taken lies in the ring. -/
theorem takePost (s : State) (v : Word) : KeepsRings s (s.takePost v) := by
  unfold State.takePost
  split
  · split
    next size hsize =>
      split
      next hlt =>
        refine (KeepsRings.modSubRing s (ringField v) (fun x => { x with postIdx := indexField v })
          (fun h g hg => ?_) rfl).trans (.of_same rfl (fun _ => rfl) id)
        have hpost : (s.subRing (ringField v)).postSize = some g.size := by
          unfold SubRing.postSize at hsize ⊢
          have hg' : (s.subRing (ringField v)).cfg = some g := hg
          split at hsize
          · rw [hg']; rfl
          · rw [hg']; rfl
          all_goals cases hsize
        obtain ⟨hpos, hfetch, -⟩ := h g hg
        obtain rfl := Option.some.inj (hsize.symm.trans hpost)
        exact ⟨hpos, hfetch, hlt⟩
      next => exact .faultRing _ _ _
    next => exact .of_same rfl (fun _ => rfl) id
  · exact .of_same rfl (fun _ => rfl) id

theorem takeRelease (s : State) (v : Word) : KeepsRings s (s.takeRelease v) := by
  unfold State.takeRelease
  split
  · split
    · dsimp only
      split <;> exact .of_same rfl (fun _ => rfl) id
    · exact .of_same rfl (fun _ => rfl) id
  · exact .refl s

/-- R144: a holding position that becomes FETCHING was EMPTY: neither is occupied. -/
theorem beginFetch {s : State} {r : RingId} (h : s.mayFetch r = true) : KeepsRings s (s.beginFetch r) := by
  have hempty : (s.subRing r).holding.occupied = false := by
    unfold State.mayFetch Holding.isEmpty at h
    cases hh : (s.subRing r).holding with
    | empty | fetching _ => rfl
    | waiting _ _ | completing _ _ _ _ => rw [hh] at h; simp at h
  unfold State.beginFetch
  split
  · refine (KeepsRings.modSubRing s r (fun x => { x with holding := .fetching x.fetchIdx }) id ?_).trans
      (.of_inner (.issue _ _ _ _ _))
    rw [hempty]; rfl
  · exact .refl s

end KeepsRings

/-- R153: a fetch ends in a FETCHING holding position. -/
theorem State.fetchOf_holding {s : State} {id : Nat} {r : RingId} {index : Nat} (h : s.fetchOf id = some (r, index)) :
    (s.subRing r).holding = .fetching index := by
  unfold State.fetchOf at h
  split at h
  · split at h
    · split at h
      · split at h
        next hh => cases h; exact hh
        all_goals cases h
      all_goals cases h
    · cases h
  · cases h

/-- R144: the fetch index wraps within the ring. -/
theorem SubRing.fetched_ok {x : SubRing} (h : x.Ok) (w : BitVec 512) (index : Nat) : (x.fetched w index).Ok := by
  intro g hg
  have hx : x.cfg = some g := hg
  obtain ⟨hpos, -, hpost⟩ := h g hx
  refine ⟨hpos, ?_, hpost⟩
  unfold SubRing.fetched
  rw [hx]
  exact Nat.mod_lt _ hpos

namespace KeepsRings

/-- R144, R146: the holding position becomes occupied, and the count rises by one. -/
theorem fetchDone (s : State) (id : Nat) (w : BitVec 512) : KeepsRings s (s.fetchDone id w) := by
  unfold State.fetchDone
  split
  next r index h =>
    refine (KeepsRings.of_inner (.endAccess s id)).trans
      (.modSubRing (s.endAccess id) r _ (fun hok => SubRing.fetched_ok hok w index) ?_)
    have hh : ((s.endAccess id).subRing r).holding = .fetching index := (State.fetchOf_holding h :)
    rw [hh]; rfl
  next => exact .refl s

theorem fetchFaulted (s : State) (id : Nat) : KeepsRings s (s.fetchFaulted id) := by
  unfold State.fetchFaulted
  split
  next r index h =>
    refine ((KeepsRings.of_inner (.endAccess s id)).trans
      (.modSubRing (s.endAccess id) r (fun x => { x with holding := .empty }) (fun h => h) ?_)).trans (.faultRing _ _ _)
    have hh : ((s.endAccess id).subRing r).holding = .fetching index := (State.fetchOf_holding h :)
    rw [hh]; rfl
  next => exact .refl s

/-! ## The poster (R146, R157, R158, R162) -/

theorem pushEvent (s : State) (e : Event) : KeepsRings s (s.pushEvent e) := by
  obtain ⟨-, -, hdev, -, hrings, -, -, htable, -⟩ := pushEvent_frame s e
  exact .of_same hrings (fun x => by unfold State.exch; rw [htable])
    (fun hi => by unfold State.Idle at *; rw [← hdev]; exact hi)

theorem firstLatch {s t : State} {e : Event} (h : s.firstLatch = some (e, t)) : KeepsRings s t := by
  unfold State.firstLatch at h
  split at h
  · cases h; exact .of_same rfl (fun _ => rfl) id
  · split at h
    · cases h; exact .of_same rfl (fun _ => rfl) id
    · split at h
      · cases h; exact .of_same rfl (fun _ => rfl) id
      · cases h

theorem moveLatch (s : State) : KeepsRings s s.moveLatch := by
  unfold State.moveLatch
  split
  next e t h => exact (firstLatch h).trans (.pushEvent t e)
  next => exact .refl s

theorem beginRecord (s : State) (r : RingId) : KeepsRings s (s.beginRecord r) := by
  unfold State.beginRecord
  split
  · split
    · split
      · exact .of_same rfl (fun _ => rfl) id
      · exact .refl s
    · exact .refl s
  · exact .refl s

/-- R23, R146: a written record frees a slot of its ring, or its holding position, and the count falls by one. -/
theorem freeSource (s : State) (src : Source) : KeepsRings s (s.freeSource src) := by
  cases src with
  | exchange x =>
    cases hx : s.exch x with
    | none => unfold State.freeSource; dsimp only; rw [hx]; exact .refl s
    | some e =>
      rw [State.freeSource_exchange hx]
      have hslots : ∀ u, s.slotsOf u = (s.setExch x none).slotsOf u + if e.ring = u then 1 else 0 :=
        State.slotsOf_setExch_none hx
      refine .of_ring e.ring _ rfl id (fun h => ?_) (fun u hu => ?_) (fun hi hs => absurd (hs hi x) (by rw [hx]; simp))
      · change (s.subRing e.ring).outstanding - 1
          = (s.setExch x none).slotsOf e.ring + (s.subRing e.ring).holding.occupied.toNat
        have hring := hslots e.ring
        rw [if_pos rfl] at hring
        omega
      · have hring := hslots u
        rw [if_neg (Ne.symm hu)] at hring
        exact hring.symm
  | holding r =>
    cases hh : (s.subRing r).holding with
    | completing w index st v =>
      rw [State.freeSource_holding hh]
      refine .of_ring r _ rfl id (fun h => ?_) (fun u _ => rfl) (fun hi hs => hs hi)
      change (s.subRing r).outstanding - 1 = s.slotsOf r + 0
      rw [hh] at h
      change (s.subRing r).outstanding = s.slotsOf r + 1 at h
      omega
    | empty | fetching _ | waiting _ _ => unfold State.freeSource; dsimp only; rw [hh]; exact .refl s
  | event =>
    obtain ⟨htable, hrings, -, hdev, -⟩ := s.dequeueEvent_frame
    exact .of_same hrings (fun x => by unfold State.exch; exact congrArg (fun m => Option.map _ m[x]) htable)
      (fun hi => by unfold State.Idle at *; rw [← hdev]; exact hi)

theorem recordDone (s : State) (id : Nat) : KeepsRings s (s.recordDone id) := by
  unfold State.recordDone
  split
  next r c src _ =>
    have hleave : KeepsRings s ((s.endAccess id).leaveList r src) := .of_same rfl (fun _ => rfl) (fun h => h)
    obtain ⟨hout, hdev, hrings, -⟩ := (((s.endAccess id).leaveList r src).freeSource src).moderate_outer r c.written
    exact (hleave.trans (.freeSource _ src)).trans (.of_same hrings (fun x => congrArg _ (hout.exch x))
      (fun hi => by unfold State.Idle at *; rw [← hdev]; exact hi))
  next => exact .refl s

/-! ## Admission and cancellation (R131, R132, R150 to R152) -/

theorem fencePassed (s : State) (r : RingId) : KeepsRings s (s.fencePassed r) := .modSubRing s r _ id rfl

/-- R150: the holding position stays occupied. -/
theorem holdCompleting {s : State} {r : RingId} {w : BitVec 512} {index : Nat}
    (h : (s.subRing r).holding = .waiting w index) (w' : BitVec 512) (index' : Nat) (st : Status) (v : Word) :
    KeepsRings s (s.holdCompleting r w' index' st v) :=
  .modSubRing s r _ id (by rw [h]; rfl)

/-- R4, R146: the holding position empties, and the ring gains the slot of its exchange. -/
theorem placeExchange {s : State} {r : RingId} {w : BitVec 512} {index : Nat} {x : Tag} (hl : s.live = true)
    (hx : s.exch x = none) (h : (s.subRing r).holding = .waiting w index) (k : ExKind) (st : StationId) :
    KeepsRings s (s.placeExchange x k st r index w) := by
  have hslots : ∀ u, (s.placeExchange x k st r index w).slotsOf u = s.slotsOf u + if r = u then 1 else 0 :=
    State.slotsOf_setExch_some hx (Exchange.ofWr k st r index w)
  refine .of_ring r { s.subRing r with holding := .empty } rfl id (fun hcount => ?_) (fun u hu => ?_)
    (fun hi _ => absurd hi (State.not_idle_of_live (s := s.placeExchange x k st r index w) hl))
  · rw [h] at hcount
    rw [hslots r, if_pos rfl]
    exact hcount
  · rw [hslots u, if_neg (Ne.symm hu)]; rfl

theorem takeCancel {s : State} {r : RingId} {w : BitVec 512} {index : Nat}
    (h : (s.subRing r).holding = .waiting w index) (ring : RingId) (id : BitVec 16) :
    KeepsRings s (s.takeCancel r w index ring id) := by
  have hall := Inner.cancelAll s (s.cancelFinds ring id)
  have hheld : (((s.cancelFinds ring id).foldl State.cancelOne s).subRing r).holding = .waiting w index := by
    unfold State.subRing at *; rw [hall.subRings]; exact h
  unfold State.takeCancel
  exact ((KeepsRings.of_inner hall).trans (.holdCompleting hheld _ _ _ _)).trans (.of_inner (.joinTogether _ _))

theorem takeHeld {s : State} {r : RingId} {w : BitVec 512} {index : Nat} (hl : s.live = true)
    (h : (s.subRing r).holding = .waiting w index) : KeepsRings s (s.takeHeld r w index) := by
  have hpass := KeepsRings.fencePassed s r
  have hheld : ((s.fencePassed r).subRing r).holding = .waiting w index := by
    unfold State.fencePassed; rw [State.subRing_modSubRing_self]; exact h
  unfold State.takeHeld
  split
  · split
    next x hx =>
      have hnone : (s.fencePassed r).exch x = none := 
        Option.isNone_iff_eq_none.1 (List.find?_some (p := fun u => (s.exch u).isNone) hx)
      exact hpass.trans (.placeExchange (s := s.fencePassed r) hl hnone hheld _ _)
    next => exact .refl s
  · exact (hpass.trans (.holdCompleting hheld _ _ _ _)).trans (.of_inner (.join _ _))
  · exact hpass.trans (.takeCancel hheld _ _)

theorem admitPointed {s : State} (hl : s.live = true) : KeepsRings s s.admitPointed := by
  obtain ⟨p, c, hspend, -⟩ := s.spendCredit_spends
  unfold State.admitPointed
  split
  next w index h =>
    rw [hspend]
    have hptr : KeepsRings s { s with arbPtr := p, arbCredit := c } := .of_same rfl (fun _ => rfl) id
    exact hptr.trans (.takeHeld (s := { s with arbPtr := p, arbCredit := c }) hl h)
  all_goals exact .refl s

end KeepsRings

theorem State.live_of_admissible {s : State} {r : RingId} (h : s.admissible r = true) : s.live = true := by
  obtain ⟨-, -, -, hl, -⟩ := (s.admissible_iff r).1 h
  exact s.live_iff.2 hl

namespace KeepsRings

theorem arbitrate (s : State) : KeepsRings s s.arbitrate := by
  unfold State.arbitrate
  split
  next h => exact .admitPointed (State.live_of_admissible h)
  next =>
    split
    · exact .refl s
    · split
      next r hr =>
        obtain ⟨-, hadm⟩ := Bool.and_eq_true_iff.1
          (List.find?_some (p := fun u => s.usedRing u && s.admissible u) hr)
        have hptr : KeepsRings s (s.pointAt r) := .of_same rfl (fun _ => rfl) id
        exact hptr.trans (.admitPointed (s := s.pointAt r) (State.live_of_admissible hadm))
      next => exact .refl s

/-! ## Device control (R170 to R176) -/

theorem functionReset (s : State) : KeepsRings s s.functionReset := .of_cleared rfl rfl

theorem powerOn (s : State) : KeepsRings s s.powerOn := .of_cleared rfl rfl

theorem endDrain (s : State) : KeepsRings s s.endDrain := .of_cleared rfl rfl

/-- R168: only a load in progress ends in OFF without a reset. -/
theorem endLoading {s : State} (h : s.Idle) (r : CommandResult) : KeepsRings s (s.endLoading r) :=
  .of_same rfl (fun _ => rfl) (fun _ => h)

theorem takeEnable (s : State) : KeepsRings s s.takeEnable := by
  unfold State.takeEnable
  split
  next hoff =>
    unfold State.beginLoading
    dsimp only
    split <;> exact .of_same rfl (fun _ => rfl) (fun _ => .inl hoff)
  next => exact .of_same rfl (fun _ => rfl) id

theorem takeDisable (s : State) : KeepsRings s s.takeDisable := by
  unfold State.takeDisable
  split
  next hload => exact .endLoading (.inr hload) _
  next => exact .of_same rfl (fun _ => rfl) (by rintro (h | h) <;> cases h)
  all_goals exact .of_same rfl (fun _ => rfl) id

theorem takeLinkReset (s : State) : KeepsRings s s.takeLinkReset := by
  unfold State.takeLinkReset
  split
  · have hresult : KeepsRings s (s.setResult .ok) := .of_same rfl (fun _ => rfl) id
    exact hresult.trans (.of_inner (.startLinkReset _ _))
  · exact .of_same rfl (fun _ => rfl) id

theorem writeCommand (s : State) (code : Word) : KeepsRings s (s.writeCommand code) := by
  unfold State.writeCommand
  split
  · exact .takeEnable s
  · exact .takeDisable s
  · exact .takeLinkReset s
  · exact .functionReset s
  · exact .of_same rfl (fun _ => rfl) id

theorem writeWord (s : State) (v : Word) (word : RegWord) : KeepsRings s (s.writeWord v word) := by
  cases word with
  | configBaseLow =>
    change KeepsRings s (s.writeBaseLow v)
    unfold State.writeBaseLow; split <;> exact .of_same rfl (fun _ => rfl) id
  | configBaseHigh =>
    change KeepsRings s (s.writeBaseHigh v)
    unfold State.writeBaseHigh; split <;> exact .of_same rfl (fun _ => rfl) id
  | command => exact .writeCommand s v
  | status => exact .refl s
  | post => exact .takePost s v
  | release => exact .takeRelease s v

theorem writeRegister (s : State) (offset bytes : Nat) (v : Word) : KeepsRings s (s.writeRegister offset bytes v) := by
  unfold State.writeRegister
  split
  · exact .refl s
  · split
    · exact .writeWord s v _
    · exact .refl s

end KeepsRings

/-- R141: both indices of a configured ring are 0, and it has entries. -/
theorem SubRing.configured_ok (c : BitVec 2048) (r : RingId) : (SubRing.configured c r).Ok := by
  intro g hg
  unfold SubRing.configured at *
  split at hg
  · cases hg
  · rw [if_neg ‹_›]
    obtain rfl := Option.some.inj hg
    exact ⟨Nat.two_pow_pos _, Nat.two_pow_pos _, Nat.two_pow_pos _⟩

theorem SubRing.configured_count (c : BitVec 2048) (r : RingId) :
    (SubRing.configured c r).outstanding = 0 ∧ (SubRing.configured c r).holding = .empty := by
  unfold SubRing.configured; split <;> exact ⟨rfl, rfl⟩

namespace KeepsRings

/-- R1, R141: in LOADING every slot is FREE, and every ring takes its record from the block. -/
theorem of_configured {s t : State} {c : BitVec 2048} (hload : s.device.state = .loading)
    (hrings : t.subRings
      = #v[SubRing.configured c 0, SubRing.configured c 1, SubRing.configured c 2, SubRing.configured c 3])
    (htable : t.table = s.table) : KeepsRings s t := by
  have hring := subRing_of_configured hrings
  refine ⟨fun _ r => ?_, fun ⟨_, hs⟩ => ?_⟩
  · rw [hring]; exact SubRing.configured_ok c r
  · have hfree : ∀ x, t.exch x = none := fun x => by unfold State.exch; rw [htable]; exact hs (.inr hload) x
    refine ⟨fun r => ?_, fun _ => hfree⟩
    obtain ⟨hcount, hempty⟩ := SubRing.configured_count c r
    rw [hring, State.slotsOf_free hfree, hcount, hempty]; rfl

theorem enterRunning {s : State} (hload : s.device.state = .loading) (c : BitVec 2048) :
    KeepsRings s (s.enterRunning c) := by
  have hconf : KeepsRings s (s.configuredBy c) := by
    rw [State.configuredBy_eq]; exact .of_configured hload rfl rfl
  rw [State.enterRunning_eq]
  exact (hconf.trans (.of_inner (.startLinkReset _ _))).trans (.of_same rfl (fun _ => rfl) id)

theorem configRead (s : State) (id : Nat) (data : BitVec 512) : KeepsRings s (s.configRead id data) := by
  unfold State.configRead
  split
  next part hpart =>
    have hload := State.configPart_loading hpart
    have hkeep : KeepsRings s (s.keepPart id part data) := .of_same rfl (fun _ => rfl) (fun h => h)
    dsimp only
    split
    · unfold State.judgeConfig
      split
      · exact hkeep.trans (.enterRunning (s := s.keepPart id part data) hload _)
      · exact hkeep.trans (.endLoading (s := s.keepPart id part data) (.inr hload) _)
    · exact hkeep
  next => exact .refl s

theorem configFault (s : State) (id : Nat) : KeepsRings s (s.configFault id) := by
  unfold State.configFault
  split
  next part hpart => exact .endLoading (.inr (State.configPart_loading hpart)) _
  next => exact .refl s

theorem enterStopped (s : State) : KeepsRings s s.enterStopped :=
  .of_same rfl (fun _ => rfl) (by rintro (h | h) <;> cases h)

end KeepsRings

/-! ## The laws -/

/-- A command outside the link side keeps both laws. -/
theorem exec_deviceSide_keepsRings (c : Instr) (s : State) (hc : linkSide c = false) :
    ∃ t, exec c s = .next t ∧ KeepsRings s t := by
  cases c <;> cases hc
  case powerOn => exact ⟨_, rfl, .powerOn s⟩
  case hostLinkResetInput => exact ⟨_, rfl, .powerOn s⟩
  case endpointFunctionReset => exact ⟨_, rfl, .functionReset s⟩
  case enable => exact ⟨_, rfl, .takeEnable s⟩
  case disable => exact ⟨_, rfl, .takeDisable s⟩
  case linkReset => exact ⟨_, rfl, .takeLinkReset s⟩
  case functionReset => exact ⟨_, rfl, .functionReset s⟩
  case undefinedCommand code => exact ⟨_, rfl, .writeCommand s code⟩
  case registerWrite offset bytes v => exact ⟨_, rfl, .writeRegister s offset bytes v⟩
  case post v => exact ⟨_, rfl, .takePost s v⟩
  case release v => exact ⟨_, rfl, .takeRelease s v⟩
  case configReadComplete id data => exact ⟨_, rfl, .configRead s id data⟩
  case configReadFault id => exact ⟨_, rfl, .configFault s id⟩
  case drainComplete =>
    refine ⟨_, rfl, ?_⟩; split
    · exact .endDrain s
    · exact .refl s
  case fetchStart r =>
    refine ⟨_, rfl, ?_⟩; split
    next hmay => exact .beginFetch hmay
    next => exact .refl s
  case fetchComplete id w => exact ⟨_, rfl, .fetchDone s id w⟩
  case fetchFault id => exact ⟨_, rfl, .fetchFaulted s id⟩
  case admission => exact ⟨_, rfl, .arbitrate s⟩
  case latchToQueue =>
    refine ⟨_, rfl, ?_⟩; split
    · exact .moveLatch s
    · exact .refl s
  case recordWriteBegin r => exact ⟨_, rfl, .beginRecord s r⟩
  case recordWriteComplete id => exact ⟨_, rfl, .recordDone s id⟩
  case recordWriteFault id =>
    refine ⟨_, rfl, ?_⟩; split
    · exact (KeepsRings.of_inner (.endAccess s id)).trans (.enterStopped _)
    · exact .refl s
  case moderationDelayExpiry r =>
    refine ⟨_, rfl, ?_⟩; split
    · exact .of_same rfl (fun _ => rfl) id
    · exact .refl s

theorem exec_keepsRings (c : Instr) (s : State) : ∃ t, exec c s = .next t ∧ KeepsRings s t := by
  cases hc : linkSide c with
  | false => exact exec_deviceSide_keepsRings c s hc
  | true =>
    obtain ⟨t, ht, hin⟩ := exec_linkSide c s hc
    exact ⟨t, ht, .of_inner hin⟩

/-- A step is one command, or one period, which leaves rings and origins alone. -/
theorem step_keepsRings {s t : State} (h : step s = .next t) : KeepsRings s t := by
  unfold step at h
  split at h
  next c rest _ =>
    obtain ⟨u, hu, hkeeps⟩ := exec_keepsRings c { s with pending := rest }
    cases hu.symm.trans h
    have hrest : KeepsRings s { s with pending := rest } := .of_same rfl (fun _ => rfl) id
    exact hrest.trans hkeeps
  next =>
    cases h
    exact .of_ticked s.tick_frame

/-- Settles O7: the index of a POST is checked, the fetch index wraps, and a configured ring starts at 0. -/
theorem stepKeepsRingIndicesInRange : Obligations.StepKeepsRingIndicesInRange :=
  fun _ _ h hs => (step_keepsRings hs).indices h

/-- Settles O8: a fetch counts its holding position, admission turns that into a slot, and a written record frees one of
the two. -/
theorem stepKeepsOutstandingCounts : Obligations.StepKeepsOutstandingCounts :=
  fun _ _ h hs => (step_keepsRings hs).counts h

end Sys2Proof.Machine
end

section
/-! The completion rings (O6): beginning and ending a record, a RELEASE and the delay of moderation each write one ring
record and keep its law; a configuration or a reset writes them all; every other command leaves them as they are. -/
namespace Sys2Proof.Machine

/-! ## Ring records that meet the law -/

theorem State.CRingsOk.of_same {s t : State} (hs : s.CRingsOk) (h : t.crings = s.crings) : t.CRingsOk := by
  intro r c hc
  unfold State.cring at hc
  rw [h] at hc
  exact hs r c hc

/-- One ring record is written, by a record that meets the law. -/
theorem State.CRingsOk.set {s t : State} {r : RingId} {c : CRing} (hs : s.CRingsOk)
    (h : t.crings = s.crings.set r (some c)) (hc : c.Ok) : t.CRingsOk := by
  have hset : (s.setCring r c).CRingsOk := fun u d hu => by
    rw [State.cring_setCring] at hu
    split at hu
    · cases hu; exact hc
    · exact hs u d hu
  exact hset.of_same h

/-- R155, R176: after a reset no ring is used. -/
theorem State.CRingsOk.of_reset {t : State} (h : t.crings = State.reset.crings) : t.CRingsOk :=
  State.cringsOk_reset.of_same h

/-- R155: a configured ring is empty, and its size is a power of two. -/
theorem CRing.configured_ok {b : BitVec 2048} {r : RingId} {c : CRing} (h : CRing.configured b r = some c) : c.Ok := by
  unfold CRing.configured at h
  split at h
  · cases h
  · cases h
    exact ⟨Nat.two_pow_pos _, Nat.two_pow_pos _, Nat.zero_le _, (Nat.zero_mod _).symm, fun hw => by cases hw⟩

/-- R157: a record is begun only while its ring has room. -/
theorem CRing.begun_ok {c : CRing} (h : c.Ok) (hroom : c.unreleased < c.size) (src : Source) :
    ({ c with writing := some src } : CRing).Ok := by
  obtain ⟨hsize, hhead, hle, htail, -⟩ := h
  exact ⟨hsize, hhead, hle, htail, fun _ => hroom⟩

/-! ## The poster (R157, R158, R162, R164) -/

/-- R162: emptying a latch writes that latch alone. -/
theorem State.firstLatch_writes {s t : State} {e : Event} (h : s.firstLatch = some (e, t)) :
    t = { s with linkLatch := t.linkLatch, ringLatch := t.ringLatch, stations := t.stations } := by
  unfold State.firstLatch at h
  split at h
  · cases h; rfl
  · split at h
    · cases h; rfl
    · split at h
      · cases h; rfl
      · cases h

theorem State.moveLatch_crings (s : State) : s.moveLatch.crings = s.crings := by
  unfold State.moveLatch
  split
  next e t h =>
    obtain ⟨-, -, -, hpush, -⟩ := pushEvent_frame t e
    exact hpush.trans (by rw [State.firstLatch_writes h])
  next => rfl

theorem State.room_of_nextSource {s : State} {r : RingId} {c : CRing} {src : Source}
    (h : s.nextSource r c = some src) : c.unreleased < c.size := by
  unfold State.nextSource at h
  split at h
  next hmay =>
    obtain ⟨-, -, hroom⟩ := hmay
    exact hroom
  next => cases h

theorem State.beginRecord_cringsOk {s : State} (h : s.CRingsOk) (r : RingId) : (s.beginRecord r).CRingsOk := by
  unfold State.beginRecord
  split
  next c hc =>
    split
    next src hsrc =>
      split
      · exact h.set rfl (CRing.begun_ok (h r c hc) (State.room_of_nextSource hsrc) src)
      · exact h
    next => exact h
  next => exact h

theorem State.freeSource_crings (s : State) (src : Source) : (s.freeSource src).crings = s.crings := by
  unfold State.freeSource
  split
  · split <;> rfl
  · split <;> rfl
  · obtain ⟨-, -, hcrings, -⟩ := s.dequeueEvent_frame
    exact hcrings

/-- R158: the ring of an outstanding record write has a record being written. -/
theorem State.recordOf_writing {s : State} {id : Nat} {r : RingId} {c : CRing} {src : Source}
    (h : s.recordOf id = some (r, c, src)) : s.cring r = some c ∧ c.writing = some src := by
  unfold State.recordOf at h
  split at h
  · split at h
    · obtain ⟨d, hd, hmap⟩ := Option.bind_eq_some_iff.1 h
      obtain ⟨x, hx, heq⟩ := Option.map_eq_some_iff.1 hmap
      cases heq
      exact ⟨hd, hx⟩
    all_goals cases h
  · cases h

theorem State.recordDone_cringsOk {s : State} (h : s.CRingsOk) (id : Nat) : (s.recordDone id).CRingsOk := by
  unfold State.recordDone
  split
  next r c src hof =>
    obtain ⟨hc, hw⟩ := State.recordOf_writing hof
    have hfree : (((s.endAccess id).leaveList r src).freeSource src).CRingsOk :=
      h.of_same (State.freeSource_crings _ src)
    obtain ⟨-, -, -, -, hset⟩ := (((s.endAccess id).leaveList r src).freeSource src).moderate_outer r c.written
    exact hfree.set hset (CRing.counted_ok (CRing.written_ok (h r c hc) (by rw [hw]; rfl)))
  next => exact h

theorem State.delayRuns_cring {s : State} {r : RingId} {c : CRing} (h : s.delayRuns r = some c) :
    s.cring r = some c := by
  unfold State.delayRuns at h
  split at h
  next d hd =>
    split at h
    · exact hd.trans h
    · cases h
  next => cases h

/-! ## RELEASE, POST and fetching (R143 to R145, R160) -/

theorem State.takeRelease_cringsOk {s : State} (h : s.CRingsOk) (v : Word) : (s.takeRelease v).CRingsOk := by
  unfold State.takeRelease
  split
  · split
    next c hc =>
      dsimp only
      split
      next htaken =>
        obtain ⟨hhead, hback⟩ := htaken
        exact h.set rfl (CRing.released_ok (h _ c hc) hhead hback)
      next => exact h
    next => exact h
  · exact h

theorem State.faultRing_crings (s : State) (r : RingId) (c : RingCause) : (s.faultRing r c).crings = s.crings := by
  obtain ⟨-, hcrings, -⟩ := s.faultRing_outer r c
  exact hcrings

theorem State.takePost_crings (s : State) (v : Word) : (s.takePost v).crings = s.crings := by
  unfold State.takePost
  split
  · split
    · split
      · rfl
      · exact s.faultRing_crings _ _
    · rfl
  · rfl

theorem State.beginFetch_crings (s : State) (r : RingId) : (s.beginFetch r).crings = s.crings := by
  unfold State.beginFetch; split <;> rfl

theorem State.fetchDone_crings (s : State) (id : Nat) (w : BitVec 512) : (s.fetchDone id w).crings = s.crings := by
  unfold State.fetchDone; split <;> rfl

theorem State.fetchFaulted_crings (s : State) (id : Nat) : (s.fetchFaulted id).crings = s.crings := by
  unfold State.fetchFaulted
  split
  · exact State.faultRing_crings _ _ _
  · rfl

/-! ## Admission (R131, R132, R150, R152) -/

theorem State.takeCancel_crings (s : State) (r : RingId) (w : BitVec 512) (index : Nat) (ring : RingId)
    (id : BitVec 16) : (s.takeCancel r w index ring id).crings = s.crings := by
  unfold State.takeCancel
  exact (Inner.joinTogether _ _).crings.trans (Inner.cancelAll s (s.cancelFinds ring id)).crings

theorem State.takeHeld_crings (s : State) (r : RingId) (w : BitVec 512) (index : Nat) :
    (s.takeHeld r w index).crings = s.crings := by
  unfold State.takeHeld
  split
  · split <;> rfl
  · exact (Inner.join _ _).crings
  · exact State.takeCancel_crings (s.fencePassed r) r w index _ _

theorem State.admitPointed_crings (s : State) : s.admitPointed.crings = s.crings := by
  obtain ⟨p, c, hspend, -⟩ := s.spendCredit_spends
  unfold State.admitPointed
  split
  · rw [hspend]
    exact State.takeHeld_crings { s with arbPtr := p, arbCredit := c } _ _ _
  all_goals rfl

theorem State.arbitrate_crings (s : State) : s.arbitrate.crings = s.crings := by
  unfold State.arbitrate
  split
  · exact s.admitPointed_crings
  · split
    · rfl
    · split
      next r _ => exact (s.pointAt r).admitPointed_crings
      next => rfl

/-! ## Device control (R170 to R176) -/

theorem State.takeEnable_crings (s : State) : s.takeEnable.crings = s.crings := by
  unfold State.takeEnable State.beginLoading
  dsimp only
  split
  · split <;> rfl
  · rfl

theorem State.takeDisable_crings (s : State) : s.takeDisable.crings = s.crings := by
  unfold State.takeDisable; split <;> rfl

theorem State.takeLinkReset_crings (s : State) : s.takeLinkReset.crings = s.crings := by
  unfold State.takeLinkReset
  split
  · exact (Inner.startLinkReset (s.setResult .ok) _).crings
  · rfl

theorem State.writeCommand_cringsOk {s : State} (h : s.CRingsOk) (code : Word) : (s.writeCommand code).CRingsOk := by
  unfold State.writeCommand
  split
  · exact h.of_same s.takeEnable_crings
  · exact h.of_same s.takeDisable_crings
  · exact h.of_same s.takeLinkReset_crings
  · exact .of_reset rfl
  · exact h

theorem State.writeWord_cringsOk {s : State} (h : s.CRingsOk) (v : Word) (word : RegWord) :
    (s.writeWord v word).CRingsOk := by
  cases word with
  | configBaseLow =>
    change (s.writeBaseLow v).CRingsOk
    unfold State.writeBaseLow; split <;> exact h
  | configBaseHigh =>
    change (s.writeBaseHigh v).CRingsOk
    unfold State.writeBaseHigh; split <;> exact h
  | command => exact State.writeCommand_cringsOk h v
  | status => exact h
  | post => exact h.of_same (s.takePost_crings v)
  | release => exact State.takeRelease_cringsOk h v

theorem State.writeRegister_cringsOk {s : State} (h : s.CRingsOk) (offset bytes : Nat) (v : Word) :
    (s.writeRegister offset bytes v).CRingsOk := by
  unfold State.writeRegister
  split
  · exact h
  · split
    · exact State.writeWord_cringsOk h v _
    · exact h

/-- R155, R172: every ring takes its record from the block. -/
theorem State.enterRunning_cringsOk (s : State) (b : BitVec 2048) : (s.enterRunning b).CRingsOk := by
  have hconf : (s.configuredBy b).CRingsOk := fun r c hc => by
    rw [cring_of_configured (c := b) (by rw [State.configuredBy_eq])] at hc
    exact CRing.configured_ok hc
  rw [State.enterRunning_eq]
  exact hconf.of_same (Inner.startLinkReset (s.configuredBy b) .startUp).crings

theorem State.configRead_cringsOk {s : State} (h : s.CRingsOk) (id : Nat) (data : BitVec 512) :
    (s.configRead id data).CRingsOk := by
  unfold State.configRead
  split
  next part _ =>
    dsimp only
    split
    · unfold State.judgeConfig
      split
      · exact State.enterRunning_cringsOk _ _
      · exact h
    · exact h
  next => exact h

theorem State.configFault_crings (s : State) (id : Nat) : (s.configFault id).crings = s.crings := by
  unfold State.configFault; split <;> rfl

/-! ## The law -/

/-- A command outside the link side keeps the law. -/
theorem exec_deviceSide_cringsOk (c : Instr) (s : State) (hc : linkSide c = false) (h : s.CRingsOk) :
    ∃ t, exec c s = .next t ∧ t.CRingsOk := by
  cases c <;> cases hc
  case powerOn => exact ⟨_, rfl, .of_reset rfl⟩
  case hostLinkResetInput => exact ⟨_, rfl, .of_reset rfl⟩
  case endpointFunctionReset => exact ⟨_, rfl, .of_reset rfl⟩
  case enable => exact ⟨_, rfl, h.of_same s.takeEnable_crings⟩
  case disable => exact ⟨_, rfl, h.of_same s.takeDisable_crings⟩
  case linkReset => exact ⟨_, rfl, h.of_same s.takeLinkReset_crings⟩
  case functionReset => exact ⟨_, rfl, .of_reset rfl⟩
  case undefinedCommand code => exact ⟨_, rfl, State.writeCommand_cringsOk h code⟩
  case registerWrite offset bytes v => exact ⟨_, rfl, State.writeRegister_cringsOk h offset bytes v⟩
  case post v => exact ⟨_, rfl, h.of_same (s.takePost_crings v)⟩
  case release v => exact ⟨_, rfl, State.takeRelease_cringsOk h v⟩
  case configReadComplete id data => exact ⟨_, rfl, State.configRead_cringsOk h id data⟩
  case configReadFault id => exact ⟨_, rfl, h.of_same (s.configFault_crings id)⟩
  case drainComplete =>
    refine ⟨_, rfl, ?_⟩; split
    · exact .of_reset rfl
    · exact h
  case fetchStart r =>
    refine ⟨_, rfl, ?_⟩; split
    · exact h.of_same (s.beginFetch_crings r)
    · exact h
  case fetchComplete id w => exact ⟨_, rfl, h.of_same (s.fetchDone_crings id w)⟩
  case fetchFault id => exact ⟨_, rfl, h.of_same (s.fetchFaulted_crings id)⟩
  case admission => exact ⟨_, rfl, h.of_same s.arbitrate_crings⟩
  case latchToQueue =>
    refine ⟨_, rfl, ?_⟩; split
    · exact h.of_same s.moveLatch_crings
    · exact h
  case recordWriteBegin r => exact ⟨_, rfl, State.beginRecord_cringsOk h r⟩
  case recordWriteComplete id => exact ⟨_, rfl, State.recordDone_cringsOk h id⟩
  case recordWriteFault id =>
    refine ⟨_, rfl, ?_⟩; split <;> exact h
  case moderationDelayExpiry r =>
    refine ⟨_, rfl, ?_⟩; split
    next c hc => exact h.set rfl (h r c (State.delayRuns_cring hc) :)
    next => exact h

theorem exec_cringsOk (c : Instr) (s : State) (h : s.CRingsOk) : ∃ t, exec c s = .next t ∧ t.CRingsOk := by
  cases hc : linkSide c with
  | false => exact exec_deviceSide_cringsOk c s hc h
  | true =>
    obtain ⟨t, ht, hin⟩ := exec_linkSide c s hc
    exact ⟨t, ht, h.of_same hin.crings⟩

/-- Settles O6: a step is one command, which keeps the law, or one period, which moves the delay timers alone. -/
theorem stepKeepsCompletionRingLaw : Obligations.StepKeepsCompletionRingLaw := by
  intro s t h hs
  unfold step at hs
  split at hs
  next c rest _ =>
    obtain ⟨u, hu, hok⟩ := exec_cringsOk c { s with pending := rest } h
    cases hu.symm.trans hs
    exact hok
  next =>
    cases hs
    exact s.tick_frame.crings h

end Sys2Proof.Machine
end

section
/-! The end of a drain (O19): the rings with records to announce send their vectors, the blocks are cleared, and the device
vector follows. -/
namespace Sys2Proof.Machine

/-! ## The drain condition (R173) -/

theorem State.drained_of_empty {s : State} (hexch : ∀ x, s.exch x = none) (hhold : ∀ r, (s.subRing r).holding = .empty)
    (hqueue : s.eventQueue = []) (hstation : ∀ st, (s.station st).latch = none)
    (hring : ∀ r : RingId, s.ringLatch[r] = none) (hlink : s.linkLatch = none) (hres : s.reservation = false) :
    s.drained = true := by
  unfold State.drained
  simp only [hexch, hhold, hqueue, hstation, hring, hlink, hres]
  decide

/-! ## The vectors of a drain (R165, R173) -/

/-- R165: the ring has records to announce. -/
def State.announces (s : State) (r : RingId) : Bool :=
  match s.cring r with
  | some c => decide (0 < c.modCount)
  | none => false

theorem State.flushVector_eq (s : State) (r : RingId) :
    s.flushVector r = { s with vectors := s.vectors ++ if s.announces r then [ringVector r] else [] } := by
  unfold State.flushVector State.announces
  cases s.cring r with
  | none => simp
  | some c =>
    by_cases hc : 0 < c.modCount
    · simp [hc, State.sendVector]
    · simp [hc]

/-- The vectors are sent ring by ring; sending one changes no ring's count. -/
theorem State.foldl_flushVector (l : List RingId) (s : State) :
    l.foldl State.flushVector s = { s with vectors := s.vectors ++ (l.filter s.announces).map ringVector } := by
  induction l generalizing s with
  | nil => rw [List.filter_nil, List.map_nil, List.append_nil]; rfl
  | cons r l ih =>
    rw [List.foldl_cons, ih, State.flushVector_eq]
    have hsame : ∀ v, State.announces { s with vectors := v } = s.announces := fun _ => rfl
    dsimp only
    rw [hsame, List.append_assoc, List.filter_cons]
    split <;> rfl

theorem State.endDrain_eq (s : State) :
    s.endDrain = { State.reset with
      device := { s.device with state := .off, config := none, lck := none },
      vectors := s.vectors ++ (allRings.filter s.announces).map ringVector ++ [4],
      nextAccess := s.nextAccess, freeDraws := s.freeDraws, pending := s.pending } := by
  unfold State.endDrain
  rw [State.foldl_flushVector]
  rfl

/-- Settles O19: the drain condition holds, so the drain ends. -/
theorem drainEndsInOff : Obligations.DrainEndsInOff := by
  intro s hst hexch hhold hqueue hstation hring hlink hres
  have hdrained := State.drained_of_empty hexch hhold hqueue hstation hring hlink hres
  change Host.Outcome.next (if s.device.state = .draining ∧ s.drained = true then s.endDrain else s) = _
  rw [if_pos ⟨hst, hdrained⟩, State.endDrain_eq]
  rfl

end Sys2Proof.Machine
end

section
/-! RELEASE (O21): it is ignored, refused, or hands entries back to the ring that it names. -/
namespace Sys2Proof.Machine

theorem State.takeRelease_accepted {s : State} {v : Word} {r : RingId} {c : CRing} (hr : ringField v = r)
    (hl : s.live = true) (hc : s.cring r = some c) (hhead : indexField v < c.size)
    (hback : c.handedBack (indexField v) ≤ c.unreleased) :
    s.takeRelease v =
      { s with
        device := { s.device with releaseRefused := false },
        crings := s.crings.set r
          (some { c with head := indexField v, unreleased := c.unreleased - c.handedBack (indexField v) }) } := by
  unfold State.takeRelease
  rw [if_pos hl, hr, hc]
  dsimp only
  rw [if_pos ⟨hhead, hback⟩]
  rfl

theorem State.takeRelease_refused {s : State} {v : Word} {r : RingId} (hr : ringField v = r) (hl : s.live = true)
    (hc : ∀ c, s.cring r = some c → c.size ≤ indexField v ∨ c.unreleased < c.handedBack (indexField v)) :
    s.takeRelease v = { s with device := { s.device with releaseRefused := true } } := by
  unfold State.takeRelease
  rw [if_pos hl, hr]
  split
  next c h =>
    have hnot : ¬(indexField v < c.size ∧ c.handedBack (indexField v) ≤ c.unreleased) := by
      have := hc c h
      omega
    dsimp only
    rw [if_neg hnot]
    rfl
  next => rfl

theorem State.takeRelease_ignored {s : State} (hl : s.live = false) (v : Word) : s.takeRelease v = s := by
  unfold State.takeRelease
  rw [hl]
  rfl

/-- Settles O21: the ring field names the ring, whose size and unreleased count decide; a reset writes the flags. -/
theorem releaseHandsBackEntries : Obligations.ReleaseHandsBackEntries := by
  refine ⟨?_, fun s t c hc ht => ?_⟩
  · intro s v r hr head
    have hfield := ringField_eq hr
    have hexec : exec (.release v) s = .next (s.takeRelease v) := rfl
    rw [hexec]
    refine ⟨fun hl => ?_, fun hl hnone => ?_, fun g hl hg => ⟨fun hbad => ?_, fun hhead hback => ?_⟩⟩
    · rw [State.takeRelease_ignored hl]
    · rw [State.takeRelease_refused hfield hl (fun c h => by rw [hnone] at h; cases h)]
    · rw [State.takeRelease_refused hfield hl (fun c h => by obtain rfl := Option.some.inj (hg.symm.trans h); exact hbad)]
    · rw [State.takeRelease_accepted hfield hl hg hhead hback]
      rfl
  · rcases hc with rfl | rfl <;> cases ht <;> rfl

end Sys2Proof.Machine
end

section
/-! LATCH_TO_QUEUE (O59): which latch is the first full one, and how its event enters the queue. -/
namespace Sys2Proof.Machine

/-! ## The first full latch (R162) -/

/-- The first of an ascending list for which a search answers is the lowest for which it does. -/
theorem findSome?_lowest {n : Nat} {α : Type} {l : List (Fin n)} {i : Fin n}
    (hl : ∃ l₁ l₂, l = l₁ ++ i :: l₂ ∧ ∀ u ∈ l₁, u < i) {f : Fin n → Option α} {y : α} (hi : f i = some y)
    (hbelow : ∀ u, u < i → f u = none) : l.findSome? f = some y := by
  obtain ⟨l₁, l₂, heq, hlt⟩ := hl
  rw [List.findSome?_eq_some_iff]
  exact ⟨l₁, i, l₂, heq, hi, fun u hu => hbelow u (hlt u hu)⟩

theorem State.firstLatch_link {s : State} {cause : LinkCause} (h : s.linkLatch = some cause) :
    s.firstLatch = some (.linkReset cause, { s with linkLatch := none }) := by
  unfold State.firstLatch; rw [h]

theorem State.firstLatch_ring {s : State} {r : RingId} {cause : RingCause} (hlink : s.linkLatch = none)
    (h : s.ringLatch[r] = some cause) (hbelow : ∀ q : RingId, q < r → s.ringLatch[q] = none) :
    s.firstLatch = some (.ringFault r cause, { s with ringLatch := s.ringLatch.set r none }) := by
  have hfind : allRings.findSome? (fun q => (s.ringLatch[q]).map (fun c => (q, c))) = some (r, cause) :=
    findSome?_lowest (allRings_split r) (by rw [h]; rfl) (fun q hq => by rw [hbelow q hq]; rfl)
  unfold State.firstLatch
  rw [hlink]; dsimp only; rw [hfind]

/-- R161: the event record that a presence latch becomes. -/
def PresenceEvent.event (st : StationId) : PresenceEvent → Event
  | .ready v => .stationReady st v
  | .faulted cause => .stationFaulted st cause
  | .left => .stationLeft st

theorem State.firstLatch_station {s : State} {st : StationId} {ev : PresenceEvent} (hlink : s.linkLatch = none)
    (hring : ∀ q : RingId, s.ringLatch[q] = none) (h : (s.station st).latch = some ev)
    (hbelow : ∀ q, q < st → (s.station q).latch = none) :
    s.firstLatch = some (ev.event st, s.modStation st (fun x => { x with latch := none })) := by
  have hnone : allRings.findSome? (fun q => (s.ringLatch[q]).map (fun c => (q, c))) = none :=
    List.findSome?_eq_none_iff.2 fun q _ => by rw [hring q]; rfl
  have hfind : allStations.findSome? (fun q => ((s.station q).latch).map (fun e => (q, e))) = some (st, ev) :=
    findSome?_lowest (allStations_split st) (by rw [h]; rfl) (fun q hq => by rw [hbelow q hq]; rfl)
  unfold State.firstLatch
  rw [hlink]; dsimp only; rw [hnone]; dsimp only; rw [hfind]
  cases ev <;> rfl

/-! ## The event enters the queue (R162, R163) -/

theorem exec_latchToQueue_full {s : State} (h : 8 ≤ s.eventQueue.length + s.reservation.toNat) :
    exec .latchToQueue s = .next s := by
  have hfull : ¬ 1 ≤ s.eventRoom := by rw [s.one_le_eventRoom_iff]; omega
  change Host.Outcome.next (if s.live && decide (1 ≤ s.eventRoom) then s.moveLatch else s) = _
  rw [decide_eq_false hfull, Bool.and_false]
  rfl

/-- R163: the emptied latch aside, the command writes the queue and the waiting list of the event ring. -/
theorem exec_latchToQueue_room {s t : State} {ev : Event} (hl : s.live = true)
    (h : s.eventQueue.length + s.reservation.toNat < 8) (hfirst : s.firstLatch = some (ev, t)) :
    exec .latchToQueue s = .next { t with
      eventQueue := t.eventQueue ++ [ev],
      waiting := if t.eventQueue = [] then t.eventJoined else t.waiting } := by
  have hroom : 1 ≤ s.eventRoom := by rw [s.one_le_eventRoom_iff]; omega
  change Host.Outcome.next (if s.live && decide (1 ≤ s.eventRoom) then s.moveLatch else s) = _
  rw [hl, decide_eq_true hroom, Bool.and_true, if_pos rfl]
  unfold State.moveLatch
  rw [hfirst]
  dsimp only
  rw [State.pushEvent_eq]

/-- Settles O59: the full latches are searched in the order of R162, and emptying one leaves the queue, the lists and the
event ring. -/
theorem latchedEventEntersTheQueue : Obligations.LatchedEventEntersTheQueue := by
  intro s hl moved
  refine ⟨exec_latchToQueue_full, fun hroom => ⟨fun cause hlink => ?_, fun r cause hlink hring hbelow => ?_,
    fun st ev hlink hring hst hbelow => ?_⟩⟩
  · exact ⟨_, ⟨exec_latchToQueue_room hl hroom (State.firstLatch_link hlink), rfl, rfl⟩, rfl⟩
  · exact ⟨_, ⟨exec_latchToQueue_room hl hroom (State.firstLatch_ring hlink hring hbelow), rfl, rfl⟩, rfl⟩
  · have hexec := exec_latchToQueue_room hl hroom (State.firstLatch_station hlink hring hst hbelow)
    cases ev <;> exact ⟨_, ⟨hexec, rfl, rfl⟩, rfl⟩

end Sys2Proof.Machine
end

section
/-! The device state (O11): every command leaves it as it is or moves it along one of the transitions of R168, and sends
the messages that go with the transition. -/
namespace Sys2Proof.Machine

/-! ## The transitions (R168) -/

/-- R168: the transitions of the device state between `s` and `t`, with the messages sent at each. -/
inductive DeviceMove (s t : State) : Prop where
  | stays (state : t.device.state = s.device.state)
  | toOff (state : t.device.state = .off)
  | toLoading (before : s.device.state = .off) (state : t.device.state = .loading) (sent : t.vectors = s.vectors)
  | toRunning (before : s.device.state = .loading) (state : t.device.state = .running)
      (sent : t.vectors = s.vectors ++ [4])
  | toDraining (before : s.device.state = .running) (state : t.device.state = .draining) (sent : t.vectors = s.vectors)
  | toStopped (before : s.device.state = .running ∨ s.device.state = .draining) (state : t.device.state = .stopped)
      (sent : t.vectors = s.vectors ++ [4])

namespace DeviceMove

theorem refl (s : State) : DeviceMove s s := .stays rfl

theorem of_device {s t : State} (h : t.device = s.device) : DeviceMove s t := .stays (by rw [h])

theorem of_sameClock {s t : State} (h : SameClock s t) : DeviceMove s t := .stays h.state

/-! ## The COMMAND word (R169, R170, R173, R174, R176) -/

theorem takeEnable (s : State) : DeviceMove s s.takeEnable := by
  unfold State.takeEnable
  split
  next hoff =>
    unfold State.beginLoading
    dsimp only
    split
    · exact .toLoading hoff rfl rfl
    · exact .toOff rfl
  next => exact .stays rfl

theorem takeDisable (s : State) : DeviceMove s s.takeDisable := by
  unfold State.takeDisable
  split
  next => exact .toOff rfl
  next hrunning => exact .toDraining hrunning rfl rfl
  all_goals exact .stays rfl

theorem takeLinkReset (s : State) : DeviceMove s s.takeLinkReset := by
  unfold State.takeLinkReset
  split
  · exact .stays (by rw [(Inner.startLinkReset (s.setResult .ok) .hostCommand).device]; rfl)
  · exact .stays rfl

theorem writeCommand (s : State) (code : Word) : DeviceMove s (s.writeCommand code) := by
  unfold State.writeCommand
  split
  · exact .takeEnable s
  · exact .takeDisable s
  · exact .takeLinkReset s
  · exact .toOff rfl
  · exact .stays rfl

/-! ## The register window (R166) -/

theorem writeWord (s : State) (v : Word) (word : RegWord) : DeviceMove s (s.writeWord v word) := by
  cases word with
  | configBaseLow =>
    change DeviceMove s (s.writeBaseLow v)
    unfold State.writeBaseLow; split <;> exact .stays rfl
  | configBaseHigh =>
    change DeviceMove s (s.writeBaseHigh v)
    unfold State.writeBaseHigh; split <;> exact .stays rfl
  | command => exact .writeCommand s v
  | status => exact .refl s
  | post => exact .of_sameClock (.takePost s v)
  | release => exact .of_sameClock (.takeRelease s v)

theorem writeRegister (s : State) (offset bytes : Nat) (v : Word) : DeviceMove s (s.writeRegister offset bytes v) := by
  unfold State.writeRegister
  split
  · exact .refl s
  · split
    · exact .writeWord s v _
    · exact .refl s

end DeviceMove

/-! ## The configuration load (R170, R171, R172) -/

/-- R168, R172: the start-up link reset sends no message, and the device vector follows it. -/
theorem State.enterRunning_vectors (s : State) (c : BitVec 2048) : (s.enterRunning c).vectors = s.vectors ++ [4] := by
  rw [State.enterRunning_eq]
  change ((s.configuredBy c).startLinkReset .startUp).vectors ++ [4] = _
  rw [(Inner.startLinkReset _ _).vectors, State.configuredBy_eq]

namespace DeviceMove

/-- R170, R171: the block is judged when its last part has come. -/
theorem configRead (s : State) (id : Nat) (data : BitVec 512) : DeviceMove s (s.configRead id data) := by
  unfold State.configRead
  split
  next part hpart =>
    have hload := State.configPart_loading hpart
    dsimp only
    split
    · unfold State.judgeConfig
      split
      next block _ _ =>
        exact .toRunning hload (by rw [State.enterRunning_device]) ((s.keepPart id part data).enterRunning_vectors block)
      next => exact .toOff rfl
    · exact .stays rfl
  next => exact .refl s

theorem configFault (s : State) (id : Nat) : DeviceMove s (s.configFault id) := by
  unfold State.configFault
  split
  · exact .toOff rfl
  · exact .refl s

end DeviceMove

/-! ## Every command -/

/-- A command outside the link side moves the device as R168 lists. -/
theorem exec_deviceSide_moves (c : Instr) (s : State) (hc : linkSide c = false) :
    ∃ t, exec c s = .next t ∧ DeviceMove s t := by
  cases c <;> cases hc
  case powerOn => exact ⟨_, rfl, .toOff rfl⟩
  case hostLinkResetInput => exact ⟨_, rfl, .toOff rfl⟩
  case endpointFunctionReset => exact ⟨_, rfl, .toOff rfl⟩
  case enable => exact ⟨_, rfl, .takeEnable s⟩
  case disable => exact ⟨_, rfl, .takeDisable s⟩
  case linkReset => exact ⟨_, rfl, .takeLinkReset s⟩
  case functionReset => exact ⟨_, rfl, .toOff rfl⟩
  case undefinedCommand code => exact ⟨_, rfl, .writeCommand s code⟩
  case registerWrite offset bytes v => exact ⟨_, rfl, .writeRegister s offset bytes v⟩
  case post v => exact ⟨_, rfl, .of_sameClock (.takePost s v)⟩
  case release v => exact ⟨_, rfl, .of_sameClock (.takeRelease s v)⟩
  case configReadComplete id data => exact ⟨_, rfl, .configRead s id data⟩
  case configReadFault id => exact ⟨_, rfl, .configFault s id⟩
  case drainComplete =>
    refine ⟨_, rfl, ?_⟩; split
    · exact .toOff rfl
    · exact .refl s
  case fetchStart r =>
    refine ⟨_, rfl, ?_⟩; split
    · exact .of_device (s.beginFetch_device r)
    · exact .refl s
  case fetchComplete id w => exact ⟨_, rfl, .of_device (s.fetchDone_device id w)⟩
  case fetchFault id => exact ⟨_, rfl, .of_sameClock (.fetchFaulted s id)⟩
  case admission => exact ⟨_, rfl, .of_device s.arbitrate_device⟩
  case latchToQueue =>
    refine ⟨_, rfl, ?_⟩; split
    · exact .of_device s.moveLatch_device
    · exact .refl s
  case recordWriteBegin r => exact ⟨_, rfl, .of_device (s.beginRecord_device r)⟩
  case recordWriteComplete id => exact ⟨_, rfl, .of_device (s.recordDone_device id)⟩
  case recordWriteFault id =>
    refine ⟨_, rfl, ?_⟩; split
    next hrecord => exact .toStopped (s.live_iff.1 (State.recordOf_live hrecord)) rfl rfl
    next => exact .refl s
  case moderationDelayExpiry r => refine ⟨_, rfl, ?_⟩; split <;> exact .stays rfl

/-- Settles O11: the commands of the link side leave device control alone, and each of the others moves it as listed. -/
theorem deviceStateMovesOnlyAsListed : Obligations.DeviceStateMovesOnlyAsListed := by
  intro c s t h
  have hmove : DeviceMove s t := by
    cases hc : linkSide c with
    | false =>
      obtain ⟨u, hu, hmove⟩ := exec_deviceSide_moves c s hc
      cases hu.symm.trans h
      exact hmove
    | true =>
      obtain ⟨u, hu, hin⟩ := exec_linkSide c s hc
      cases hu.symm.trans h
      exact .of_device hin.device
  cases hmove with
  | stays state => exact .inl state
  | toOff state => exact .inr (.inl state)
  | toLoading before state sent => exact .inr (.inr (.inl ⟨before, state, sent⟩))
  | toRunning before state sent => exact .inr (.inr (.inr (.inl ⟨before, state, sent⟩)))
  | toDraining before state sent => exact .inr (.inr (.inr (.inr (.inl ⟨before, state, sent⟩))))
  | toStopped before state sent => exact .inr (.inr (.inr (.inr (.inr ⟨before, state, sent⟩))))

end Sys2Proof.Machine
end

section
/-! The commands of the COMMAND word and the resets (O12 to O15). -/
namespace Sys2Proof.Machine

/-! ## Resets (R176) -/

/-- Settles O12: both reset inputs and power-on clear the blocks and device control, a function reset keeps CONFIG_BASE. -/
theorem resetsClearThePart : Obligations.ResetsClearThePart := by
  intro s c
  constructor
  · rintro (rfl | rfl) <;> rfl
  · rintro (rfl | rfl) <;> rfl

/-! ## ENABLE in OFF (R170, R171) -/

/-- R168, R170: a load that ends abandons its reads, and the device vector is sent. -/
theorem State.endLoading_eq (s : State) (r : CommandResult) :
    s.endLoading r = { s with
      device := { s.device with load := Vector.replicate 4 none, result := r, state := .off },
      accesses := s.accesses.filter (fun a => !a.isConfigRead),
      vectors := s.vectors ++ [4] } := rfl

theorem exec_enable_off {s : State} (hoff : s.device.state = .off) : exec .enable s = .next s.beginLoading := by
  change Host.Outcome.next s.takeEnable = _
  unfold State.takeEnable; rw [if_pos hoff]

/-- R170: the four reads of a load, 64 bytes each, in the order of their parts. -/
theorem State.issueConfigReads_eq (s : State) :
    (((s.issueConfigRead 0).issueConfigRead 1).issueConfigRead 2).issueConfigRead 3 =
      { s with
        nextAccess := s.nextAccess + 4,
        accesses := s.accesses ++
          [ { id := s.nextAccess, purpose := .configRead 0, addr := s.device.configBase, len := 64, data := [] },
            { id := s.nextAccess + 1, purpose := .configRead 1, addr := s.device.configBase + 64, len := 64, data := [] },
            { id := s.nextAccess + 2, purpose := .configRead 2, addr := s.device.configBase + 128, len := 64,
              data := [] },
            { id := s.nextAccess + 3, purpose := .configRead 3, addr := s.device.configBase + 192, len := 64,
              data := [] } ] } := by
  have hfirst : s.device.configBase + BitVec.ofNat 64 (64 * (0 : Fin 4).val) = s.device.configBase := BitVec.add_zero _
  unfold State.issueConfigRead State.issue
  dsimp only
  rw [hfirst, List.append_assoc, List.append_assoc, List.append_assoc]
  rfl

/-- Settles O13: an aligned CONFIG_BASE starts the four reads, any other ends the load before one is issued. -/
theorem enableReadsTheConfigurationBlock : Obligations.EnableReadsTheConfigurationBlock := by
  intro s hoff
  rw [exec_enable_off hoff]
  unfold State.beginLoading
  refine ⟨fun haligned => ?_, fun hmisaligned => ?_⟩
  · dsimp only
    rw [if_pos haligned, State.issueConfigReads_eq]
  · dsimp only
    rw [if_neg hmisaligned, State.endLoading_eq, hoff]

/-! ## Refused commands (R169) -/

theorem exec_enable_refused {s : State} (h : s.device.state ≠ .off) : exec .enable s = .next s.refuseCommand := by
  change Host.Outcome.next s.takeEnable = _
  unfold State.takeEnable; rw [if_neg h]

theorem exec_disable_refused {s : State}
    (h : s.device.state = .off ∨ s.device.state = .draining ∨ s.device.state = .stopped) :
    exec .disable s = .next s.refuseCommand := by
  change Host.Outcome.next s.takeDisable = _
  unfold State.takeDisable
  rcases h with h | h | h <;> rw [h]

theorem State.live_eq_false_iff (s : State) : s.live = false ↔
    s.device.state = .off ∨ s.device.state = .loading ∨ s.device.state = .stopped := by
  unfold State.live
  cases s.device.state <;> decide

theorem exec_linkReset_refused {s : State} (h : s.live = false) : exec .linkReset s = .next s.refuseCommand := by
  change Host.Outcome.next s.takeLinkReset = _
  unfold State.takeLinkReset; rw [h]; rfl

theorem State.writeCommand_refused (s : State) {code : Word} (h : ¬ namesCommand code) :
    s.writeCommand code = s.refuseCommand := by
  unfold State.writeCommand
  unfold namesCommand at h
  split
  case h_5 => rfl
  all_goals omega

/-- Settles O14: each of the four leads to the refusal, which sets the result. -/
theorem refusedCommandsOnlySetTheResult : Obligations.RefusedCommandsOnlySetTheResult := by
  intro s c h
  obtain ⟨rfl, h⟩ | ⟨rfl, h⟩ | ⟨rfl, h⟩ | ⟨code, rfl, h⟩ := h
  · exact exec_enable_refused h
  · exact exec_disable_refused h
  · exact exec_linkReset_refused (s.live_eq_false_iff.2 h)
  · exact congrArg Host.Outcome.next (s.writeCommand_refused h)

/-! ## DISABLE (R173) -/

theorem exec_disable_loading {s : State} (h : s.device.state = .loading) :
    exec .disable s = .next (s.endLoading .ok) := by
  change Host.Outcome.next s.takeDisable = _
  unfold State.takeDisable; rw [h]

theorem exec_disable_running {s : State} (h : s.device.state = .running) :
    exec .disable s = .next ((s.setResult .ok).setDeviceState .draining) := by
  change Host.Outcome.next s.takeDisable = _
  unfold State.takeDisable; rw [h]

/-- Settles O15: in LOADING the load is ended, in RUNNING the drain begins. -/
theorem disableEndsALoadOrStartsADrain : Obligations.DisableEndsALoadOrStartsADrain := by
  intro s
  refine ⟨fun hloading => ?_, fun hrunning => ?_⟩
  · rw [exec_disable_loading hloading, State.endLoading_eq]
  · rw [exec_disable_running hrunning]; rfl

end Sys2Proof.Machine
end

section
/-! The register window (O16): the fields of the status word, what a read of bytes returns, and the word a write reaches. -/
namespace Sys2Proof.Machine

/-! ## The status word (R167, R181) -/

/-- R181: each code fits in its four bits. -/
theorem Device.codes_lt (d : Device) :
    deviceStateCode d.state < 16 ∧ resultCode d.result < 16 ∧ causeCode d.cause < 16 := by
  refine ⟨?_, ?_, ?_⟩
  · cases d.state <;> decide
  · cases d.result <;> decide
  · cases d.cause <;> decide

/-- R181: the flags of the status word from bit 12 on: the ring faults, then the two refusals. -/
def Device.flags (d : Device) : List Bool :=
  [d.ringFault[0], d.ringFault[1], d.ringFault[2], d.ringFault[3], d.releaseRefused, d.postIgnored]

/-- R181: the three codes take four bits each, the flags stand above them. -/
theorem Device.statusWord_toNat (d : Device) : d.statusWord.toNat =
    deviceStateCode d.state + 16 * resultCode d.result + 256 * causeCode d.cause
      + 4096 * (BitVec.ofBoolListLE d.flags).toNat := by
  obtain ⟨hstate, hresult, hcause⟩ := d.codes_lt
  have hflags := (BitVec.ofBoolListLE d.flags).isLt
  simp only [Device.flags, BitVec.ofBoolListLE, BitVec.toNat_concat, BitVec.toNat_of_zero_length,
    List.length_cons, List.length_nil] at hflags ⊢
  unfold Device.statusWord
  rw [BitVec.toNat_ofNat, Nat.mod_eq_of_lt (by omega)]
  omega

theorem Device.statusWord_codes (d : Device) :
    d.statusWord.extractLsb' 0 4 = BitVec.ofNat 4 (deviceStateCode d.state) ∧
    d.statusWord.extractLsb' 4 4 = BitVec.ofNat 4 (resultCode d.result) ∧
    d.statusWord.extractLsb' 8 4 = BitVec.ofNat 4 (causeCode d.cause) := by
  obtain ⟨hstate, hresult, hcause⟩ := d.codes_lt
  refine ⟨?_, ?_, ?_⟩ <;>
    refine BitVec.eq_of_toNat_eq ?_ <;>
    rw [BitVec.extractLsb'_toNat, Nat.shiftRight_eq_div_pow, BitVec.toNat_ofNat, Device.statusWord_toNat] <;>
    omega

/-- A bit of the status word above the codes is a flag. -/
theorem Device.statusWord_flag (d : Device) (k : Nat) : d.statusWord.getLsbD (12 + k) = d.flags.getD k false := by
  obtain ⟨hstate, hresult, hcause⟩ := d.codes_lt
  have habove : d.statusWord.toNat / 2 ^ 12 = (BitVec.ofBoolListLE d.flags).toNat := by
    rw [Device.statusWord_toNat]; omega
  rw [← BitVec.getLsbD_ofBoolListLE, ← BitVec.testBit_toNat, ← BitVec.testBit_toNat, ← habove,
    Nat.testBit_div_two_pow, Nat.add_comm]

theorem Device.statusWord_flags (d : Device) :
    (∀ r : RingId, d.statusWord.getLsbD (12 + r.val) = d.ringFault[r]) ∧
    d.statusWord.getLsbD 16 = d.releaseRefused ∧ d.statusWord.getLsbD 17 = d.postIgnored :=
  ⟨fun r => match r with
    | 0 => d.statusWord_flag 0
    | 1 => d.statusWord_flag 1
    | 2 => d.statusWord_flag 2
    | 3 => d.statusWord_flag 3,
   d.statusWord_flag 4, d.statusWord_flag 5⟩

/-- R181: the bits above the flags read as 0. -/
theorem Device.statusWord_reserved (d : Device) : d.statusWord.extractLsb' 18 14 = 0 := by
  obtain ⟨hstate, hresult, hcause⟩ := d.codes_lt
  have hflags : (BitVec.ofBoolListLE d.flags).toNat < 2 ^ 6 := (BitVec.ofBoolListLE d.flags).isLt
  refine BitVec.eq_of_toNat_eq ?_
  rw [BitVec.extractLsb'_toNat, Nat.shiftRight_eq_div_pow, Device.statusWord_toNat,
    Nat.div_eq_of_lt (by omega)]
  rfl

/-! ## Reads (R166, R181) -/

/-- Some of the bytes of a structure, with more bytes after it. -/
theorem take_drop_leBytes {w : Nat} (x : BitVec w) {m i n : Nat} (h : i + n ≤ m) (later : List Byte) :
    ((leBytes m x ++ later).drop i).take n = (List.range n).map (fun k => x.extractLsb' (8 * (i + k)) 8) := by
  have hlen : (leBytes m x).length = m := by unfold leBytes; rw [List.length_map, List.length_range]
  rw [List.drop_append_of_le_length (by omega), List.take_append_of_le_length (by rw [List.length_drop]; omega)]
  refine List.ext_getElem (by simp only [List.length_take, List.length_drop, List.length_map, List.length_range]; omega)
    fun k _ _ => ?_
  simp only [List.getElem_take, List.getElem_drop, leBytes, List.getElem_map, List.getElem_range, leByte]

/-- R181: the bytes of a word stand at its offset. -/
theorem State.windowBytes_drop (s : State) (w : RegWord) :
    ∃ later, s.windowBytes.drop w.offset = leBytes 4 (s.readRegister w) ++ later := by
  cases w <;> exact ⟨_, rfl⟩

theorem State.readWindow_word (s : State) (w : RegWord) {i n : Nat} (h : i + n ≤ 4) :
    s.readWindow (w.offset + i) n = (List.range n).map (fun k => (s.readRegister w).extractLsb' (8 * (i + k)) 8) := by
  obtain ⟨later, hlater⟩ := s.windowBytes_drop w
  unfold State.readWindow
  rw [← List.drop_drop, hlater, take_drop_leBytes _ h]

/-! ## Writes (R166, R181) -/

theorem exec_registerWrite_word {offset : Nat} {word : RegWord} (h : wordAt offset = some word) (s : State) (v : Word) :
    exec (.registerWrite offset 4 v) s = .next (s.writeWord v word) := by
  change Host.Outcome.next (s.writeRegister offset 4 v) = _
  unfold State.writeRegister
  rw [if_neg (by decide), h]

theorem exec_registerWrite_short {offset bytes : Nat} (h : bytes < 4) (s : State) (v : Word) :
    exec (.registerWrite offset bytes v) s = .next s := by
  change Host.Outcome.next (s.writeRegister offset bytes v) = _
  unfold State.writeRegister
  rw [if_pos h]

/-- R181: a word begins at a multiple of four within the 24 bytes. -/
theorem wordAt_eq_none {offset : Nat} (h : offset % 4 ≠ 0 ∨ 24 ≤ offset) : wordAt offset = none := by
  unfold wordAt
  split
  case h_7 => rfl
  all_goals omega

theorem exec_registerWrite_between {offset : Nat} (h : wordAt offset = none) (bytes : Nat) (s : State) (v : Word) :
    exec (.registerWrite offset bytes v) s = .next s := by
  change Host.Outcome.next (s.writeRegister offset bytes v) = _
  unfold State.writeRegister
  rw [h]
  exact congrArg _ (ite_self s)

/-- A full write to COMMAND is taken by its code, whether or not the code names a command (log 16). -/
theorem exec_registerWrite_command (s : State) (code : Word) :
    exec (.registerWrite 0x08 4 code) s = exec (.undefinedCommand code) s :=
  exec_registerWrite_word (word := .command) rfl s code

/-- R166: CONFIG_BASE takes a write in OFF alone. -/
theorem exec_registerWrite_base (s : State) (v : Word) :
    exec (.registerWrite 0x00 4 v) s = .next (if s.device.state = .off then
      { s with device := { s.device with configBase := s.device.configBase.extractLsb' 32 32 ++ v } } else s) ∧
    exec (.registerWrite 0x04 4 v) s = .next (if s.device.state = .off then
      { s with device := { s.device with configBase := v ++ s.device.configBase.extractLsb' 0 32 } } else s) :=
  ⟨exec_registerWrite_word (word := .configBaseLow) rfl s v, exec_registerWrite_word (word := .configBaseHigh) rfl s v⟩

/-- Settles O16: a write reaches the word at its offset, and a read returns the bytes of the words. -/
theorem registerWritesReachTheirWords : Obligations.RegisterWritesReachTheirWords := by
  intro s v
  obtain ⟨hlow, hhigh⟩ := exec_registerWrite_base s v
  obtain ⟨hstate, hresult, hcause⟩ := s.device.statusWord_codes
  obtain ⟨hrings, hrel, hpost⟩ := s.device.statusWord_flags
  refine ⟨fun k n hn => exec_registerWrite_short hn s v,
    fun k n hk => exec_registerWrite_between (wordAt_eq_none hk) n s v,
    exec_registerWrite_word (word := .status) rfl s v, fun hon => ⟨?_, ?_⟩, fun hoff => ?_, fun hoff => ?_,
    exec_registerWrite_word (word := .post) rfl s v, exec_registerWrite_word (word := .release) rfl s v,
    exec_registerWrite_command s 1, exec_registerWrite_command s 2, exec_registerWrite_command s 3,
    exec_registerWrite_command s 4, fun _ => exec_registerWrite_command s v, rfl, rfl, rfl, rfl, rfl,
    ⟨hstate.trans ?_, hresult.trans ?_, hcause.trans ?_, hrings, hrel, hpost, s.device.statusWord_reserved⟩,
    fun w i n h => s.readWindow_word w h⟩
  · rw [hlow, if_neg hon]
  · rw [hhigh, if_neg hon]
  · rw [hlow, if_pos hoff]
  · rw [hhigh, if_pos hoff]
  · cases s.device.state <;> rfl
  · cases s.device.result <;> rfl
  · cases s.device.cause <;> rfl

end Sys2Proof.Machine
end

section
/-! The configuration load (O17): its reads are collected, the four parts are the block, and the bounds of R171 judge it. -/
namespace Sys2Proof.Machine

/-! ## The block and its four parts (R170, R181) -/

/-- The four parts of a block, put together. -/
theorem append_configParts (c : BitVec 2048) :
    (c.extractLsb' 1536 512 ++ c.extractLsb' 1024 512 ++ c.extractLsb' 512 512 ++ c.extractLsb' 0 512
      : BitVec (512 + 512 + 512 + 512)).setWidth 2048 = c := by
  rw [BitVec.extractLsb'_append_extractLsb'_eq_extractLsb' (by rfl),
    BitVec.extractLsb'_append_extractLsb'_eq_extractLsb' (by rfl),
    BitVec.extractLsb'_append_extractLsb'_eq_extractLsb' (by rfl)]
  exact (BitVec.setWidth_eq _).trans BitVec.extractLsb'_eq_self

/-- The parts of a block that is put together from four. -/
theorem extractLsb'_configParts (p0 p1 p2 p3 : BitVec 512) :
    let c : BitVec 2048 := (p3 ++ p2 ++ p1 ++ p0 : BitVec (512 + 512 + 512 + 512)).setWidth 2048
    c.extractLsb' 0 512 = p0 ∧ c.extractLsb' 512 512 = p1 ∧ c.extractLsb' 1024 512 = p2 ∧ c.extractLsb' 1536 512 = p3 := by
  intro c
  have hc : c = p3 ++ p2 ++ p1 ++ p0 := BitVec.setWidth_eq _
  rw [hc]
  refine ⟨BitVec.extractLsb'_append_eq_right, ?_, ?_, ?_⟩
  · exact (extractLsb'_above _ p0 0 512).trans BitVec.extractLsb'_append_eq_right
  · exact (extractLsb'_above _ p0 512 512).trans
      ((extractLsb'_above _ p1 0 512).trans BitVec.extractLsb'_append_eq_right)
  · exact (extractLsb'_above _ p0 1024 512).trans
      ((extractLsb'_above _ p1 512 512).trans BitVec.extractLsb'_append_eq_left)

theorem Device.loadedBlock_eq_some_iff (d : Device) (c : BitVec 2048) : d.loadedBlock = some c ↔
    ∀ part : Fin 4, d.load[part] = some (c.extractLsb' (512 * part.val) 512) := by
  constructor
  · intro h
    unfold Device.loadedBlock at h
    split at h
    next p0 p1 p2 p3 h0 h1 h2 h3 =>
      obtain ⟨e0, e1, e2, e3⟩ := extractLsb'_configParts p0 p1 p2 p3
      cases h
      exact fun part => match part with
        | 0 => h0.trans (congrArg some e0.symm)
        | 1 => h1.trans (congrArg some e1.symm)
        | 2 => h2.trans (congrArg some e2.symm)
        | 3 => h3.trans (congrArg some e3.symm)
    next => cases h
  · intro h
    have h0 : d.load[0] = some (c.extractLsb' 0 512) := h 0
    have h1 : d.load[1] = some (c.extractLsb' 512 512) := h 1
    have h2 : d.load[2] = some (c.extractLsb' 1024 512) := h 2
    have h3 : d.load[3] = some (c.extractLsb' 1536 512) := h 3
    unfold Device.loadedBlock
    rw [h0, h1, h2, h3]
    exact congrArg some (append_configParts c)

/-! ## The reports of the reads (R170, R171) -/

section
variable {s : State} {a : Access} {part : Fin 4}

theorem State.configPart_eq (hload : s.device.state = .loading) (ha : s.access a.id = some a)
    (hp : a.purpose = .configRead part) : s.configPart a.id = some part := by
  unfold State.configPart
  rw [if_pos hload, ha]; dsimp only; rw [hp]

theorem State.configRead_collects (hpart : s.configPart a.id = some part) {data : BitVec 512}
    (h : (s.keepPart a.id part data).device.loadedBlock = none) :
    s.configRead a.id data = s.keepPart a.id part data := by
  unfold State.configRead
  rw [hpart]; dsimp only; rw [h]

theorem State.configRead_invalid (hpart : s.configPart a.id = some part) {data : BitVec 512} {c : BitVec 2048}
    (h : (s.keepPart a.id part data).device.loadedBlock = some c) (hvalid : Cfg.valid c = false) :
    s.configRead a.id data = (s.keepPart a.id part data).endLoading .configInvalid := by
  unfold State.configRead
  rw [hpart]; dsimp only; rw [h]; dsimp only
  unfold State.judgeConfig
  rw [hvalid]; rfl

theorem State.configFault_ends (hpart : s.configPart a.id = some part) :
    s.configFault a.id = s.endLoading .configFetchFault := by
  unfold State.configFault; rw [hpart]

end

/-! ## The bounds of the block (R171) -/

theorem allRings_all_iff (p : RingId → Bool) :
    allRings.all p = true ↔ ∀ (n : Nat) (h : n < 4), p ⟨n, h⟩ = true := by
  rw [List.all_eq_true, ← Fin.forall_iff (p := fun r => p r = true)]
  exact ⟨fun h r => h r (allRings_mem r), fun h r _ => h r⟩

theorem allRings_any_iff (p : RingId → Bool) :
    allRings.any p = true ↔ ∃ (n : Nat) (h : n < 4), p ⟨n, h⟩ = true := by
  rw [List.any_eq_true, ← Fin.exists_iff (p := fun r => p r = true)]
  exact ⟨fun ⟨r, _, h⟩ => ⟨r, h⟩, fun ⟨r, h⟩ => ⟨r, allRings_mem r, h⟩⟩

theorem allRings_find (r : RingId) : allRings.find? (fun u => u.val == r.val) = some r := by revert r; decide

/-- R171, R181: the number of a used completion ring. -/
theorem Cfg.usedCring_iff (c : BitVec 2048) (n : Nat) :
    Cfg.usedCring c n = true ↔ n < 4 ∧ cfgField c (64 + 16 * n + 8) 1 ≠ 0 := by
  by_cases h : n < 4
  · have hfind := allRings_find ⟨n, h⟩
    unfold Cfg.usedCring
    dsimp only at hfind
    rw [hfind]
    exact bne_iff_ne.trans (by rw [and_iff_right h]; rfl)
  · exact ⟨fun hused => absurd (Cfg.used_lt hused) h, fun ⟨hn, _⟩ => absurd hn h⟩

/-- R171: the checks on a submission ring. -/
theorem Cfg.subOk_iff (c : BitVec 2048) (r : RingId) : Cfg.subOk c r = true ↔
    cfgField c (16 * r.val + 8) 1 = 0 ∨
      ((4 ≤ cfgField c (16 * r.val + 8) 1 ∧ cfgField c (16 * r.val + 8) 1 ≤ 10) ∧
        cfgField c (16 * r.val) 8 % 64 = 0 ∧
        (1 ≤ cfgField c (16 * r.val + 9) 1 ∧ cfgField c (16 * r.val + 9) 1 ≤ 8) ∧
        cfgField c (16 * r.val + 10) 1 < 4 ∧
        cfgField c (64 + 16 * cfgField c (16 * r.val + 10) 1 + 8) 1 ≠ 0) := by
  unfold Cfg.subOk
  simp only [Bool.or_eq_true, Bool.and_eq_true, beq_iff_eq, decide_eq_true_eq, Cfg.usedCring_iff, and_assoc]
  exact Iff.rfl

/-- R171: the checks on a completion ring. -/
theorem Cfg.compOk_iff (c : BitVec 2048) (r : RingId) : Cfg.compOk c r = true ↔
    cfgField c (64 + 16 * r.val + 8) 1 = 0 ∨
      ((4 ≤ cfgField c (64 + 16 * r.val + 8) 1 ∧ cfgField c (64 + 16 * r.val + 8) 1 ≤ 12) ∧
        cfgField c (64 + 16 * r.val) 8 % 16 = 0 ∧
        (1 ≤ cfgField c (64 + 16 * r.val + 9) 1 ∧ cfgField c (64 + 16 * r.val + 9) 1 ≤ 64) ∧
        cfgField c (64 + 16 * r.val + 10) 2 ≤ 1023) := by
  unfold Cfg.compOk
  simp only [Bool.or_eq_true, Bool.and_eq_true, beq_iff_eq, decide_eq_true_eq, and_assoc]
  exact Iff.rfl

/-- R171: the checks on the single fields. -/
theorem Cfg.fieldsOk_iff (c : BitVec 2048) : Cfg.fieldsOk c = true ↔
    (cfgField c 128 1 < 4 ∧ cfgField c (64 + 16 * cfgField c 128 1 + 8) 1 ≠ 0) ∧ cfgField c 129 1 ≤ 3 ∧
      (cfgField c 130 1 = 1 ∨ cfgField c 130 1 = 2 ∨ cfgField c 130 1 = 4) ∧
      (16 ≤ cfgField c 131 1 ∧ cfgField c 131 1 ≤ 255) ∧ (256 ≤ cfgField c 132 4 ∧ cfgField c 132 4 ≤ 16777215) ∧
      (256 ≤ cfgField c 136 4 ∧ cfgField c 136 4 ≤ 16777215) ∧ (1 ≤ cfgField c 140 2 ∧ cfgField c 140 2 ≤ 65535) ∧
      cfgField c 142 1 ≤ 3 ∧ cfgField c 144 2 ≤ 65535 := by
  unfold Cfg.fieldsOk
  simp only [Bool.or_eq_true, Bool.and_eq_true, beq_iff_eq, decide_eq_true_eq, Cfg.usedCring_iff, and_assoc, or_assoc]
  exact Iff.rfl

theorem Cfg.valid_iff (c : BitVec 2048) : Cfg.valid c = true ↔
    (∀ (n : Nat) (h : n < 4), Cfg.subOk c ⟨n, h⟩ = true) ∧ (∀ (n : Nat) (h : n < 4), Cfg.compOk c ⟨n, h⟩ = true) ∧
      (∃ n, n < 4 ∧ cfgField c (16 * n + 8) 1 ≠ 0) ∧ Cfg.fieldsOk c = true := by
  unfold Cfg.valid
  rw [Bool.and_eq_true, Bool.and_eq_true, Bool.and_eq_true, allRings_all_iff, allRings_all_iff, allRings_any_iff,
    and_assoc, and_assoc]
  simp only [Cfg.subExp, bne_iff_ne, exists_prop]

/-- Settles O17: the reports are taken by what the load has collected, and validity is read field by field. -/
theorem configurationReadsAreCollectedAndJudged : Obligations.ConfigurationReadsAreCollectedAndJudged := by
  refine ⟨fun s a part data hload ha hp => ?_, Device.loadedBlock_eq_some_iff, fun c => ?_⟩
  · have hpart := State.configPart_eq hload ha hp
    refine ⟨fun hmissing => ?_, fun c hblock hinvalid => ?_, ?_⟩
    · exact congrArg Host.Outcome.next (State.configRead_collects hpart hmissing)
    · exact congrArg Host.Outcome.next (State.configRead_invalid hpart hblock hinvalid)
    · exact congrArg Host.Outcome.next (State.configFault_ends hpart)
  · refine ⟨fun r => ⟨rfl, rfl, rfl, rfl, rfl, rfl, rfl, rfl⟩, rfl, rfl, rfl, rfl, rfl, rfl, rfl, rfl, rfl, ?_⟩
    rw [Cfg.valid_iff, Cfg.fieldsOk_iff]
    simp only [Cfg.subOk_iff, Cfg.compOk_iff]
    exact Iff.rfl

end Sys2Proof.Machine
end

section
/-! The step (O1, O3): the front of the queue is what runs, and no command stops the machine. -/
namespace Sys2Proof.Machine

/-- Settles O1: the front of the queue selects the branch of a step that runs a command. -/
theorem stepRunsFrontCommand : Obligations.StepRunsFrontCommand := by
  intro c rest s hfront
  unfold step
  rw [hfront]

/-- Settles O3: `exec_keepsRings` goes through the commands of both sides, and each answers a next state. -/
theorem everyCommandGivesANextState : Obligations.EveryCommandGivesANextState := by
  intro c s
  obtain ⟨t, hnext, _⟩ := exec_keepsRings c s
  exact ⟨t, hnext⟩

end Sys2Proof.Machine
end
